-- ==== Sys2Proof/Word.lean ====
section
/-! DEFINITION. The word types of obelix CORE (spec 00_scope.md R6, R11): an 8-bit byte (`DATA_WIDTH`), a 16-bit
address (`ADDR_WIDTH`) and a 4-bit component or channel id (`ID_WIDTH`). Bit 0 is the least significant. -/

namespace Sys2Proof

/-- `DATA_WIDTH` = 8: a register, `data_byte`, `addr_byte` (R6). -/
abbrev Byte := BitVec 8

/-- `ADDR_WIDTH` = 16: an address register, a memory address (R6). -/
abbrev Word := BitVec 16

/-- `ID_WIDTH` = 4: a component id, or a channel id in its own id space (R6, R41, R121). -/
abbrev Id := BitVec 4

/-- A micro-step packed into 24 bits, `0xFFDSKK` (R129). -/
abbrev Microword := BitVec 24

end Sys2Proof
end

