-- ==== Sys2Proof/Machine/Layout.lean ====
section
/-! DEFINITION. The reference encodings of spec/30_encoding.md: op-flag masks (R124), step kinds (R128), mode and
condition-operator codes (R131), processor-flag bits (R126), and the bit-field helpers of R11. -/

namespace Sys2Proof.Machine

/-! ### Bit fields (R11) -/

/-- `word(h, l) = h * 256 + l` (R11). -/
def joinWord (h l : Byte) : Word := h ++ l

/-- `value[7:0]` of a 16-bit value. -/
def lowByte (w : Word) : Byte := w.extractLsb' 0 8

/-- `value[15:8]` of a 16-bit value. -/
def highByte (w : Word) : Byte := w.extractLsb' 8 8

/-- The half of a 16-bit value that MSB selects (R203, R297). -/
def halfByte (msb : Bool) (w : Word) : Byte := if msb then highByte w else lowByte w

/-- A 16-bit value with the half that MSB selects replaced, the other half unchanged (R204, R296). -/
def setHalf (msb : Bool) (w : Word) (b : Byte) : Word :=
  if msb then joinWord b (lowByte w) else joinWord (highByte w) b

/-- `zext_16` of a byte (R133). -/
def zextWord (b : Byte) : Word := joinWord 0x00#8 b

/-! ### Op-flags (R124) -/

/-- INC: post-increment of an address-transfer source. -/
def flagInc : Byte := 0x01#8
/-- DEC: post-decrement of an address-transfer source. -/
def flagDec : Byte := 0x02#8
/-- MSB / IO_OUT: half-select of a data transfer, direction of an I/O transfer. -/
def flagMsb : Byte := 0x08#8
/-- FLAGS ("apply-flags"): the ALU writes Z, C, V. -/
def flagFlags : Byte := 0x10#8
/-- HALT: assert `halt`. -/
def flagHalt : Byte := 0x80#8

/-- `flag(F)`: `(op_flags & F) != 0` (R12). -/
def hasFlag (opFlags mask : Byte) : Bool := (opFlags &&& mask) != 0x00#8

/-- The ALU operation field `op_flags[3:0]` (R125). -/
def aluCode (opFlags : Byte) : BitVec 4 := opFlags.extractLsb' 0 4

/-! ### Step kinds (R128) -/

/-- XDATA, a data transfer. -/
def kindXdata : Byte := 0x01#8
/-- XADDR, an address transfer. -/
def kindXaddr : Byte := 0x02#8
/-- IO, an I/O transfer. -/
def kindIo : Byte := 0x04#8
/-- OTHER, no transfer. -/
def kindOther : Byte := 0x08#8

/-- The kinds of R128; any other value is an unrecognised action. -/
def knownKind (k : Byte) : Bool := k == kindXdata || k == kindXaddr || k == kindIo || k == kindOther

/-! ### Processor-flag bits (R126) -/

/-- `flags_byte()`: Z = 0x01, C = 0x02, V = 0x04, bits 3..7 always 0 (R126). -/
def flagsByte (z c v : Bool) : Byte :=
  (if z then 0x01#8 else 0x00#8) ||| (if c then 0x02#8 else 0x00#8) ||| (if v then 0x04#8 else 0x00#8)

/-! ### Reference ids (R45) -/

/-- Register A. -/
def idA : Id := 0x0#4
/-- Register B. -/
def idB : Id := 0x1#4
/-- Register C (not the Carry flag). -/
def idC : Id := 0x2#4
/-- Register D. -/
def idD : Id := 0x3#4
/-- The ALU's left-hand register. -/
def idLhs : Id := 0x4#4
/-- The ALU. -/
def idAlu : Id := 0x5#4
/-- The controller, `CTRL_ID`. -/
def idCtrl : Id := 0x7#4
/-- The program counter, `PC_ID`. -/
def idPc : Id := 0x8#4
/-- The stack pointer. -/
def idSp : Id := 0x9#4
/-- The source index. -/
def idSi : Id := 0xA#4
/-- The destination index. -/
def idDi : Id := 0xB#4
/-- The scratch address register. -/
def idTx : Id := 0xC#4
/-- The memory bank's data port, `MEM_ID`. -/
def idMem : Id := 0xE#4
/-- The memory bank's address port (MAR), `MEMADDR_ID`. -/
def idMemAddr : Id := 0xF#4

/-- Reference output channel. -/
def channelOut : Id := 0x0#4
/-- Reference input channel. -/
def channelIn : Id := 0x1#4

end Sys2Proof.Machine
end

