-- ==== Sys2Proof/Syntax.lean ====
section
/-! DEFINITION. The instructions of obelix CORE: one constructor per row of spec/opcode_table.json. The 20 rows of the
micro-operations (30_encoding.md R127, 41_transfers.md, 42_alu.md) come first, then the 50 reference instructions
(44_reference_isa.md). -/

namespace Sys2Proof

/-- A micro-step: the tuple `(kind, source id, target id, op-flags)` (R127). -/
structure MicroStep where
  kind : Byte
  src : Id
  dst : Id
  opFlags : Byte
deriving DecidableEq, Repr

/-- An instruction. In the micro-operations `flags` holds the op-flags below HALT, bits 6..0 (the HALT bit makes the row
`halt`); in the ALU rows it holds op-flags bits 6..4, since bits 3..0 are the operation code (R125). -/
inductive Instr where
  /-- XDATA `src -> dst`: data transfer (R200). -/
  | xdata (src dst : Id) (flags : BitVec 7)
  /-- XADDR `src -> dst`: address transfer (R206). -/
  | xaddr (src dst : Id) (flags : BitVec 7)
  /-- IO-out `reg -> channel` (R220). -/
  | ioOut (reg channel : Id) (flags : BitVec 7)
  /-- IO-in `channel -> reg` (R221). -/
  | ioIn (reg channel : Id) (flags : BitVec 7)
  /-- OTHER: no transfer (R231). -/
  | other (src dst : Id) (flags : BitVec 7)
  /-- HALT op-flag on a step of any kind (R230). -/
  | halt (kind : Byte) (src dst : Id) (flags : BitVec 7)
  /-- ALU ADD: XDATA `src` -> ALU with operation code 0x0 (R255). -/
  | aluAdd (src : Id) (flags : BitVec 3)
  /-- ALU ADC: XDATA `src` -> ALU with operation code 0x1 (R256). -/
  | aluAdc (src : Id) (flags : BitVec 3)
  /-- ALU SUB: XDATA `src` -> ALU with operation code 0x2 (R257). -/
  | aluSub (src : Id) (flags : BitVec 3)
  /-- ALU SBB: XDATA `src` -> ALU with operation code 0x3 (R258). -/
  | aluSbb (src : Id) (flags : BitVec 3)
  /-- ALU AND: XDATA `src` -> ALU with operation code 0x4 (R259). -/
  | aluAnd (src : Id) (flags : BitVec 3)
  /-- ALU OR: XDATA `src` -> ALU with operation code 0x5 (R260). -/
  | aluOr (src : Id) (flags : BitVec 3)
  /-- ALU XOR: XDATA `src` -> ALU with operation code 0x6 (R261). -/
  | aluXor (src : Id) (flags : BitVec 3)
  /-- ALU CMP: XDATA `src` -> ALU with operation code 0x7 (R262). -/
  | aluCmp (src : Id) (flags : BitVec 3)
  /-- ALU INC: XDATA `src` -> ALU with operation code 0x8 (R263). -/
  | aluInc (src : Id) (flags : BitVec 3)
  /-- ALU DEC: XDATA `src` -> ALU with operation code 0x9 (R264). -/
  | aluDec (src : Id) (flags : BitVec 3)
  /-- ALU NOT: XDATA `src` -> ALU with operation code 0xA (R265). -/
  | aluNot (src : Id) (flags : BitVec 3)
  /-- ALU SHL: XDATA `src` -> ALU with operation code 0xB (R266). -/
  | aluShl (src : Id) (flags : BitVec 3)
  /-- ALU SHR: XDATA `src` -> ALU with operation code 0xC (R267). -/
  | aluShr (src : Id) (flags : BitVec 3)
  /-- ALU CLR: XDATA `src` -> ALU with operation code 0xD (R268). -/
  | aluClr (src : Id) (flags : BitVec 3)
  /-- `NOP`, opcode 0x00 (R332). -/
  | nop
  /-- `HLT`, opcode 0x01 (R333). -/
  | hlt
  /-- `MOV A,#imm8`, opcode 0x10 (R334). -/
  | movAImm (imm : Byte)
  /-- `MOV B,#imm8`, opcode 0x11 (R335). -/
  | movBImm (imm : Byte)
  /-- `MOV C,#imm8`, opcode 0x12 (R336). -/
  | movCImm (imm : Byte)
  /-- `MOV D,#imm8`, opcode 0x13 (R337). -/
  | movDImm (imm : Byte)
  /-- `MOV A,B`, opcode 0x14 (R338). -/
  | movAB
  /-- `MOV A,C`, opcode 0x15 (R339). -/
  | movAC
  /-- `MOV A,D`, opcode 0x16 (R340). -/
  | movAD
  /-- `MOV B,A`, opcode 0x17 (R341). -/
  | movBA
  /-- `MOV C,A`, opcode 0x18 (R342). -/
  | movCA
  /-- `MOV D,A`, opcode 0x19 (R343). -/
  | movDA
  /-- `MOV A,[a16]`, opcode 0x20 (R344). -/
  | movAMem (addr : Word)
  /-- `MOV [a16],A`, opcode 0x21 (R345). -/
  | movMemA (addr : Word)
  /-- `MOV B,[a16]`, opcode 0x22 (R346). -/
  | movBMem (addr : Word)
  /-- `MOV [a16],B`, opcode 0x23 (R347). -/
  | movMemB (addr : Word)
  /-- `MOV SP,#imm16`, opcode 0x24 (R348). -/
  | movSpImm (imm : Word)
  /-- `MOV SI,#imm16`, opcode 0x25 (R349). -/
  | movSiImm (imm : Word)
  /-- `MOV DI,#imm16`, opcode 0x26 (R350). -/
  | movDiImm (imm : Word)
  /-- `MOV A,[SI+]`, opcode 0x27 (R351). -/
  | movASiInc
  /-- `MOV [DI+],A`, opcode 0x28 (R352). -/
  | movDiIncA
  /-- `MOV SI,[a16]`, opcode 0x29 (R353). -/
  | movSiMem (addr : Word)
  /-- `PUSH A`, opcode 0x30 (R354). -/
  | pushA
  /-- `POP A`, opcode 0x31 (R355). -/
  | popA
  /-- `ADD A,B`, opcode 0x40 (R356). -/
  | addAB
  /-- `ADC A,B`, opcode 0x41 (R357). -/
  | adcAB
  /-- `SUB A,B`, opcode 0x42 (R358). -/
  | subAB
  /-- `SBB A,B`, opcode 0x43 (R359). -/
  | sbbAB
  /-- `AND A,B`, opcode 0x44 (R360). -/
  | andAB
  /-- `OR A,B`, opcode 0x45 (R361). -/
  | orAB
  /-- `XOR A,B`, opcode 0x46 (R362). -/
  | xorAB
  /-- `CMP A,B`, opcode 0x47 (R363). -/
  | cmpAB
  /-- `INC A`, opcode 0x48 (R364). -/
  | incA
  /-- `DEC A`, opcode 0x49 (R365). -/
  | decA
  /-- `NOT A`, opcode 0x4A (R366). -/
  | notA
  /-- `SHL A`, opcode 0x4B (R367). -/
  | shlA
  /-- `SHR A`, opcode 0x4C (R368). -/
  | shrA
  /-- `CLR A`, opcode 0x4D (R369). -/
  | clrA
  /-- `ADD A,#imm8`, opcode 0x4E (R370). -/
  | addAImm (imm : Byte)
  /-- `CMP A,#imm8`, opcode 0x4F (R371). -/
  | cmpAImm (imm : Byte)
  /-- `JMP a16`, opcode 0x50 (R372). -/
  | jmp (target : Word)
  /-- `JZ a16`, opcode 0x51 (R373). -/
  | jz (target : Word)
  /-- `JNZ a16`, opcode 0x52 (R374). -/
  | jnz (target : Word)
  /-- `JC a16`, opcode 0x53 (R375). -/
  | jc (target : Word)
  /-- `JNC a16`, opcode 0x54 (R376). -/
  | jnc (target : Word)
  /-- `JV a16`, opcode 0x55 (R377). -/
  | jv (target : Word)
  /-- `CALL a16`, opcode 0x56 (R378). -/
  | call (target : Word)
  /-- `RET`, opcode 0x57 (R379). -/
  | ret
  /-- `OUT A`, opcode 0x60 (R380). -/
  | outA
  /-- `IN A`, opcode 0x61 (R381). -/
  | inA
deriving DecidableEq, Repr

end Sys2Proof
end

