-- ==== Sys2Proof/WellFormed.lean ====
section
/-! DEFINITION. Which terms of `Instr` are instructions of their row of spec/opcode_table.json. Every operand of a
reference instruction is well formed at every value (30_encoding.md R132, R133). A micro-operation is well formed when its
microword belongs to its row and to no more specific row. -/

namespace Sys2Proof

/-- An XDATA microword into id 0x5 with operation code 0x0..0xD belongs to an ALU row (R125, R255 to R268). -/
def isAluRowWord (dst : Id) (flags : BitVec 7) : Bool :=
  dst == 0x5#4 && decide ((flags.extractLsb' 0 4).toNat < 14)

/-- The direction bit IO_OUT (bit 3, R124) among the op-flags below HALT. -/
def ioOutBit (flags : BitVec 7) : Bool := flags.getLsbD 3

/-- Well-formed instructions, row by row. -/
def Instr.wellFormed : Instr → Bool
  | .xdata _ dst flags => !isAluRowWord dst flags
  | .xaddr _ _ _ => true
  | .ioOut _ _ flags => ioOutBit flags
  | .ioIn _ _ flags => !ioOutBit flags
  | .other _ _ _ => true
  | .halt _ _ _ _ => true
  | .aluAdd _ _ => true
  | .aluAdc _ _ => true
  | .aluSub _ _ => true
  | .aluSbb _ _ => true
  | .aluAnd _ _ => true
  | .aluOr _ _ => true
  | .aluXor _ _ => true
  | .aluCmp _ _ => true
  | .aluInc _ _ => true
  | .aluDec _ _ => true
  | .aluNot _ _ => true
  | .aluShl _ _ => true
  | .aluShr _ _ => true
  | .aluClr _ _ => true
  | .nop => true
  | .hlt => true
  | .movAImm _ => true
  | .movBImm _ => true
  | .movCImm _ => true
  | .movDImm _ => true
  | .movAB => true
  | .movAC => true
  | .movAD => true
  | .movBA => true
  | .movCA => true
  | .movDA => true
  | .movAMem _ => true
  | .movMemA _ => true
  | .movBMem _ => true
  | .movMemB _ => true
  | .movSpImm _ => true
  | .movSiImm _ => true
  | .movDiImm _ => true
  | .movASiInc => true
  | .movDiIncA => true
  | .movSiMem _ => true
  | .pushA => true
  | .popA => true
  | .addAB => true
  | .adcAB => true
  | .subAB => true
  | .sbbAB => true
  | .andAB => true
  | .orAB => true
  | .xorAB => true
  | .cmpAB => true
  | .incA => true
  | .decA => true
  | .notA => true
  | .shlA => true
  | .shrA => true
  | .clrA => true
  | .addAImm _ => true
  | .cmpAImm _ => true
  | .jmp _ => true
  | .jz _ => true
  | .jnz _ => true
  | .jc _ => true
  | .jnc _ => true
  | .jv _ => true
  | .call _ => true
  | .ret => true
  | .outA => true
  | .inA => true

end Sys2Proof
end

