-- ==== Sys2Proof/Decode.lean ====
section
/-! DEFINITION. Decoding and encoding (spec/30_encoding.md). A code is either a microword of the control store (R129) or the
bytes of a reference instruction in memory (R132). Decoding is total and rejects by name; the encoder is written from the
same tables. -/

namespace Sys2Proof

open Sys2Proof.Machine

/-- Where an instruction's bits stand: a microword in the control store, or bytes in memory. -/
inductive Code where
  /-- A 24-bit microword `0xFFDSKK` (R129). -/
  | control (w : Microword)
  /-- An opcode byte and its operand bytes, lowest address first (R132). -/
  | program (bytes : List Byte)
deriving DecidableEq, Repr

/-- Why a code is no instruction. -/
inductive DecodeError where
  /-- No byte to decode. -/
  | noBytes
  /-- The opcode has no record in the reference table (R135, R382). -/
  | noMicroCode (opcode : Byte)
  /-- Fewer operand bytes than the record's mode fetches (R132). -/
  | missingOperand (opcode : Byte)
  /-- More bytes than the instruction has. -/
  | trailingBytes
  /-- The step kind is none of R128. -/
  | unknownKind (kind : Byte)
deriving DecidableEq, Repr

/-! ### Microwords -/

/-- The packed form of a micro-step, `0xFFDSKK` (R129). -/
def MicroStep.pack (m : MicroStep) : Microword := m.opFlags ++ m.dst ++ m.src ++ m.kind

/-- The micro-step that a microword packs (R129). -/
def MicroStep.unpack (w : Microword) : MicroStep :=
  { kind := w.extractLsb' 0 8, src := w.extractLsb' 8 4, dst := w.extractLsb' 12 4, opFlags := w.extractLsb' 16 8 }

/-- An XDATA micro-step into id 0x5: the ALU row of its operation code, the plain XDATA row for codes 0xE and 0xF, which
name no operation (R125). -/
def decodeAluStep (src : Id) (flags : BitVec 7) : Instr :=
  let high := flags.extractLsb' 4 3
  match (flags.extractLsb' 0 4).toNat with
  | 0 => .aluAdd src high
  | 1 => .aluAdc src high
  | 2 => .aluSub src high
  | 3 => .aluSbb src high
  | 4 => .aluAnd src high
  | 5 => .aluOr src high
  | 6 => .aluXor src high
  | 7 => .aluCmp src high
  | 8 => .aluInc src high
  | 9 => .aluDec src high
  | 10 => .aluNot src high
  | 11 => .aluShl src high
  | 12 => .aluShr src high
  | 13 => .aluClr src high
  | _ => .xdata src 0x5#4 flags

/-- The row of a micro-step: HALT on a step of any kind first (R230), then the step kinds of R128. -/
def decodeStep (m : MicroStep) : Except DecodeError Instr :=
  let flags := m.opFlags.extractLsb' 0 7
  if m.opFlags.getLsbD 7 then .ok (.halt m.kind m.src m.dst flags)
  else if m.kind == kindXdata then
    .ok (if m.dst == 0x5#4 then decodeAluStep m.src flags else .xdata m.src m.dst flags)
  else if m.kind == kindXaddr then .ok (.xaddr m.src m.dst flags)
  else if m.kind == kindIo then
    .ok (if ioOutBit flags then .ioOut m.src m.dst flags else .ioIn m.src m.dst flags)
  else if m.kind == kindOther then .ok (.other m.src m.dst flags)
  else .error (.unknownKind m.kind)

/-- Op-flags with HALT clear. -/
def plainFlags (flags : BitVec 7) : Byte := 0#1 ++ flags

/-- Op-flags of an ALU row: HALT clear, bits 6..4 given, bits 3..0 the operation code (R124, R125). -/
def aluFlags (flags : BitVec 3) (code : BitVec 4) : Byte := 0#1 ++ flags ++ code

/-- The micro-step of an ALU row: XDATA into id 0x5. -/
def aluStep (src : Id) (flags : BitVec 3) (code : BitVec 4) : MicroStep :=
  { kind := kindXdata, src := src, dst := 0x5#4, opFlags := aluFlags flags code }

/-- The micro-step of a micro-operation; none for a reference instruction. -/
def stepOf : Instr → Option MicroStep
  | .xdata src dst flags => some { kind := kindXdata, src := src, dst := dst, opFlags := plainFlags flags }
  | .xaddr src dst flags => some { kind := kindXaddr, src := src, dst := dst, opFlags := plainFlags flags }
  | .ioOut reg channel flags => some { kind := kindIo, src := reg, dst := channel, opFlags := plainFlags flags }
  | .ioIn reg channel flags => some { kind := kindIo, src := reg, dst := channel, opFlags := plainFlags flags }
  | .other src dst flags => some { kind := kindOther, src := src, dst := dst, opFlags := plainFlags flags }
  | .halt kind src dst flags => some { kind := kind, src := src, dst := dst, opFlags := 1#1 ++ flags }
  | .aluAdd src flags => some (aluStep src flags 0x0#4)
  | .aluAdc src flags => some (aluStep src flags 0x1#4)
  | .aluSub src flags => some (aluStep src flags 0x2#4)
  | .aluSbb src flags => some (aluStep src flags 0x3#4)
  | .aluAnd src flags => some (aluStep src flags 0x4#4)
  | .aluOr src flags => some (aluStep src flags 0x5#4)
  | .aluXor src flags => some (aluStep src flags 0x6#4)
  | .aluCmp src flags => some (aluStep src flags 0x7#4)
  | .aluInc src flags => some (aluStep src flags 0x8#4)
  | .aluDec src flags => some (aluStep src flags 0x9#4)
  | .aluNot src flags => some (aluStep src flags 0xA#4)
  | .aluShl src flags => some (aluStep src flags 0xB#4)
  | .aluShr src flags => some (aluStep src flags 0xC#4)
  | .aluClr src flags => some (aluStep src flags 0xD#4)
  | .nop => none
  | .hlt => none
  | .movAImm _ => none
  | .movBImm _ => none
  | .movCImm _ => none
  | .movDImm _ => none
  | .movAB => none
  | .movAC => none
  | .movAD => none
  | .movBA => none
  | .movCA => none
  | .movDA => none
  | .movAMem _ => none
  | .movMemA _ => none
  | .movBMem _ => none
  | .movMemB _ => none
  | .movSpImm _ => none
  | .movSiImm _ => none
  | .movDiImm _ => none
  | .movASiInc => none
  | .movDiIncA => none
  | .movSiMem _ => none
  | .pushA => none
  | .popA => none
  | .addAB => none
  | .adcAB => none
  | .subAB => none
  | .sbbAB => none
  | .andAB => none
  | .orAB => none
  | .xorAB => none
  | .cmpAB => none
  | .incA => none
  | .decA => none
  | .notA => none
  | .shlA => none
  | .shrA => none
  | .clrA => none
  | .addAImm _ => none
  | .cmpAImm _ => none
  | .jmp _ => none
  | .jz _ => none
  | .jnz _ => none
  | .jc _ => none
  | .jnc _ => none
  | .jv _ => none
  | .call _ => none
  | .ret => none
  | .outA => none
  | .inA => none

/-! ### Reference instructions -/

/-- One operand byte after an opcode (R132, ImmediateByte). -/
def operandByte (op : Byte) (mk : Byte → Instr) : List Byte → Except DecodeError (Instr × List Byte)
  | b :: rest => .ok (mk b, rest)
  | [] => .error (.missingOperand op)

/-- Two operand bytes after an opcode, low byte first (R132, ImmediateWord and the indirect modes). -/
def operandWord (op : Byte) (mk : Word → Instr) : List Byte → Except DecodeError (Instr × List Byte)
  | lo :: hi :: rest => .ok (mk (joinWord hi lo), rest)
  | _ => .error (.missingOperand op)

/-- The instruction at the head of a byte list, and the bytes after it (R132, R134, R383). -/
def decodeBytes : List Byte → Except DecodeError (Instr × List Byte)
  | [] => .error .noBytes
  | op :: rest =>
    match op.toNat with
    | 0x00 => .ok (.nop, rest)
    | 0x01 => .ok (.hlt, rest)
    | 0x10 => operandByte op .movAImm rest
    | 0x11 => operandByte op .movBImm rest
    | 0x12 => operandByte op .movCImm rest
    | 0x13 => operandByte op .movDImm rest
    | 0x14 => .ok (.movAB, rest)
    | 0x15 => .ok (.movAC, rest)
    | 0x16 => .ok (.movAD, rest)
    | 0x17 => .ok (.movBA, rest)
    | 0x18 => .ok (.movCA, rest)
    | 0x19 => .ok (.movDA, rest)
    | 0x20 => operandWord op .movAMem rest
    | 0x21 => operandWord op .movMemA rest
    | 0x22 => operandWord op .movBMem rest
    | 0x23 => operandWord op .movMemB rest
    | 0x24 => operandWord op .movSpImm rest
    | 0x25 => operandWord op .movSiImm rest
    | 0x26 => operandWord op .movDiImm rest
    | 0x27 => .ok (.movASiInc, rest)
    | 0x28 => .ok (.movDiIncA, rest)
    | 0x29 => operandWord op .movSiMem rest
    | 0x30 => .ok (.pushA, rest)
    | 0x31 => .ok (.popA, rest)
    | 0x40 => .ok (.addAB, rest)
    | 0x41 => .ok (.adcAB, rest)
    | 0x42 => .ok (.subAB, rest)
    | 0x43 => .ok (.sbbAB, rest)
    | 0x44 => .ok (.andAB, rest)
    | 0x45 => .ok (.orAB, rest)
    | 0x46 => .ok (.xorAB, rest)
    | 0x47 => .ok (.cmpAB, rest)
    | 0x48 => .ok (.incA, rest)
    | 0x49 => .ok (.decA, rest)
    | 0x4A => .ok (.notA, rest)
    | 0x4B => .ok (.shlA, rest)
    | 0x4C => .ok (.shrA, rest)
    | 0x4D => .ok (.clrA, rest)
    | 0x4E => operandByte op .addAImm rest
    | 0x4F => operandByte op .cmpAImm rest
    | 0x50 => operandWord op .jmp rest
    | 0x51 => operandWord op .jz rest
    | 0x52 => operandWord op .jnz rest
    | 0x53 => operandWord op .jc rest
    | 0x54 => operandWord op .jnc rest
    | 0x55 => operandWord op .jv rest
    | 0x56 => operandWord op .call rest
    | 0x57 => .ok (.ret, rest)
    | 0x60 => .ok (.outA, rest)
    | 0x61 => .ok (.inA, rest)
    | _ => .error (.noMicroCode op)

/-- The operand bytes of a 16-bit operand, low byte first (R96, R133). -/
def wordBytes (w : Word) : List Byte := [lowByte w, highByte w]

/-- The bytes of a reference instruction (R132, R332 to R381); none for a micro-operation. -/
def bytesOf : Instr → Option (List Byte)
  | .xdata _ _ _ => none
  | .xaddr _ _ _ => none
  | .ioOut _ _ _ => none
  | .ioIn _ _ _ => none
  | .other _ _ _ => none
  | .halt _ _ _ _ => none
  | .aluAdd _ _ => none
  | .aluAdc _ _ => none
  | .aluSub _ _ => none
  | .aluSbb _ _ => none
  | .aluAnd _ _ => none
  | .aluOr _ _ => none
  | .aluXor _ _ => none
  | .aluCmp _ _ => none
  | .aluInc _ _ => none
  | .aluDec _ _ => none
  | .aluNot _ _ => none
  | .aluShl _ _ => none
  | .aluShr _ _ => none
  | .aluClr _ _ => none
  | .nop => some [0x00#8]
  | .hlt => some [0x01#8]
  | .movAImm imm => some [0x10#8, imm]
  | .movBImm imm => some [0x11#8, imm]
  | .movCImm imm => some [0x12#8, imm]
  | .movDImm imm => some [0x13#8, imm]
  | .movAB => some [0x14#8]
  | .movAC => some [0x15#8]
  | .movAD => some [0x16#8]
  | .movBA => some [0x17#8]
  | .movCA => some [0x18#8]
  | .movDA => some [0x19#8]
  | .movAMem addr => some (0x20#8 :: wordBytes addr)
  | .movMemA addr => some (0x21#8 :: wordBytes addr)
  | .movBMem addr => some (0x22#8 :: wordBytes addr)
  | .movMemB addr => some (0x23#8 :: wordBytes addr)
  | .movSpImm imm => some (0x24#8 :: wordBytes imm)
  | .movSiImm imm => some (0x25#8 :: wordBytes imm)
  | .movDiImm imm => some (0x26#8 :: wordBytes imm)
  | .movASiInc => some [0x27#8]
  | .movDiIncA => some [0x28#8]
  | .movSiMem addr => some (0x29#8 :: wordBytes addr)
  | .pushA => some [0x30#8]
  | .popA => some [0x31#8]
  | .addAB => some [0x40#8]
  | .adcAB => some [0x41#8]
  | .subAB => some [0x42#8]
  | .sbbAB => some [0x43#8]
  | .andAB => some [0x44#8]
  | .orAB => some [0x45#8]
  | .xorAB => some [0x46#8]
  | .cmpAB => some [0x47#8]
  | .incA => some [0x48#8]
  | .decA => some [0x49#8]
  | .notA => some [0x4A#8]
  | .shlA => some [0x4B#8]
  | .shrA => some [0x4C#8]
  | .clrA => some [0x4D#8]
  | .addAImm imm => some [0x4E#8, imm]
  | .cmpAImm imm => some [0x4F#8, imm]
  | .jmp target => some (0x50#8 :: wordBytes target)
  | .jz target => some (0x51#8 :: wordBytes target)
  | .jnz target => some (0x52#8 :: wordBytes target)
  | .jc target => some (0x53#8 :: wordBytes target)
  | .jnc target => some (0x54#8 :: wordBytes target)
  | .jv target => some (0x55#8 :: wordBytes target)
  | .call target => some (0x56#8 :: wordBytes target)
  | .ret => some [0x57#8]
  | .outA => some [0x60#8]
  | .inA => some [0x61#8]

/-! ### Codes -/

/-- Decoding, total on any code. -/
def decode : Code → Except DecodeError Instr
  | .control w => decodeStep (MicroStep.unpack w)
  | .program bytes =>
    match decodeBytes bytes with
    | .ok (i, []) => .ok i
    | .ok (_, _ :: _) => .error .trailingBytes
    | .error e => .error e

/-- The words of an instruction: its microword, or its bytes. -/
def encode (i : Instr) : Code :=
  match stepOf i with
  | some m => .control m.pack
  | none => .program ((bytesOf i).getD [])

/-! ### The host's numbering of a table row

A row of spec/opcode_table.json is a microword (24 bits) or an opcode byte with its operand bytes. The number alone does not
say which: `tableCode` reads 16 bits as an opcode and one operand byte, 24 bits whose first byte is the opcode of a
three-byte reference instruction as that instruction, any other 24 bits as a microword, and 8 bits as an opcode where the
reference table has it and as a microword with zeros above otherwise. notes/assumptions/10.md. -/

/-- The three low bytes of a number, lowest first. -/
def lowBytes (w : Nat) : List Byte := [BitVec.ofNat 8 w, BitVec.ofNat 8 (w / 256), BitVec.ofNat 8 (w / 65536)]

/-- How many bytes the reference instruction with this opcode has (R132), 0 for an opcode with no record. -/
def instructionLength (op : Byte) : Nat :=
  match decodeBytes [op, 0x00#8, 0x00#8] with
  | .ok (_, rest) => 3 - rest.length
  | .error _ => 0

/-- The code that a table row's number of `nbits` bits stands for. -/
def tableCode (nbits w : Nat) : Code :=
  let v := w % 2 ^ nbits
  let bytes := lowBytes v
  let len := instructionLength (BitVec.ofNat 8 v)
  let micro := Code.control (BitVec.ofNat 24 v)
  if nbits ≤ 8 then (if len = 0 && knownKind (BitVec.ofNat 8 v) then micro else .program (bytes.take (max len 1)))
  else if nbits ≤ 16 then .program (bytes.take (max len 1))
  else if len = 3 then .program bytes else micro

/-- The instruction the decoder reads from a table row's number. -/
def decodeTableWord (nbits w : Nat) : Option Instr :=
  match decode (tableCode nbits w) with
  | .ok i => some i
  | .error _ => none

end Sys2Proof
end

