-- ==== Sys2Proof/Config.lean ====
section
/-! DEFINITION. What a machine of this kind fixes outside the state (spec 00_scope.md R6) and the FREE VALUES: what the
spec calls a draw or leaves OPEN. A free value is an opaque constant: nothing in Lean can evaluate it, so a claim that
holds here holds whatever the value is. -/

namespace Sys2Proof

/-- `MAX_COMPONENTS`: addressable component slots (R6, R7, R42). -/
def Config.maxComponents : Nat := 16

/-- `MAX_CHANNELS`: I/O channel slots (R6, R7, R42). -/
def Config.maxChannels : Nat := 16

/-- `MAX_TABLE_STEPS`: steps of one microcode record (R6, R130). -/
def Config.maxTableSteps : Nat := 24

/-- The most cycles one instruction takes: 2 fetch, 5 prologue, 24 table steps (R290). -/
def Config.maxInstructionCycles : Nat := 31

/-- FREE VALUE `IO_INPUT` (R6, R226, R415): the byte the input callback of a channel answers when the environment has
scheduled no answer, one per draw number. DESIGN CHOICE, safe: notes/assumptions/5.md. -/
opaque Config.ioInput : Id → Nat → Byte

/-- FREE VALUE `RESET_REGISTER_VALUES` (R6, R470): the byte that `Reset()` leaves in the register (or ALU) at an id.
DESIGN CHOICE, safe: notes/assumptions/2.md. -/
opaque Config.resetByte : Nat → Id → Byte

/-- FREE VALUE (R470): the word that `Reset()` leaves in the address register at an id. notes/assumptions/2.md. -/
opaque Config.resetWord : Nat → Id → Word

/-- FREE VALUE (R470): the word that `Reset()` leaves in MAR. notes/assumptions/2.md. -/
opaque Config.resetMar : Nat → Word

/-- FREE VALUE (R470): the operation code that `Reset()` leaves in the ALU at an id. notes/assumptions/2.md. -/
opaque Config.resetOperation : Nat → Id → BitVec 4

/-- FREE VALUE `CLOCK_KHZ_DEFAULT` (OPEN, R54, R472): one less than the frequency in kHz before any `set_speed`, so that
the frequency lies in 1..1000. notes/assumptions/12.md. -/
opaque Config.clockKhzDefaultPred : Fin 1000

/-- FREE VALUE `TICK_ROUNDING` (OPEN, R412): whether an inexact `500000 / khz` is rounded up. notes/assumptions/12.md. -/
opaque Config.tickRoundsUp : Nat → Bool

end Sys2Proof
end

