-- ==== Sys2Proof/Machine/State.lean ====
section
/-! DEFINITION. The state of obelix CORE (spec/10_state.md), as plain data, the machine right after it is built
(70_reset_and_hazards.md R472, R475), and the reasons a step can stop. -/

namespace Sys2Proof.Machine

/-! ### Errors and refusals -/

/-- The hardware's error kinds with the info R431 records. An error is not an outcome of the cycle that raises it: that
cycle ends in a NEXT state whose fault record holds it (R430, R433; notes/assumptions/4.md). A `.fault` outcome is
answered only by `step`, of a machine whose clock an error has already stopped: "stuck until reset"
(93_implementation_defined.md section 5). Safe: nothing is claimed of a stopped machine. -/
inductive Fault where
  /-- Raised by the memory data port: read or write at an address in no range (R84, R85, R86, R87). Safe. -/
  | invalidComponentID (address : Word)
  /-- Raised by the memory data port: write to a read-only range (R85, R87, R94). Safe. -/
  | protectedMemory (address : Word)
  /-- Raised by the controller's opcode latch: a record that is not well formed (R130, R285). Safe. -/
  | invalidInstruction (opcode : Byte)
  /-- Raised by the controller for a step of unknown kind (R284) and by the ALU for codes 0xE, 0xF (R251). Safe. -/
  | invalidMicroCode (microword : Microword)
  /-- Raised by the controller's opcode latch: an opcode absent from the table (R285, R382). Safe. -/
  | noMicroCode (opcode : Byte)
  /-- Listed by R431; no component of the spec raises it, and nothing here does. Safe. -/
  | generalError
deriving DecidableEq, Repr

/-- The cause numbers of R432, this spec's own and not observable by a program. -/
def Fault.causeNumber : Fault → Nat
  | .invalidComponentID _ => 1
  | .protectedMemory _ => 2
  | .invalidInstruction _ => 3
  | .invalidMicroCode _ => 4
  | .noMicroCode _ => 5
  | .generalError => 6

/-- Why there is no next state: the refusals of R10 and, at the end, the model's own. All are safe: a run with a refusal
proves nothing further (R435). -/
inductive Refusal where
  /-- Answered by `exec` for an instruction without a meaning; no arm answers it. Safe. -/
  | notModelled (mnemonic : String)
  /-- A wiring that is not well formed (R7, R409). Safe. -/
  | badWiring
  /-- Two or more of `xdata`, `xaddr`, `io` asserted (R176). Safe. -/
  | multipleTransferLines
  /-- The ALU as destination of an address transfer (R218). Safe. -/
  | aluAddressTransfer
  /-- An address register or the ALU on the register side of an I/O transfer (R225). Safe. -/
  | ioRegisterSide
  /-- INC and DEC together on an address-transfer source (R212). Safe. -/
  | incAndDec
  /-- An address transfer into the controller, or the controller on the register side of I/O (R300). Safe. -/
  | controllerRole
  /-- An address transfer naming the memory data port, or a memory port on the register side of I/O (R91). Safe. -/
  | memoryPortRole
  /-- A cycle that starts with `nmi` asserted (R445). Safe. -/
  | nmiAsserted
  /-- A state-changing operation, or a cycle, after an error (R437). Safe. -/
  | afterError
  /-- Bus injection with a controller wired (R406). Safe. -/
  | harnessWithController
  /-- An empty, wrapping or overlapping image (R401). Safe. -/
  | memoryRangeOverlap
  /-- An ALU whose `lhs` is not an 8-bit register (R251). Safe. -/
  | aluWideOperand
  /-- The model's own: a reference instruction begins only at a fetch step 0 of a wired controller (R282);
  `exec` refuses it in any other state. Safe. notes/assumptions/8.md. -/
  | noInstructionStart
  /-- The model's own: a controller whose `step` names no micro-step, which no run reaches (R284). Safe.
  notes/assumptions/16.md. -/
  | controlStateOutOfRange
  /-- The model's own: a host operation at a time R400 does not allow it. Safe. notes/assumptions/17.md. -/
  | hostOperationNotNow
deriving DecidableEq, Repr

/-- The phases of a cycle (R170). -/
inductive Phase where
  | rising | high | falling | low
deriving DecidableEq, Repr

/-- The fault record of a machine with an error or a refusal (R56, R433, R435). -/
inductive FaultRecord where
  /-- Kind with its info, 0-based index of the failing cycle, phase, component id (R433). -/
  | error (kind : Fault) (cycle : Nat) (phase : Phase) (component : Id)
  /-- A refusal, by its name (R435). -/
  | refusal (name : Refusal)
deriving DecidableEq, Repr

/-! ### Events (R420) -/

/-- Who emits an event. -/
inductive Sender where
  | component (id : Id)
  | channel (id : Id)
  | backplane
  | clock
deriving DecidableEq, Repr

/-- The events of R420. -/
inductive EventKind where
  | valueChanged | stepChanged | afterInstruction | inputRead | outputWritten | imageLoaded | contentsChanged
  | configChanged | started | stopped | error | freqChange
deriving DecidableEq, Repr

/-- An entry of the event trace: `(sender, event_id, cycle, phase)`; no phase for events between cycles (R420). -/
structure Event where
  sender : Sender
  kind : EventKind
  cycle : Nat
  phase : Option Phase
deriving DecidableEq, Repr

/-! ### Wiring (R41 to R45) -/

/-- The component kinds (R46, R47, R49, R50, R52). -/
inductive ComponentKind where
  /-- 8-bit register (R46). -/
  | register
  /-- 16-bit address register with its `uses_data_bus` (R47). -/
  | addressRegister (usesDataBus : Bool)
  /-- ALU with the id of its left-hand register (R49). -/
  | alu (lhs : Id)
  /-- Memory bank: data port at its id, address port at its alias (R82). -/
  | memoryBank
  /-- Microcode controller (R52). -/
  | controller
deriving DecidableEq, Repr

/-- A component as inserted: id, optional alias, name, kind (R41). -/
structure Component where
  id : Id
  aliasId : Option Id
  name : String
  kind : ComponentKind
deriving DecidableEq, Repr

/-- An I/O channel as inserted: which of its host functions are present (R51). -/
structure Channel where
  id : Id
  name : String
  hasInput : Bool
  hasOutput : Bool
  hasResetHook : Bool
  hasStatusHook : Bool
deriving DecidableEq, Repr

/-- `WIRING` and the ids the controller's built-in steps name (R6, R42, R45), in insertion order. -/
structure Wiring where
  components : List Component
  channels : List Channel
  pcId : Id
  memId : Id
  memAddrId : Id
  ctrlId : Id
deriving DecidableEq, Repr

/-! ### Memory (R50) -/

/-- A memory range: its number (R93), start, length and `writable` flag; its bytes are in `Memory.cells`. -/
structure Range where
  number : Nat
  start : Nat
  length : Nat
  writable : Bool
deriving DecidableEq, Repr

/-- The memory bank: its ranges, in order of their numbers, and the bytes of all ranges as (address, byte) pairs in one
canonical form: addresses strictly rising, no entry 0x00. A byte of a range that is not listed is 0x00
(notes/assumptions/11.md). -/
structure Memory where
  ranges : List Range
  cells : List Host.Cell
deriving DecidableEq, Repr

/-! ### Controller (R52) -/

/-- The addressing modes (R130, R131). -/
inductive Mode where
  | implied | immediateByte | immediateWord | indirectByte | indirectWord
deriving DecidableEq, Repr

/-- The condition operators (R130, R131). -/
inductive CondOp where
  | none | and | nand
deriving DecidableEq, Repr

/-- A microcode record as the table holds it, with its raw mode and operator codes (R130). -/
structure Record where
  opcode : Byte
  mnemonic : String
  mode : Byte
  target : Id
  condition : Byte
  conditionOp : Byte
  steps : List MicroStep
deriving DecidableEq, Repr

/-- The in-flight microcode runner (R52, R287); `mnemonic` and `target` are carried and read by no rule (R291). -/
structure Runner where
  opcode : Byte
  mnemonic : String
  mode : Mode
  target : Id
  condition : Byte
  conditionOp : CondOp
  steps : List MicroStep
  tableStart : Nat
  complete : Bool
deriving DecidableEq, Repr

/-- The controller's state (R52). -/
structure Controller where
  ir : Byte
  step : Nat
  scratch : Byte
  interruptVector : Byte
  constant : Word
  runner : Option Runner
deriving DecidableEq, Repr

/-! ### Bus, clock, machine -/

/-- The run modes (R37). -/
inductive RunMode where
  | continuous | breakAtInstruction | breakAtClock
deriving DecidableEq, Repr

/-- The bus (R30). `xdata`, `xaddr`, `io` are active low: `false` is asserted (R32); the status lines are `true` when
asserted (R35). -/
structure Bus where
  dataByte : Byte
  addrByte : Byte
  sourceId : Id
  destId : Id
  opFlags : Byte
  xdata : Bool
  xaddr : Bool
  io : Bool
  halt : Bool
  suspend : Bool
  nmi : Bool
  resetLine : Bool
  z : Bool
  c : Bool
  v : Bool
  runMode : RunMode
deriving DecidableEq, Repr

/-- What the host may do at a cycle boundary of a run: `stop()` (R404), assert the `reset` line (R471) or `nmi` (R445), `set_speed`
(R411). -/
inductive HostRequest where
  | stop
  | assertReset
  | assertNmi
  | setSpeed (khz : Nat)
deriving DecidableEq, Repr

/-- The clock (R54, R403): frequency in kHz, whether it runs, a pending stop request, the cycles left of an optional cap,
whether a listener is registered (R413). -/
structure Clock where
  khz : Nat
  running : Bool
  stopRequested : Bool
  cap : Option Nat
  listener : Bool
deriving DecidableEq, Repr

/-- The machine. `regs`, `aregs` and `aluOperation` are keyed by component id: a register's or the ALU's byte, an address
register's word, an ALU's last operation; a slot whose id holds no such component is read by no rule. -/
structure State where
  /-- The component and channel tables, fixed during a run (R9, R42, R43). -/
  wiring : Wiring
  /-- The one bus (R30). -/
  bus : Bus
  /-- Register and ALU values (R46, R49). -/
  regs : Vector Byte 16
  /-- Address-register values, the pc among them (R47, R48). -/
  aregs : Vector Word 16
  /-- The ALU's last operation code (R49, R250). -/
  aluOperation : Vector (BitVec 4) 16
  /-- The memory bank's own address register (R50, R82). -/
  mar : Word
  /-- The memory bank (R50). -/
  mem : Memory
  /-- The controller (R52). -/
  ctrl : Controller
  /-- The clock (R54). -/
  clock : Clock
  /-- `S.cycles`: cycles completed (R179, R433). -/
  cycles : Nat
  /-- The fault record (R56). -/
  fault : Option FaultRecord
  /-- Each component's error slot (R40), by component id. -/
  errorSlots : Vector (Option Fault) 16
  /-- Each I/O channel's error slot (R1, R40), by channel id; no channel callback fails, so none is ever filled
  (notes/assumptions/14.md). -/
  channelErrorSlots : Vector (Option Fault) 16
  /-- The event trace, oldest first (R55, R420). -/
  events : List Event
  /-- The bytes passed to output callbacks, with their channel ids, oldest first (R416). -/
  outputs : List (Id × Byte)
  /-- The channels whose reset hook `Reset()` has called, oldest first (R417, R470). -/
  resetHookCalls : List Id
  /-- `run` has been called, so components can no longer be inserted (R43, R400, R409). -/
  hasRun : Bool
  /-- The MODEL's own: answers the environment has scheduled for input callbacks (notes/assumptions/5.md). -/
  inputs : List (Id × Byte)
  /-- The MODEL's own: how many free values have been drawn (notes/assumptions/5.md). -/
  draws : Nat
  /-- The MODEL's own: what the host will do at cycle boundaries of a run, in order, each once that many cycles are
  completed (R404; notes/assumptions/3.md). -/
  requests : List (Nat × HostRequest)
deriving DecidableEq, Repr

/-! ### The machine when it is built -/

/-- The reference wiring (R45), in its insertion order, with its two channels. -/
def referenceWiring : Wiring :=
  { components :=
      [ { id := idA, aliasId := none, name := "A", kind := .register },
        { id := idB, aliasId := none, name := "B", kind := .register },
        { id := idC, aliasId := none, name := "C", kind := .register },
        { id := idD, aliasId := none, name := "D", kind := .register },
        { id := idLhs, aliasId := none, name := "LHS", kind := .register },
        { id := idAlu, aliasId := none, name := "ALU", kind := .alu idLhs },
        { id := idCtrl, aliasId := none, name := "CTRL", kind := .controller },
        { id := idPc, aliasId := none, name := "PC", kind := .addressRegister true },
        { id := idSp, aliasId := none, name := "SP", kind := .addressRegister true },
        { id := idSi, aliasId := none, name := "SI", kind := .addressRegister true },
        { id := idDi, aliasId := none, name := "DI", kind := .addressRegister true },
        { id := idTx, aliasId := none, name := "TX", kind := .addressRegister true },
        { id := idMem, aliasId := some idMemAddr, name := "MEM", kind := .memoryBank } ],
    channels :=
      [ { id := channelOut, name := "OUT", hasInput := false, hasOutput := true, hasResetHook := false,
          hasStatusHook := false },
        { id := channelIn, name := "IN", hasInput := true, hasOutput := false, hasResetHook := false,
          hasStatusHook := false } ],
    pcId := idPc, memId := idMem, memAddrId := idMemAddr, ctrlId := idCtrl }

/-- The bus's idle pattern (R30, R470), with the run mode the machine keeps. -/
def idleBus (mode : RunMode) : Bus :=
  { dataByte := 0x00#8, addrByte := 0x00#8, sourceId := 0x0#4, destId := 0x0#4, opFlags := 0x00#8, xdata := true,
    xaddr := true, io := true, halt := false, suspend := false, nmi := false, resetLine := false, z := false, c := false,
    v := false, runMode := mode }

/-- The controller after reset (R52, R470): at fetch step 0 with no runner. -/
def resetController : Controller :=
  { ir := 0x00#8, step := 0, scratch := 0x00#8, interruptVector := 0x00#8, constant := 0x0000#16, runner := none }

/-- The machine right after it is built and reset (R472, R475). The register values, which the spec leaves a draw, are 0:
DESIGN CHOICE, unsafe, notes/assumptions/1.md. -/
def State.reset : State :=
  { wiring := referenceWiring
    bus := idleBus .continuous
    regs := Vector.replicate 16 0x00#8
    aregs := Vector.replicate 16 0x0000#16
    aluOperation := Vector.replicate 16 0x0#4
    mar := 0x0000#16
    mem := { ranges := [], cells := [] }
    ctrl := resetController
    clock := { khz := Config.clockKhzDefaultPred.val + 1, running := false, stopRequested := false, cap := none,
               listener := false }
    cycles := 0
    fault := none
    errorSlots := Vector.replicate 16 none
    channelErrorSlots := Vector.replicate 16 none
    events := []
    outputs := []
    resetHookCalls := []
    hasRun := false
    inputs := []
    draws := 0
    requests := [] }

end Sys2Proof.Machine
end

