-- ==== Sys2Proof/Machine/Ops.lean ====
section
/-! DEFINITION. The named operations over the state: id resolution (10_state.md R44), register access, the memory bank's
reads and writes (20_memory.md R81 to R85), events (45_host_interface.md R420), and RAISING AN ERROR and REFUSING a cycle
as one shared operation each (60_exceptions.md R430, R433, R435). -/

namespace Sys2Proof.Machine

/-! ### Wiring: what an id names (R44, R82) -/

/-- What a component id (or alias) names on the bus; registers carry the component's own id. -/
inductive Role where
  /-- Nothing answers the id (R44, R233). -/
  | nothing
  /-- An 8-bit register. -/
  | register (id : Id)
  /-- A 16-bit address register with its `uses_data_bus`. -/
  | addressRegister (id : Id) (usesDataBus : Bool)
  /-- The ALU and its left-hand register. -/
  | alu (id lhs : Id)
  /-- The memory bank's data port (R82). -/
  | memoryData (id : Id)
  /-- The memory bank's address port, MAR (R82). -/
  | memoryAddress (id : Id)
  /-- The controller. -/
  | controller (id : Id)
deriving DecidableEq, Repr

/-- The role of a component when it is addressed by `i`, its id or its alias (R44, R82). -/
def Component.role (c : Component) (i : Id) : Role :=
  match c.kind with
  | .register => .register c.id
  | .addressRegister usesDataBus => .addressRegister c.id usesDataBus
  | .alu lhs => .alu c.id lhs
  | .memoryBank => if i == c.id then .memoryData c.id else .memoryAddress c.id
  | .controller => .controller c.id

/-- `resolve(i)` (R44). -/
def Wiring.resolve (w : Wiring) (i : Id) : Role :=
  match w.components.find? (fun c => c.id == i || c.aliasId == some i) with
  | some c => c.role i
  | none => .nothing

/-- The channel with this channel id (R41, R224). -/
def Wiring.channel (w : Wiring) (i : Id) : Option Channel := w.channels.find? (fun c => c.id == i)

/-- Whether a controller is wired (R172, R280). -/
def Wiring.hasController (w : Wiring) : Bool := w.components.any (fun c => c.kind == .controller)

/-- The controller's own id, by which events and errors name it (R420; notes/assumptions/37.md). -/
def Wiring.controllerId (w : Wiring) : Id :=
  match w.components.find? (fun c => c.kind == .controller) with
  | some c => c.id
  | none => w.ctrlId

/-- The memory bank's own id, by which events name it (R420; notes/assumptions/36.md). -/
def Wiring.bankId (w : Wiring) : Id :=
  match w.components.find? (fun c => c.kind == .memoryBank) with
  | some c => c.id
  | none => w.memId

/-- What a component id names in this machine. -/
def State.resolve (s : State) (i : Id) : Role := s.wiring.resolve i

/-! ### Registers -/

/-- The byte of the register, or of the ALU, with this id (R46, R49). -/
def State.reg (s : State) (r : Id) : Byte := s.regs[r.toNat]'(r.isLt)

/-- The word of the address register with this id (R47). -/
def State.areg (s : State) (r : Id) : Word := s.aregs[r.toNat]'(r.isLt)

/-- The last operation code of the ALU with this id (R49). -/
def State.aluOp (s : State) (r : Id) : BitVec 4 := s.aluOperation[r.toNat]'(r.isLt)

/-- Replace the bus. -/
def State.setBus (s : State) (b : Bus) : State := { s with bus := b }

/-- Write a register's, or the ALU's, byte. -/
def State.setReg (s : State) (r : Id) (v : Byte) : State := { s with regs := s.regs.set r.toNat v r.isLt }

/-- Write an address register's word. -/
def State.setAreg (s : State) (r : Id) (v : Word) : State := { s with aregs := s.aregs.set r.toNat v r.isLt }

/-- Record the ALU's operation code. -/
def State.setAluOp (s : State) (r : Id) (v : BitVec 4) : State :=
  { s with aluOperation := s.aluOperation.set r.toNat v r.isLt }

/-- Write MAR. -/
def State.setMar (s : State) (v : Word) : State := { s with mar := v }

/-- Replace the memory bank's contents. -/
def State.setMem (s : State) (m : Memory) : State := { s with mem := m }

/-- Replace the controller's state. -/
def State.setCtrl (s : State) (c : Controller) : State := { s with ctrl := c }

/-- Replace the clock's state. -/
def State.setClock (s : State) (c : Clock) : State := { s with clock := c }

/-- Replace the host's scheduled requests. -/
def State.setRequests (s : State) (q : List (Nat × HostRequest)) : State := { s with requests := q }

/-- Drive `data_byte`. -/
def State.setData (s : State) (v : Byte) : State := s.setBus { s.bus with dataByte := v }

/-- Drive both bus bytes with a word: low byte on `data_byte`, high byte on `addr_byte` (R208). -/
def State.setBusWord (s : State) (v : Word) : State :=
  s.setBus { s.bus with dataByte := lowByte v, addrByte := highByte v }

/-- The word on the bus: `word(addr_byte, data_byte)` (R88, R209). -/
def Bus.word (b : Bus) : Word := joinWord b.addrByte b.dataByte

/-- `flag(F)` of the op-flags on the bus (R12). -/
def Bus.flag (b : Bus) (mask : Byte) : Bool := hasFlag b.opFlags mask

/-- `flags_byte()` of the processor flags on the bus (R126). -/
def Bus.flagsByte (b : Bus) : Byte := Sys2Proof.Machine.flagsByte b.z b.c b.v

/-! ### Events (R420) -/

/-- Append an event to the trace when `b` holds. Its cycle is `S.cycles`, the cycles completed before it: the spec fixes that
number for the fault record only (R433), for the trace it is the model's choice, notes/assumptions/35.md. -/
def State.emitIf (s : State) (b : Bool) (sender : Sender) (kind : EventKind) (phase : Option Phase) : State :=
  { s with events := if b then s.events ++ [{ sender := sender, kind := kind, cycle := s.cycles, phase := phase }]
                     else s.events }

/-- Append an event to the trace. -/
def State.emit (s : State) (sender : Sender) (kind : EventKind) (phase : Option Phase) : State :=
  s.emitIf true sender kind phase

/-! ### Errors and refusals -/

/-- `raise E(info)`: the error ends the cycle; it is recorded with the 0-based cycle index, the phase and the component
(R430, R433), and in the component's error slot (R40). Nothing else changes: no state is saved, no handler runs (R439). -/
def State.raise (s : State) (e : Fault) (phase : Phase) (component : Id) : State :=
  { s with fault := some (.error e s.cycles phase component)
           errorSlots := s.errorSlots.set component.toNat (some e) component.isLt }

/-- `refuse R`: the cycle ends before any component acts, with the refusal recorded by name (R435). -/
def State.refuse (s : State) (r : Refusal) : State := { s with fault := some (.refusal r) }

/-- Continue unless an error or a refusal has ended the cycle (R177, R435). -/
def State.andThen (s : State) (f : State → State) : State := if s.fault.isSome then s else f s

/-- The outcome that a state after a cycle stands for: a recorded refusal is a refusal, anything else, a recorded error
included, is a next state (R10; notes/assumptions/4.md). -/
def State.outcome (s : State) : Host.Outcome State Fault Refusal :=
  match s.fault with
  | some (.refusal r) => .refused r
  | _ => .next s

/-- The first two checks of every cycle (R179, R438): a machine with a fault record refuses `AfterError`, one with `nmi`
asserted refuses `NmiAsserted`. -/
def State.guarded (s : State) (k : State → State) : Host.Outcome State Fault Refusal :=
  if s.fault.isSome then .refused .afterError
  else if s.bus.nmi then .refused .nmiAsserted
  else (k s).outcome

/-! ### The memory bank -/

/-- Whether a range holds an address: `start <= a < start + length` (R81). -/
def Range.holds (r : Range) (a : Nat) : Bool := decide (r.start ≤ a) && decide (a < r.start + r.length)

/-- The byte listed at an address; an unlisted byte is 0x00 (notes/assumptions/11.md). -/
def cellsGet : List Host.Cell → Nat → Byte
  | [], _ => 0x00#8
  | (k, v) :: rest, a => if k = a then v else cellsGet rest a

/-- Write a byte, keeping addresses rising and listing no 0x00. -/
def cellsPut : List Host.Cell → Nat → Byte → List Host.Cell
  | [], a, v => if v = 0x00#8 then [] else [(a, v)]
  | (k, w) :: rest, a, v =>
    if a < k then (if v = 0x00#8 then (k, w) :: rest else (a, v) :: (k, w) :: rest)
    else if a = k then (if v = 0x00#8 then rest else (a, v) :: rest)
    else (k, w) :: cellsPut rest a v

/-- Write bytes at consecutive addresses. -/
def cellsPutAll : List Host.Cell → Nat → List Byte → List Host.Cell
  | cells, _, [] => cells
  | cells, a, b :: rest => cellsPutAll (cellsPut cells a b) (a + 1) rest

/-- `range_of(a)` (R81). -/
def Memory.rangeOf (m : Memory) (a : Word) : Option Range := m.ranges.find? (fun r => r.holds a.toNat)

/-- The byte at an address, whether or not a range holds it. -/
def Memory.byteAt (m : Memory) (a : Word) : Byte := cellsGet m.cells a.toNat

/-- `MemRead(a)` (R84): none where the machine raises `InvalidComponentID`. -/
def Memory.read (m : Memory) (a : Word) : Option Byte :=
  match m.rangeOf a with
  | some _ => some (m.byteAt a)
  | none => none

/-- The memory with the byte at an address replaced (R85). -/
def Memory.store (m : Memory) (a : Word) (v : Byte) : Memory := { m with cells := cellsPut m.cells a.toNat v }

/-- What a bus write does (R85): the range is tested before the protection (R438). -/
inductive WriteResult where
  | stored (m : Memory)
  | failed (e : Fault)
deriving DecidableEq, Repr

/-- `MemWrite(a, v)` (R85). -/
def Memory.write (m : Memory) (a : Word) (v : Byte) : WriteResult :=
  match m.rangeOf a with
  | none => .failed (.invalidComponentID a)
  | some r => if r.writable then .stored (m.store a v) else .failed (.protectedMemory a)

/-- Addresses strictly rising and no byte 0x00: the canonical form of a cell list. -/
def cellsWf : List Host.Cell → Bool
  | [] => true
  | [(_, v)] => v != 0x00#8
  | (k, v) :: (k', v') :: rest => v != 0x00#8 && decide (k < k') && cellsWf ((k', v') :: rest)

/-- Two ranges share no address (R81, R92). -/
def Range.disjoint (r q : Range) : Bool :=
  decide (r.start + r.length ≤ q.start) || decide (q.start + q.length ≤ r.start)

/-- `length >= 1` and `start + length <= 0x10000` (R92). -/
def Range.wf (r : Range) : Bool := decide (1 ≤ r.length) && decide (r.start + r.length ≤ 0x10000)

/-- Ranges in order of their numbers, each well formed, no two overlapping (R92, R93). -/
def rangesWf : List Range → Bool
  | [] => true
  | r :: rest => r.wf && rest.all (fun q => r.disjoint q && decide (r.number < q.number)) && rangesWf rest

/-- The memory's canonical form: well-formed ranges, and cells in canonical form, each in some range. -/
def Memory.wf (m : Memory) : Bool :=
  rangesWf m.ranges && cellsWf m.cells && m.cells.all (fun c => m.ranges.any (fun r => r.holds c.1))

/-! ### Channels (R51, R223, R226) -/

/-- The byte the next input callback of a channel answers: the environment's next scheduled answer for the channel, or a
free value (R226, R415; notes/assumptions/5.md). -/
def State.nextInput (s : State) (channel : Id) : Byte :=
  match s.inputs.find? (fun p => p.1 == channel) with
  | some p => p.2
  | none => Config.ioInput channel s.draws

/-- Take that answer: a scheduled one is consumed, a free value counts a draw. -/
def State.takeInput (s : State) (channel : Id) : State :=
  { s with inputs := s.inputs.eraseP (fun p => p.1 == channel)
           draws := if (s.inputs.find? (fun p => p.1 == channel)).isSome then s.draws else s.draws + 1 }

/-- Pass a byte to a channel's output callback, if it has one (R223, R416). -/
def State.outputIf (s : State) (b : Bool) (channel : Id) (v : Byte) : State :=
  { s with outputs := if b then s.outputs ++ [(channel, v)] else s.outputs }

/-- Count a completed cycle (R179). -/
def State.countCycle (s : State) : State := { s with cycles := s.cycles + 1 }

end Sys2Proof.Machine
end

