-- ==== Sys2Proof/Machine/Flags.lean ====
section
/-! DEFINITION. The fourteen ALU operations and their flags (42_alu.md R253 to R269), and the post-increment and
post-decrement of an address register with its flags (41_transfers.md R210, R211). Operands are computed exactly and
narrowed at the end. -/

namespace Sys2Proof.Machine

/-- What an operation gives: result, Zero, Carry, Overflow, and whether the result is stored (R250). -/
structure AluResult where
  r : Byte
  z : Bool
  c : Bool
  v : Bool
  store : Bool
deriving DecidableEq, Repr

/-- Signed overflow: the exact signed result lies outside -128..127 (R253). -/
def signedOverflow (t : Int) : Bool := decide (t < -128) || decide (127 < t)

/-- The carry-in as a number (R256, R258). -/
def carryNat (cin : Bool) : Nat := if cin then 1 else 0

/-- The byte of an exact unsigned difference (R257). -/
def byteOfInt (t : Int) : Byte := BitVec.ofInt 8 t

/-- Results of the operations that clear Carry and Overflow, Zero from the result (R259 to R261, R265). -/
def logicResult (r : Byte) : AluResult := { r := r, z := r == 0x00#8, c := false, v := false, store := true }

/-- An exact unsigned sum `t` and the exact signed sum `t'`: carry out of bit 7, signed overflow (R255, R256). -/
def sumResult (t : Nat) (t' : Int) : AluResult :=
  let r := BitVec.ofNat 8 t
  { r := r, z := r == 0x00#8, c := decide (255 < t), v := signedOverflow t', store := true }

/-- An exact unsigned difference `t` and the exact signed difference `t'`: borrow, signed overflow (R257, R258). -/
def differenceResult (t t' : Int) : AluResult :=
  let r := byteOfInt t
  { r := r, z := r == 0x00#8, c := decide (t < 0), v := signedOverflow t', store := true }

/-- ADD, code 0x0 (R255). -/
def aluAdd (a b : Byte) (_cin : Bool) : AluResult := sumResult (a.toNat + b.toNat) (a.toInt + b.toInt)

/-- ADC, code 0x1 (R256). -/
def aluAdc (a b : Byte) (cin : Bool) : AluResult :=
  sumResult (a.toNat + b.toNat + carryNat cin) (a.toInt + b.toInt + carryNat cin)

/-- SUB, code 0x2 (R257). -/
def aluSub (a b : Byte) (_cin : Bool) : AluResult :=
  differenceResult ((a.toNat : Int) - b.toNat) (a.toInt - b.toInt)

/-- SBB, code 0x3 (R258). -/
def aluSbb (a b : Byte) (cin : Bool) : AluResult :=
  differenceResult ((a.toNat : Int) - b.toNat - carryNat cin) (a.toInt - b.toInt - carryNat cin)

/-- AND, code 0x4 (R259). -/
def aluAnd (a b : Byte) (_cin : Bool) : AluResult := logicResult (a &&& b)

/-- OR, code 0x5 (R260). -/
def aluOr (a b : Byte) (_cin : Bool) : AluResult := logicResult (a ||| b)

/-- XOR, code 0x6 (R261). -/
def aluXor (a b : Byte) (_cin : Bool) : AluResult := logicResult (a ^^^ b)

/-- CMP, code 0x7: the flags of SUB, the result discarded (R262). -/
def aluCmp (a b : Byte) (_cin : Bool) : AluResult :=
  { differenceResult ((a.toNat : Int) - b.toNat) (a.toInt - b.toInt) with store := false }

/-- INC, code 0x8, on the latched byte (R263). -/
def aluInc (_a b : Byte) (_cin : Bool) : AluResult :=
  let r := b + 1
  { r := r, z := r == 0x00#8, c := b == 0xFF#8, v := b == 0x7F#8, store := true }

/-- DEC, code 0x9, on the latched byte (R264). -/
def aluDec (_a b : Byte) (_cin : Bool) : AluResult :=
  let r := b - 1
  { r := r, z := r == 0x00#8, c := b == 0x00#8, v := b == 0x80#8, store := true }

/-- NOT, code 0xA, on the latched byte (R265). -/
def aluNot (_a b : Byte) (_cin : Bool) : AluResult := logicResult (~~~b)

/-- SHL, code 0xB: left by one, bit 7 into Carry (R266). -/
def aluShl (_a b : Byte) (_cin : Bool) : AluResult :=
  let r := b <<< 1
  { r := r, z := r == 0x00#8, c := b.getLsbD 7, v := false, store := true }

/-- SHR, code 0xC: logical right by one, bit 0 into Carry (R267). -/
def aluShr (_a b : Byte) (_cin : Bool) : AluResult :=
  let r := b >>> 1
  { r := r, z := r == 0x00#8, c := b.getLsbD 0, v := false, store := true }

/-- CLR, code 0xD: zero, whatever the operands (R268). -/
def aluClr (_a _b : Byte) (_cin : Bool) : AluResult := logicResult 0x00#8

/-- `Op[code](a, b, cin)` (R125, R250); none for codes 0xE and 0xF (R251). -/
def aluResult (code : BitVec 4) (a b : Byte) (cin : Bool) : Option AluResult :=
  match code.toNat with
  | 0 => some (aluAdd a b cin)
  | 1 => some (aluAdc a b cin)
  | 2 => some (aluSub a b cin)
  | 3 => some (aluSbb a b cin)
  | 4 => some (aluAnd a b cin)
  | 5 => some (aluOr a b cin)
  | 6 => some (aluXor a b cin)
  | 7 => some (aluCmp a b cin)
  | 8 => some (aluInc a b cin)
  | 9 => some (aluDec a b cin)
  | 10 => some (aluNot a b cin)
  | 11 => some (aluShl a b cin)
  | 12 => some (aluShr a b cin)
  | 13 => some (aluClr a b cin)
  | _ => none

/-- The flag write of the ALU: all three flags when `apply` (the FLAGS op-flag), none otherwise (R252). -/
def Bus.applyAluFlags (b : Bus) (apply : Bool) (res : AluResult) : Bus :=
  { b with z := if apply then res.z else b.z, c := if apply then res.c else b.c, v := if apply then res.v else b.v }

/-! ### Post-increment and post-decrement (R210, R211) -/

/-- An address register after `IncDec()`: its value, and which flags are set (none is ever cleared). -/
structure PostModified where
  value : Word
  setZ : Bool
  setC : Bool
  changed : Bool
deriving DecidableEq, Repr

/-- `IncDec()` on a value (R210) with `SetFlagsInc`, `SetFlagsDec` (R211): an increment to 0x0000 sets Z and C, a decrement
to 0x0000 sets Z. -/
def postModify (opFlags : Byte) (value : Word) : PostModified :=
  let inc := hasFlag opFlags flagInc
  let dec := hasFlag opFlags flagDec
  let v1 := if inc then value + 1 else value
  let v2 := if dec then v1 - 1 else v1
  { value := v2
    setZ := (inc && v1 == 0x0000#16) || (dec && v2 == 0x0000#16)
    setC := inc && v1 == 0x0000#16
    changed := inc || dec }

/-- Set, never clear, the flags of an `IncDec()` (R211); V is not touched. -/
def Bus.setPostFlags (b : Bus) (p : PostModified) : Bus := { b with z := b.z || p.setZ, c := b.c || p.setC }

end Sys2Proof.Machine
end

