-- ==== Sys2Proof/Machine/Controller.lean ====
section
/-! DEFINITION. The microcode controller (43_controller.md): fetch steps, record expansion, opcode latch, condition test and
step sequencing. The microcode table is a parameter (`Microcode`, R281), so that nothing here rests on the reference
table. -/

namespace Sys2Proof.Machine

/-- `MICROCODE`: opcode byte to optional record (R281). -/
abbrev Microcode := Byte → Option Record

/-! ### Records (R130, R131) -/

/-- Addressing-mode codes (R131); codes 5..255 are none. -/
def modeOfCode (code : Byte) : Option Mode :=
  match code.toNat with
  | 0 => some .implied
  | 1 => some .immediateByte
  | 2 => some .immediateWord
  | 3 => some .indirectByte
  | 4 => some .indirectWord
  | _ => none

/-- Condition-operator codes (R131); codes 3..255 are none. -/
def condOpOfCode (code : Byte) : Option CondOp :=
  match code.toNat with
  | 0 => some .none
  | 1 => some .and
  | 2 => some .nand
  | _ => none

/-! ### Built-in steps (R283, R287) -/

/-- XADDR `PC_ID` -> `MEMADDR_ID` with INC: fetch step 0 and the first half of a byte fetch. -/
def addressStep (w : Wiring) : MicroStep :=
  { kind := kindXaddr, src := w.pcId, dst := w.memAddrId, opFlags := flagInc }

/-- XDATA `MEM_ID` -> `CTRL_ID`: fetch step 1 and the second half of `P_byte`. -/
def byteStep (w : Wiring) : MicroStep :=
  { kind := kindXdata, src := w.memId, dst := w.ctrlId, opFlags := 0x00#8 }

/-- XDATA `MEM_ID` -> `CTRL_ID` with MSB: the second half of `P_hi`. -/
def highByteStep (w : Wiring) : MicroStep :=
  { kind := kindXdata, src := w.memId, dst := w.ctrlId, opFlags := flagMsb }

/-- XADDR `CTRL_ID` -> `MEMADDR_ID`: `P_deref`. -/
def derefStep (w : Wiring) : MicroStep :=
  { kind := kindXaddr, src := w.ctrlId, dst := w.memAddrId, opFlags := 0x00#8 }

/-- `prologue(mode)` (R287). -/
def prologue (w : Wiring) : Mode → List MicroStep
  | .implied => []
  | .immediateByte => [addressStep w, byteStep w]
  | .immediateWord => [addressStep w, byteStep w, addressStep w, highByteStep w]
  | .indirectByte => [addressStep w, byteStep w, addressStep w, highByteStep w, derefStep w]
  | .indirectWord => [addressStep w, byteStep w, addressStep w, highByteStep w, derefStep w]

/-- `Expand(rec)` for a record found under `opcode` (R287); none when the record is not well formed (R130): its opcode
field differs, its mode or condition operator is unknown, or it has more than 24 steps. The runner carries `mnemonic` and `target`, which
no rule reads (R291). -/
def expand (w : Wiring) (rec : Record) (opcode : Byte) : Option Runner :=
  match modeOfCode rec.mode, condOpOfCode rec.conditionOp with
  | some mode, some op =>
    if rec.opcode == opcode && decide (rec.steps.length ≤ Config.maxTableSteps) then
      some { opcode := rec.opcode, mnemonic := rec.mnemonic, mode := mode, target := rec.target,
             condition := rec.condition, conditionOp := op, steps := prologue w mode ++ rec.steps,
             tableStart := (prologue w mode).length, complete := false }
    else none
  | _, _ => none

/-! ### Control word (R284) -/

/-- The current micro-step: `FetchStep[step]` with no runner, `runner.steps[step - 2]` with one (R283, R284). None only in
controller states that no run reaches (notes/assumptions/16.md). -/
def Controller.current (c : Controller) (w : Wiring) : Option MicroStep :=
  match c.runner with
  | none => match c.step with
    | 0 => some (addressStep w)
    | 1 => some (byteStep w)
    | _ => none
  | some r => match c.step with
    | n + 2 => r.steps[n]?
    | _ => none

/-! ### Condition and sequencing (R292 to R294) -/

/-- `CondMet(r)` against `flags_byte()` (R292). -/
def condMet (op : CondOp) (mask flags : Byte) : Bool :=
  match op with
  | .none => true
  | .and => (flags &&& mask) == mask
  | .nand => !((flags &&& mask) == mask)

/-- Whether the runner is complete at the falling edge that makes its index `i` (R294). -/
def Runner.doneAt (r : Runner) (i : Nat) (flags : Byte) : Bool :=
  r.complete || (i == r.tableStart && !condMet r.conditionOp r.condition flags) || decide (r.steps.length ≤ i)

/-- Whether the falling edge completes the instruction in flight (R294). -/
def Controller.completes (c : Controller) (flags : Byte) : Bool :=
  match c.runner with
  | none => false
  | some r => r.doneAt (c.step + 1 - 2) flags

/-- The controller after a falling edge (R294): the step advances; a complete runner is discarded and the step is 0. -/
def Controller.advance (c : Controller) (flags : Byte) : Controller :=
  if c.completes flags then { c with step := 0, runner := none } else { c with step := c.step + 1 }

/-- Fetch step 0 with no runner: where an instruction begins (R282, R295). -/
def Controller.atBoundary (c : Controller) : Bool := c.step == 0 && c.runner.isNone

/-! ### The controller as a destination of data transfers -/

/-- The latched opcode in `ir`, the start of the opcode latch (R285). -/
def State.latchIr (s : State) (ctrlId : Id) : State :=
  (s.setCtrl { s.ctrl with ir := s.bus.dataByte }).emit (.component ctrlId) .valueChanged (some .high)

/-- A new runner, with the constant cleared (R285, R286). -/
def State.startRunner (s : State) (r : Runner) : State :=
  s.setCtrl { s.ctrl with runner := some r, constant := 0x0000#16 }

/-- XDATA into the controller at high clock: the opcode latch with no runner (R285), a byte of the constant with one
(R296). `NoMicroCode` is tested before `InvalidInstruction` (R438). -/
def State.latchController (mc : Microcode) (ctrlId : Id) (s : State) : State :=
  match s.ctrl.runner with
  | some _ => s.setCtrl { s.ctrl with constant := setHalf (s.bus.flag flagMsb) s.ctrl.constant s.bus.dataByte }
  | none =>
    match mc s.bus.dataByte with
    | none => (s.latchIr ctrlId).raise (.noMicroCode s.bus.dataByte) .high ctrlId
    | some rec =>
      match expand s.wiring rec s.bus.dataByte with
      | none => (s.latchIr ctrlId).raise (.invalidInstruction s.bus.dataByte) .high ctrlId
      | some r => (s.latchIr ctrlId).startRunner r

end Sys2Proof.Machine
end

