-- ==== Sys2Proof/Machine/Operands.lean ====
section
/-! DEFINITION. Every operand form of a bus transfer: what each kind of component does as source or destination of a data,
address or I/O transfer (41_transfers.md R200 to R226, 20_memory.md R86 to R91, 42_alu.md R250, 43_controller.md R296 to
R300), and the role checks (60_exceptions.md R436). -/

namespace Sys2Proof.Machine

/-! ### Data transfers -/

/-- The micro-step that the bus's control fields show (R122): the kind of the asserted line, OTHER when there is none. -/
def Bus.microStep (b : Bus) : MicroStep :=
  { kind := if !b.xdata then kindXdata else if !b.xaddr then kindXaddr else if !b.io then kindIo else kindOther
    src := b.sourceId, dst := b.destId, opFlags := b.opFlags }

/-- The memory data port as source (R86): the byte at MAR, or `InvalidComponentID`. With `supply` the byte is the given
one: how the bytes of an instruction that is already fetched reach the bus (notes/assumptions/8.md). -/
def State.driveMemory (supply : Option Byte) (id : Id) (s : State) : State :=
  match supply with
  | some b => s.setData b
  | none =>
    match s.mem.read s.mar with
    | some b => s.setData b
    | none => s.raise (.invalidComponentID s.mar) .rising id

/-- `drive_data()` at the rising edge (R200): register R201, address register R203, ALU R205, memory R86, controller R297;
MAR (R90) and an unoccupied id (R233) drive nothing. -/
def State.driveData (supply : Option Byte) (role : Role) (s : State) : State :=
  match role with
  | .nothing => s
  | .register r => s.setData (s.reg r)
  | .addressRegister r usesDataBus => if usesDataBus then s.setData (halfByte (s.bus.flag flagMsb) (s.areg r)) else s
  | .alu r _ => s.setData (s.reg r)
  | .memoryData id => s.driveMemory supply id
  | .memoryAddress _ => s
  | .controller _ => s.setData (halfByte (s.bus.flag flagMsb) s.ctrl.constant)

/-- Write a register and notify (R202, R213, R224). -/
def State.latchRegister (r : Id) (v : Byte) (s : State) : State :=
  (s.setReg r v).emit (.component r) .valueChanged (some .high)

/-- Write an address register and notify (R204, R209). -/
def State.latchAddressRegister (r : Id) (v : Word) (s : State) : State :=
  (s.setAreg r v).emit (.component r) .valueChanged (some .high)

/-- The ALU as destination of a data transfer (R250): operands are the left-hand register and the latched byte; the
operation code is tested before any write (R251). -/
def State.latchAlu (r lhs : Id) (s : State) : State :=
  match aluResult (aluCode s.bus.opFlags) (s.reg lhs) s.bus.dataByte s.bus.c with
  | none => s.raise (.invalidMicroCode s.bus.microStep.pack) .high r
  | some res =>
    (((s.setReg r (if res.store then res.r else s.bus.dataByte)).setAluOp r (aluCode s.bus.opFlags)).setBus
      (s.bus.applyAluFlags (s.bus.flag flagFlags) res)).emit (.component r) .valueChanged (some .high)

/-- The memory data port as destination (R87): `MemWrite(MAR, data_byte)`. -/
def State.latchMemory (id : Id) (s : State) : State :=
  match s.mem.write s.mar s.bus.dataByte with
  | .failed e => s.raise e .high id
  | .stored m => (s.setMem m).emit (.component id) .contentsChanged (some .high)

/-- `latch_data()` at high clock (R200): register R202, address register R204, ALU R250, memory R87, controller R285 and
R296; MAR (R90) and an unoccupied id (R233) latch nothing. -/
def State.latchData (mc : Microcode) (role : Role) (s : State) : State :=
  match role with
  | .nothing => s
  | .register r => s.latchRegister r s.bus.dataByte
  | .addressRegister r usesDataBus =>
    if usesDataBus then s.latchAddressRegister r (setHalf (s.bus.flag flagMsb) (s.areg r) s.bus.dataByte) else s
  | .alu r lhs => s.latchAlu r lhs
  | .memoryData id => s.latchMemory id
  | .memoryAddress _ => s
  | .controller id => s.latchController mc id

/-! ### Address transfers -/

/-- Drive both bus bytes with `value`, then set the flags of its `IncDec()` (R208, R210, R211). -/
def State.driveWord (value : Word) (p : PostModified) (s : State) : State :=
  let t := s.setBusWord value
  t.setBus (t.bus.setPostFlags p)

/-- `drive_addr()` at the rising edge (R206): address register R208, MAR R89, controller R298 (its constant, INC and DEC
ignored). A register, the ALU (R213, R218) and an unoccupied id drive nothing. -/
def State.driveAddress (role : Role) (s : State) : State :=
  match role with
  | .nothing => s
  | .register _ => s
  | .addressRegister r _ =>
    let p := postModify s.bus.opFlags (s.areg r)
    ((s.driveWord (s.areg r) p).setAreg r p.value).emitIf p.changed (.component r) .valueChanged (some .rising)
  | .alu _ _ => s
  | .memoryData _ => s
  | .memoryAddress id =>
    let p := postModify s.bus.opFlags s.mar
    ((s.driveWord s.mar p).setMar p.value).emitIf p.changed (.component id) .valueChanged (some .rising)
  | .controller _ => s.setBusWord s.ctrl.constant

/-- `latch_addr()` at high clock (R206, R207): address register R209, plain register R213 (the low byte), MAR R88. The
ALU, the controller and the data port are refused before (R436). -/
def State.latchAddress (role : Role) (s : State) : State :=
  match role with
  | .nothing => s
  | .register r => s.latchRegister r s.bus.dataByte
  | .addressRegister r _ => s.latchAddressRegister r s.bus.word
  | .alu _ _ => s
  | .memoryData _ => s
  | .memoryAddress _ => s.setMar s.bus.word
  | .controller _ => s

/-! ### I/O transfers -/

/-- Channel `get_value()` onto the bus (R224, R226): the input callback's answer, 0x00 without one; notified when
non-zero. -/
def State.driveChannel (ch : Channel) (s : State) : State :=
  if ch.hasInput then
    let b := s.nextInput ch.id
    ((s.takeInput ch.id).setData b).emitIf (b != 0x00#8) (.channel ch.id) .inputRead (some .rising)
  else s.setData 0x00#8

/-- Rising edge of an I/O transfer: out, the register side drives (R222); in, the channel drives (R224). -/
def State.driveIo (s : State) : State :=
  if s.bus.flag flagMsb then
    match s.resolve s.bus.sourceId with
    | .register r => s.setData (s.reg r)
    | _ => s
  else
    match s.wiring.channel s.bus.destId with
    | some ch => s.driveChannel ch
    | none => s

/-- Channel `set_value(data_byte)` (R223): the output callback if present, notified in either case. -/
def State.outputChannel (ch : Channel) (s : State) : State :=
  (s.outputIf ch.hasOutput ch.id s.bus.dataByte).emit (.channel ch.id) .outputWritten (some .high)

/-- High clock of an I/O transfer: out, the channel takes the byte (R222); in, the register side latches (R224). -/
def State.latchIo (s : State) : State :=
  if s.bus.flag flagMsb then
    match s.wiring.channel s.bus.destId with
    | some ch => s.outputChannel ch
    | none => s
  else
    match s.resolve s.bus.sourceId with
    | .register r => s.latchRegister r s.bus.dataByte
    | _ => s

/-! ### Role checks (R436) -/

/-- An address register or MAR, the sources that INC and DEC modify (R212). -/
def Role.postModifies : Role → Bool
  | .addressRegister _ _ => true
  | .memoryAddress _ => true
  | _ => false

/-- The memory data port (R91). -/
def Role.isMemoryData : Role → Bool
  | .memoryData _ => true
  | _ => false

/-- The ALU (R218). -/
def Role.isAlu : Role → Bool
  | .alu _ _ => true
  | _ => false

/-- The controller (R300). -/
def Role.isController : Role → Bool
  | .controller _ => true
  | _ => false

/-- `CheckRoles()` of an address transfer, in the order of R436. -/
def addressRefusal (src dst : Role) (opFlags : Byte) : Option Refusal :=
  if src.postModifies && hasFlag opFlags flagInc && hasFlag opFlags flagDec then some .incAndDec
  else if src.isMemoryData || dst.isMemoryData then some .memoryPortRole
  else if dst.isAlu then some .aluAddressTransfer
  else if dst.isController then some .controllerRole
  else none

/-- `CheckRoles()` of an I/O transfer: only a plain register, or nothing, may be the register side (R225, R436). -/
def ioRefusal (side : Role) : Option Refusal :=
  match side with
  | .nothing => none
  | .register _ => none
  | .addressRegister _ _ => some .ioRegisterSide
  | .alu _ _ => some .ioRegisterSide
  | .controller _ => some .controllerRole
  | .memoryData _ => some .memoryPortRole
  | .memoryAddress _ => some .memoryPortRole

/-- `CheckRoles()`: the refusal of the control word on the bus, if any (R436). -/
def State.roleRefusal (s : State) : Option Refusal :=
  if !s.bus.xaddr then addressRefusal (s.resolve s.bus.sourceId) (s.resolve s.bus.destId) s.bus.opFlags
  else if !s.bus.io then ioRefusal (s.resolve s.bus.sourceId)
  else none

/-- Two or more of `xdata`, `xaddr`, `io` asserted (R176). -/
def Bus.multipleLines (b : Bus) : Bool := (!b.xdata && !b.xaddr) || (!b.xdata && !b.io) || (!b.xaddr && !b.io)

end Sys2Proof.Machine
end

