-- ==== Sys2Proof/Machine/Cycle.lean ====
section
/-! DEFINITION. One cycle of four phases (40_cycle.md R170 to R179): a control word placed on the bus, the checks in their
order (60_exceptions.md R438), the phases, and running an instruction cycle by cycle (43_controller.md R290, R295). -/

namespace Sys2Proof.Machine

/-! ### Phases -/

/-- `halt` is asserted by the HALT op-flag, at the entry of the rising phase (R173, R230). -/
def State.haltPhase (s : State) : State := s.setBus { s.bus with halt := s.bus.halt || s.bus.flag flagHalt }

/-- Rising edge: the source of the asserted transfer drives (R174). -/
def State.risingPhase (supply : Option Byte) (s : State) : State :=
  if !s.bus.xdata then s.driveData supply (s.resolve s.bus.sourceId)
  else if !s.bus.xaddr then s.driveAddress (s.resolve s.bus.sourceId)
  else if !s.bus.io then s.driveIo
  else s

/-- High clock: the destination of the asserted transfer latches (R174). -/
def State.highPhase (mc : Microcode) (s : State) : State :=
  if !s.bus.xdata then s.latchData mc (s.resolve s.bus.destId)
  else if !s.bus.xaddr then s.latchAddress (s.resolve s.bus.destId)
  else if !s.bus.io then s.latchIo
  else s

/-- Falling edge: a wired controller advances its step (R174, R294). -/
def State.fallingPhase (s : State) : State :=
  if s.wiring.hasController then
    ((s.setCtrl (s.ctrl.advance s.bus.flagsByte)).emit (.component s.wiring.controllerId) .stepChanged (some .falling)).emitIf
      (s.ctrl.completes s.bus.flagsByte) (.component s.wiring.controllerId) .afterInstruction (some .falling)
  else s

/-- The phases of a cycle whose control fields are on the bus, from the line check on (R176, R177, R179, R436). The low
phase does nothing (R174). -/
def State.phases (mc : Microcode) (supply : Option Byte) (s : State) : State :=
  if s.bus.multipleLines then s.refuse .multipleTransferLines
  else match s.roleRefusal with
    | some r => s.refuse r
    | none =>
      (((s.haltPhase.risingPhase supply).andThen (State.highPhase mc)).andThen State.fallingPhase).andThen
        State.countCycle

/-! ### Control word -/

/-- The control word of a micro-step on the bus (R122, R284); the bus bytes are not part of it. -/
def State.placeWord (m : MicroStep) (s : State) : State :=
  s.setBus { s.bus with xdata := m.kind != kindXdata, xaddr := m.kind != kindXaddr, io := m.kind != kindIo,
                        sourceId := m.src, destId := m.dst, opFlags := m.opFlags }

/-- A cycle with the control word of a micro-step, less the checks of `guarded`: a step of unknown kind raises
`InvalidMicroCode` before anything else changes (R284). -/
def State.cycleOn (mc : Microcode) (supply : Option Byte) (m : MicroStep) (s : State) : State :=
  if knownKind m.kind then (s.placeWord m).phases mc supply
  else s.raise (.invalidMicroCode m.pack) .rising s.wiring.controllerId

/-- `Cycle(S)` after its first two checks: the controller's current micro-step, or, with no controller, the control fields
the host injected (R172, R179). -/
def State.cycleBody (mc : Microcode) (supply : Option Byte) (s : State) : State :=
  if s.wiring.hasController then
    match s.ctrl.current s.wiring with
    | some m => s.cycleOn mc supply m
    | none => s.refuse .controlStateOutOfRange
  else s.phases mc supply

/-- `Cycle(S)` as a state (R179): a machine with a fault record keeps it, `nmi` asserted records its refusal. -/
def State.cycle (mc : Microcode) (supply : Option Byte) (s : State) : State :=
  if s.fault.isSome then s
  else if s.bus.nmi then s.refuse .nmiAsserted
  else s.cycleBody mc supply

/-! ### Instructions -/

/-- Whether cycles go on: no fault record, and the instruction in flight not complete (R177, R295). -/
def State.inFlight (s : State) : Bool := s.fault.isNone && s.ctrl.step != 0

/-- Cycles from a state at an instruction boundary until the instruction in flight ends or the machine stops, at most
`fuel` of them. The k-th cycle's memory read is answered by the k-th supply where there is one. -/
def State.runInstructionCycles (mc : Microcode) : Nat → List (Option Byte) → State → State
  | 0, _, s => s
  | fuel + 1, supplies, s =>
    let t := s.cycle mc (supplies.headD none)
    if t.inFlight then State.runInstructionCycles mc fuel supplies.tail t else t

/-- The supplies of a fetched instruction: each byte takes an address cycle and a data cycle (R283, R287, R289). -/
def fetchSupplies : List Byte → List (Option Byte)
  | [] => []
  | b :: rest => none :: some b :: fetchSupplies rest

/-- Whether a reference instruction can begin: a wired controller at fetch step 0 with no runner (R282). -/
def State.canStart (s : State) : Bool := s.wiring.hasController && s.ctrl.atBoundary

/-- A reference instruction: its record run by the controller from the opcode fetch to its end, with `bytes` the
instruction's own bytes (R285, R287, R290; notes/assumptions/8.md). -/
def runRecord (rec : Record) (bytes : List Byte) (s : State) : Host.Outcome State Fault Refusal :=
  s.guarded fun s =>
    if s.canStart then
      s.runInstructionCycles (fun _ => some rec) Config.maxInstructionCycles (fetchSupplies bytes)
    else s.refuse .noInstructionStart

end Sys2Proof.Machine
end

