-- ==== Sys2Proof/Machine/AluImmediate.lean ====
section
/-! DEFINITION. The ALU instructions with an immediate operand (44_reference_isa.md section 8): the microcode record of each instruction, its steps as the spec's
microwords `0xFFDSKK`, and its meaning, the record run by the controller (`runRecord`). Errors of the fetch and of the steps
are recorded as R331 and the instruction's rule say. -/

namespace Sys2Proof.Machine

/-- The record of `ADD A,#imm8`: ImmediateByte, R370. -/
def addAImmRecord : Record :=
  { opcode := 0x4E#8, mnemonic := "ADD A,#imm8", mode := 0x01#8, target := 0x0#4,
    condition := 0x00#8, conditionOp := 0x00#8, steps := [0x004001#24, 0x105701#24, 0x000501#24].map MicroStep.unpack }

/-- `ADD A,#imm8` (R370): `LHS <- A; A <- (A + imm8) mod 256; pc <- p + 2`. -/
def execAddAImm (imm : Byte) (s : State) : Host.Outcome State Fault Refusal :=
  runRecord addAImmRecord [0x4E#8, imm] s

/-- The record of `CMP A,#imm8`: ImmediateByte, R371. -/
def cmpAImmRecord : Record :=
  { opcode := 0x4F#8, mnemonic := "CMP A,#imm8", mode := 0x01#8, target := 0x0#4,
    condition := 0x00#8, conditionOp := 0x00#8, steps := [0x004001#24, 0x175701#24].map MicroStep.unpack }

/-- `CMP A,#imm8` (R371): `LHS <- A; ALU <- imm8`, flags of `A - imm8`, A unchanged; `pc <- p + 2`. -/
def execCmpAImm (imm : Byte) (s : State) : Host.Outcome State Fault Refusal :=
  runRecord cmpAImmRecord [0x4F#8, imm] s

end Sys2Proof.Machine
end

