-- ==== Sys2Proof/Machine/AluRegister.lean ====
section
/-! DEFINITION. The two-operand ALU instructions on registers (44_reference_isa.md section 6): the microcode record of each instruction, its steps as the spec's
microwords `0xFFDSKK`, and its meaning, the record run by the controller (`runRecord`). Errors of the fetch and of the steps
are recorded as R331 and the instruction's rule say. -/

namespace Sys2Proof.Machine

/-- The record of `ADD A,B`: Implied, R356. -/
def addABRecord : Record :=
  { opcode := 0x40#8, mnemonic := "ADD A,B", mode := 0x00#8, target := 0x0#4,
    condition := 0x00#8, conditionOp := 0x00#8, steps := [0x004001#24, 0x105101#24, 0x000501#24].map MicroStep.unpack }

/-- `ADD A,B` (R356): `LHS <- A; ALU <- ADD(A, B); A <- ALU; pc <- p + 1`. -/
def execAddAB (s : State) : Host.Outcome State Fault Refusal :=
  runRecord addABRecord [0x40#8] s

/-- The record of `ADC A,B`: Implied, R357. -/
def adcABRecord : Record :=
  { opcode := 0x41#8, mnemonic := "ADC A,B", mode := 0x00#8, target := 0x0#4,
    condition := 0x00#8, conditionOp := 0x00#8, steps := [0x004001#24, 0x115101#24, 0x000501#24].map MicroStep.unpack }

/-- `ADC A,B` (R357): `LHS <- A; ALU <- ADC(A, B); A <- ALU; pc <- p + 1`. -/
def execAdcAB (s : State) : Host.Outcome State Fault Refusal :=
  runRecord adcABRecord [0x41#8] s

/-- The record of `SUB A,B`: Implied, R358. -/
def subABRecord : Record :=
  { opcode := 0x42#8, mnemonic := "SUB A,B", mode := 0x00#8, target := 0x0#4,
    condition := 0x00#8, conditionOp := 0x00#8, steps := [0x004001#24, 0x125101#24, 0x000501#24].map MicroStep.unpack }

/-- `SUB A,B` (R358): `LHS <- A; ALU <- SUB(A, B); A <- ALU; pc <- p + 1`. -/
def execSubAB (s : State) : Host.Outcome State Fault Refusal :=
  runRecord subABRecord [0x42#8] s

/-- The record of `SBB A,B`: Implied, R359. -/
def sbbABRecord : Record :=
  { opcode := 0x43#8, mnemonic := "SBB A,B", mode := 0x00#8, target := 0x0#4,
    condition := 0x00#8, conditionOp := 0x00#8, steps := [0x004001#24, 0x135101#24, 0x000501#24].map MicroStep.unpack }

/-- `SBB A,B` (R359): `LHS <- A; ALU <- SBB(A, B); A <- ALU; pc <- p + 1`. -/
def execSbbAB (s : State) : Host.Outcome State Fault Refusal :=
  runRecord sbbABRecord [0x43#8] s

/-- The record of `AND A,B`: Implied, R360. -/
def andABRecord : Record :=
  { opcode := 0x44#8, mnemonic := "AND A,B", mode := 0x00#8, target := 0x0#4,
    condition := 0x00#8, conditionOp := 0x00#8, steps := [0x004001#24, 0x145101#24, 0x000501#24].map MicroStep.unpack }

/-- `AND A,B` (R360): `LHS <- A; ALU <- AND(A, B); A <- ALU; pc <- p + 1`. -/
def execAndAB (s : State) : Host.Outcome State Fault Refusal :=
  runRecord andABRecord [0x44#8] s

/-- The record of `OR A,B`: Implied, R361. -/
def orABRecord : Record :=
  { opcode := 0x45#8, mnemonic := "OR A,B", mode := 0x00#8, target := 0x0#4,
    condition := 0x00#8, conditionOp := 0x00#8, steps := [0x004001#24, 0x155101#24, 0x000501#24].map MicroStep.unpack }

/-- `OR A,B` (R361): `LHS <- A; ALU <- OR(A, B); A <- ALU; pc <- p + 1`. -/
def execOrAB (s : State) : Host.Outcome State Fault Refusal :=
  runRecord orABRecord [0x45#8] s

/-- The record of `XOR A,B`: Implied, R362. -/
def xorABRecord : Record :=
  { opcode := 0x46#8, mnemonic := "XOR A,B", mode := 0x00#8, target := 0x0#4,
    condition := 0x00#8, conditionOp := 0x00#8, steps := [0x004001#24, 0x165101#24, 0x000501#24].map MicroStep.unpack }

/-- `XOR A,B` (R362): `LHS <- A; ALU <- XOR(A, B); A <- ALU; pc <- p + 1`. -/
def execXorAB (s : State) : Host.Outcome State Fault Refusal :=
  runRecord xorABRecord [0x46#8] s

/-- The record of `CMP A,B`: Implied, R363. -/
def cmpABRecord : Record :=
  { opcode := 0x47#8, mnemonic := "CMP A,B", mode := 0x00#8, target := 0x0#4,
    condition := 0x00#8, conditionOp := 0x00#8, steps := [0x004001#24, 0x175101#24].map MicroStep.unpack }

/-- `CMP A,B` (R363): `LHS <- A; ALU <- B`, flags of `A - B`, A unchanged; `pc <- p + 1`. -/
def execCmpAB (s : State) : Host.Outcome State Fault Refusal :=
  runRecord cmpABRecord [0x47#8] s

end Sys2Proof.Machine
end

