-- ==== Sys2Proof/Machine/AluUnary.lean ====
section
/-! DEFINITION. The one-operand ALU instructions (44_reference_isa.md section 7): the microcode record of each instruction, its steps as the spec's
microwords `0xFFDSKK`, and its meaning, the record run by the controller (`runRecord`). Errors of the fetch and of the steps
are recorded as R331 and the instruction's rule say. -/

namespace Sys2Proof.Machine

/-- The record of `INC A`: Implied, R364. -/
def incARecord : Record :=
  { opcode := 0x48#8, mnemonic := "INC A", mode := 0x00#8, target := 0x0#4,
    condition := 0x00#8, conditionOp := 0x00#8, steps := [0x185001#24, 0x000501#24].map MicroStep.unpack }

/-- `INC A` (R364): `ALU <- INC(A); A <- ALU; pc <- p + 1`. -/
def execIncA (s : State) : Host.Outcome State Fault Refusal :=
  runRecord incARecord [0x48#8] s

/-- The record of `DEC A`: Implied, R365. -/
def decARecord : Record :=
  { opcode := 0x49#8, mnemonic := "DEC A", mode := 0x00#8, target := 0x0#4,
    condition := 0x00#8, conditionOp := 0x00#8, steps := [0x195001#24, 0x000501#24].map MicroStep.unpack }

/-- `DEC A` (R365): `ALU <- DEC(A); A <- ALU; pc <- p + 1`. -/
def execDecA (s : State) : Host.Outcome State Fault Refusal :=
  runRecord decARecord [0x49#8] s

/-- The record of `NOT A`: Implied, R366. -/
def notARecord : Record :=
  { opcode := 0x4A#8, mnemonic := "NOT A", mode := 0x00#8, target := 0x0#4,
    condition := 0x00#8, conditionOp := 0x00#8, steps := [0x1A5001#24, 0x000501#24].map MicroStep.unpack }

/-- `NOT A` (R366): `ALU <- NOT(A); A <- ALU; pc <- p + 1`. -/
def execNotA (s : State) : Host.Outcome State Fault Refusal :=
  runRecord notARecord [0x4A#8] s

/-- The record of `SHL A`: Implied, R367. -/
def shlARecord : Record :=
  { opcode := 0x4B#8, mnemonic := "SHL A", mode := 0x00#8, target := 0x0#4,
    condition := 0x00#8, conditionOp := 0x00#8, steps := [0x1B5001#24, 0x000501#24].map MicroStep.unpack }

/-- `SHL A` (R367): `ALU <- SHL(A); A <- ALU; pc <- p + 1`. -/
def execShlA (s : State) : Host.Outcome State Fault Refusal :=
  runRecord shlARecord [0x4B#8] s

/-- The record of `SHR A`: Implied, R368. -/
def shrARecord : Record :=
  { opcode := 0x4C#8, mnemonic := "SHR A", mode := 0x00#8, target := 0x0#4,
    condition := 0x00#8, conditionOp := 0x00#8, steps := [0x1C5001#24, 0x000501#24].map MicroStep.unpack }

/-- `SHR A` (R368): `ALU <- SHR(A); A <- ALU; pc <- p + 1`. -/
def execShrA (s : State) : Host.Outcome State Fault Refusal :=
  runRecord shrARecord [0x4C#8] s

/-- The record of `CLR A`: Implied, R369. -/
def clrARecord : Record :=
  { opcode := 0x4D#8, mnemonic := "CLR A", mode := 0x00#8, target := 0x0#4,
    condition := 0x00#8, conditionOp := 0x00#8, steps := [0x1D5001#24, 0x000501#24].map MicroStep.unpack }

/-- `CLR A` (R369): `ALU <- CLR(A); A <- ALU; pc <- p + 1`. -/
def execClrA (s : State) : Host.Outcome State Fault Refusal :=
  runRecord clrARecord [0x4D#8] s

end Sys2Proof.Machine
end

