-- ==== Sys2Proof/Machine/ByteMoves.lean ====
section
/-! DEFINITION. The byte moves (44_reference_isa.md section 3): the microcode record of each instruction, its steps as the spec's
microwords `0xFFDSKK`, and its meaning, the record run by the controller (`runRecord`). Errors of the fetch and of the steps
are recorded as R331 and the instruction's rule say. -/

namespace Sys2Proof.Machine

/-- The record of `MOV A,#imm8`: ImmediateByte, R334. -/
def movAImmRecord : Record :=
  { opcode := 0x10#8, mnemonic := "MOV A,#imm8", mode := 0x01#8, target := 0x0#4,
    condition := 0x00#8, conditionOp := 0x00#8, steps := [0x000701#24].map MicroStep.unpack }

/-- `MOV A,#imm8` (R334): `A <- imm8; pc <- p + 2`. -/
def execMovAImm (imm : Byte) (s : State) : Host.Outcome State Fault Refusal :=
  runRecord movAImmRecord [0x10#8, imm] s

/-- The record of `MOV B,#imm8`: ImmediateByte, R335. -/
def movBImmRecord : Record :=
  { opcode := 0x11#8, mnemonic := "MOV B,#imm8", mode := 0x01#8, target := 0x0#4,
    condition := 0x00#8, conditionOp := 0x00#8, steps := [0x001701#24].map MicroStep.unpack }

/-- `MOV B,#imm8` (R335): `B <- imm8; pc <- p + 2`. -/
def execMovBImm (imm : Byte) (s : State) : Host.Outcome State Fault Refusal :=
  runRecord movBImmRecord [0x11#8, imm] s

/-- The record of `MOV C,#imm8`: ImmediateByte, R336. -/
def movCImmRecord : Record :=
  { opcode := 0x12#8, mnemonic := "MOV C,#imm8", mode := 0x01#8, target := 0x0#4,
    condition := 0x00#8, conditionOp := 0x00#8, steps := [0x002701#24].map MicroStep.unpack }

/-- `MOV C,#imm8` (R336): `C <- imm8; pc <- p + 2`. -/
def execMovCImm (imm : Byte) (s : State) : Host.Outcome State Fault Refusal :=
  runRecord movCImmRecord [0x12#8, imm] s

/-- The record of `MOV D,#imm8`: ImmediateByte, R337. -/
def movDImmRecord : Record :=
  { opcode := 0x13#8, mnemonic := "MOV D,#imm8", mode := 0x01#8, target := 0x0#4,
    condition := 0x00#8, conditionOp := 0x00#8, steps := [0x003701#24].map MicroStep.unpack }

/-- `MOV D,#imm8` (R337): `D <- imm8; pc <- p + 2`. -/
def execMovDImm (imm : Byte) (s : State) : Host.Outcome State Fault Refusal :=
  runRecord movDImmRecord [0x13#8, imm] s

/-- The record of `MOV A,B`: Implied, R338. -/
def movABRecord : Record :=
  { opcode := 0x14#8, mnemonic := "MOV A,B", mode := 0x00#8, target := 0x0#4,
    condition := 0x00#8, conditionOp := 0x00#8, steps := [0x000101#24].map MicroStep.unpack }

/-- `MOV A,B` (R338): `A <- B; pc <- p + 1`. -/
def execMovAB (s : State) : Host.Outcome State Fault Refusal :=
  runRecord movABRecord [0x14#8] s

/-- The record of `MOV A,C`: Implied, R339. -/
def movACRecord : Record :=
  { opcode := 0x15#8, mnemonic := "MOV A,C", mode := 0x00#8, target := 0x0#4,
    condition := 0x00#8, conditionOp := 0x00#8, steps := [0x000201#24].map MicroStep.unpack }

/-- `MOV A,C` (R339): `A <- C; pc <- p + 1`. -/
def execMovAC (s : State) : Host.Outcome State Fault Refusal :=
  runRecord movACRecord [0x15#8] s

/-- The record of `MOV A,D`: Implied, R340. -/
def movADRecord : Record :=
  { opcode := 0x16#8, mnemonic := "MOV A,D", mode := 0x00#8, target := 0x0#4,
    condition := 0x00#8, conditionOp := 0x00#8, steps := [0x000301#24].map MicroStep.unpack }

/-- `MOV A,D` (R340): `A <- D; pc <- p + 1`. -/
def execMovAD (s : State) : Host.Outcome State Fault Refusal :=
  runRecord movADRecord [0x16#8] s

/-- The record of `MOV B,A`: Implied, R341. -/
def movBARecord : Record :=
  { opcode := 0x17#8, mnemonic := "MOV B,A", mode := 0x00#8, target := 0x0#4,
    condition := 0x00#8, conditionOp := 0x00#8, steps := [0x001001#24].map MicroStep.unpack }

/-- `MOV B,A` (R341): `B <- A; pc <- p + 1`. -/
def execMovBA (s : State) : Host.Outcome State Fault Refusal :=
  runRecord movBARecord [0x17#8] s

/-- The record of `MOV C,A`: Implied, R342. -/
def movCARecord : Record :=
  { opcode := 0x18#8, mnemonic := "MOV C,A", mode := 0x00#8, target := 0x0#4,
    condition := 0x00#8, conditionOp := 0x00#8, steps := [0x002001#24].map MicroStep.unpack }

/-- `MOV C,A` (R342): `C <- A; pc <- p + 1`. -/
def execMovCA (s : State) : Host.Outcome State Fault Refusal :=
  runRecord movCARecord [0x18#8] s

/-- The record of `MOV D,A`: Implied, R343. -/
def movDARecord : Record :=
  { opcode := 0x19#8, mnemonic := "MOV D,A", mode := 0x00#8, target := 0x0#4,
    condition := 0x00#8, conditionOp := 0x00#8, steps := [0x003001#24].map MicroStep.unpack }

/-- `MOV D,A` (R343): `D <- A; pc <- p + 1`. -/
def execMovDA (s : State) : Host.Outcome State Fault Refusal :=
  runRecord movDARecord [0x19#8] s

end Sys2Proof.Machine
end

