-- ==== Sys2Proof/Machine/Control.lean ====
section
/-! DEFINITION. NOP and HLT (44_reference_isa.md section 2): the microcode record of each instruction, its steps as the spec's
microwords `0xFFDSKK`, and its meaning, the record run by the controller (`runRecord`). Errors of the fetch and of the steps
are recorded as R331 and the instruction's rule say. -/

namespace Sys2Proof.Machine

/-- The record of `NOP`: Implied, R332. -/
def nopRecord : Record :=
  { opcode := 0x00#8, mnemonic := "NOP", mode := 0x00#8, target := 0x0#4,
    condition := 0x00#8, conditionOp := 0x00#8, steps := [] }

/-- `NOP` (R332): `pc <- p + 1`. -/
def execNop (s : State) : Host.Outcome State Fault Refusal :=
  runRecord nopRecord [0x00#8] s

/-- The record of `HLT`: Implied, R333. -/
def hltRecord : Record :=
  { opcode := 0x01#8, mnemonic := "HLT", mode := 0x00#8, target := 0x0#4,
    condition := 0x00#8, conditionOp := 0x00#8, steps := [0x800008#24].map MicroStep.unpack }

/-- `HLT` (R333): `pc <- p + 1; halt <- asserted`. -/
def execHlt (s : State) : Host.Outcome State Fault Refusal :=
  runRecord hltRecord [0x01#8] s

end Sys2Proof.Machine
end

