-- ==== Sys2Proof/Machine/InOut.lean ====
section
/-! DEFINITION. The I/O instructions (44_reference_isa.md section 10): the microcode record of each instruction, its steps as the spec's
microwords `0xFFDSKK`, and its meaning, the record run by the controller (`runRecord`). Errors of the fetch and of the steps
are recorded as R331 and the instruction's rule say. -/

namespace Sys2Proof.Machine

/-- The record of `OUT A`: Implied, R380. -/
def outARecord : Record :=
  { opcode := 0x60#8, mnemonic := "OUT A", mode := 0x00#8, target := 0x0#4,
    condition := 0x00#8, conditionOp := 0x00#8, steps := [0x080004#24].map MicroStep.unpack }

/-- `OUT A` (R380): `output(channel 0, A); pc <- p + 1`. -/
def execOutA (s : State) : Host.Outcome State Fault Refusal :=
  runRecord outARecord [0x60#8] s

/-- The record of `IN A`: Implied, R381. -/
def inARecord : Record :=
  { opcode := 0x61#8, mnemonic := "IN A", mode := 0x00#8, target := 0x0#4,
    condition := 0x00#8, conditionOp := 0x00#8, steps := [0x001004#24].map MicroStep.unpack }

/-- `IN A` (R381): `A <- input(channel 1); pc <- p + 1`. -/
def execInA (s : State) : Host.Outcome State Fault Refusal :=
  runRecord inARecord [0x61#8] s

end Sys2Proof.Machine
end

