-- ==== Sys2Proof/Machine/Jumps.lean ====
section
/-! DEFINITION. Jumps, call and return (44_reference_isa.md section 9): the microcode record of each instruction, its steps as the spec's
microwords `0xFFDSKK`, and its meaning, the record run by the controller (`runRecord`). Errors of the fetch and of the steps
are recorded as R331 and the instruction's rule say. -/

namespace Sys2Proof.Machine

/-- The record of `JMP a16`: ImmediateWord, R372. -/
def jmpRecord : Record :=
  { opcode := 0x50#8, mnemonic := "JMP a16", mode := 0x02#8, target := 0x0#4,
    condition := 0x00#8, conditionOp := 0x00#8, steps := [0x008702#24].map MicroStep.unpack }

/-- `JMP a16` (R372): `pc <- t`. -/
def execJmp (target : Word) (s : State) : Host.Outcome State Fault Refusal :=
  runRecord jmpRecord (0x50#8 :: wordBytes target) s

/-- The record of `JZ a16`: ImmediateWord, R373. -/
def jzRecord : Record :=
  { opcode := 0x51#8, mnemonic := "JZ a16", mode := 0x02#8, target := 0x0#4,
    condition := 0x01#8, conditionOp := 0x01#8, steps := [0x008702#24].map MicroStep.unpack }

/-- `JZ a16` (R373): `pc <- p + 3; if Z: pc <- t`. -/
def execJz (target : Word) (s : State) : Host.Outcome State Fault Refusal :=
  runRecord jzRecord (0x51#8 :: wordBytes target) s

/-- The record of `JNZ a16`: ImmediateWord, R374. -/
def jnzRecord : Record :=
  { opcode := 0x52#8, mnemonic := "JNZ a16", mode := 0x02#8, target := 0x0#4,
    condition := 0x01#8, conditionOp := 0x02#8, steps := [0x008702#24].map MicroStep.unpack }

/-- `JNZ a16` (R374): `pc <- p + 3; if not Z: pc <- t`. -/
def execJnz (target : Word) (s : State) : Host.Outcome State Fault Refusal :=
  runRecord jnzRecord (0x52#8 :: wordBytes target) s

/-- The record of `JC a16`: ImmediateWord, R375. -/
def jcRecord : Record :=
  { opcode := 0x53#8, mnemonic := "JC a16", mode := 0x02#8, target := 0x0#4,
    condition := 0x02#8, conditionOp := 0x01#8, steps := [0x008702#24].map MicroStep.unpack }

/-- `JC a16` (R375): `pc <- p + 3; if C: pc <- t`. -/
def execJc (target : Word) (s : State) : Host.Outcome State Fault Refusal :=
  runRecord jcRecord (0x53#8 :: wordBytes target) s

/-- The record of `JNC a16`: ImmediateWord, R376. -/
def jncRecord : Record :=
  { opcode := 0x54#8, mnemonic := "JNC a16", mode := 0x02#8, target := 0x0#4,
    condition := 0x02#8, conditionOp := 0x02#8, steps := [0x008702#24].map MicroStep.unpack }

/-- `JNC a16` (R376): `pc <- p + 3; if not C: pc <- t`. -/
def execJnc (target : Word) (s : State) : Host.Outcome State Fault Refusal :=
  runRecord jncRecord (0x54#8 :: wordBytes target) s

/-- The record of `JV a16`: ImmediateWord, R377. -/
def jvRecord : Record :=
  { opcode := 0x55#8, mnemonic := "JV a16", mode := 0x02#8, target := 0x0#4,
    condition := 0x04#8, conditionOp := 0x01#8, steps := [0x008702#24].map MicroStep.unpack }

/-- `JV a16` (R377): `pc <- p + 3; if V: pc <- t`. -/
def execJv (target : Word) (s : State) : Host.Outcome State Fault Refusal :=
  runRecord jvRecord (0x55#8 :: wordBytes target) s

/-- The record of `CALL a16`: ImmediateWord, R378. -/
def callRecord : Record :=
  { opcode := 0x56#8, mnemonic := "CALL a16", mode := 0x02#8, target := 0x0#4,
    condition := 0x00#8, conditionOp := 0x00#8, steps := [0x02F902#24, 0x08E801#24, 0x02F902#24, 0x00E801#24, 0x008702#24].map MicroStep.unpack }

/-- `CALL a16` (R378): `r <- p + 3; M[SP] <- r[15:8]; M[SP - 1] <- r[7:0]; SP <- SP - 2; pc <- t`. -/
def execCall (target : Word) (s : State) : Host.Outcome State Fault Refusal :=
  runRecord callRecord (0x56#8 :: wordBytes target) s

/-- The record of `RET`: Implied, R379. -/
def retRecord : Record :=
  { opcode := 0x57#8, mnemonic := "RET", mode := 0x00#8, target := 0x0#4,
    condition := 0x00#8, conditionOp := 0x00#8, steps := [0x01F902#24, 0x00F902#24, 0x008E01#24, 0x01F902#24, 0x00F902#24, 0x088E01#24].map MicroStep.unpack }

/-- `RET` (R379): `pc[7:0] <- M[SP + 1]; pc[15:8] <- M[SP + 2]; SP <- SP + 2`. -/
def execRet (s : State) : Host.Outcome State Fault Refusal :=
  runRecord retRecord [0x57#8] s

end Sys2Proof.Machine
end

