-- ==== Sys2Proof/Machine/Stack.lean ====
section
/-! DEFINITION. PUSH and POP (44_reference_isa.md section 5): the microcode record of each instruction, its steps as the spec's
microwords `0xFFDSKK`, and its meaning, the record run by the controller (`runRecord`). Errors of the fetch and of the steps
are recorded as R331 and the instruction's rule say. -/

namespace Sys2Proof.Machine

/-- The record of `PUSH A`: Implied, R354. -/
def pushARecord : Record :=
  { opcode := 0x30#8, mnemonic := "PUSH A", mode := 0x00#8, target := 0x0#4,
    condition := 0x00#8, conditionOp := 0x00#8, steps := [0x02F902#24, 0x00E001#24].map MicroStep.unpack }

/-- `PUSH A` (R354): `MAR <- SP; SP <- SP - 1; MemWrite(MAR, A); pc <- p + 1`. -/
def execPushA (s : State) : Host.Outcome State Fault Refusal :=
  runRecord pushARecord [0x30#8] s

/-- The record of `POP A`: Implied, R355. -/
def popARecord : Record :=
  { opcode := 0x31#8, mnemonic := "POP A", mode := 0x00#8, target := 0x0#4,
    condition := 0x00#8, conditionOp := 0x00#8, steps := [0x01F902#24, 0x00F902#24, 0x000E01#24].map MicroStep.unpack }

/-- `POP A` (R355): `SP <- SP + 1; MAR <- SP; A <- M[SP]; pc <- p + 1`. -/
def execPopA (s : State) : Host.Outcome State Fault Refusal :=
  runRecord popARecord [0x31#8] s

end Sys2Proof.Machine
end

