-- ==== Sys2Proof/Machine/WordMoves.lean ====
section
/-! DEFINITION. The memory and 16-bit moves (44_reference_isa.md section 4): the microcode record of each instruction, its steps as the spec's
microwords `0xFFDSKK`, and its meaning, the record run by the controller (`runRecord`). Errors of the fetch and of the steps
are recorded as R331 and the instruction's rule say. -/

namespace Sys2Proof.Machine

/-- The record of `MOV A,[a16]`: IndirectByte, R344. -/
def movAMemRecord : Record :=
  { opcode := 0x20#8, mnemonic := "MOV A,[a16]", mode := 0x03#8, target := 0x0#4,
    condition := 0x00#8, conditionOp := 0x00#8, steps := [0x000E01#24].map MicroStep.unpack }

/-- `MOV A,[a16]` (R344): `A <- M[a]; MAR <- a; pc <- p + 3`. -/
def execMovAMem (addr : Word) (s : State) : Host.Outcome State Fault Refusal :=
  runRecord movAMemRecord (0x20#8 :: wordBytes addr) s

/-- The record of `MOV [a16],A`: IndirectByte, R345. -/
def movMemARecord : Record :=
  { opcode := 0x21#8, mnemonic := "MOV [a16],A", mode := 0x03#8, target := 0x0#4,
    condition := 0x00#8, conditionOp := 0x00#8, steps := [0x00E001#24].map MicroStep.unpack }

/-- `MOV [a16],A` (R345): `MemWrite(a, A); MAR <- a; pc <- p + 3`. -/
def execMovMemA (addr : Word) (s : State) : Host.Outcome State Fault Refusal :=
  runRecord movMemARecord (0x21#8 :: wordBytes addr) s

/-- The record of `MOV B,[a16]`: IndirectByte, R346. -/
def movBMemRecord : Record :=
  { opcode := 0x22#8, mnemonic := "MOV B,[a16]", mode := 0x03#8, target := 0x0#4,
    condition := 0x00#8, conditionOp := 0x00#8, steps := [0x001E01#24].map MicroStep.unpack }

/-- `MOV B,[a16]` (R346): `B <- M[a]; MAR <- a; pc <- p + 3`. -/
def execMovBMem (addr : Word) (s : State) : Host.Outcome State Fault Refusal :=
  runRecord movBMemRecord (0x22#8 :: wordBytes addr) s

/-- The record of `MOV [a16],B`: IndirectByte, R347. -/
def movMemBRecord : Record :=
  { opcode := 0x23#8, mnemonic := "MOV [a16],B", mode := 0x03#8, target := 0x0#4,
    condition := 0x00#8, conditionOp := 0x00#8, steps := [0x00E101#24].map MicroStep.unpack }

/-- `MOV [a16],B` (R347): `MemWrite(a, B); MAR <- a; pc <- p + 3`. -/
def execMovMemB (addr : Word) (s : State) : Host.Outcome State Fault Refusal :=
  runRecord movMemBRecord (0x23#8 :: wordBytes addr) s

/-- The record of `MOV SP,#imm16`: ImmediateWord, R348. -/
def movSpImmRecord : Record :=
  { opcode := 0x24#8, mnemonic := "MOV SP,#imm16", mode := 0x02#8, target := 0x0#4,
    condition := 0x00#8, conditionOp := 0x00#8, steps := [0x009702#24].map MicroStep.unpack }

/-- `MOV SP,#imm16` (R348): `SP <- word(hi, lo); pc <- p + 3`. -/
def execMovSpImm (imm : Word) (s : State) : Host.Outcome State Fault Refusal :=
  runRecord movSpImmRecord (0x24#8 :: wordBytes imm) s

/-- The record of `MOV SI,#imm16`: ImmediateWord, R349. -/
def movSiImmRecord : Record :=
  { opcode := 0x25#8, mnemonic := "MOV SI,#imm16", mode := 0x02#8, target := 0x0#4,
    condition := 0x00#8, conditionOp := 0x00#8, steps := [0x00A702#24].map MicroStep.unpack }

/-- `MOV SI,#imm16` (R349): `SI <- word(hi, lo); pc <- p + 3`. -/
def execMovSiImm (imm : Word) (s : State) : Host.Outcome State Fault Refusal :=
  runRecord movSiImmRecord (0x25#8 :: wordBytes imm) s

/-- The record of `MOV DI,#imm16`: ImmediateWord, R350. -/
def movDiImmRecord : Record :=
  { opcode := 0x26#8, mnemonic := "MOV DI,#imm16", mode := 0x02#8, target := 0x0#4,
    condition := 0x00#8, conditionOp := 0x00#8, steps := [0x00B702#24].map MicroStep.unpack }

/-- `MOV DI,#imm16` (R350): `DI <- word(hi, lo); pc <- p + 3`. -/
def execMovDiImm (imm : Word) (s : State) : Host.Outcome State Fault Refusal :=
  runRecord movDiImmRecord (0x26#8 :: wordBytes imm) s

/-- The record of `MOV A,[SI+]`: Implied, R351. -/
def movASiIncRecord : Record :=
  { opcode := 0x27#8, mnemonic := "MOV A,[SI+]", mode := 0x00#8, target := 0x0#4,
    condition := 0x00#8, conditionOp := 0x00#8, steps := [0x01FA02#24, 0x000E01#24].map MicroStep.unpack }

/-- `MOV A,[SI+]` (R351): `MAR <- SI; SI <- SI + 1; A <- M[MAR]; pc <- p + 1`. -/
def execMovASiInc (s : State) : Host.Outcome State Fault Refusal :=
  runRecord movASiIncRecord [0x27#8] s

/-- The record of `MOV [DI+],A`: Implied, R352. -/
def movDiIncARecord : Record :=
  { opcode := 0x28#8, mnemonic := "MOV [DI+],A", mode := 0x00#8, target := 0x0#4,
    condition := 0x00#8, conditionOp := 0x00#8, steps := [0x01FB02#24, 0x00E001#24].map MicroStep.unpack }

/-- `MOV [DI+],A` (R352): `MAR <- DI; DI <- DI + 1; MemWrite(MAR, A); pc <- p + 1`. -/
def execMovDiIncA (s : State) : Host.Outcome State Fault Refusal :=
  runRecord movDiIncARecord [0x28#8] s

/-- The record of `MOV SI,[a16]`: IndirectWord, R353. -/
def movSiMemRecord : Record :=
  { opcode := 0x29#8, mnemonic := "MOV SI,[a16]", mode := 0x04#8, target := 0x0#4,
    condition := 0x00#8, conditionOp := 0x00#8, steps := [0x00AE01#24, 0x01CF02#24, 0x08AE01#24].map MicroStep.unpack }

/-- `MOV SI,[a16]` (R353): `SI[7:0] <- M[a]; TX <- a; MAR <- a + 1; SI[15:8] <- M[a + 1]; pc <- p + 3`. -/
def execMovSiMem (addr : Word) (s : State) : Host.Outcome State Fault Refusal :=
  runRecord movSiMemRecord (0x29#8 :: wordBytes addr) s

end Sys2Proof.Machine
end

