-- ==== Sys2Proof/Machine/Microcode.lean ====
section
/-! DEFINITION. The reference microcode table `MICROCODE` (44_reference_isa.md R330 to R383): 50 records; the other 206 opcodes
have none (R382). -/

namespace Sys2Proof.Machine

/-- The record stored under an opcode in the reference table. -/
def referenceMicrocode : Microcode := fun op =>
  match op.toNat with
  | 0x00 => some nopRecord
  | 0x01 => some hltRecord
  | 0x10 => some movAImmRecord
  | 0x11 => some movBImmRecord
  | 0x12 => some movCImmRecord
  | 0x13 => some movDImmRecord
  | 0x14 => some movABRecord
  | 0x15 => some movACRecord
  | 0x16 => some movADRecord
  | 0x17 => some movBARecord
  | 0x18 => some movCARecord
  | 0x19 => some movDARecord
  | 0x20 => some movAMemRecord
  | 0x21 => some movMemARecord
  | 0x22 => some movBMemRecord
  | 0x23 => some movMemBRecord
  | 0x24 => some movSpImmRecord
  | 0x25 => some movSiImmRecord
  | 0x26 => some movDiImmRecord
  | 0x27 => some movASiIncRecord
  | 0x28 => some movDiIncARecord
  | 0x29 => some movSiMemRecord
  | 0x30 => some pushARecord
  | 0x31 => some popARecord
  | 0x40 => some addABRecord
  | 0x41 => some adcABRecord
  | 0x42 => some subABRecord
  | 0x43 => some sbbABRecord
  | 0x44 => some andABRecord
  | 0x45 => some orABRecord
  | 0x46 => some xorABRecord
  | 0x47 => some cmpABRecord
  | 0x48 => some incARecord
  | 0x49 => some decARecord
  | 0x4A => some notARecord
  | 0x4B => some shlARecord
  | 0x4C => some shrARecord
  | 0x4D => some clrARecord
  | 0x4E => some addAImmRecord
  | 0x4F => some cmpAImmRecord
  | 0x50 => some jmpRecord
  | 0x51 => some jzRecord
  | 0x52 => some jnzRecord
  | 0x53 => some jcRecord
  | 0x54 => some jncRecord
  | 0x55 => some jvRecord
  | 0x56 => some callRecord
  | 0x57 => some retRecord
  | 0x60 => some outARecord
  | 0x61 => some inARecord
  | _ => none

/-- One cycle of the reference machine (R179), as a state. -/
def State.referenceCycle (s : State) : State := s.cycle referenceMicrocode none

/-- A micro-operation: one cycle with the control word of a micro-step, over the reference table (R172, R179). -/
def execStep (m : MicroStep) (s : State) : Host.Outcome State Fault Refusal :=
  s.guarded (State.cycleOn referenceMicrocode none m)

end Sys2Proof.Machine
end

