-- ==== Sys2Proof/Machine/MicroAlu.lean ====
section
/-! DEFINITION. The fourteen ALU micro-operations as instructions: XDATA `src -> ALU_ID` with an operation code
(42_alu.md R250, R255 to R268). `flags` holds op-flags bits 6..4; bit 4 is FLAGS (R124). -/

namespace Sys2Proof.Machine

/-- ALU ADD, code 0x0 (R255). -/
def execAluAdd (src : Id) (flags : BitVec 3) (s : State) : Host.Outcome State Fault Refusal :=
  execStep (aluStep src flags 0x0#4) s

/-- ALU ADC, code 0x1 (R256). -/
def execAluAdc (src : Id) (flags : BitVec 3) (s : State) : Host.Outcome State Fault Refusal :=
  execStep (aluStep src flags 0x1#4) s

/-- ALU SUB, code 0x2 (R257). -/
def execAluSub (src : Id) (flags : BitVec 3) (s : State) : Host.Outcome State Fault Refusal :=
  execStep (aluStep src flags 0x2#4) s

/-- ALU SBB, code 0x3 (R258). -/
def execAluSbb (src : Id) (flags : BitVec 3) (s : State) : Host.Outcome State Fault Refusal :=
  execStep (aluStep src flags 0x3#4) s

/-- ALU AND, code 0x4 (R259). -/
def execAluAnd (src : Id) (flags : BitVec 3) (s : State) : Host.Outcome State Fault Refusal :=
  execStep (aluStep src flags 0x4#4) s

/-- ALU OR, code 0x5 (R260). -/
def execAluOr (src : Id) (flags : BitVec 3) (s : State) : Host.Outcome State Fault Refusal :=
  execStep (aluStep src flags 0x5#4) s

/-- ALU XOR, code 0x6 (R261). -/
def execAluXor (src : Id) (flags : BitVec 3) (s : State) : Host.Outcome State Fault Refusal :=
  execStep (aluStep src flags 0x6#4) s

/-- ALU CMP, code 0x7 (R262). -/
def execAluCmp (src : Id) (flags : BitVec 3) (s : State) : Host.Outcome State Fault Refusal :=
  execStep (aluStep src flags 0x7#4) s

/-- ALU INC, code 0x8 (R263). -/
def execAluInc (src : Id) (flags : BitVec 3) (s : State) : Host.Outcome State Fault Refusal :=
  execStep (aluStep src flags 0x8#4) s

/-- ALU DEC, code 0x9 (R264). -/
def execAluDec (src : Id) (flags : BitVec 3) (s : State) : Host.Outcome State Fault Refusal :=
  execStep (aluStep src flags 0x9#4) s

/-- ALU NOT, code 0xA (R265). -/
def execAluNot (src : Id) (flags : BitVec 3) (s : State) : Host.Outcome State Fault Refusal :=
  execStep (aluStep src flags 0xA#4) s

/-- ALU SHL, code 0xB (R266). -/
def execAluShl (src : Id) (flags : BitVec 3) (s : State) : Host.Outcome State Fault Refusal :=
  execStep (aluStep src flags 0xB#4) s

/-- ALU SHR, code 0xC (R267). -/
def execAluShr (src : Id) (flags : BitVec 3) (s : State) : Host.Outcome State Fault Refusal :=
  execStep (aluStep src flags 0xC#4) s

/-- ALU CLR, code 0xD (R268). -/
def execAluClr (src : Id) (flags : BitVec 3) (s : State) : Host.Outcome State Fault Refusal :=
  execStep (aluStep src flags 0xD#4) s

end Sys2Proof.Machine
end

