-- ==== Sys2Proof/Machine/MicroTransfers.lean ====
section
/-! DEFINITION. The bus micro-operations as instructions: data, address and I/O transfers, no transfer, and the HALT op-flag
(41_transfers.md). Each is one cycle with its control word; what the components do in it is Operands.lean. -/

namespace Sys2Proof.Machine

/-- XDATA `src -> dst` (R200): the source drives `data_byte` at the rising edge, the destination latches at high clock. -/
def execXdata (src dst : Id) (flags : BitVec 7) (s : State) : Host.Outcome State Fault Refusal :=
  execStep { kind := kindXdata, src := src, dst := dst, opFlags := plainFlags flags } s

/-- XADDR `src -> dst` (R206): the source drives both bytes, post-modifies, the destination latches the word. -/
def execXaddr (src dst : Id) (flags : BitVec 7) (s : State) : Host.Outcome State Fault Refusal :=
  execStep { kind := kindXaddr, src := src, dst := dst, opFlags := plainFlags flags } s

/-- IO-out `reg -> channel` (R220): op-flags with IO_OUT. -/
def execIoOut (reg channel : Id) (flags : BitVec 7) (s : State) : Host.Outcome State Fault Refusal :=
  execStep { kind := kindIo, src := reg, dst := channel, opFlags := plainFlags flags } s

/-- IO-in `channel -> reg` (R221): op-flags without IO_OUT; `dest_id` names the channel, `source_id` the register. -/
def execIoIn (reg channel : Id) (flags : BitVec 7) (s : State) : Host.Outcome State Fault Refusal :=
  execStep { kind := kindIo, src := reg, dst := channel, opFlags := plainFlags flags } s

/-- OTHER (R231): no transfer, a one-cycle no-operation. -/
def execOther (src dst : Id) (flags : BitVec 7) (s : State) : Host.Outcome State Fault Refusal :=
  execStep { kind := kindOther, src := src, dst := dst, opFlags := plainFlags flags } s

/-- The HALT op-flag on a step of any kind (R230): `halt` is asserted and the step's transfer still happens; a step of
unknown kind raises `InvalidMicroCode` (R284). -/
def execHalt (kind : Byte) (src dst : Id) (flags : BitVec 7) (s : State) : Host.Outcome State Fault Refusal :=
  execStep { kind := kind, src := src, dst := dst, opFlags := 1#1 ++ flags } s

end Sys2Proof.Machine
end

