-- ==== Sys2Proof/Machine/Dispatch.lean ====
section
/-! DEFINITION. The meaning of every instruction: one arm per constructor of `Instr`. -/

namespace Sys2Proof.Machine

def exec (i : Instr) (s : State) : Host.Outcome State Fault Refusal :=
  match i with
  | .xdata src dst flags => Sys2Proof.Machine.execXdata src dst flags s
  | .xaddr src dst flags => Sys2Proof.Machine.execXaddr src dst flags s
  | .ioOut reg channel flags => Sys2Proof.Machine.execIoOut reg channel flags s
  | .ioIn reg channel flags => Sys2Proof.Machine.execIoIn reg channel flags s
  | .other src dst flags => Sys2Proof.Machine.execOther src dst flags s
  | .halt kind src dst flags => Sys2Proof.Machine.execHalt kind src dst flags s
  | .aluAdd src flags => Sys2Proof.Machine.execAluAdd src flags s
  | .aluAdc src flags => Sys2Proof.Machine.execAluAdc src flags s
  | .aluSub src flags => Sys2Proof.Machine.execAluSub src flags s
  | .aluSbb src flags => Sys2Proof.Machine.execAluSbb src flags s
  | .aluAnd src flags => Sys2Proof.Machine.execAluAnd src flags s
  | .aluOr src flags => Sys2Proof.Machine.execAluOr src flags s
  | .aluXor src flags => Sys2Proof.Machine.execAluXor src flags s
  | .aluCmp src flags => Sys2Proof.Machine.execAluCmp src flags s
  | .aluInc src flags => Sys2Proof.Machine.execAluInc src flags s
  | .aluDec src flags => Sys2Proof.Machine.execAluDec src flags s
  | .aluNot src flags => Sys2Proof.Machine.execAluNot src flags s
  | .aluShl src flags => Sys2Proof.Machine.execAluShl src flags s
  | .aluShr src flags => Sys2Proof.Machine.execAluShr src flags s
  | .aluClr src flags => Sys2Proof.Machine.execAluClr src flags s
  | .nop => Sys2Proof.Machine.execNop s
  | .hlt => Sys2Proof.Machine.execHlt s
  | .movAImm imm => Sys2Proof.Machine.execMovAImm imm s
  | .movBImm imm => Sys2Proof.Machine.execMovBImm imm s
  | .movCImm imm => Sys2Proof.Machine.execMovCImm imm s
  | .movDImm imm => Sys2Proof.Machine.execMovDImm imm s
  | .movAB => Sys2Proof.Machine.execMovAB s
  | .movAC => Sys2Proof.Machine.execMovAC s
  | .movAD => Sys2Proof.Machine.execMovAD s
  | .movBA => Sys2Proof.Machine.execMovBA s
  | .movCA => Sys2Proof.Machine.execMovCA s
  | .movDA => Sys2Proof.Machine.execMovDA s
  | .movAMem addr => Sys2Proof.Machine.execMovAMem addr s
  | .movMemA addr => Sys2Proof.Machine.execMovMemA addr s
  | .movBMem addr => Sys2Proof.Machine.execMovBMem addr s
  | .movMemB addr => Sys2Proof.Machine.execMovMemB addr s
  | .movSpImm imm => Sys2Proof.Machine.execMovSpImm imm s
  | .movSiImm imm => Sys2Proof.Machine.execMovSiImm imm s
  | .movDiImm imm => Sys2Proof.Machine.execMovDiImm imm s
  | .movASiInc => Sys2Proof.Machine.execMovASiInc s
  | .movDiIncA => Sys2Proof.Machine.execMovDiIncA s
  | .movSiMem addr => Sys2Proof.Machine.execMovSiMem addr s
  | .pushA => Sys2Proof.Machine.execPushA s
  | .popA => Sys2Proof.Machine.execPopA s
  | .addAB => Sys2Proof.Machine.execAddAB s
  | .adcAB => Sys2Proof.Machine.execAdcAB s
  | .subAB => Sys2Proof.Machine.execSubAB s
  | .sbbAB => Sys2Proof.Machine.execSbbAB s
  | .andAB => Sys2Proof.Machine.execAndAB s
  | .orAB => Sys2Proof.Machine.execOrAB s
  | .xorAB => Sys2Proof.Machine.execXorAB s
  | .cmpAB => Sys2Proof.Machine.execCmpAB s
  | .incA => Sys2Proof.Machine.execIncA s
  | .decA => Sys2Proof.Machine.execDecA s
  | .notA => Sys2Proof.Machine.execNotA s
  | .shlA => Sys2Proof.Machine.execShlA s
  | .shrA => Sys2Proof.Machine.execShrA s
  | .clrA => Sys2Proof.Machine.execClrA s
  | .addAImm imm => Sys2Proof.Machine.execAddAImm imm s
  | .cmpAImm imm => Sys2Proof.Machine.execCmpAImm imm s
  | .jmp target => Sys2Proof.Machine.execJmp target s
  | .jz target => Sys2Proof.Machine.execJz target s
  | .jnz target => Sys2Proof.Machine.execJnz target s
  | .jc target => Sys2Proof.Machine.execJc target s
  | .jnc target => Sys2Proof.Machine.execJnc target s
  | .jv target => Sys2Proof.Machine.execJv target s
  | .call target => Sys2Proof.Machine.execCall target s
  | .ret => Sys2Proof.Machine.execRet s
  | .outA => Sys2Proof.Machine.execOutA s
  | .inA => Sys2Proof.Machine.execInA s

end Sys2Proof.Machine
end

