-- ==== Sys2Proof/Machine/Clock.lean ====
section
/-! DEFINITION. The clock's run loop (45_host_interface.md R403, 60_exceptions.md R456), `Reset()` (70_reset_and_hazards.md
R470), and what one turn of the loop performs: a whole fetched instruction, or one cycle. -/

namespace Sys2Proof.Machine

/-! ### Reset (R470) -/

/-- `Reset()` (R470, R475): idle bus with the run mode kept, controller at fetch, no fault, cycle count 0; registers,
address registers, the ALU and MAR are free values (notes/assumptions/2.md); reset hooks are called. Memory, wiring, the
clock's frequency, listener and traces are kept; no event is emitted. -/
def State.resetMachine (s : State) : State :=
  { s with
    bus := idleBus s.bus.runMode
    regs := Vector.ofFn fun i => Config.resetByte s.draws (BitVec.ofNat 4 i.val)
    aregs := Vector.ofFn fun i => Config.resetWord s.draws (BitVec.ofNat 4 i.val)
    aluOperation := Vector.ofFn fun i => Config.resetOperation s.draws (BitVec.ofNat 4 i.val)
    mar := Config.resetMar s.draws
    ctrl := resetController
    clock := { s.clock with stopRequested := false }
    cycles := 0
    fault := none
    resetHookCalls := s.resetHookCalls ++ (s.wiring.channels.filter (·.hasResetHook)).map (·.id)
    draws := s.draws + 1 }

/-! ### What the host does at a cycle boundary (R404, R411, R445, R471) -/

/-- `stop()`'s effect: a request that the loop takes before its next cycle (R404). -/
def State.requestStop (s : State) : State := s.setClock { s.clock with stopRequested := true }

/-- The host asserts the `reset` line (R471). -/
def State.assertReset (s : State) : State := s.setBus { s.bus with resetLine := true }

/-- The host asserts `nmi` (R445). -/
def State.assertNmi (s : State) : State := s.setBus { s.bus with nmi := true }

/-- `set_speed(khz)` (R411), allowed while the clock runs: the answer and the state. `KHZ_TYPE` is the positive integers
(R6). -/
def State.setSpeed (khz : Nat) (s : State) : Bool × State :=
  if 0 < khz && decide (khz ≤ 1000) then
    (true, (s.setClock { s.clock with khz := khz }).emit .clock .freqChange none)
  else (false, s)

/-- The effect of a request of the host. -/
def State.grant (s : State) : HostRequest → State
  | .stop => s.requestStop
  | .assertReset => s.assertReset
  | .assertNmi => s.assertNmi
  | .setSpeed khz => (s.setSpeed khz).2

/-- The requests that are due, in their order, up to the first that is not (notes/assumptions/3.md). -/
def State.takeRequestsFrom : List (Nat × HostRequest) → State → State
  | [], s => s.setRequests []
  | (n, r) :: rest, s =>
    if n ≤ s.cycles then (s.grant r).takeRequestsFrom rest else s.setRequests ((n, r) :: rest)

/-- The host's requests at a cycle boundary of a run (R404, 93_implementation_defined.md section 1). -/
def State.takeRequests (s : State) : State := s.takeRequestsFrom s.requests

/-- Whether a request of the host comes before a cycle count is reached. -/
def State.requestBefore (s : State) (count : Nat) : Bool :=
  match s.requests with
  | [] => false
  | (n, _) :: _ => decide (n < count)

/-! ### Stopping the clock (R403) -/

/-- The end of the run loop: not running, no stop request, `Stopped` (R403). -/
def State.clockStop (s : State) : State :=
  (s.setClock { s.clock with running := false, stopRequested := false, cap := none }).emit .clock .stopped none

/-- The end of the run loop after an error: `Error` then `Stopped` (R178, R413). -/
def State.clockError (s : State) : State := (s.emit .clock .error none).clockStop

/-- A run-mode break: `suspend` is asserted and the clock stops (R403, R456). -/
def State.clockBreak (s : State) : State := (s.setBus { s.bus with suspend := true }).clockStop

/-- One cycle off the cap (R403). -/
def State.spendCap (s : State) : State := s.setClock { s.clock with cap := s.clock.cap.map (· - 1) }

/-- `BreakAfter(cycle)` and its effect (R456). A cycle that completed an instruction left the controller at step 0
(R294; notes/assumptions/27.md). -/
def State.breakAfter (s : State) : State :=
  match s.bus.runMode with
  | .continuous => s
  | .breakAtClock => s.clockBreak
  | .breakAtInstruction => if s.wiring.hasController && s.ctrl.step == 0 then s.clockBreak else s

/-- What the loop does after its cycles: stop on an error or a refusal, else spend the cap and test for a break (R403). -/
def afterCycles : Host.Outcome State Fault Refusal → Host.Outcome State Fault Refusal
  | .next s => if s.fault.isSome then .next s.clockError else .next s.spendCap.breakAfter
  | .fault e => .fault e
  | .refused r => .refused r

/-- A stopped clock: nothing happens. With an error recorded the machine is stuck until reset and the step reports that
fault; with a refusal recorded it reports the refusal (R437, 93_implementation_defined.md section 5). -/
def State.stoppedOutcome (s : State) : Host.Outcome State Fault Refusal :=
  match s.fault with
  | some (.error e _ _ _) => .fault e
  | some (.refusal r) => .refused r
  | none => .next s

/-! ### Fetching -/

/-- The address register at `PC_ID` (R48). -/
def State.pcRegister (s : State) : Option Id :=
  match s.resolve s.wiring.pcId with
  | .addressRegister r _ => some r
  | _ => none

/-- A wired controller's ids name what R7 asks: `PC_ID` an address register, `MEM_ID` and `MEMADDR_ID` the memory bank's
two ports, `CTRL_ID` the controller. -/
def Wiring.portsNamed (w : Wiring) : Bool :=
  match w.resolve w.pcId, w.resolve w.memId, w.resolve w.memAddrId, w.resolve w.ctrlId with
  | .addressRegister _ _, .memoryData _, .memoryAddress _, .controller _ => true
  | _, _, _, _ => false

/-- The bytes that can be read at consecutive addresses, at most `n`, up to the first address in no range; addresses wrap
(R48, R84). -/
def Memory.readableBytes (m : Memory) : Nat → Word → List Byte
  | 0, _ => []
  | n + 1, a =>
    match m.read a with
    | some b => b :: m.readableBytes n (a + 1)
    | none => []

/-- The bytes the fetch finds at the program counter, at most three (R132). -/
def State.bytesAtPc (s : State) : List Byte :=
  match s.pcRegister with
  | some r => s.mem.readableBytes 3 (s.areg r)
  | none => []

/-- The instruction at the program counter, if its bytes are readable and its opcode has a record. -/
def State.instructionAtPc (s : State) : Option Instr :=
  match decodeBytes s.bytesAtPc with
  | .ok (i, _) => some i
  | .error _ => none

/-- Whether a step performs a whole instruction: the controller can start one, and nothing can act at a cycle boundary inside
it: no cycle cap, no BreakAtClock, no request of the host before 31 more cycles (R290, R403, R404, R456;
notes/assumptions/3.md). -/
def State.wholeInstructions (s : State) : Bool :=
  s.canStart && s.wiring.portsNamed && s.bus.runMode != .breakAtClock && s.clock.cap.isNone &&
    !s.requestBefore (s.cycles + Config.maxInstructionCycles)

/-- One cycle: the micro-operation that the controller's micro-step, or with no controller the injected control word,
decodes to (R172, R179). -/
def State.oneCycle (s : State) : Host.Outcome State Fault Refusal :=
  if s.wiring.hasController then
    match s.ctrl.current s.wiring with
    | none => s.guarded fun s => s.refuse .controlStateOutOfRange
    | some m =>
      match decodeStep m with
      | .ok i => exec i s
      | .error _ => execStep m s
  else if s.bus.multipleLines then s.guarded fun s => s.refuse .multipleTransferLines
  else
    match decodeStep s.bus.microStep with
    | .ok i => exec i s
    | .error _ => execStep s.bus.microStep s

/-- What one turn of the loop performs. An instruction that cannot be fetched whole is left to single cycles, which raise
its error where it arises (R331, R382; notes/assumptions/30.md). -/
def State.perform (s : State) : Host.Outcome State Fault Refusal :=
  if s.wholeInstructions then
    match s.instructionAtPc with
    | some i => exec i s
    | none => s.oneCycle
  else s.oneCycle

/-- The run loop from its tests on (R180, R403): `halt`, the `reset` line, a stop request and a spent cap are tested in this
order before the cycle. -/
def State.loopTurn (s : State) : Host.Outcome State Fault Refusal :=
  if s.bus.halt then .next s.clockStop
  else if s.bus.resetLine then .next s.resetMachine.clockStop
  else if s.clock.stopRequested then .next s.clockStop
  else if s.clock.cap == some 0 then .next s.clockStop
  else afterCycles s.perform

/-- A step of a running clock: what the host does at this cycle boundary, then the loop (R403, R404). -/
def State.clockTurn (s : State) : Host.Outcome State Fault Refusal :=
  if s.clock.running then s.takeRequests.loopTurn else s.stoppedOutcome

/-! ### Placing an instruction where the next turn runs it -/

/-- Memory with bytes placed at an address and the two after it, addresses wrapping, whatever the ranges' flags. -/
def Memory.poke (m : Memory) (a : Word) : List Byte → Memory
  | [] => m
  | b :: rest => (m.store a b).poke (a + 1) rest

/-- One writable range over the whole address space. -/
def wholeRange : Range := { number := 0, start := 0, length := 0x10000, writable := true }

/-- Memory in which the three addresses from `a` on can be fetched: as it is if they can, else under one writable range
over the whole address space. -/
def Memory.ensureFetchable (m : Memory) (a : Word) : Memory :=
  if (m.readableBytes 3 a).length == 3 then m else { m with ranges := [wholeRange] }

/-- A machine about to run: the clock running with nothing that would stop it, no request of the host, no fault, a wired
controller. On the reference machine after `run` this changes nothing. -/
def State.readied (s : State) : State :=
  { s with
    wiring := if s.wiring.hasController && s.wiring.portsNamed then s.wiring else referenceWiring
    bus := { s.bus with halt := false, suspend := false, nmi := false, resetLine := false
                        runMode := if s.bus.runMode == .breakAtClock then .continuous else s.bus.runMode }
    clock := { s.clock with running := true, stopRequested := false, cap := none }
    fault := none
    requests := [] }

/-- The bytes of a reference instruction at the program counter, the controller at fetch step 0. -/
def State.withProgramBytes (s : State) (bytes : List Byte) : State :=
  let t := s.readied
  let t := t.setCtrl { t.ctrl with step := 0, runner := none }
  match t.pcRegister with
  | some r => t.setMem ((t.mem.ensureFetchable (t.areg r)).poke (t.areg r) bytes)
  | none => t

/-- A micro-step as the only step of the runner in flight: the place from which the controller takes its next control
word (R284). -/
def State.withMicroStep (s : State) (m : MicroStep) : State :=
  let t := s.readied
  t.setCtrl { t.ctrl with
    step := 2
    runner := some { opcode := t.ctrl.ir, mnemonic := "", mode := .implied, target := 0x0#4, condition := 0x00#8,
                     conditionOp := .none, steps := [m], tableStart := 0, complete := false } }

/-- A code where the next turn runs it: a microword as the controller's current micro-step, bytes padded with zeros to
three at the program counter. -/
def State.withCode (s : State) : Code → State
  | .control w => s.withMicroStep (MicroStep.unpack w)
  | .program bytes => s.withProgramBytes (bytes ++ List.replicate (3 - bytes.length) 0x00#8)

end Sys2Proof.Machine
end

