-- ==== Sys2Proof/Machine/Step.lean ====
section
/-! DEFINITION. The step of the machine: one turn of the clock's run loop (45_host_interface.md R403). -/

namespace Sys2Proof.Machine

/-- One turn of the clock's run loop: a whole instruction, one cycle, or the loop's own stop (R180, R403). -/
def step (s : State) : Host.Outcome State Fault Refusal := s.clockTurn

/-- The state with a table row's instruction where `step` takes its next one, all that running it needs set: it stands for
the host's `load_image` and `run` (R401, R402; notes/assumptions/6.md). -/
def State.withFetchWord (s : State) (nbits w : Nat) : State := s.withCode (tableCode nbits w)

end Sys2Proof.Machine
end

