-- ==== Sys2Proof/Machine/HostOps.lean ====
section
/-! DEFINITION. The host interface (45_host_interface.md, 70_reset_and_hazards.md): building and loading, running, bus
injection, clock control, inputs, and the status lines the host may assert. An operation at a time R400 does not allow is
refused `hostOperationNotNow` (notes/assumptions/17.md). -/

namespace Sys2Proof.Machine

/-! ### Wiring (R7, R409) -/

/-- A component's id and its alias, if distinct (R41, R409). -/
def Component.ids (c : Component) : List Id :=
  match c.aliasId with
  | some a => if a == c.id then [c.id] else [c.id, a]
  | none => [c.id]

/-- No entry occurs twice. -/
def distinctIds : List Id → Bool
  | [] => true
  | i :: rest => !rest.contains i && distinctIds rest

/-- The id and alias table and the channel table hold no id twice and at most 16 entries (R7); one memory bank and one
controller at most (R280, C4 of 90_conflicts.md; notes/assumptions/19.md). -/
def Wiring.tablesOk (w : Wiring) : Bool :=
  distinctIds (w.components.flatMap Component.ids) && distinctIds (w.channels.map (·.id)) &&
  decide (w.components.length ≤ Config.maxComponents) && decide (w.channels.length ≤ Config.maxChannels) &&
  decide ((w.components.filter fun c => c.kind == .controller).length ≤ 1) &&
  decide ((w.components.filter fun c => c.kind == .memoryBank).length ≤ 1)

/-- An ALU's left-hand register is an 8-bit register of the wiring (R7, R49, R251). -/
def Wiring.aluOperandsOk (w : Wiring) : Bool :=
  w.components.all fun c =>
    match c.kind with
    | .alu lhs => w.components.any fun d => d.id == lhs && d.kind == .register
    | _ => true

/-- The refusal of a wiring that is not well formed (R7, R251). The spec gives the checks no order: that `BadWiring` comes
before `AluWideOperand` is the model's choice, notes/assumptions/33.md. -/
def Wiring.refusal (w : Wiring) : Option Refusal :=
  if !w.tablesOk then some .badWiring
  else if w.hasController && !w.portsNamed then some .badWiring
  else if !w.aluOperandsOk then some .aluWideOperand
  else none

/-- A well-formed wiring (R7). -/
def Wiring.wf (w : Wiring) : Bool := w.refusal.isNone

/-- A wiring with no component and no channel, with the reference ids for the controller's built-in steps. -/
def emptyWiring : Wiring :=
  { components := [], channels := [], pcId := idPc, memId := idMem, memAddrId := idMemAddr, ctrlId := idCtrl }

/-- The reference wiring without its controller: the harness machine (R405, 95_test_vectors.md section 0). -/
def harnessWiring : Wiring :=
  { referenceWiring with components := referenceWiring.components.filter fun c => c.kind != .controller }

/-- Build a machine of a wiring (R7, R472). -/
def build (w : Wiring) : Host.Outcome State Fault Refusal :=
  match w.refusal with
  | some r => .refused r
  | none => .next { State.reset with wiring := w }

/-- When a state-changing host operation is refused: after a fault (R437), and while the clock runs (R400). -/
def State.hostRefusal (s : State) : Option Refusal :=
  if s.fault.isSome then some .afterError
  else if s.clock.running then some .hostOperationNotNow
  else none

/-- Do a host operation where it is allowed. -/
def State.hostDo (s : State) (k : State → Host.Outcome State Fault Refusal) : Host.Outcome State Fault Refusal :=
  match s.hostRefusal with
  | some r => .refused r
  | none => k s

/-- `insert(component)` (R409), before the first `run`. A table that is not well formed is refused at once; the controller's
ports and the ALU's operand, which later insertions may still complete, are checked by whatever would run a cycle (`start`,
`run`, `cycle`): the model's choice, notes/assumptions/34.md. -/
def State.insert (c : Component) (s : State) : Host.Outcome State Fault Refusal :=
  s.hostDo fun s =>
    let w := { s.wiring with components := s.wiring.components ++ [c] }
    if s.hasRun then .refused .hostOperationNotNow
    else if w.tablesOk then .next ({ s with wiring := w }.emit .backplane .configChanged none)
    else .refused .badWiring

/-- `insert_io(channel)` (R409), before the first `run`. -/
def State.insertIo (ch : Channel) (s : State) : Host.Outcome State Fault Refusal :=
  s.hostDo fun s =>
    let w := { s.wiring with channels := s.wiring.channels ++ [ch] }
    if s.hasRun then .refused .hostOperationNotNow
    else if w.tablesOk then .next ({ s with wiring := w }.emit .backplane .configChanged none)
    else .refused .badWiring

/-! ### Loading (R401) -/

/-- Put a range under its number, keeping the order of numbers (R93). -/
def putRange (r : Range) : List Range → List Range
  | [] => [r]
  | q :: rest =>
    if r.number < q.number then r :: q :: rest
    else if r.number = q.number then r :: rest
    else q :: putRange r rest

/-- The memory with range `number` replaced by an image (R93, R401): the bytes of the range that number held before are
gone. -/
def Memory.install (m : Memory) (number : Nat) (bytes : List Byte) (start : Nat) (writable : Bool) : Memory :=
  let kept := m.ranges.filter fun q => q.number != number
  { ranges := putRange { number := number, start := start, length := bytes.length, writable := writable } kept
    cells := cellsPutAll (m.cells.filter fun c => kept.any fun q => q.holds c.1) start bytes }

/-- Whether an image overlaps a range other than the one it replaces (R401). -/
def Memory.overlapsOther (m : Memory) (number start length : Nat) : Bool :=
  m.ranges.any fun q => q.number != number &&
    !({ number := number, start := start, length := length, writable := true } : Range).disjoint q

/-- `load_image(bank, bytes, addr, writable)` (R401). The sender of IMAGE_LOADED is the memory bank's own id; that a machine
with no memory bank takes the image all the same, under `MEM_ID`, is the model's choice, notes/assumptions/36.md. -/
def State.loadImage (number : Nat) (bytes : List Byte) (addr : Word) (writable : Bool) (s : State) :
    Host.Outcome State Fault Refusal :=
  s.hostDo fun s =>
    if bytes.length == 0 || decide (0x10000 < addr.toNat + bytes.length) then .refused .memoryRangeOverlap
    else if s.mem.overlapsOther number addr.toNat bytes.length then .refused .memoryRangeOverlap
    else .next ((s.setMem (s.mem.install number bytes addr.toNat writable)).emit (.component s.wiring.bankId)
      .imageLoaded none)

/-! ### Running (R402 to R404) -/

/-- Where a wiring is well formed, do what runs a cycle of it (R7, R251; notes/assumptions/34.md). -/
def State.ifWired (s : State) (k : State → Host.Outcome State Fault Refusal) : Host.Outcome State Fault Refusal :=
  match s.wiring.refusal with
  | some r => .refused r
  | none => k s

/-- `Start(cap)` up to the loop, whose turns are `step` (R403). -/
def State.start (cap : Option Nat) (s : State) : Host.Outcome State Fault Refusal :=
  s.hostDo fun s => s.ifWired fun s =>
    let t := s.setBus { s.bus with suspend := false }
    .next ((t.setClock { t.clock with running := true, cap := cap }).emit .clock .started none)

/-- `run(start_address)` up to the loop (R402): the pc is seeded, then `Start(none)`. Where `PC_ID` names no address register,
as R7 allows without a controller, `BadWiring` is the model's choice, notes/assumptions/38.md. -/
def State.run (address : Word) (s : State) : Host.Outcome State Fault Refusal :=
  s.hostDo fun s =>
    match s.pcRegister with
    | some r => ({ s.setAreg r address with hasRun := true }.emit (.component r) .valueChanged none).start none
    | none => .refused .badWiring

/-- `stop()` (R404): while the clock runs (R400), or after a fault, where it stays allowed (R437). -/
def State.stop (s : State) : Host.Outcome State Fault Refusal :=
  if s.clock.running || s.fault.isSome then .next s.requestStop else .refused .hostOperationNotNow

/-- `reset()` by the host, allowed after a fault, not while the clock runs (R400, R437, R470). -/
def State.hostReset (s : State) : Host.Outcome State Fault Refusal :=
  if s.clock.running then .refused .hostOperationNotNow else .next s.resetMachine

/-! ### Bus injection and single cycles (R405, R406) -/

/-- `bus.initialize(xdata, xaddr, io, source_id, dest_id, op_flags, data_byte, addr_byte)` (R405): refused with a
controller wired (R406). -/
def State.injectBus (xdata xaddr io : Bool) (source dest : Id) (opFlags data addr : Byte) (s : State) :
    Host.Outcome State Fault Refusal :=
  s.hostDo fun s =>
    if s.wiring.hasController then .refused .harnessWithController
    else .next (s.setBus { s.bus with xdata := xdata, xaddr := xaddr, io := io, sourceId := source, destId := dest,
                                      opFlags := opFlags, dataByte := data, addrByte := addr })

/-- `cycle()`: one cycle with the clock not running (R400, R405), of a well-formed wiring (R7, R251). -/
def State.manualCycle (s : State) : Host.Outcome State Fault Refusal :=
  s.hostDo fun s => s.ifWired State.oneCycle

/-! ### Clock control (R412, R423) -/

/-- `tick()` (R412): the half-period in nanoseconds; the rounding of an inexact quotient is OPEN
(notes/assumptions/12.md). -/
def tick (khz : Nat) : Nat :=
  500000 / khz + (if 500000 % khz == 0 then 0 else if Config.tickRoundsUp khz then 1 else 0)

/-- `set_run_mode(m)` (R423): while the clock does not run (R400), also after a fault (R437). -/
def State.setRunMode (m : RunMode) (s : State) : Host.Outcome State Fault Refusal :=
  if s.clock.running && s.fault.isNone then .refused .hostOperationNotNow
  else .next ((s.setBus { s.bus with runMode := m }).emit .backplane .configChanged none)

/-- Register the clock's listener (R413). -/
def State.registerListener (s : State) : State := s.setClock { s.clock with listener := true }

/-! ### Lines and inputs of the environment -/

/-- The environment schedules what the host will do at a cycle boundary of a run, once `count` cycles are completed (R404,
93_implementation_defined.md section 1; notes/assumptions/3.md). -/
def State.scheduleRequest (count : Nat) (r : HostRequest) (s : State) : State :=
  s.setRequests (s.requests ++ [(count, r)])

/-- The environment schedules the next answer of a channel's input callback (R415; notes/assumptions/5.md). -/
def State.scheduleInput (channel : Id) (b : Byte) (s : State) : State := { s with inputs := s.inputs ++ [(channel, b)] }

end Sys2Proof.Machine
end

