-- ==== Sys2Proof/Safety.lean ====
section
/-! DEFINITION. The terms claims are stated in: a well-behaved machine state and the invariant the spec's rules keep; which
state a next state agrees with and which bytes of memory it keeps; and the parts of an instruction's effect that many
instructions share (the fetch, the end of a cycle, what a source puts on the bus). -/

namespace Sys2Proof.Machine

/-- No error and no refusal recorded (R56). -/
def State.safe (s : State) : Bool := s.fault.isNone

/-- The controller's sequencing state is one the rules reach (R52, R284, R290): with no runner a fetch step, with one an
index into its steps; at most 29 steps, the prologue among them, and a runner in flight is not complete. -/
def Controller.coherent (c : Controller) : Bool :=
  match c.runner with
  | none => decide (c.step ≤ 1)
  | some r =>
    decide (2 ≤ c.step) && decide (c.step < r.steps.length + 2) && decide (r.steps.length ≤ 29) &&
      decide (r.tableStart ≤ 5) && !r.complete

/-- The clock's frequency is in (0, 1000] kHz (R54). -/
def Clock.speedOk (c : Clock) : Bool := decide (0 < c.khz) && decide (c.khz ≤ 1000)

/-- The invariant of the machine: a well-formed wiring (R7), memory in canonical form with well-formed ranges (R92), the
controller coherent (R284), the frequency in range (R54). -/
def State.invariant (s : State) : Prop :=
  s.wiring.wf = true ∧ s.mem.wf = true ∧ s.ctrl.coherent = true ∧ s.clock.speedOk = true

/-- A state in which a cycle passes its first two checks (R438): no fault record, `nmi` deasserted. -/
def State.ready (s : State) : Prop := s.fault = none ∧ s.bus.nmi = false

/-- A state in which a reference instruction begins: the reference wiring (R45), ready, the controller at fetch step 0 with
no runner (R282). -/
def State.atStart (s : State) : Prop :=
  s.wiring = referenceWiring ∧ s.ready ∧ s.ctrl.step = 0 ∧ s.ctrl.runner = none

/-! ### What a next state agrees with -/

/-- `t` holds what `u` holds in every field but the bus's transfer fields (the two bytes and the control word of the last
cycle), memory, and the event trace. -/
def State.agrees (t u : State) : Prop :=
  t.wiring = u.wiring ∧ t.regs = u.regs ∧ t.aregs = u.aregs ∧ t.aluOperation = u.aluOperation ∧ t.mar = u.mar ∧
  t.ctrl = u.ctrl ∧ t.clock = u.clock ∧ t.cycles = u.cycles ∧ t.fault = u.fault ∧ t.errorSlots = u.errorSlots ∧
  t.outputs = u.outputs ∧ t.resetHookCalls = u.resetHookCalls ∧ t.hasRun = u.hasRun ∧ t.inputs = u.inputs ∧
  t.draws = u.draws ∧ t.bus.halt = u.bus.halt ∧ t.bus.suspend = u.bus.suspend ∧ t.bus.nmi = u.bus.nmi ∧
  t.bus.resetLine = u.bus.resetLine ∧ t.bus.z = u.bus.z ∧ t.bus.c = u.bus.c ∧ t.bus.v = u.bus.v ∧
  t.bus.runMode = u.bus.runMode ∧ t.requests = u.requests ∧ t.channelErrorSlots = u.channelErrorSlots

/-- Every address of `t` reads as in `s`: the frame of a form that stores nothing. -/
def State.sameMemory (t s : State) : Prop := t.mem.ranges = s.mem.ranges ∧ ∀ a, t.mem.read a = s.mem.read a

/-- In `t` the byte at `a` reads `v` and every other address reads as in `s`: the frame of a form that stores one byte. -/
def State.storedByte (t s : State) (a : Word) (v : Byte) : Prop :=
  t.mem.ranges = s.mem.ranges ∧ t.mem.read a = some v ∧ ∀ x, x ≠ a → t.mem.read x = s.mem.read x

/-- An address in a writable range (R85, R94). -/
def Memory.writableAt (m : Memory) (a : Word) : Bool :=
  match m.rangeOf a with
  | some r => r.writable
  | none => false

/-! ### Shared parts of an effect -/

/-- Z and C set, never cleared, where a post-increment or a post-decrement says so (R211). -/
def State.raiseFlags (s : State) (z c : Bool) : State :=
  s.setBus { s.bus with z := s.bus.z || z, c := s.bus.c || c }

/-- Z, C and V written by an ALU operation (R252). -/
def State.writeFlags (s : State) (r : AluResult) : State := s.setBus { s.bus with z := r.z, c := r.c, v := r.v }

/-- `halt` asserted when `h` holds (R230). -/
def State.haltIf (s : State) (h : Bool) : State := s.setBus { s.bus with halt := s.bus.halt || h }

/-- `n` more cycles completed (R179). -/
def State.afterCycles (s : State) (n : Nat) : State := { s with cycles := s.cycles + n }

/-- Whether the pc passes from 0xFFFF to 0x0000 while `length` bytes are fetched (R211, R331). -/
def State.fetchWraps (s : State) (length : Nat) : Bool := decide (0x10000 ≤ (s.areg idPc).toNat + length)

/-- After the `length` bytes of a reference instruction are fetched, two cycles a byte: pc past them, MAR at the last of
them, `ir` the opcode, the constant the operand, Z and C set if the pc wrapped (R283, R289, R331). -/
def State.afterFetch (s : State) (opcode : Byte) (length : Nat) (constant : Word) : State :=
  let t := (s.setAreg idPc (s.areg idPc + BitVec.ofNat 16 length)).setMar (s.areg idPc + BitVec.ofNat 16 (length - 1))
  ((t.setCtrl { t.ctrl with ir := opcode, constant := constant }).raiseFlags (s.fetchWraps length)
    (s.fetchWraps length)).afterCycles (2 * length)

/-- The falling edge and the count of a cycle: a wired controller has advanced its step (R179, R294). -/
def State.cycleEnd (s : State) : State :=
  (s.setCtrl (if s.wiring.hasController then s.ctrl.advance s.bus.flagsByte else s.ctrl)).afterCycles 1

/-- The byte on `data_byte` after the rising edge of a data transfer from `src`: the source's, or the old one where nothing
drives; none where the memory bank raises `InvalidComponentID` (R31, R86, R90, R201, R203, R205, R233, R297). -/
def State.sourceByte (s : State) (src : Id) (msb : Bool) : Option Byte :=
  match s.resolve src with
  | .nothing => some s.bus.dataByte
  | .register r => some (s.reg r)
  | .addressRegister r usesDataBus => some (if usesDataBus then halfByte msb (s.areg r) else s.bus.dataByte)
  | .alu r _ => some (s.reg r)
  | .memoryData _ => s.mem.read s.mar
  | .memoryAddress _ => some s.bus.dataByte
  | .controller _ => some (halfByte msb s.ctrl.constant)

/-- The destination of a data transfer after it has latched a byte: a register, a half of an address register, the half of
the constant of a controller with a runner; MAR, an address register off the data bus and an unoccupied id latch nothing
(R90, R202, R204, R233, R296). The ALU, the memory bank and the opcode latch are stated apart. -/
def State.latchByte (s : State) (dst : Id) (msb : Bool) (b : Byte) : State :=
  match s.resolve dst with
  | .register r => s.setReg r b
  | .addressRegister r usesDataBus => if usesDataBus then s.setAreg r (setHalf msb (s.areg r) b) else s
  | .controller _ => s.setCtrl { s.ctrl with constant := setHalf msb s.ctrl.constant b }
  | _ => s

/-- Whether `latchByte` is what a data transfer into `dst` does: no ALU, no memory data port, no opcode latch. -/
def State.latchesPlainly (s : State) (dst : Id) : Bool :=
  match s.resolve dst with
  | .alu _ _ => false
  | .memoryData _ => false
  | .controller _ => s.ctrl.runner.isSome
  | _ => true

/-- The word on the bus after the rising edge of an address transfer from `src`: an address register's, MAR's or the
constant, or the old bytes where nothing drives (R89, R208, R213, R218, R233, R298). -/
def State.sourceWord (s : State) (src : Id) : Word :=
  match s.resolve src with
  | .addressRegister r _ => s.areg r
  | .memoryAddress _ => s.mar
  | .controller _ => s.ctrl.constant
  | _ => s.bus.word

/-- The source of an address transfer after its post-increment or post-decrement, with its flags (R210, R211). -/
def State.postModifySource (s : State) (src : Id) (opFlags : Byte) : State :=
  match s.resolve src with
  | .addressRegister r _ =>
    let p := postModify opFlags (s.areg r)
    (s.setAreg r p.value).raiseFlags p.setZ p.setC
  | .memoryAddress _ =>
    let p := postModify opFlags s.mar
    (s.setMar p.value).raiseFlags p.setZ p.setC
  | _ => s

/-- The destination of an address transfer after it has latched the word on the bus (R88, R209, R213). -/
def State.latchWord (s : State) (dst : Id) (w : Word) : State :=
  match s.resolve dst with
  | .register r => s.setReg r (lowByte w)
  | .addressRegister r _ => s.setAreg r w
  | .memoryAddress _ => s.setMar w
  | _ => s

/-- The byte on `data_byte` after the rising edge of an I/O-in transfer from a channel: its input, 0x00 without a callback, the
old byte where no channel answers (R221, R226). -/
def State.inputByte (s : State) (channel : Id) : Byte :=
  match s.wiring.channel channel with
  | some ch => if ch.hasInput then s.nextInput channel else 0x00#8
  | none => s.bus.dataByte

/-- The environment after that read: the channel's answer is taken, where it has a callback (R226). -/
def State.inputTaken (s : State) (channel : Id) : State :=
  match s.wiring.channel channel with
  | some ch => if ch.hasInput then s.takeInput channel else s
  | none => s

/-- A byte passed to a channel's output callback, where it has one (R223, R416). -/
def State.outputByte (s : State) (channel : Id) (b : Byte) : State :=
  s.outputIf ((s.wiring.channel channel).any (·.hasOutput)) channel b

/-- The ALU after a computation (R250, R252). -/
def State.computed (s : State) (r : Id) (code : BitVec 4) (apply : Bool) (b : Byte) (res : AluResult) : State :=
  let t := (s.setReg r (if res.store then res.r else b)).setAluOp r code
  if apply then t.writeFlags res else t

/-- The controller after the opcode latch (R285, R286). -/
def State.opcodeLatched (s : State) (b : Byte) (r : Runner) : State :=
  s.setCtrl { s.ctrl with ir := b, runner := some r, constant := 0x0000#16 }

/-- The byte the register side of an I/O-out transfer puts on the bus: a register's, or the old one (R220, R222). -/
def State.sideByte (s : State) (reg : Id) : Byte :=
  match s.resolve reg with
  | .register r => s.reg r
  | _ => s.bus.dataByte

/-- The clock runs, no request of the host is due, and nothing stops the loop before its next cycle (R403, R404). -/
def State.turning (s : State) : Prop :=
  s.clock.running = true ∧ s.bus.halt = false ∧ s.bus.resetLine = false ∧ s.clock.stopRequested = false ∧
  s.clock.cap ≠ some 0 ∧ s.requestBefore (s.cycles + 1) = false

/-- `t` holds what an instruction leaves that ends in an error of the memory bank: `u` is the machine with the instruction's
effects so far and the cycles completed, `n` the step kept, the runner still in flight (R177, R433). -/
def State.trapsIn (t u : State) (e : Fault) (phase : Phase) (n : Nat) : Prop :=
  ∃ r : Runner, t.agrees ((u.setCtrl { u.ctrl with step := n, runner := some r }).raise e phase idMem)

/-! ### Events of a cycle (R420) -/

/-- An event of the cycle that a machine is in. -/
def State.event (s : State) (sender : Sender) (kind : EventKind) (phase : Phase) : Event :=
  { sender := sender, kind := kind, cycle := s.cycles, phase := some phase }

/-- The events of the falling edge: STEP_CHANGED, and AFTER_INSTRUCTION where it completes an instruction (R294). -/
def State.fallingEvents (s : State) : List Event :=
  if s.wiring.hasController then
    s.event (.component s.wiring.controllerId) .stepChanged .falling ::
      (if s.ctrl.completes s.bus.flagsByte then
        [s.event (.component s.wiring.controllerId) .afterInstruction .falling] else [])
  else []

/-- The event of a data transfer's destination: VALUE_CHANGED of what latches a value (R202, R204, R250, R285),
CONTENTS_CHANGED of the memory bank (R85); the constant, MAR and an unoccupied id have none. -/
def State.latchEvents (s : State) (dst : Id) : List Event :=
  match s.resolve dst with
  | .nothing => []
  | .register r => [s.event (.component r) .valueChanged .high]
  | .addressRegister r usesDataBus => if usesDataBus then [s.event (.component r) .valueChanged .high] else []
  | .alu r _ => [s.event (.component r) .valueChanged .high]
  | .memoryData id => [s.event (.component id) .contentsChanged .high]
  | .memoryAddress _ => []
  | .controller id => if s.ctrl.runner.isSome then [] else [s.event (.component id) .valueChanged .high]

/-- The event of an address transfer's source: VALUE_CHANGED of what a post-increment or post-decrement changes (R210). -/
def State.postModifyEvents (s : State) (src : Id) (opFlags : Byte) : List Event :=
  if hasFlag opFlags flagInc || hasFlag opFlags flagDec then
    match s.resolve src with
    | .addressRegister r _ => [s.event (.component r) .valueChanged .rising]
    | .memoryAddress id => [s.event (.component id) .valueChanged .rising]
    | _ => []
  else []

/-- The event of an address transfer's destination (R209, R213). -/
def State.latchWordEvents (s : State) (dst : Id) : List Event :=
  match s.resolve dst with
  | .register r => [s.event (.component r) .valueChanged .high]
  | .addressRegister r _ => [s.event (.component r) .valueChanged .high]
  | _ => []

/-- OUTPUT_WRITTEN of a channel that takes a byte, with or without an output callback (R223). -/
def State.outputEvents (s : State) (channel : Id) : List Event :=
  match s.wiring.channel channel with
  | some ch => [s.event (.channel ch.id) .outputWritten .high]
  | none => []

/-- INPUT_READ of a channel whose callback answers a non-zero byte (R226). -/
def State.inputEvents (s : State) (channel : Id) : List Event :=
  match s.wiring.channel channel with
  | some ch => if ch.hasInput && s.nextInput ch.id != 0x00#8 then [s.event (.channel ch.id) .inputRead .rising] else []
  | none => []

end Sys2Proof.Machine
end

