-- ==== Sys2Proof/Certificates/Slice0/Obligations.lean ====
section
/-! DEFINITION. The statements for the provers. `State.agrees`, `State.sameMemory`, `State.storedByte` and the shared parts of an
effect (`afterFetch`, `cycleEnd`, ...) are those of Safety.lean: `t.agrees u` says that `t` holds what `u` holds in every field
but the bus's transfer fields, memory and the trace, so that everything a statement does not name is as it was before. The
statements of micro-operations give the trace too: `latchEvents` and the like, then the falling edge's `fallingEvents`. -/

open Sys2Proof Sys2Proof.Machine

/-! ### Encoding (30_encoding.md) -/

/-- Decoding the encoding of a well-formed instruction gives the instruction back, at every operand (R129, R132). -/
def Obligations.DecodeEncodeRoundTrip : Prop :=
  ∀ i : Instr, i.wellFormed = true → decode (encode i) = .ok i

/-- Whatever a code decodes to is well formed, and the code is its encoding: no bit of a code is ignored. -/
def Obligations.DecodedCodeReencodes : Prop :=
  ∀ (c : Code) (i : Instr), decode c = .ok i → i.wellFormed = true ∧ encode i = c

/-- The opcodes with a record are exactly the six groups of R134. -/
def Obligations.OpcodeMap : Prop :=
  ∀ op : Byte, (referenceMicrocode op).isSome = true ↔
    (op.toNat ≤ 0x01 ∨ (0x10 ≤ op.toNat ∧ op.toNat ≤ 0x19) ∨ (0x20 ≤ op.toNat ∧ op.toNat ≤ 0x29) ∨
     (0x30 ≤ op.toNat ∧ op.toNat ≤ 0x31) ∨ (0x40 ≤ op.toNat ∧ op.toNat ≤ 0x4F) ∨
     (0x50 ≤ op.toNat ∧ op.toNat ≤ 0x57) ∨ (0x60 ≤ op.toNat ∧ op.toNat ≤ 0x61))

/-- Words the spec writes out decode to the instructions it writes them for (examples of R129, R200, R206, R220, R221, R230,
R231, R334, R344, R372, R380). -/
def Obligations.SpecWordsDecode : Prop :=
  decode (.control 0x125101#24) = .ok (.aluSub 0x1#4 1#3) ∧
  decode (.control 0x001001#24) = .ok (.xdata 0x0#4 0x1#4 0#7) ∧
  decode (.control 0x01F802#24) = .ok (.xaddr 0x8#4 0xF#4 1#7) ∧
  decode (.control 0x080004#24) = .ok (.ioOut 0x0#4 0x0#4 8#7) ∧
  decode (.control 0x001004#24) = .ok (.ioIn 0x0#4 0x1#4 0#7) ∧
  decode (.control 0x000008#24) = .ok (.other 0x0#4 0x0#4 0#7) ∧
  decode (.control 0x800008#24) = .ok (.halt 0x08#8 0x0#4 0x0#4 0#7) ∧
  decode (.program [0x10#8, 0x42#8]) = .ok (.movAImm 0x42#8) ∧
  decode (.program [0x20#8, 0x00#8, 0x20#8]) = .ok (.movAMem 0x2000#16) ∧
  decode (.program [0x50#8, 0x00#8, 0x02#8]) = .ok (.jmp 0x0200#16) ∧
  decode (.program [0x60#8]) = .ok .outA

/-! ### Operations (41_transfers.md, 42_alu.md, 43_controller.md, 20_memory.md) -/

/-- The ALU's flag table: result, Z, C and V of the fourteen operations, and no operation under 0xE and 0xF. Carry and
borrow are said of the unsigned values, signed overflow of the sign bits. -/
def Obligations.AluFlagTable : Prop :=
  ∀ (a b : Byte) (cin : Bool),
    let k : Byte := if cin then 1 else 0
    let n : Nat := if cin then 1 else 0
    aluResult 0x0#4 a b cin = some
      { r := a + b, z := a + b == 0, c := decide (256 ≤ a.toNat + b.toNat),
        v := a.msb == b.msb && (a + b).msb != a.msb, store := true } ∧
    aluResult 0x1#4 a b cin = some
      { r := a + b + k, z := a + b + k == 0, c := decide (256 ≤ a.toNat + b.toNat + n),
        v := a.msb == b.msb && (a + b + k).msb != a.msb, store := true } ∧
    aluResult 0x2#4 a b cin = some
      { r := a - b, z := a - b == 0, c := decide (a.toNat < b.toNat),
        v := a.msb != b.msb && (a - b).msb != a.msb, store := true } ∧
    aluResult 0x3#4 a b cin = some
      { r := a - b - k, z := a - b - k == 0, c := decide (a.toNat < b.toNat + n),
        v := a.msb != b.msb && (a - b - k).msb != a.msb, store := true } ∧
    aluResult 0x4#4 a b cin = some { r := a &&& b, z := a &&& b == 0, c := false, v := false, store := true } ∧
    aluResult 0x5#4 a b cin = some { r := a ||| b, z := a ||| b == 0, c := false, v := false, store := true } ∧
    aluResult 0x6#4 a b cin = some { r := a ^^^ b, z := a ^^^ b == 0, c := false, v := false, store := true } ∧
    aluResult 0x7#4 a b cin = some
      { r := a - b, z := a - b == 0, c := decide (a.toNat < b.toNat),
        v := a.msb != b.msb && (a - b).msb != a.msb, store := false } ∧
    aluResult 0x8#4 a b cin = some
      { r := b + 1, z := b + 1 == 0, c := b == 0xFF#8, v := b == 0x7F#8, store := true } ∧
    aluResult 0x9#4 a b cin = some
      { r := b - 1, z := b - 1 == 0, c := b == 0x00#8, v := b == 0x80#8, store := true } ∧
    aluResult 0xA#4 a b cin = some { r := ~~~b, z := ~~~b == 0, c := false, v := false, store := true } ∧
    aluResult 0xB#4 a b cin = some
      { r := b <<< 1, z := b <<< 1 == 0, c := b.getLsbD 7, v := false, store := true } ∧
    aluResult 0xC#4 a b cin = some
      { r := b >>> 1, z := b >>> 1 == 0, c := b.getLsbD 0, v := false, store := true } ∧
    aluResult 0xD#4 a b cin = some { r := 0, z := true, c := false, v := false, store := true } ∧
    aluResult 0xE#4 a b cin = none ∧ aluResult 0xF#4 a b cin = none

/-- Flags of a post-increment and a post-decrement: only set, V untouched; an increment sets Z and C when it wraps from
0xFFFF, a decrement sets Z when it reaches 0x0000 from 0x0001, one from 0x0000 sets none. -/
def Obligations.PostModifyFlags : Prop :=
  ∀ (b : Bus) (value : Word),
    (postModify flagInc value).value = value + 1 ∧
    (b.setPostFlags (postModify flagInc value)).z = (b.z || value == 0xFFFF#16) ∧
    (b.setPostFlags (postModify flagInc value)).c = (b.c || value == 0xFFFF#16) ∧
    (b.setPostFlags (postModify flagInc value)).v = b.v ∧
    (postModify flagDec value).value = value - 1 ∧
    (b.setPostFlags (postModify flagDec value)).z = (b.z || value == 0x0001#16) ∧
    (b.setPostFlags (postModify flagDec value)).c = b.c ∧
    (b.setPostFlags (postModify flagDec value)).v = b.v

/-- Conditions against the flags byte, with the corners R292 lists: mask 0, and a mask bit above bit 2. -/
def Obligations.ConditionSemantics : Prop :=
  ∀ (mask : Byte) (z c v : Bool),
    condMet .none mask (flagsByte z c v) = true ∧
    (condMet .and mask (flagsByte z c v) = true ↔ flagsByte z c v &&& mask = mask) ∧
    (condMet .nand mask (flagsByte z c v) = true ↔ ¬ flagsByte z c v &&& mask = mask) ∧
    (mask = 0x00#8 → condMet .and mask (flagsByte z c v) = true ∧ condMet .nand mask (flagsByte z c v) = false) ∧
    (mask >>> 3 ≠ 0x00#8 → condMet .and mask (flagsByte z c v) = false ∧ condMet .nand mask (flagsByte z c v) = true)

/-- The falling edge of a machine with a controller: the step advances; a runner whose condition is not met where its
prologue ends, or whose steps are exhausted, is discarded and the step is 0; the events of both. The cycle number of an
event is the model's choice, notes/assumptions/35.md, and the controller's sender id is DEDUCED, notes/assumptions/37.md. -/
def Obligations.FallingEdge : Prop :=
  ∀ s : State, s.wiring.hasController = true →
    (s.ctrl.runner = none →
      s.fallingPhase.ctrl = { s.ctrl with step := s.ctrl.step + 1 } ∧
      s.fallingPhase.events =
        s.events ++ [⟨.component s.wiring.controllerId, .stepChanged, s.cycles, some .falling⟩]) ∧
    (∀ r, s.ctrl.runner = some r →
      let i := s.ctrl.step + 1 - 2
      let ends := r.complete = true ∨ (i = r.tableStart ∧ condMet r.conditionOp r.condition s.bus.flagsByte = false) ∨
        r.steps.length ≤ i
      (ends → s.fallingPhase.ctrl = { s.ctrl with step := 0, runner := none } ∧
        s.fallingPhase.events =
          s.events ++ [⟨.component s.wiring.controllerId, .stepChanged, s.cycles, some .falling⟩,
                       ⟨.component s.wiring.controllerId, .afterInstruction, s.cycles, some .falling⟩]) ∧
      (¬ ends → s.fallingPhase.ctrl = { s.ctrl with step := s.ctrl.step + 1 } ∧
        s.fallingPhase.events =
          s.events ++ [⟨.component s.wiring.controllerId, .stepChanged, s.cycles, some .falling⟩]))

/-- A bus write that stores: the byte reads back, every other address reads as before, ranges and canonical form are kept.
-/
def Obligations.MemoryReadAfterWrite : Prop :=
  ∀ (m m' : Memory) (a : Word) (v : Byte), m.wf = true → m.write a v = .stored m' →
    m'.read a = some v ∧ (∀ x, x ≠ a → m'.read x = m.read x) ∧ m'.ranges = m.ranges ∧ m'.wf = true

/-- Loading an image: the image's bytes read back under a range of its own, an address of another range reads as before, an
address in no remaining range is unmapped, and the memory stays canonical. -/
def Obligations.LoadImageInstalls : Prop :=
  ∀ (s t : State) (number : Nat) (bytes : List Byte) (addr : Word) (writable : Bool), s.mem.wf = true →
    s.loadImage number bytes addr writable = .next t →
    t.mem.wf = true ∧
    (∀ (k : Nat) (b : Byte), bytes[k]? = some b → t.mem.read (addr + BitVec.ofNat 16 k) = some b ∧
      t.mem.writableAt (addr + BitVec.ofNat 16 k) = writable) ∧
    (∀ (x : Word) (q : Range), s.mem.rangeOf x = some q → q.number ≠ number →
      t.mem.read x = s.mem.read x ∧ t.mem.rangeOf x = some q) ∧
    (∀ x : Word, (∀ q, s.mem.rangeOf x = some q → q.number = number) →
      (x.toNat < addr.toNat ∨ addr.toNat + bytes.length ≤ x.toNat) → t.mem.read x = none)

/-! ### Micro-operations (41_transfers.md, 42_alu.md, 43_controller.md)

Each is stated of its own row and, with `h`, of the same step with the HALT op-flag (R230). -/

/-- XDATA into a register, a half of an address register, the constant, or nothing: the source's byte is latched, with
VALUE_CHANGED of the register. The cycle number of an event is the model's choice, notes/assumptions/35.md, and the
controller's sender id is DEDUCED, notes/assumptions/37.md. -/
def Obligations.DataTransferLatches : Prop :=
  ∀ (s : State) (src dst : Id) (flags : BitVec 7) (h : Bool) (b : Byte), s.ready →
    s.sourceByte src (flags.getLsbD 3) = some b → s.latchesPlainly dst = true →
    ∃ t, exec (if h then .halt kindXdata src dst flags else .xdata src dst flags) s = .next t ∧
      t.agrees ((s.latchByte dst (flags.getLsbD 3) b).haltIf h).cycleEnd ∧ t.sameMemory s ∧
      t.events = s.events ++ s.latchEvents dst ++ (s.latchByte dst (flags.getLsbD 3) b).fallingEvents ∧
      t.bus.dataByte = b ∧ t.bus.addrByte = s.bus.addrByte

/-- XDATA into the memory bank at a writable address: the byte at MAR, and no other, is written, with CONTENTS_CHANGED. The
cycle number of an event is the model's choice, notes/assumptions/35.md, and the controller's sender id is DEDUCED,
notes/assumptions/37.md. -/
def Obligations.DataTransferStores : Prop :=
  ∀ (s : State) (src dst id : Id) (flags : BitVec 7) (h : Bool) (b : Byte), s.ready → s.mem.wf = true →
    s.sourceByte src (flags.getLsbD 3) = some b → s.resolve dst = .memoryData id →
    s.mem.writableAt s.mar = true →
    ∃ t, exec (if h then .halt kindXdata src dst flags else .xdata src dst flags) s = .next t ∧
      t.agrees (s.haltIf h).cycleEnd ∧ t.storedByte s s.mar b ∧
      t.events = s.events ++ [s.event (.component id) .contentsChanged .high] ++ s.fallingEvents ∧
      t.bus.dataByte = b ∧ t.bus.addrByte = s.bus.addrByte

/-- The opcode latch: XDATA into a controller with no runner looks the opcode up in the reference table; with a record it
starts the record's runner with the constant cleared, without one it raises `NoMicroCode` with `ir` set and the step kept.
The cycle number of an event is the model's choice, notes/assumptions/35.md, and the controller's sender id is DEDUCED,
notes/assumptions/37.md. -/
def Obligations.OpcodeLatch : Prop :=
  ∀ (s : State) (src dst id : Id) (flags : BitVec 7) (h : Bool) (op : Byte), s.ready →
    s.sourceByte src (flags.getLsbD 3) = some op → s.resolve dst = .controller id → s.ctrl.runner = none →
    ∃ t, exec (if h then .halt kindXdata src dst flags else .xdata src dst flags) s = .next t ∧ t.sameMemory s ∧
      t.bus.dataByte = op ∧ t.bus.addrByte = s.bus.addrByte ∧
      (∀ rec, referenceMicrocode op = some rec → ∃ r, expand s.wiring rec op = some r ∧
        t.agrees ((s.opcodeLatched op r).haltIf h).cycleEnd ∧
        t.events = s.events ++ [s.event (.component id) .valueChanged .high] ++ (s.opcodeLatched op r).fallingEvents) ∧
      (referenceMicrocode op = none →
        t.agrees (((s.setCtrl { s.ctrl with ir := op }).raise (.noMicroCode op) .high id).haltIf h) ∧
        t.events = s.events ++ [s.event (.component id) .valueChanged .high])

/-- The fourteen ALU operations: XDATA into the ALU at id 0x5 computes with the left-hand register and the latched byte,
keeps the result (for CMP the byte), records the code and writes the flags when FLAGS is set. The cycle number of an event
is the model's choice, notes/assumptions/35.md, and the controller's sender id is DEDUCED, notes/assumptions/37.md. -/
def Obligations.AluOperations : Prop :=
  ∀ (s : State) (src r lhs : Id) (flags : BitVec 3) (h : Bool) (b : Byte), s.ready → s.resolve 0x5#4 = .alu r lhs →
    ∀ x ∈ [(Instr.aluAdd src flags, 0x0#4, aluAdd), (.aluAdc src flags, 0x1#4, aluAdc),
           (.aluSub src flags, 0x2#4, aluSub), (.aluSbb src flags, 0x3#4, aluSbb),
           (.aluAnd src flags, 0x4#4, aluAnd), (.aluOr src flags, 0x5#4, aluOr),
           (.aluXor src flags, 0x6#4, aluXor), (.aluCmp src flags, 0x7#4, aluCmp),
           (.aluInc src flags, 0x8#4, aluInc), (.aluDec src flags, 0x9#4, aluDec),
           (.aluNot src flags, 0xA#4, aluNot), (.aluShl src flags, 0xB#4, aluShl),
           (.aluShr src flags, 0xC#4, aluShr), (.aluClr src flags, 0xD#4, aluClr)],
      s.sourceByte src (x.2.1.getLsbD 3) = some b →
      ∃ t, exec (if h then .halt kindXdata src 0x5#4 (flags ++ x.2.1) else x.1) s = .next t ∧
        t.agrees ((s.computed r x.2.1 (flags.getLsbD 0) b (x.2.2 (s.reg lhs) b s.bus.c)).haltIf h).cycleEnd ∧
        t.events = s.events ++ [s.event (.component r) .valueChanged .high] ++
          (s.computed r x.2.1 (flags.getLsbD 0) b (x.2.2 (s.reg lhs) b s.bus.c)).fallingEvents ∧
        t.sameMemory s ∧ t.bus.dataByte = b ∧ t.bus.addrByte = s.bus.addrByte

/-- An ALU step with operation code 0xE or 0xF raises `InvalidMicroCode` at high clock, before any write. -/
def Obligations.AluUnknownOperation : Prop :=
  ∀ (s : State) (src dst r lhs : Id) (flags : BitVec 7) (h : Bool) (b : Byte), s.ready → s.resolve dst = .alu r lhs →
    14 ≤ (flags.extractLsb' 0 4).toNat → s.sourceByte src (flags.getLsbD 3) = some b →
    ∃ t, exec (if h then .halt kindXdata src dst flags else .xdata src dst flags) s = .next t ∧
      t.agrees ((s.raise (.invalidMicroCode (MicroStep.pack ⟨kindXdata, src, dst, BitVec.ofBool h ++ flags⟩)) .high
        r).haltIf h) ∧
      t.sameMemory s ∧ t.events = s.events ∧ t.bus.dataByte = b ∧ t.bus.addrByte = s.bus.addrByte

/-- XADDR: the source's word is on the bus, the source is post-modified with its flags, the destination latches the old
word. The cycle number of an event is the model's choice, notes/assumptions/35.md, and its senders are DEDUCED,
notes/assumptions/13.md and 37.md. -/
def Obligations.AddressTransfer : Prop :=
  ∀ (s : State) (src dst : Id) (flags : BitVec 7) (h : Bool), s.ready →
    addressRefusal (s.resolve src) (s.resolve dst) (plainFlags flags) = none →
    ∃ t, exec (if h then .halt kindXaddr src dst flags else .xaddr src dst flags) s = .next t ∧
      t.agrees (((s.postModifySource src (plainFlags flags)).latchWord dst (s.sourceWord src)).haltIf h).cycleEnd ∧
      t.sameMemory s ∧ t.bus.word = s.sourceWord src ∧
      t.events = s.events ++ s.postModifyEvents src (plainFlags flags) ++ s.latchWordEvents dst ++
        ((s.postModifySource src (plainFlags flags)).latchWord dst (s.sourceWord src)).fallingEvents

/-- IO-out: the register side's byte goes to the channel's output callback, where it has one; OUTPUT_WRITTEN in either case.
The cycle number of an event is the model's choice, notes/assumptions/35.md, and the controller's sender id is DEDUCED,
notes/assumptions/37.md. -/
def Obligations.OutputTransfer : Prop :=
  ∀ (s : State) (reg channel : Id) (flags : BitVec 7) (h : Bool), s.ready → ioOutBit flags = true →
    ioRefusal (s.resolve reg) = none →
    ∃ t, exec (if h then .halt kindIo reg channel flags else .ioOut reg channel flags) s = .next t ∧
      t.agrees ((s.outputByte channel (s.sideByte reg)).haltIf h).cycleEnd ∧ t.sameMemory s ∧
      t.events = s.events ++ s.outputEvents channel ++ s.fallingEvents ∧
      t.bus.dataByte = s.sideByte reg ∧ t.bus.addrByte = s.bus.addrByte

/-- IO-in: the channel's byte, whatever it is, is latched by the register side, with INPUT_READ when it is a callback's and
not zero. With no scheduled answer it is a free value, notes/assumptions/5.md. The cycle number of an event is the model's
choice, notes/assumptions/35.md, and the controller's sender id is DEDUCED, notes/assumptions/37.md. -/
def Obligations.InputTransfer : Prop :=
  ∀ (s : State) (reg channel : Id) (flags : BitVec 7) (h : Bool), s.ready → ioOutBit flags = false →
    ioRefusal (s.resolve reg) = none →
    ∃ t, exec (if h then .halt kindIo reg channel flags else .ioIn reg channel flags) s = .next t ∧
      t.agrees (((s.inputTaken channel).latchByte reg false (s.inputByte channel)).haltIf h).cycleEnd ∧
      t.events = s.events ++ s.inputEvents channel ++ s.latchEvents reg ++ s.fallingEvents ∧
      t.sameMemory s ∧ t.bus.dataByte = s.inputByte channel ∧ t.bus.addrByte = s.bus.addrByte

/-- OTHER: no line is asserted, nothing is driven or latched, the bus bytes are kept; only HALT acts. Its microword is
`0xff??08`. The cycle number of an event is the model's choice, notes/assumptions/35.md, and the controller's sender id is
DEDUCED, notes/assumptions/37.md. -/
def Obligations.NoTransfer : Prop :=
  ∀ (s : State) (src dst : Id) (flags : BitVec 7) (h : Bool), s.ready →
    (∃ t, exec (if h then .halt kindOther src dst flags else .other src dst flags) s = .next t ∧
      t.agrees (s.haltIf h).cycleEnd ∧ t.sameMemory s ∧ t.events = s.events ++ s.fallingEvents ∧
      t.bus.dataByte = s.bus.dataByte ∧ t.bus.addrByte = s.bus.addrByte ∧
      t.bus.xdata = true ∧ t.bus.xaddr = true ∧ t.bus.io = true) ∧
    ∃ w : Microword, encode (if h then .halt kindOther src dst flags else .other src dst flags) = .control w ∧
      w.extractLsb' 0 8 = 0x08#8

/-- A step of unknown kind, with or without HALT, raises `InvalidMicroCode` before anything else changes, `halt` and the
trace included; with HALT it is the instruction `halt` of that kind. The recorded phase and component are the model's
reading, notes/assumptions/15.md. -/
def Obligations.UnknownStepKind : Prop :=
  ∀ (s : State) (m : MicroStep), s.ready →
    m.kind ≠ 0x01#8 → m.kind ≠ 0x02#8 → m.kind ≠ 0x04#8 → m.kind ≠ 0x08#8 →
    (∃ t, execStep m s = .next t ∧
      t.agrees (s.raise (.invalidMicroCode m.pack) .rising s.wiring.controllerId) ∧ t.sameMemory s ∧ t.bus = s.bus ∧
      t.events = s.events) ∧
    (m.opFlags.getLsbD 7 = true →
      decodeStep m = .ok (.halt m.kind m.src m.dst (m.opFlags.extractLsb' 0 7)) ∧
      exec (.halt m.kind m.src m.dst (m.opFlags.extractLsb' 0 7)) s = execStep m s) ∧
    (m.opFlags.getLsbD 7 = false → decodeStep m = .error (.unknownKind m.kind))

/-- A data transfer of any row (XDATA, an ALU row, or either with HALT) from the memory bank with MAR in no range:
`InvalidComponentID` at the rising edge, nothing latched. -/
def Obligations.MemoryReadTrap : Prop :=
  ∀ (s : State) (i : Instr) (m : MicroStep) (id : Id), s.ready → stepOf i = some m → m.kind = kindXdata →
    s.resolve m.src = .memoryData id → s.mem.rangeOf s.mar = none →
    ∃ t, exec i s = .next t ∧
      t.agrees ((s.raise (.invalidComponentID s.mar) .rising id).haltIf (m.opFlags.getLsbD 7)) ∧ t.sameMemory s ∧
      t.events = s.events ∧ t.bus.dataByte = s.bus.dataByte ∧ t.bus.addrByte = s.bus.addrByte

/-- XDATA into the memory bank with MAR in no range, or in a read-only one: `InvalidComponentID` or `ProtectedMemory` at
high clock, no byte changed. -/
def Obligations.MemoryWriteTrap : Prop :=
  ∀ (s : State) (src dst id : Id) (flags : BitVec 7) (h : Bool) (b : Byte) (e : Fault), s.ready →
    s.sourceByte src (flags.getLsbD 3) = some b → s.resolve dst = .memoryData id →
    ((s.mem.rangeOf s.mar = none ∧ e = .invalidComponentID s.mar) ∨
     (∃ r, s.mem.rangeOf s.mar = some r ∧ r.writable = false ∧ e = .protectedMemory s.mar)) →
    ∃ t, exec (if h then .halt kindXdata src dst flags else .xdata src dst flags) s = .next t ∧
      t.agrees ((s.raise e .high id).haltIf h) ∧ t.sameMemory s ∧ t.events = s.events ∧ t.bus.dataByte = b

/-- `CheckRoles()`: the first check that applies, in the order of R436, refuses an address transfer or an I/O transfer. -/
def Obligations.RoleRefusals : Prop :=
  ∀ (s : State) (src dst : Id) (flags : BitVec 7) (h : Bool), s.ready →
    let address := if h then Instr.halt kindXaddr src dst flags else .xaddr src dst flags
    let io := if h then Instr.halt kindIo src dst flags else if ioOutBit flags then .ioOut src dst flags else .ioIn src dst flags
    let both := flags.getLsbD 0 = true ∧ flags.getLsbD 1 = true ∧
      ((∃ r d, s.resolve src = .addressRegister r d) ∨ ∃ r, s.resolve src = .memoryAddress r)
    let port := (∃ r, s.resolve src = .memoryData r) ∨ ∃ r, s.resolve dst = .memoryData r
    (both → exec address s = .refused .incAndDec) ∧
    (¬ both → port → exec address s = .refused .memoryPortRole) ∧
    (¬ both → ¬ port → (∃ r l, s.resolve dst = .alu r l) → exec address s = .refused .aluAddressTransfer) ∧
    (¬ both → ¬ port → (∃ r, s.resolve dst = .controller r) → exec address s = .refused .controllerRole) ∧
    ((∃ r d, s.resolve src = .addressRegister r d) → exec io s = .refused .ioRegisterSide) ∧
    ((∃ r l, s.resolve src = .alu r l) → exec io s = .refused .ioRegisterSide) ∧
    ((∃ r, s.resolve src = .controller r) → exec io s = .refused .controllerRole) ∧
    ((∃ r, s.resolve src = .memoryData r ∨ s.resolve src = .memoryAddress r) → exec io s = .refused .memoryPortRole)

/-- Every instruction that starts with `nmi` asserted is refused, and none asserts or deasserts the line. -/
def Obligations.NmiRefused : Prop :=
  ∀ (i : Instr) (s : State),
    (s.fault = none → s.bus.nmi = true → exec i s = .refused .nmiAsserted) ∧
    (∀ t, exec i s = .next t → t.bus.nmi = s.bus.nmi)

/-! ### Reference instructions (44_reference_isa.md)

From a state at the start of an instruction, every instruction answers a next state without a fault; what it is, in whole. -/

/-- NOP and HLT. -/
def Obligations.ControlInstructions : Prop :=
  ∀ s : State, s.atStart →
    (∃ t, exec .nop s = .next t ∧ t.agrees (s.afterFetch 0x00#8 1 0x0000#16) ∧ t.sameMemory s) ∧
    (∃ t, exec .hlt s = .next t ∧ t.agrees (((s.afterFetch 0x01#8 1 0x0000#16).haltIf true).afterCycles 1) ∧
      t.sameMemory s)

/-- `MOV r,#imm8`: the register is the immediate; `MOV r,r`: the destination is the source. No flag is written. -/
def Obligations.ByteMoves : Prop :=
  ∀ (s : State) (imm : Byte), s.atStart →
    (∀ x ∈ [(Instr.movAImm imm, 0x10#8, idA), (.movBImm imm, 0x11#8, idB), (.movCImm imm, 0x12#8, idC),
            (.movDImm imm, 0x13#8, idD)],
      ∃ t, exec x.1 s = .next t ∧
        t.agrees (((s.afterFetch x.2.1 2 (zextWord imm)).setReg x.2.2 imm).afterCycles 1) ∧ t.sameMemory s) ∧
    (∀ x ∈ [(Instr.movAB, 0x14#8, idA, idB), (.movAC, 0x15#8, idA, idC), (.movAD, 0x16#8, idA, idD),
            (.movBA, 0x17#8, idB, idA), (.movCA, 0x18#8, idC, idA), (.movDA, 0x19#8, idD, idA)],
      ∃ t, exec x.1 s = .next t ∧
        t.agrees (((s.afterFetch x.2.1 1 0x0000#16).setReg x.2.2.1 (s.reg x.2.2.2)).afterCycles 1) ∧ t.sameMemory s)

/-- `MOV r,[a16]`: the register is the byte at `a`, MAR is `a`. -/
def Obligations.AbsoluteLoads : Prop :=
  ∀ (s : State) (a : Word) (b : Byte), s.atStart → s.mem.read a = some b →
    ∀ x ∈ [(Instr.movAMem a, 0x20#8, idA), (.movBMem a, 0x22#8, idB)],
      ∃ t, exec x.1 s = .next t ∧
        t.agrees ((((s.afterFetch x.2.1 3 a).setMar a).setReg x.2.2 b).afterCycles 2) ∧ t.sameMemory s

/-- `MOV [a16],r`: the byte at `a`, and no other, is the register; MAR is `a`. -/
def Obligations.AbsoluteStores : Prop :=
  ∀ (s : State) (a : Word), s.atStart → s.mem.wf = true → s.mem.writableAt a = true →
    ∀ x ∈ [(Instr.movMemA a, 0x21#8, idA), (.movMemB a, 0x23#8, idB)],
      ∃ t, exec x.1 s = .next t ∧ t.agrees (((s.afterFetch x.2.1 3 a).setMar a).afterCycles 2) ∧
        t.storedByte s a (s.reg x.2.2)

/-- `MOV SP/SI/DI,#imm16`: the address register is the immediate. -/
def Obligations.ImmediateWordMoves : Prop :=
  ∀ (s : State) (imm : Word), s.atStart →
    ∀ x ∈ [(Instr.movSpImm imm, 0x24#8, idSp), (.movSiImm imm, 0x25#8, idSi), (.movDiImm imm, 0x26#8, idDi)],
      ∃ t, exec x.1 s = .next t ∧
        t.agrees (((s.afterFetch x.2.1 3 imm).setAreg x.2.2 imm).afterCycles 1) ∧ t.sameMemory s

/-- `MOV A,[SI+]`: A is the byte at the old SI, SI is incremented, Z and C set when it wraps. -/
def Obligations.PostIncrementLoad : Prop :=
  ∀ (s : State) (b : Byte), s.atStart → s.mem.read (s.areg idSi) = some b →
    ∃ t, exec .movASiInc s = .next t ∧
      t.agrees ((((((s.afterFetch 0x27#8 1 0x0000#16).setAreg idSi (s.areg idSi + 1)).setMar (s.areg idSi)).raiseFlags
        (s.areg idSi == 0xFFFF#16) (s.areg idSi == 0xFFFF#16)).setReg idA b).afterCycles 2) ∧ t.sameMemory s

/-- `MOV [DI+],A`: the byte at the old DI, and no other, is A; DI is incremented, Z and C set when it wraps. -/
def Obligations.PostIncrementStore : Prop :=
  ∀ s : State, s.atStart → s.mem.wf = true → s.mem.writableAt (s.areg idDi) = true →
    ∃ t, exec .movDiIncA s = .next t ∧
      t.agrees (((((s.afterFetch 0x28#8 1 0x0000#16).setAreg idDi (s.areg idDi + 1)).setMar (s.areg idDi)).raiseFlags
        (s.areg idDi == 0xFFFF#16) (s.areg idDi == 0xFFFF#16)).afterCycles 2) ∧
      t.storedByte s (s.areg idDi) (s.reg idA)

/-- `MOV SI,[a16]`: SI is the little-endian word at `a`, TX is `a`, MAR is `a + 1`, Z and C set when that wraps. -/
def Obligations.WordLoad : Prop :=
  ∀ (s : State) (a : Word) (lo hi : Byte), s.atStart → s.mem.read a = some lo → s.mem.read (a + 1) = some hi →
    ∃ t, exec (.movSiMem a) s = .next t ∧
      t.agrees ((((((s.afterFetch 0x29#8 3 a).setAreg idSi (joinWord hi lo)).setAreg idTx a).setMar (a + 1)).raiseFlags
        (a == 0xFFFF#16) (a == 0xFFFF#16)).afterCycles 4) ∧ t.sameMemory s

/-- `PUSH A`: the byte at the old SP, and no other, is A; SP is decremented, Z set when it becomes 0x0000. -/
def Obligations.PushOntoStack : Prop :=
  ∀ s : State, s.atStart → s.mem.wf = true → s.mem.writableAt (s.areg idSp) = true →
    ∃ t, exec .pushA s = .next t ∧
      t.agrees (((((s.afterFetch 0x30#8 1 0x0000#16).setAreg idSp (s.areg idSp - 1)).setMar (s.areg idSp)).raiseFlags
        (s.areg idSp == 0x0001#16) false).afterCycles 2) ∧
      t.storedByte s (s.areg idSp) (s.reg idA)

/-- `POP A`: A is the byte at SP + 1, which SP becomes; Z and C set when it wraps. -/
def Obligations.PopFromStack : Prop :=
  ∀ (s : State) (b : Byte), s.atStart → s.mem.read (s.areg idSp + 1) = some b →
    ∃ t, exec .popA s = .next t ∧
      t.agrees ((((((s.afterFetch 0x31#8 1 0x0000#16).setAreg idSp (s.areg idSp + 1)).setMar
        (s.areg idSp + 1)).raiseFlags (s.areg idSp == 0xFFFF#16) (s.areg idSp == 0xFFFF#16)).setReg idA b).afterCycles 3) ∧
      t.sameMemory s

/-- The storing ALU instructions of A and B: A and the ALU hold the result, LHS the old A, the flags are the operation's;
the carry in is the Carry flag after the fetch. -/
def Obligations.AluTwoOperand : Prop :=
  ∀ s : State, s.atStart →
    ∀ x ∈ [(Instr.addAB, 0x40#8, 0x0#4, aluAdd), (.adcAB, 0x41#8, 0x1#4, aluAdc), (.subAB, 0x42#8, 0x2#4, aluSub),
           (.sbbAB, 0x43#8, 0x3#4, aluSbb), (.andAB, 0x44#8, 0x4#4, aluAnd), (.orAB, 0x45#8, 0x5#4, aluOr),
           (.xorAB, 0x46#8, 0x6#4, aluXor)],
      let res := x.2.2.2 (s.reg idA) (s.reg idB) (s.bus.c || s.fetchWraps 1)
      ∃ t, exec x.1 s = .next t ∧
        t.agrees (((((((s.afterFetch x.2.1 1 0x0000#16).setReg idLhs (s.reg idA)).setReg idAlu res.r).setAluOp idAlu
          x.2.2.1).writeFlags res).setReg idA res.r).afterCycles 3) ∧ t.sameMemory s

/-- CMP of A with B or an immediate: flags of the difference, A unchanged, the ALU keeps the right-hand byte. -/
def Obligations.Compare : Prop :=
  ∀ (s : State) (imm : Byte), s.atStart →
    (∃ t, exec .cmpAB s = .next t ∧
      t.agrees ((((((s.afterFetch 0x47#8 1 0x0000#16).setReg idLhs (s.reg idA)).setReg idAlu (s.reg idB)).setAluOp idAlu
        0x7#4).writeFlags (aluCmp (s.reg idA) (s.reg idB) s.bus.c)).afterCycles 2) ∧ t.sameMemory s) ∧
    (∃ t, exec (.cmpAImm imm) s = .next t ∧
      t.agrees ((((((s.afterFetch 0x4F#8 2 (zextWord imm)).setReg idLhs (s.reg idA)).setReg idAlu imm).setAluOp idAlu
        0x7#4).writeFlags (aluCmp (s.reg idA) imm s.bus.c)).afterCycles 2) ∧ t.sameMemory s)

/-- `ADD A,#imm8`: A and the ALU hold the sum, LHS the old A, the flags are the addition's. -/
def Obligations.AddImmediate : Prop :=
  ∀ (s : State) (imm : Byte), s.atStart →
    ∃ t, exec (.addAImm imm) s = .next t ∧
      t.agrees (((((((s.afterFetch 0x4E#8 2 (zextWord imm)).setReg idLhs (s.reg idA)).setReg idAlu
        (s.reg idA + imm)).setAluOp idAlu 0x0#4).writeFlags (aluAdd (s.reg idA) imm false)).setReg idA
        (s.reg idA + imm)).afterCycles 3) ∧ t.sameMemory s

/-- The one-operand ALU instructions: A and the ALU hold the result of the operation on A, the flags are the operation's,
LHS is not written. -/
def Obligations.AluOneOperand : Prop :=
  ∀ s : State, s.atStart →
    ∀ x ∈ [(Instr.incA, 0x48#8, 0x8#4, aluInc), (.decA, 0x49#8, 0x9#4, aluDec), (.notA, 0x4A#8, 0xA#4, aluNot),
           (.shlA, 0x4B#8, 0xB#4, aluShl), (.shrA, 0x4C#8, 0xC#4, aluShr), (.clrA, 0x4D#8, 0xD#4, aluClr)],
      let res := x.2.2.2 (s.reg idLhs) (s.reg idA) (s.bus.c || s.fetchWraps 1)
      ∃ t, exec x.1 s = .next t ∧
        t.agrees ((((((s.afterFetch x.2.1 1 0x0000#16).setReg idAlu res.r).setAluOp idAlu x.2.2.1).writeFlags
          res).setReg idA res.r).afterCycles 2) ∧ t.sameMemory s

/-- The jumps: taken, one cycle more and the pc is the target; not taken, the pc is past the operand. A condition is tested
on the flags after the operand fetch. -/
def Obligations.Jumps : Prop :=
  ∀ (s : State) (target : Word), s.atStart →
    let z := s.bus.z || s.fetchWraps 3
    let c := s.bus.c || s.fetchWraps 3
    ∀ x ∈ [(Instr.jmp target, 0x50#8, true), (.jz target, 0x51#8, z), (.jnz target, 0x52#8, !z),
           (.jc target, 0x53#8, c), (.jnc target, 0x54#8, !c), (.jv target, 0x55#8, s.bus.v)],
      ∃ t, exec x.1 s = .next t ∧
        t.agrees (if x.2.2 then ((s.afterFetch x.2.1 3 target).setAreg idPc target).afterCycles 1
                  else s.afterFetch x.2.1 3 target) ∧ t.sameMemory s

/-- `CALL`: the return address is stored little-endian at SP - 1 and SP, SP is decremented twice, the pc is the target. -/
def Obligations.Call : Prop :=
  ∀ (s : State) (target : Word), s.atStart → s.mem.wf = true → s.mem.writableAt (s.areg idSp) = true →
    s.mem.writableAt (s.areg idSp - 1) = true →
    ∃ t, exec (.call target) s = .next t ∧
      t.agrees ((((((s.afterFetch 0x56#8 3 target).setAreg idSp (s.areg idSp - 2)).setMar (s.areg idSp - 1)).raiseFlags
        (s.areg idSp == 0x0001#16 || s.areg idSp == 0x0002#16) false).setAreg idPc target).afterCycles 5) ∧
      t.mem.ranges = s.mem.ranges ∧ t.mem.read (s.areg idSp) = some (highByte (s.areg idPc + 3)) ∧
      t.mem.read (s.areg idSp - 1) = some (lowByte (s.areg idPc + 3)) ∧
      ∀ x, x ≠ s.areg idSp → x ≠ s.areg idSp - 1 → t.mem.read x = s.mem.read x

/-- `RET`: the pc is the little-endian word at SP + 1, SP is incremented twice, Z and C set when it wraps. -/
def Obligations.Return : Prop :=
  ∀ (s : State) (lo hi : Byte), s.atStart → s.mem.read (s.areg idSp + 1) = some lo →
    s.mem.read (s.areg idSp + 2) = some hi →
    let w := s.areg idSp == 0xFFFF#16 || s.areg idSp == 0xFFFE#16
    ∃ t, exec .ret s = .next t ∧
      t.agrees ((((((s.afterFetch 0x57#8 1 0x0000#16).setAreg idSp (s.areg idSp + 2)).setMar
        (s.areg idSp + 2)).raiseFlags w w).setAreg idPc (joinWord hi lo)).afterCycles 6) ∧ t.sameMemory s

/-- `OUT A` passes A to channel 0's output callback; `IN A` reads A from channel 1, whatever its callback answers (with no
scheduled answer a free value, notes/assumptions/5.md). -/
def Obligations.InOut : Prop :=
  ∀ s : State, s.atStart →
    (∃ t, exec .outA s = .next t ∧
      t.agrees (((s.afterFetch 0x60#8 1 0x0000#16).outputIf true channelOut (s.reg idA)).afterCycles 1) ∧
      t.sameMemory s) ∧
    (∃ t, exec .inA s = .next t ∧
      t.agrees ((((s.afterFetch 0x61#8 1 0x0000#16).takeInput channelIn).setReg idA (s.nextInput channelIn)).afterCycles
        1) ∧ t.sameMemory s)

/-- The loads from an address in no range: `InvalidComponentID` at the rising edge of the reading cycle, with the effects of
the steps before it and no other; a second read of `MOV SI,[a16]` or RET leaves the first half loaded. -/
def Obligations.LoadTrap : Prop :=
  ∀ (s : State) (a : Word) (lo : Byte), s.atStart →
    let sp := s.areg idSp
    let si := s.areg idSi
    (s.mem.rangeOf a = none →
      ∀ x ∈ [(Instr.movAMem a, 0x20#8), (.movBMem a, 0x22#8), (.movSiMem a, 0x29#8)],
        ∃ t, exec x.1 s = .next t ∧ t.sameMemory s ∧
          t.trapsIn (((s.afterFetch x.2 3 a).setMar a).afterCycles 1) (.invalidComponentID a) .rising 7) ∧
    (s.mem.rangeOf si = none →
      ∃ t, exec .movASiInc s = .next t ∧ t.sameMemory s ∧
        t.trapsIn (((((s.afterFetch 0x27#8 1 0x0000#16).setAreg idSi (si + 1)).setMar si).raiseFlags
          (si == 0xFFFF#16) (si == 0xFFFF#16)).afterCycles 1) (.invalidComponentID si) .rising 3) ∧
    (s.mem.read a = some lo → s.mem.rangeOf (a + 1) = none →
      ∃ t, exec (.movSiMem a) s = .next t ∧ t.sameMemory s ∧
        t.trapsIn ((((((s.afterFetch 0x29#8 3 a).setAreg idSi (joinWord (highByte si) lo)).setAreg idTx a).setMar
          (a + 1)).raiseFlags (a == 0xFFFF#16) (a == 0xFFFF#16)).afterCycles 3) (.invalidComponentID (a + 1)) .rising 9) ∧
    (s.mem.rangeOf (sp + 1) = none →
      ∀ x ∈ [(Instr.popA, 0x31#8), (.ret, 0x57#8)],
        ∃ t, exec x.1 s = .next t ∧ t.sameMemory s ∧
          t.trapsIn (((((s.afterFetch x.2 1 0x0000#16).setAreg idSp (sp + 1)).setMar (sp + 1)).raiseFlags
            (sp == 0xFFFF#16) (sp == 0xFFFF#16)).afterCycles 2) (.invalidComponentID (sp + 1)) .rising 4) ∧
    (s.mem.read (sp + 1) = some lo → s.mem.rangeOf (sp + 2) = none →
      let w := sp == 0xFFFF#16 || sp == 0xFFFE#16
      ∃ t, exec .ret s = .next t ∧ t.sameMemory s ∧
        t.trapsIn ((((((s.afterFetch 0x57#8 1 0x0000#16).setAreg idSp (sp + 2)).setMar (sp + 2)).raiseFlags w w).setAreg
          idPc (joinWord (highByte (s.areg idPc + 1)) lo)).afterCycles 5) (.invalidComponentID (sp + 2)) .rising 7)

/-- The stores to an address in no range, or in a read-only one: the error at the high clock of the storing cycle, with the
effects of the steps before it and no other, the byte unchanged; SP or DI is modified by then, and the second byte of a CALL
leaves the first one stored. -/
def Obligations.StoreTrap : Prop :=
  ∀ (s : State) (a target : Word) (e : Fault), s.atStart →
    ((s.mem.rangeOf a = none ∧ e = .invalidComponentID a) ∨
     (∃ r, s.mem.rangeOf a = some r ∧ r.writable = false ∧ e = .protectedMemory a)) →
    let sp := s.areg idSp
    (∀ x ∈ [(Instr.movMemA a, 0x21#8), (.movMemB a, 0x23#8)],
      ∃ t, exec x.1 s = .next t ∧ t.sameMemory s ∧
        t.trapsIn (((s.afterFetch x.2 3 a).setMar a).afterCycles 1) e .high 7) ∧
    (s.areg idDi = a →
      ∃ t, exec .movDiIncA s = .next t ∧ t.sameMemory s ∧
        t.trapsIn (((((s.afterFetch 0x28#8 1 0x0000#16).setAreg idDi (a + 1)).setMar a).raiseFlags
          (a == 0xFFFF#16) (a == 0xFFFF#16)).afterCycles 1) e .high 3) ∧
    (sp = a →
      ∀ x ∈ [(Instr.pushA, 0x30#8, 1, 0x0000#16, 3), (.call target, 0x56#8, 3, target, 7)],
        ∃ t, exec x.1 s = .next t ∧ t.sameMemory s ∧
          t.trapsIn (((((s.afterFetch x.2.1 x.2.2.1 x.2.2.2.1).setAreg idSp (a - 1)).setMar a).raiseFlags
            (a == 0x0001#16) false).afterCycles 1) e .high x.2.2.2.2) ∧
    (s.mem.wf = true → s.mem.writableAt sp = true → sp - 1 = a →
      ∃ t, exec (.call target) s = .next t ∧ t.storedByte s sp (highByte (s.areg idPc + 3)) ∧
        t.trapsIn (((((s.afterFetch 0x56#8 3 target).setAreg idSp (sp - 2)).setMar a).raiseFlags
          (sp == 0x0001#16 || sp == 0x0002#16) false).afterCycles 3) e .high 9)

/-! ### The machine -/

/-- A turning clock runs the instruction whose bytes are at the program counter, where a step is a whole instruction (a
wired controller at its boundary, no cycle cap, not BreakAtClock, no request of the host inside it): the step is `exec` of
what they decode to, then the loop's own part. An error emits Error and Stopped and stops the clock; BreakAtInstruction,
when the instruction has ended, asserts `suspend`, emits Stopped and stops the clock. That a step is a whole instruction is
the model's choice, notes/assumptions/3.md. The cycle number of an event is the model's choice, notes/assumptions/35.md. -/
def Obligations.StepRunsDecodedInstruction : Prop :=
  ∀ (s : State) (i : Instr) (rest : List Byte), s.turning → s.wholeInstructions = true →
    decodeBytes s.bytesAtPc = .ok (i, rest) →
    i.wellFormed = true ∧
    (∀ r, exec i s = .refused r → step s = .refused r) ∧
    (∀ t, exec i s = .next t → t.fault.isSome = true →
      step s = .next { t with
        clock := { t.clock with running := false, stopRequested := false, cap := none }
        events := t.events ++ [⟨.clock, .error, t.cycles, none⟩, ⟨.clock, .stopped, t.cycles, none⟩] }) ∧
    (∀ t, exec i s = .next t → t.fault = none →
      step s = .next (
        if t.bus.runMode = .breakAtInstruction ∧ t.ctrl.step = 0 then
          { t with
            bus := { t.bus with suspend := true }
            clock := { t.clock with running := false, stopRequested := false, cap := none }
            events := t.events ++ [⟨.clock, .stopped, t.cycles, none⟩] }
        else t))

/-- Where a step is one cycle (inside an instruction, under a cycle cap or BreakAtClock, or with a request of the host
near), a turning clock runs the controller's current micro-step, as the micro-operation it decodes to, then the loop's own
part. An error emits Error and Stopped and stops the clock. Otherwise one cycle is taken off the cap, and BreakAtClock, or
BreakAtInstruction when the instruction has ended, asserts `suspend`, emits Stopped and stops the clock. When a step is one
cycle is the model's choice, notes/assumptions/3.md. The cycle number of an event is the model's choice,
notes/assumptions/35.md. -/
def Obligations.StepRunsCurrentMicroStep : Prop :=
  ∀ (s : State) (m : MicroStep) (i : Instr), s.turning → s.wholeInstructions = false → s.wiring.hasController = true →
    s.ctrl.current s.wiring = some m → decodeStep m = .ok i →
    i.wellFormed = true ∧ encode i = .control m.pack ∧
    (∀ r, exec i s = .refused r → step s = .refused r) ∧
    (∀ t, exec i s = .next t → t.fault.isSome = true →
      step s = .next { t with
        clock := { t.clock with running := false, stopRequested := false, cap := none }
        events := t.events ++ [⟨.clock, .error, t.cycles, none⟩, ⟨.clock, .stopped, t.cycles, none⟩] }) ∧
    (∀ t, exec i s = .next t → t.fault = none →
      step s = .next (
        if t.bus.runMode = .breakAtClock ∨ (t.bus.runMode = .breakAtInstruction ∧ t.ctrl.step = 0) then
          { t with
            bus := { t.bus with suspend := true }
            clock := { t.clock with running := false, stopRequested := false, cap := none }
            events := t.events ++ [⟨.clock, .stopped, t.cycles, none⟩] }
        else { t with clock := { t.clock with cap := t.clock.cap.map (· - 1) } }))

/-- An opcode of R382's list at the pc: two steps, `NoMicroCode` in the second cycle, the pc past the opcode, `ir` the
opcode, no runner, step 1, the clock stopped and no further cycle. That the fetch takes two steps of one cycle each is the
model's choice, notes/assumptions/3.md and 30.md, and so is that the next step reports the fault, notes/assumptions/4.md. -/
def Obligations.UnassignedOpcodeTraps : Prop :=
  ∀ (s : State) (op : Byte), s.turning → s.atStart → s.bus.runMode ≠ .breakAtClock → s.clock.cap = none →
    s.requestBefore (s.cycles + 2) = false →
    s.mem.read (s.areg idPc) = some op →
    ((0x02 ≤ op.toNat ∧ op.toNat ≤ 0x0F) ∨ (0x1A ≤ op.toNat ∧ op.toNat ≤ 0x1F) ∨
     (0x2A ≤ op.toNat ∧ op.toNat ≤ 0x2F) ∨ (0x32 ≤ op.toNat ∧ op.toNat ≤ 0x3F) ∨
     (0x58 ≤ op.toNat ∧ op.toNat ≤ 0x5F) ∨ 0x62 ≤ op.toNat) →
    ∃ t u, step s = .next t ∧ step t = .next u ∧
      u.fault = some (.error (.noMicroCode op) (s.cycles + 1) .high idCtrl) ∧ u.ctrl.ir = op ∧ u.ctrl.runner = none ∧
      u.ctrl.step = 1 ∧ u.areg idPc = s.areg idPc + 1 ∧ u.mar = s.areg idPc ∧ u.regs = s.regs ∧ u.sameMemory s ∧
      u.clock.running = false ∧ step u = .fault (.noMicroCode op)

/-- A fetch from an address in no range: two steps, `InvalidComponentID` at the rising edge of the second cycle, the clock
stopped. That the fetch takes two steps of one cycle each is the model's choice, notes/assumptions/3.md and 30.md, and so is
that the next step reports the fault, notes/assumptions/4.md. -/
def Obligations.UnmappedFetchTraps : Prop :=
  ∀ s : State, s.turning → s.atStart → s.bus.runMode ≠ .breakAtClock → s.clock.cap = none →
    s.requestBefore (s.cycles + 2) = false →
    s.mem.read (s.areg idPc) = none →
    ∃ t u, step s = .next t ∧ step t = .next u ∧
      u.fault = some (.error (.invalidComponentID (s.areg idPc)) (s.cycles + 1) .rising idMem) ∧
      u.ctrl.ir = s.ctrl.ir ∧ u.ctrl.runner = none ∧ u.ctrl.step = 1 ∧ u.areg idPc = s.areg idPc + 1 ∧
      u.mar = s.areg idPc ∧ u.regs = s.regs ∧ u.sameMemory s ∧ u.clock.running = false ∧
      step u = .fault (.invalidComponentID (s.areg idPc))

/-- What ends the run loop before a cycle, in its order: `halt`, the `reset` line (which resets), a stop request, a spent
cap. Before these, at every cycle boundary of a run, the requests of the host that are due are granted; a step with a
request inside the next 31 cycles is one cycle, so that no boundary is passed over (the model's choice,
notes/assumptions/3.md). A clock that is not running does nothing, or reports the error that stopped it: the model's choice,
notes/assumptions/4.md and 26.md. The cycle number of an event is the model's choice, notes/assumptions/35.md. -/
def Obligations.RunLoopStops : Prop :=
  ∀ s : State,
    (s.clock.running = true → step s = step s.takeRequests) ∧
    (s.requestBefore (s.cycles + 1) = false → s.takeRequests = s) ∧
    (∀ n r rest, s.requests = (n, r) :: rest → n ≤ s.cycles →
      s.takeRequests = (s.grant r).takeRequestsFrom rest ∧
      (s.grant .stop).clock.stopRequested = true ∧ (s.grant .assertReset).bus.resetLine = true ∧
      (s.grant .assertNmi).bus.nmi = true) ∧
    (s.requestBefore (s.cycles + 31) = true → s.wholeInstructions = false) ∧
    (s.clock.running = true → s.requestBefore (s.cycles + 1) = false → s.bus.halt = true →
      step s = .next s.clockStop) ∧
    (s.clock.running = true → s.requestBefore (s.cycles + 1) = false → s.bus.halt = false → s.bus.resetLine = true →
      step s = .next s.resetMachine.clockStop) ∧
    (s.clock.running = true → s.requestBefore (s.cycles + 1) = false → s.bus.halt = false → s.bus.resetLine = false →
      (s.clock.stopRequested = true ∨ s.clock.cap = some 0) → step s = .next s.clockStop) ∧
    (s.clockStop.clock.running = false ∧ s.clockStop.clock.stopRequested = false ∧
      s.clockStop.events = s.events ++ [⟨.clock, .stopped, s.cycles, none⟩]) ∧
    (s.clock.running = false → s.fault = none → step s = .next s) ∧
    (∀ e n p c, s.clock.running = false → s.fault = some (.error e n p c) → step s = .fault e)

/-- Every step keeps the machine's invariant: a well-formed wiring, canonical memory, a coherent controller, a legal
frequency. -/
def Obligations.StepKeepsInvariant : Prop :=
  ∀ s t : State, s.invariant → step s = .next t → t.invariant

/-- The invariant holds of the machine when it is built. Its bound on the frequency is the model's choice for a default that
the spec leaves OPEN, notes/assumptions/12.md. -/
def Obligations.ResetInvariant : Prop := State.reset.invariant

/-- The machine when it is built, in every item the spec gives a value: idle bus, controller at fetch, no range, no fault,
the frequency within its bounds. The registers the spec leaves a draw are not named. The bounds on the frequency are the
model's choice, notes/assumptions/12.md, and so is that the clock is stopped, notes/assumptions/6.md. -/
def Obligations.BuiltState : Prop :=
  State.reset.bus =
    { dataByte := 0x00#8, addrByte := 0x00#8, sourceId := 0x0#4, destId := 0x0#4, opFlags := 0x00#8,
      xdata := true, xaddr := true, io := true, halt := false, suspend := false, nmi := false, resetLine := false,
      z := false, c := false, v := false, runMode := .continuous } ∧
  State.reset.ctrl = ⟨0x00#8, 0, 0x00#8, 0x00#8, 0x0000#16, none⟩ ∧
  State.reset.mem.ranges = [] ∧ (∀ a, State.reset.mem.read a = none) ∧ State.reset.fault = none ∧
  State.reset.cycles = 0 ∧ State.reset.events = [] ∧ State.reset.clock.running = false ∧
  State.reset.clock.stopRequested = false ∧ 0 < State.reset.clock.khz ∧ State.reset.clock.khz ≤ 1000

/-- `Reset()` on any machine: what it sets, what it keeps, and that the draws are unconstrained by this statement. -/
def Obligations.ResetOperation : Prop :=
  ∀ s : State,
    s.resetMachine.bus =
      { dataByte := 0x00#8, addrByte := 0x00#8, sourceId := 0x0#4, destId := 0x0#4, opFlags := 0x00#8,
        xdata := true, xaddr := true, io := true, halt := false, suspend := false, nmi := false, resetLine := false,
        z := false, c := false, v := false, runMode := s.bus.runMode } ∧
    s.resetMachine.ctrl = ⟨0x00#8, 0, 0x00#8, 0x00#8, 0x0000#16, none⟩ ∧
    s.resetMachine.resetHookCalls =
      s.resetHookCalls ++ (s.wiring.channels.filter fun ch => ch.hasResetHook).map (fun ch => ch.id) ∧
    s.resetMachine.fault = none ∧ s.resetMachine.clock.stopRequested = false ∧ s.resetMachine.cycles = 0 ∧
    s.resetMachine.mem = s.mem ∧ s.resetMachine.wiring = s.wiring ∧ s.resetMachine.clock.khz = s.clock.khz ∧
    s.resetMachine.clock.listener = s.clock.listener ∧ s.resetMachine.events = s.events

/-- No step changes the wiring or the memory's ranges, or a byte outside every writable range. -/
def Obligations.StepKeepsReadOnlyMemory : Prop :=
  ∀ s t : State, step s = .next t →
    t.wiring = s.wiring ∧ t.mem.ranges = s.mem.ranges ∧
    ∀ a, s.mem.writableAt a = false → t.mem.read a = s.mem.read a

/-- What only the host and `Reset()` write: every step leaves the run mode, the listener and the run record and only adds to
the trace and the outputs; one with no request of the host due leaves the frequency; and one that does not take the `reset`
line either leaves `nmi`, that line and the controller's inert bytes. -/
def Obligations.StepLeavesHostState : Prop :=
  ∀ s t : State, step s = .next t →
    t.bus.runMode = s.bus.runMode ∧ t.clock.listener = s.clock.listener ∧ t.hasRun = s.hasRun ∧
    (∃ es, t.events = s.events ++ es) ∧ (∃ os, t.outputs = s.outputs ++ os) ∧
    (s.requestBefore (s.cycles + 1) = false →
      t.clock.khz = s.clock.khz ∧ t.requests = s.requests ∧
      (s.bus.resetLine = false → t.bus.nmi = s.bus.nmi ∧ t.bus.resetLine = s.bus.resetLine ∧
        t.ctrl.scratch = s.ctrl.scratch ∧ t.ctrl.interruptVector = s.ctrl.interruptVector))

/-- A reference instruction, run with its own bytes, is the machine run cycle by cycle over the reference table with every
byte read from memory, wherever memory holds the instruction at the pc (notes/assumptions/8.md). -/
def Obligations.InstructionIsItsCycles : Prop :=
  ∀ (s : State) (i : Instr) (rest : List Byte), s.atStart →
    decodeBytes (s.mem.readableBytes 3 (s.areg idPc)) = .ok (i, rest) →
    exec i s = (State.runInstructionCycles referenceMicrocode Config.maxInstructionCycles [] s).outcome

/-- A reference instruction ends: it takes at least one and at most 31 cycles, and leaves an error or the machine at the
start of the next instruction, at fetch step 0 with no runner. -/
def Obligations.InstructionEndsAtBoundary : Prop :=
  ∀ (s : State) (i : Instr) (bytes : List Byte), s.atStart → bytesOf i = some bytes →
    ∃ t, exec i s = .next t ∧ s.cycles < t.cycles ∧ t.cycles ≤ s.cycles + 31 ∧
      (t.fault.isSome = true ∨ t.atStart)

/-- An error raised in a step stops the clock, with `Error` then `Stopped` as the last events; from then on every step
reports it (the model's choice, notes/assumptions/4.md), every instruction is refused and the host's reset is answered. The
cycle number of an event is the model's choice, notes/assumptions/35.md. -/
def Obligations.ErrorStopsTheClock : Prop :=
  ∀ s t : State, s.fault = none → step s = .next t → t.fault.isSome = true →
    t.clock.running = false ∧ t.clock.stopRequested = false ∧
    (∃ es, t.events = s.events ++ es ++ [⟨.clock, .error, t.cycles, none⟩, ⟨.clock, .stopped, t.cycles, none⟩]) ∧
    (∃ e n p c, t.fault = some (.error e n p c) ∧ step t = .fault e) ∧
    (∀ i, exec i t = .refused .afterError) ∧ t.hostReset = .next t.resetMachine

/-- After a fault: the operations refused, the ones that stay allowed, and reset, which clears the record. -/
def Obligations.FaultIsSticky : Prop :=
  ∀ s : State, s.fault.isSome = true →
    (∀ i, exec i s = .refused .afterError) ∧ (∀ a, s.run a = .refused .afterError) ∧
    (∀ cap, s.start cap = .refused .afterError) ∧
    (∀ n bytes a w, s.loadImage n bytes a w = .refused .afterError) ∧
    (∀ x y z src dst f d a, s.injectBus x y z src dst f d a = .refused .afterError) ∧
    s.manualCycle = .refused .afterError ∧ s.resetMachine.fault = none ∧
    s.stop = .next s.requestStop ∧ (∀ m, ∃ t, s.setRunMode m = .next t ∧ t.bus.runMode = m) ∧ (s.setSpeed 1).1 = true

/-- `set_speed`: accepted exactly for 0 < khz <= 1000, with the frequency written and `FreqChange`; otherwise no change. The
cycle number of an event is the model's choice, notes/assumptions/35.md. -/
def Obligations.SetSpeed : Prop :=
  ∀ (s : State) (khz : Nat),
    (0 < khz ∧ khz ≤ 1000 → (s.setSpeed khz).1 = true ∧ (s.setSpeed khz).2.clock = { s.clock with khz := khz } ∧
      (s.setSpeed khz).2.events = s.events ++ [⟨.clock, .freqChange, s.cycles, none⟩]) ∧
    (¬ (0 < khz ∧ khz ≤ 1000) → s.setSpeed khz = (false, s))
end

