-- ==== Sys2Proof/Laws/State.lean ====
section
/-! SUPPORT. What each named update of the state changes and leaves: one lemma per field and update, so that no later proof
unfolds a record update. -/

namespace Sys2Proof.Machine

variable (s : State)

/-! ### `State.setBus` -/

@[simp] theorem setBus_wiring (b : Bus) : (s.setBus b).wiring = s.wiring := rfl
@[simp] theorem setBus_bus (b : Bus) : (s.setBus b).bus = b := rfl
@[simp] theorem setBus_regs (b : Bus) : (s.setBus b).regs = s.regs := rfl
@[simp] theorem setBus_aregs (b : Bus) : (s.setBus b).aregs = s.aregs := rfl
@[simp] theorem setBus_aluOperation (b : Bus) : (s.setBus b).aluOperation = s.aluOperation := rfl
@[simp] theorem setBus_mar (b : Bus) : (s.setBus b).mar = s.mar := rfl
@[simp] theorem setBus_mem (b : Bus) : (s.setBus b).mem = s.mem := rfl
@[simp] theorem setBus_ctrl (b : Bus) : (s.setBus b).ctrl = s.ctrl := rfl
@[simp] theorem setBus_clock (b : Bus) : (s.setBus b).clock = s.clock := rfl
@[simp] theorem setBus_cycles (b : Bus) : (s.setBus b).cycles = s.cycles := rfl
@[simp] theorem setBus_fault (b : Bus) : (s.setBus b).fault = s.fault := rfl
@[simp] theorem setBus_errorSlots (b : Bus) : (s.setBus b).errorSlots = s.errorSlots := rfl
@[simp] theorem setBus_events (b : Bus) : (s.setBus b).events = s.events := rfl
@[simp] theorem setBus_outputs (b : Bus) : (s.setBus b).outputs = s.outputs := rfl
@[simp] theorem setBus_resetHookCalls (b : Bus) : (s.setBus b).resetHookCalls = s.resetHookCalls := rfl
@[simp] theorem setBus_hasRun (b : Bus) : (s.setBus b).hasRun = s.hasRun := rfl
@[simp] theorem setBus_inputs (b : Bus) : (s.setBus b).inputs = s.inputs := rfl
@[simp] theorem setBus_draws (b : Bus) : (s.setBus b).draws = s.draws := rfl
@[simp] theorem setBus_requests (b : Bus) : (s.setBus b).requests = s.requests := rfl
@[simp] theorem setBus_channelErrorSlots (b : Bus) : (s.setBus b).channelErrorSlots = s.channelErrorSlots := rfl
@[simp] theorem setBus_reg (b : Bus) (i : Id) : (s.setBus b).reg i = s.reg i := rfl
@[simp] theorem setBus_areg (b : Bus) (i : Id) : (s.setBus b).areg i = s.areg i := rfl
@[simp] theorem setBus_aluOp (b : Bus) (i : Id) : (s.setBus b).aluOp i = s.aluOp i := rfl
@[simp] theorem setBus_resolve (b : Bus) (i : Id) : (s.setBus b).resolve i = s.resolve i := rfl

/-! ### `State.setReg` -/

@[simp] theorem setReg_wiring (r : Id) (v : Byte) : (s.setReg r v).wiring = s.wiring := rfl
@[simp] theorem setReg_bus (r : Id) (v : Byte) : (s.setReg r v).bus = s.bus := rfl
@[simp] theorem setReg_aregs (r : Id) (v : Byte) : (s.setReg r v).aregs = s.aregs := rfl
@[simp] theorem setReg_aluOperation (r : Id) (v : Byte) : (s.setReg r v).aluOperation = s.aluOperation := rfl
@[simp] theorem setReg_mar (r : Id) (v : Byte) : (s.setReg r v).mar = s.mar := rfl
@[simp] theorem setReg_mem (r : Id) (v : Byte) : (s.setReg r v).mem = s.mem := rfl
@[simp] theorem setReg_ctrl (r : Id) (v : Byte) : (s.setReg r v).ctrl = s.ctrl := rfl
@[simp] theorem setReg_clock (r : Id) (v : Byte) : (s.setReg r v).clock = s.clock := rfl
@[simp] theorem setReg_cycles (r : Id) (v : Byte) : (s.setReg r v).cycles = s.cycles := rfl
@[simp] theorem setReg_fault (r : Id) (v : Byte) : (s.setReg r v).fault = s.fault := rfl
@[simp] theorem setReg_errorSlots (r : Id) (v : Byte) : (s.setReg r v).errorSlots = s.errorSlots := rfl
@[simp] theorem setReg_events (r : Id) (v : Byte) : (s.setReg r v).events = s.events := rfl
@[simp] theorem setReg_outputs (r : Id) (v : Byte) : (s.setReg r v).outputs = s.outputs := rfl
@[simp] theorem setReg_resetHookCalls (r : Id) (v : Byte) : (s.setReg r v).resetHookCalls = s.resetHookCalls := rfl
@[simp] theorem setReg_hasRun (r : Id) (v : Byte) : (s.setReg r v).hasRun = s.hasRun := rfl
@[simp] theorem setReg_inputs (r : Id) (v : Byte) : (s.setReg r v).inputs = s.inputs := rfl
@[simp] theorem setReg_draws (r : Id) (v : Byte) : (s.setReg r v).draws = s.draws := rfl
@[simp] theorem setReg_requests (r : Id) (v : Byte) : (s.setReg r v).requests = s.requests := rfl
@[simp] theorem setReg_channelErrorSlots (r : Id) (v : Byte) : (s.setReg r v).channelErrorSlots = s.channelErrorSlots := rfl
@[simp] theorem setReg_areg (r : Id) (v : Byte) (i : Id) : (s.setReg r v).areg i = s.areg i := rfl
@[simp] theorem setReg_aluOp (r : Id) (v : Byte) (i : Id) : (s.setReg r v).aluOp i = s.aluOp i := rfl
@[simp] theorem setReg_resolve (r : Id) (v : Byte) (i : Id) : (s.setReg r v).resolve i = s.resolve i := rfl

/-! ### `State.setAreg` -/

@[simp] theorem setAreg_wiring (r : Id) (v : Word) : (s.setAreg r v).wiring = s.wiring := rfl
@[simp] theorem setAreg_bus (r : Id) (v : Word) : (s.setAreg r v).bus = s.bus := rfl
@[simp] theorem setAreg_regs (r : Id) (v : Word) : (s.setAreg r v).regs = s.regs := rfl
@[simp] theorem setAreg_aluOperation (r : Id) (v : Word) : (s.setAreg r v).aluOperation = s.aluOperation := rfl
@[simp] theorem setAreg_mar (r : Id) (v : Word) : (s.setAreg r v).mar = s.mar := rfl
@[simp] theorem setAreg_mem (r : Id) (v : Word) : (s.setAreg r v).mem = s.mem := rfl
@[simp] theorem setAreg_ctrl (r : Id) (v : Word) : (s.setAreg r v).ctrl = s.ctrl := rfl
@[simp] theorem setAreg_clock (r : Id) (v : Word) : (s.setAreg r v).clock = s.clock := rfl
@[simp] theorem setAreg_cycles (r : Id) (v : Word) : (s.setAreg r v).cycles = s.cycles := rfl
@[simp] theorem setAreg_fault (r : Id) (v : Word) : (s.setAreg r v).fault = s.fault := rfl
@[simp] theorem setAreg_errorSlots (r : Id) (v : Word) : (s.setAreg r v).errorSlots = s.errorSlots := rfl
@[simp] theorem setAreg_events (r : Id) (v : Word) : (s.setAreg r v).events = s.events := rfl
@[simp] theorem setAreg_outputs (r : Id) (v : Word) : (s.setAreg r v).outputs = s.outputs := rfl
@[simp] theorem setAreg_resetHookCalls (r : Id) (v : Word) : (s.setAreg r v).resetHookCalls = s.resetHookCalls := rfl
@[simp] theorem setAreg_hasRun (r : Id) (v : Word) : (s.setAreg r v).hasRun = s.hasRun := rfl
@[simp] theorem setAreg_inputs (r : Id) (v : Word) : (s.setAreg r v).inputs = s.inputs := rfl
@[simp] theorem setAreg_draws (r : Id) (v : Word) : (s.setAreg r v).draws = s.draws := rfl
@[simp] theorem setAreg_requests (r : Id) (v : Word) : (s.setAreg r v).requests = s.requests := rfl
@[simp] theorem setAreg_channelErrorSlots (r : Id) (v : Word) : (s.setAreg r v).channelErrorSlots = s.channelErrorSlots := rfl
@[simp] theorem setAreg_reg (r : Id) (v : Word) (i : Id) : (s.setAreg r v).reg i = s.reg i := rfl
@[simp] theorem setAreg_aluOp (r : Id) (v : Word) (i : Id) : (s.setAreg r v).aluOp i = s.aluOp i := rfl
@[simp] theorem setAreg_resolve (r : Id) (v : Word) (i : Id) : (s.setAreg r v).resolve i = s.resolve i := rfl

/-! ### `State.setAluOp` -/

@[simp] theorem setAluOp_wiring (r : Id) (v : BitVec 4) : (s.setAluOp r v).wiring = s.wiring := rfl
@[simp] theorem setAluOp_bus (r : Id) (v : BitVec 4) : (s.setAluOp r v).bus = s.bus := rfl
@[simp] theorem setAluOp_regs (r : Id) (v : BitVec 4) : (s.setAluOp r v).regs = s.regs := rfl
@[simp] theorem setAluOp_aregs (r : Id) (v : BitVec 4) : (s.setAluOp r v).aregs = s.aregs := rfl
@[simp] theorem setAluOp_mar (r : Id) (v : BitVec 4) : (s.setAluOp r v).mar = s.mar := rfl
@[simp] theorem setAluOp_mem (r : Id) (v : BitVec 4) : (s.setAluOp r v).mem = s.mem := rfl
@[simp] theorem setAluOp_ctrl (r : Id) (v : BitVec 4) : (s.setAluOp r v).ctrl = s.ctrl := rfl
@[simp] theorem setAluOp_clock (r : Id) (v : BitVec 4) : (s.setAluOp r v).clock = s.clock := rfl
@[simp] theorem setAluOp_cycles (r : Id) (v : BitVec 4) : (s.setAluOp r v).cycles = s.cycles := rfl
@[simp] theorem setAluOp_fault (r : Id) (v : BitVec 4) : (s.setAluOp r v).fault = s.fault := rfl
@[simp] theorem setAluOp_errorSlots (r : Id) (v : BitVec 4) : (s.setAluOp r v).errorSlots = s.errorSlots := rfl
@[simp] theorem setAluOp_events (r : Id) (v : BitVec 4) : (s.setAluOp r v).events = s.events := rfl
@[simp] theorem setAluOp_outputs (r : Id) (v : BitVec 4) : (s.setAluOp r v).outputs = s.outputs := rfl
@[simp] theorem setAluOp_resetHookCalls (r : Id) (v : BitVec 4) : (s.setAluOp r v).resetHookCalls = s.resetHookCalls := rfl
@[simp] theorem setAluOp_hasRun (r : Id) (v : BitVec 4) : (s.setAluOp r v).hasRun = s.hasRun := rfl
@[simp] theorem setAluOp_inputs (r : Id) (v : BitVec 4) : (s.setAluOp r v).inputs = s.inputs := rfl
@[simp] theorem setAluOp_draws (r : Id) (v : BitVec 4) : (s.setAluOp r v).draws = s.draws := rfl
@[simp] theorem setAluOp_requests (r : Id) (v : BitVec 4) : (s.setAluOp r v).requests = s.requests := rfl
@[simp] theorem setAluOp_channelErrorSlots (r : Id) (v : BitVec 4) : (s.setAluOp r v).channelErrorSlots = s.channelErrorSlots := rfl
@[simp] theorem setAluOp_reg (r : Id) (v : BitVec 4) (i : Id) : (s.setAluOp r v).reg i = s.reg i := rfl
@[simp] theorem setAluOp_areg (r : Id) (v : BitVec 4) (i : Id) : (s.setAluOp r v).areg i = s.areg i := rfl
@[simp] theorem setAluOp_resolve (r : Id) (v : BitVec 4) (i : Id) : (s.setAluOp r v).resolve i = s.resolve i := rfl

/-! ### `State.setMar` -/

@[simp] theorem setMar_wiring (v : Word) : (s.setMar v).wiring = s.wiring := rfl
@[simp] theorem setMar_bus (v : Word) : (s.setMar v).bus = s.bus := rfl
@[simp] theorem setMar_regs (v : Word) : (s.setMar v).regs = s.regs := rfl
@[simp] theorem setMar_aregs (v : Word) : (s.setMar v).aregs = s.aregs := rfl
@[simp] theorem setMar_aluOperation (v : Word) : (s.setMar v).aluOperation = s.aluOperation := rfl
@[simp] theorem setMar_mar (v : Word) : (s.setMar v).mar = v := rfl
@[simp] theorem setMar_mem (v : Word) : (s.setMar v).mem = s.mem := rfl
@[simp] theorem setMar_ctrl (v : Word) : (s.setMar v).ctrl = s.ctrl := rfl
@[simp] theorem setMar_clock (v : Word) : (s.setMar v).clock = s.clock := rfl
@[simp] theorem setMar_cycles (v : Word) : (s.setMar v).cycles = s.cycles := rfl
@[simp] theorem setMar_fault (v : Word) : (s.setMar v).fault = s.fault := rfl
@[simp] theorem setMar_errorSlots (v : Word) : (s.setMar v).errorSlots = s.errorSlots := rfl
@[simp] theorem setMar_events (v : Word) : (s.setMar v).events = s.events := rfl
@[simp] theorem setMar_outputs (v : Word) : (s.setMar v).outputs = s.outputs := rfl
@[simp] theorem setMar_resetHookCalls (v : Word) : (s.setMar v).resetHookCalls = s.resetHookCalls := rfl
@[simp] theorem setMar_hasRun (v : Word) : (s.setMar v).hasRun = s.hasRun := rfl
@[simp] theorem setMar_inputs (v : Word) : (s.setMar v).inputs = s.inputs := rfl
@[simp] theorem setMar_draws (v : Word) : (s.setMar v).draws = s.draws := rfl
@[simp] theorem setMar_requests (v : Word) : (s.setMar v).requests = s.requests := rfl
@[simp] theorem setMar_channelErrorSlots (v : Word) : (s.setMar v).channelErrorSlots = s.channelErrorSlots := rfl
@[simp] theorem setMar_reg (v : Word) (i : Id) : (s.setMar v).reg i = s.reg i := rfl
@[simp] theorem setMar_areg (v : Word) (i : Id) : (s.setMar v).areg i = s.areg i := rfl
@[simp] theorem setMar_aluOp (v : Word) (i : Id) : (s.setMar v).aluOp i = s.aluOp i := rfl
@[simp] theorem setMar_resolve (v : Word) (i : Id) : (s.setMar v).resolve i = s.resolve i := rfl

/-! ### `State.setMem` -/

@[simp] theorem setMem_wiring (m : Memory) : (s.setMem m).wiring = s.wiring := rfl
@[simp] theorem setMem_bus (m : Memory) : (s.setMem m).bus = s.bus := rfl
@[simp] theorem setMem_regs (m : Memory) : (s.setMem m).regs = s.regs := rfl
@[simp] theorem setMem_aregs (m : Memory) : (s.setMem m).aregs = s.aregs := rfl
@[simp] theorem setMem_aluOperation (m : Memory) : (s.setMem m).aluOperation = s.aluOperation := rfl
@[simp] theorem setMem_mar (m : Memory) : (s.setMem m).mar = s.mar := rfl
@[simp] theorem setMem_mem (m : Memory) : (s.setMem m).mem = m := rfl
@[simp] theorem setMem_ctrl (m : Memory) : (s.setMem m).ctrl = s.ctrl := rfl
@[simp] theorem setMem_clock (m : Memory) : (s.setMem m).clock = s.clock := rfl
@[simp] theorem setMem_cycles (m : Memory) : (s.setMem m).cycles = s.cycles := rfl
@[simp] theorem setMem_fault (m : Memory) : (s.setMem m).fault = s.fault := rfl
@[simp] theorem setMem_errorSlots (m : Memory) : (s.setMem m).errorSlots = s.errorSlots := rfl
@[simp] theorem setMem_events (m : Memory) : (s.setMem m).events = s.events := rfl
@[simp] theorem setMem_outputs (m : Memory) : (s.setMem m).outputs = s.outputs := rfl
@[simp] theorem setMem_resetHookCalls (m : Memory) : (s.setMem m).resetHookCalls = s.resetHookCalls := rfl
@[simp] theorem setMem_hasRun (m : Memory) : (s.setMem m).hasRun = s.hasRun := rfl
@[simp] theorem setMem_inputs (m : Memory) : (s.setMem m).inputs = s.inputs := rfl
@[simp] theorem setMem_draws (m : Memory) : (s.setMem m).draws = s.draws := rfl
@[simp] theorem setMem_requests (m : Memory) : (s.setMem m).requests = s.requests := rfl
@[simp] theorem setMem_channelErrorSlots (m : Memory) : (s.setMem m).channelErrorSlots = s.channelErrorSlots := rfl
@[simp] theorem setMem_reg (m : Memory) (i : Id) : (s.setMem m).reg i = s.reg i := rfl
@[simp] theorem setMem_areg (m : Memory) (i : Id) : (s.setMem m).areg i = s.areg i := rfl
@[simp] theorem setMem_aluOp (m : Memory) (i : Id) : (s.setMem m).aluOp i = s.aluOp i := rfl
@[simp] theorem setMem_resolve (m : Memory) (i : Id) : (s.setMem m).resolve i = s.resolve i := rfl

/-! ### `State.setCtrl` -/

@[simp] theorem setCtrl_wiring (c : Controller) : (s.setCtrl c).wiring = s.wiring := rfl
@[simp] theorem setCtrl_bus (c : Controller) : (s.setCtrl c).bus = s.bus := rfl
@[simp] theorem setCtrl_regs (c : Controller) : (s.setCtrl c).regs = s.regs := rfl
@[simp] theorem setCtrl_aregs (c : Controller) : (s.setCtrl c).aregs = s.aregs := rfl
@[simp] theorem setCtrl_aluOperation (c : Controller) : (s.setCtrl c).aluOperation = s.aluOperation := rfl
@[simp] theorem setCtrl_mar (c : Controller) : (s.setCtrl c).mar = s.mar := rfl
@[simp] theorem setCtrl_mem (c : Controller) : (s.setCtrl c).mem = s.mem := rfl
@[simp] theorem setCtrl_ctrl (c : Controller) : (s.setCtrl c).ctrl = c := rfl
@[simp] theorem setCtrl_clock (c : Controller) : (s.setCtrl c).clock = s.clock := rfl
@[simp] theorem setCtrl_cycles (c : Controller) : (s.setCtrl c).cycles = s.cycles := rfl
@[simp] theorem setCtrl_fault (c : Controller) : (s.setCtrl c).fault = s.fault := rfl
@[simp] theorem setCtrl_errorSlots (c : Controller) : (s.setCtrl c).errorSlots = s.errorSlots := rfl
@[simp] theorem setCtrl_events (c : Controller) : (s.setCtrl c).events = s.events := rfl
@[simp] theorem setCtrl_outputs (c : Controller) : (s.setCtrl c).outputs = s.outputs := rfl
@[simp] theorem setCtrl_resetHookCalls (c : Controller) : (s.setCtrl c).resetHookCalls = s.resetHookCalls := rfl
@[simp] theorem setCtrl_hasRun (c : Controller) : (s.setCtrl c).hasRun = s.hasRun := rfl
@[simp] theorem setCtrl_inputs (c : Controller) : (s.setCtrl c).inputs = s.inputs := rfl
@[simp] theorem setCtrl_draws (c : Controller) : (s.setCtrl c).draws = s.draws := rfl
@[simp] theorem setCtrl_requests (c : Controller) : (s.setCtrl c).requests = s.requests := rfl
@[simp] theorem setCtrl_channelErrorSlots (c : Controller) : (s.setCtrl c).channelErrorSlots = s.channelErrorSlots := rfl
@[simp] theorem setCtrl_reg (c : Controller) (i : Id) : (s.setCtrl c).reg i = s.reg i := rfl
@[simp] theorem setCtrl_areg (c : Controller) (i : Id) : (s.setCtrl c).areg i = s.areg i := rfl
@[simp] theorem setCtrl_aluOp (c : Controller) (i : Id) : (s.setCtrl c).aluOp i = s.aluOp i := rfl
@[simp] theorem setCtrl_resolve (c : Controller) (i : Id) : (s.setCtrl c).resolve i = s.resolve i := rfl

/-! ### `State.setClock` -/

@[simp] theorem setClock_wiring (c : Clock) : (s.setClock c).wiring = s.wiring := rfl
@[simp] theorem setClock_bus (c : Clock) : (s.setClock c).bus = s.bus := rfl
@[simp] theorem setClock_regs (c : Clock) : (s.setClock c).regs = s.regs := rfl
@[simp] theorem setClock_aregs (c : Clock) : (s.setClock c).aregs = s.aregs := rfl
@[simp] theorem setClock_aluOperation (c : Clock) : (s.setClock c).aluOperation = s.aluOperation := rfl
@[simp] theorem setClock_mar (c : Clock) : (s.setClock c).mar = s.mar := rfl
@[simp] theorem setClock_mem (c : Clock) : (s.setClock c).mem = s.mem := rfl
@[simp] theorem setClock_ctrl (c : Clock) : (s.setClock c).ctrl = s.ctrl := rfl
@[simp] theorem setClock_clock (c : Clock) : (s.setClock c).clock = c := rfl
@[simp] theorem setClock_cycles (c : Clock) : (s.setClock c).cycles = s.cycles := rfl
@[simp] theorem setClock_fault (c : Clock) : (s.setClock c).fault = s.fault := rfl
@[simp] theorem setClock_errorSlots (c : Clock) : (s.setClock c).errorSlots = s.errorSlots := rfl
@[simp] theorem setClock_events (c : Clock) : (s.setClock c).events = s.events := rfl
@[simp] theorem setClock_outputs (c : Clock) : (s.setClock c).outputs = s.outputs := rfl
@[simp] theorem setClock_resetHookCalls (c : Clock) : (s.setClock c).resetHookCalls = s.resetHookCalls := rfl
@[simp] theorem setClock_hasRun (c : Clock) : (s.setClock c).hasRun = s.hasRun := rfl
@[simp] theorem setClock_inputs (c : Clock) : (s.setClock c).inputs = s.inputs := rfl
@[simp] theorem setClock_draws (c : Clock) : (s.setClock c).draws = s.draws := rfl
@[simp] theorem setClock_requests (c : Clock) : (s.setClock c).requests = s.requests := rfl
@[simp] theorem setClock_channelErrorSlots (c : Clock) : (s.setClock c).channelErrorSlots = s.channelErrorSlots := rfl
@[simp] theorem setClock_reg (c : Clock) (i : Id) : (s.setClock c).reg i = s.reg i := rfl
@[simp] theorem setClock_areg (c : Clock) (i : Id) : (s.setClock c).areg i = s.areg i := rfl
@[simp] theorem setClock_aluOp (c : Clock) (i : Id) : (s.setClock c).aluOp i = s.aluOp i := rfl
@[simp] theorem setClock_resolve (c : Clock) (i : Id) : (s.setClock c).resolve i = s.resolve i := rfl

/-! ### `State.setRequests` -/

@[simp] theorem setRequests_wiring (q : List (Nat × HostRequest)) : (s.setRequests q).wiring = s.wiring := rfl
@[simp] theorem setRequests_bus (q : List (Nat × HostRequest)) : (s.setRequests q).bus = s.bus := rfl
@[simp] theorem setRequests_regs (q : List (Nat × HostRequest)) : (s.setRequests q).regs = s.regs := rfl
@[simp] theorem setRequests_aregs (q : List (Nat × HostRequest)) : (s.setRequests q).aregs = s.aregs := rfl
@[simp] theorem setRequests_aluOperation (q : List (Nat × HostRequest)) : (s.setRequests q).aluOperation = s.aluOperation := rfl
@[simp] theorem setRequests_mar (q : List (Nat × HostRequest)) : (s.setRequests q).mar = s.mar := rfl
@[simp] theorem setRequests_mem (q : List (Nat × HostRequest)) : (s.setRequests q).mem = s.mem := rfl
@[simp] theorem setRequests_ctrl (q : List (Nat × HostRequest)) : (s.setRequests q).ctrl = s.ctrl := rfl
@[simp] theorem setRequests_clock (q : List (Nat × HostRequest)) : (s.setRequests q).clock = s.clock := rfl
@[simp] theorem setRequests_cycles (q : List (Nat × HostRequest)) : (s.setRequests q).cycles = s.cycles := rfl
@[simp] theorem setRequests_fault (q : List (Nat × HostRequest)) : (s.setRequests q).fault = s.fault := rfl
@[simp] theorem setRequests_errorSlots (q : List (Nat × HostRequest)) : (s.setRequests q).errorSlots = s.errorSlots := rfl
@[simp] theorem setRequests_events (q : List (Nat × HostRequest)) : (s.setRequests q).events = s.events := rfl
@[simp] theorem setRequests_outputs (q : List (Nat × HostRequest)) : (s.setRequests q).outputs = s.outputs := rfl
@[simp] theorem setRequests_resetHookCalls (q : List (Nat × HostRequest)) : (s.setRequests q).resetHookCalls = s.resetHookCalls := rfl
@[simp] theorem setRequests_hasRun (q : List (Nat × HostRequest)) : (s.setRequests q).hasRun = s.hasRun := rfl
@[simp] theorem setRequests_inputs (q : List (Nat × HostRequest)) : (s.setRequests q).inputs = s.inputs := rfl
@[simp] theorem setRequests_draws (q : List (Nat × HostRequest)) : (s.setRequests q).draws = s.draws := rfl
@[simp] theorem setRequests_requests (q : List (Nat × HostRequest)) : (s.setRequests q).requests = q := rfl
@[simp] theorem setRequests_channelErrorSlots (q : List (Nat × HostRequest)) : (s.setRequests q).channelErrorSlots = s.channelErrorSlots := rfl
@[simp] theorem setRequests_reg (q : List (Nat × HostRequest)) (i : Id) : (s.setRequests q).reg i = s.reg i := rfl
@[simp] theorem setRequests_areg (q : List (Nat × HostRequest)) (i : Id) : (s.setRequests q).areg i = s.areg i := rfl
@[simp] theorem setRequests_aluOp (q : List (Nat × HostRequest)) (i : Id) : (s.setRequests q).aluOp i = s.aluOp i := rfl
@[simp] theorem setRequests_resolve (q : List (Nat × HostRequest)) (i : Id) : (s.setRequests q).resolve i = s.resolve i := rfl

/-! ### `State.emitIf` -/

@[simp] theorem emitIf_wiring (b : Bool) (x : Sender) (k : EventKind) (p : Option Phase) : (s.emitIf b x k p).wiring = s.wiring := rfl
@[simp] theorem emitIf_bus (b : Bool) (x : Sender) (k : EventKind) (p : Option Phase) : (s.emitIf b x k p).bus = s.bus := rfl
@[simp] theorem emitIf_regs (b : Bool) (x : Sender) (k : EventKind) (p : Option Phase) : (s.emitIf b x k p).regs = s.regs := rfl
@[simp] theorem emitIf_aregs (b : Bool) (x : Sender) (k : EventKind) (p : Option Phase) : (s.emitIf b x k p).aregs = s.aregs := rfl
@[simp] theorem emitIf_aluOperation (b : Bool) (x : Sender) (k : EventKind) (p : Option Phase) : (s.emitIf b x k p).aluOperation = s.aluOperation := rfl
@[simp] theorem emitIf_mar (b : Bool) (x : Sender) (k : EventKind) (p : Option Phase) : (s.emitIf b x k p).mar = s.mar := rfl
@[simp] theorem emitIf_mem (b : Bool) (x : Sender) (k : EventKind) (p : Option Phase) : (s.emitIf b x k p).mem = s.mem := rfl
@[simp] theorem emitIf_ctrl (b : Bool) (x : Sender) (k : EventKind) (p : Option Phase) : (s.emitIf b x k p).ctrl = s.ctrl := rfl
@[simp] theorem emitIf_clock (b : Bool) (x : Sender) (k : EventKind) (p : Option Phase) : (s.emitIf b x k p).clock = s.clock := rfl
@[simp] theorem emitIf_cycles (b : Bool) (x : Sender) (k : EventKind) (p : Option Phase) : (s.emitIf b x k p).cycles = s.cycles := rfl
@[simp] theorem emitIf_fault (b : Bool) (x : Sender) (k : EventKind) (p : Option Phase) : (s.emitIf b x k p).fault = s.fault := rfl
@[simp] theorem emitIf_errorSlots (b : Bool) (x : Sender) (k : EventKind) (p : Option Phase) : (s.emitIf b x k p).errorSlots = s.errorSlots := rfl
@[simp] theorem emitIf_events (b : Bool) (x : Sender) (k : EventKind) (p : Option Phase) : (s.emitIf b x k p).events = if b then s.events ++ [⟨x, k, s.cycles, p⟩] else s.events := rfl
@[simp] theorem emitIf_outputs (b : Bool) (x : Sender) (k : EventKind) (p : Option Phase) : (s.emitIf b x k p).outputs = s.outputs := rfl
@[simp] theorem emitIf_resetHookCalls (b : Bool) (x : Sender) (k : EventKind) (p : Option Phase) : (s.emitIf b x k p).resetHookCalls = s.resetHookCalls := rfl
@[simp] theorem emitIf_hasRun (b : Bool) (x : Sender) (k : EventKind) (p : Option Phase) : (s.emitIf b x k p).hasRun = s.hasRun := rfl
@[simp] theorem emitIf_inputs (b : Bool) (x : Sender) (k : EventKind) (p : Option Phase) : (s.emitIf b x k p).inputs = s.inputs := rfl
@[simp] theorem emitIf_draws (b : Bool) (x : Sender) (k : EventKind) (p : Option Phase) : (s.emitIf b x k p).draws = s.draws := rfl
@[simp] theorem emitIf_requests (b : Bool) (x : Sender) (k : EventKind) (p : Option Phase) : (s.emitIf b x k p).requests = s.requests := rfl
@[simp] theorem emitIf_channelErrorSlots (b : Bool) (x : Sender) (k : EventKind) (p : Option Phase) : (s.emitIf b x k p).channelErrorSlots = s.channelErrorSlots := rfl
@[simp] theorem emitIf_reg (b : Bool) (x : Sender) (k : EventKind) (p : Option Phase) (i : Id) : (s.emitIf b x k p).reg i = s.reg i := rfl
@[simp] theorem emitIf_areg (b : Bool) (x : Sender) (k : EventKind) (p : Option Phase) (i : Id) : (s.emitIf b x k p).areg i = s.areg i := rfl
@[simp] theorem emitIf_aluOp (b : Bool) (x : Sender) (k : EventKind) (p : Option Phase) (i : Id) : (s.emitIf b x k p).aluOp i = s.aluOp i := rfl
@[simp] theorem emitIf_resolve (b : Bool) (x : Sender) (k : EventKind) (p : Option Phase) (i : Id) : (s.emitIf b x k p).resolve i = s.resolve i := rfl

/-! ### `State.emit` -/

@[simp] theorem emit_wiring (x : Sender) (k : EventKind) (p : Option Phase) : (s.emit x k p).wiring = s.wiring := rfl
@[simp] theorem emit_bus (x : Sender) (k : EventKind) (p : Option Phase) : (s.emit x k p).bus = s.bus := rfl
@[simp] theorem emit_regs (x : Sender) (k : EventKind) (p : Option Phase) : (s.emit x k p).regs = s.regs := rfl
@[simp] theorem emit_aregs (x : Sender) (k : EventKind) (p : Option Phase) : (s.emit x k p).aregs = s.aregs := rfl
@[simp] theorem emit_aluOperation (x : Sender) (k : EventKind) (p : Option Phase) : (s.emit x k p).aluOperation = s.aluOperation := rfl
@[simp] theorem emit_mar (x : Sender) (k : EventKind) (p : Option Phase) : (s.emit x k p).mar = s.mar := rfl
@[simp] theorem emit_mem (x : Sender) (k : EventKind) (p : Option Phase) : (s.emit x k p).mem = s.mem := rfl
@[simp] theorem emit_ctrl (x : Sender) (k : EventKind) (p : Option Phase) : (s.emit x k p).ctrl = s.ctrl := rfl
@[simp] theorem emit_clock (x : Sender) (k : EventKind) (p : Option Phase) : (s.emit x k p).clock = s.clock := rfl
@[simp] theorem emit_cycles (x : Sender) (k : EventKind) (p : Option Phase) : (s.emit x k p).cycles = s.cycles := rfl
@[simp] theorem emit_fault (x : Sender) (k : EventKind) (p : Option Phase) : (s.emit x k p).fault = s.fault := rfl
@[simp] theorem emit_errorSlots (x : Sender) (k : EventKind) (p : Option Phase) : (s.emit x k p).errorSlots = s.errorSlots := rfl
@[simp] theorem emit_events (x : Sender) (k : EventKind) (p : Option Phase) : (s.emit x k p).events = s.events ++ [⟨x, k, s.cycles, p⟩] := rfl
@[simp] theorem emit_outputs (x : Sender) (k : EventKind) (p : Option Phase) : (s.emit x k p).outputs = s.outputs := rfl
@[simp] theorem emit_resetHookCalls (x : Sender) (k : EventKind) (p : Option Phase) : (s.emit x k p).resetHookCalls = s.resetHookCalls := rfl
@[simp] theorem emit_hasRun (x : Sender) (k : EventKind) (p : Option Phase) : (s.emit x k p).hasRun = s.hasRun := rfl
@[simp] theorem emit_inputs (x : Sender) (k : EventKind) (p : Option Phase) : (s.emit x k p).inputs = s.inputs := rfl
@[simp] theorem emit_draws (x : Sender) (k : EventKind) (p : Option Phase) : (s.emit x k p).draws = s.draws := rfl
@[simp] theorem emit_requests (x : Sender) (k : EventKind) (p : Option Phase) : (s.emit x k p).requests = s.requests := rfl
@[simp] theorem emit_channelErrorSlots (x : Sender) (k : EventKind) (p : Option Phase) : (s.emit x k p).channelErrorSlots = s.channelErrorSlots := rfl
@[simp] theorem emit_reg (x : Sender) (k : EventKind) (p : Option Phase) (i : Id) : (s.emit x k p).reg i = s.reg i := rfl
@[simp] theorem emit_areg (x : Sender) (k : EventKind) (p : Option Phase) (i : Id) : (s.emit x k p).areg i = s.areg i := rfl
@[simp] theorem emit_aluOp (x : Sender) (k : EventKind) (p : Option Phase) (i : Id) : (s.emit x k p).aluOp i = s.aluOp i := rfl
@[simp] theorem emit_resolve (x : Sender) (k : EventKind) (p : Option Phase) (i : Id) : (s.emit x k p).resolve i = s.resolve i := rfl

/-! ### `State.raise` -/

@[simp] theorem raise_wiring (e : Fault) (p : Phase) (r : Id) : (s.raise e p r).wiring = s.wiring := rfl
@[simp] theorem raise_bus (e : Fault) (p : Phase) (r : Id) : (s.raise e p r).bus = s.bus := rfl
@[simp] theorem raise_regs (e : Fault) (p : Phase) (r : Id) : (s.raise e p r).regs = s.regs := rfl
@[simp] theorem raise_aregs (e : Fault) (p : Phase) (r : Id) : (s.raise e p r).aregs = s.aregs := rfl
@[simp] theorem raise_aluOperation (e : Fault) (p : Phase) (r : Id) : (s.raise e p r).aluOperation = s.aluOperation := rfl
@[simp] theorem raise_mar (e : Fault) (p : Phase) (r : Id) : (s.raise e p r).mar = s.mar := rfl
@[simp] theorem raise_mem (e : Fault) (p : Phase) (r : Id) : (s.raise e p r).mem = s.mem := rfl
@[simp] theorem raise_ctrl (e : Fault) (p : Phase) (r : Id) : (s.raise e p r).ctrl = s.ctrl := rfl
@[simp] theorem raise_clock (e : Fault) (p : Phase) (r : Id) : (s.raise e p r).clock = s.clock := rfl
@[simp] theorem raise_cycles (e : Fault) (p : Phase) (r : Id) : (s.raise e p r).cycles = s.cycles := rfl
@[simp] theorem raise_fault (e : Fault) (p : Phase) (r : Id) : (s.raise e p r).fault = some (.error e s.cycles p r) := rfl
@[simp] theorem raise_events (e : Fault) (p : Phase) (r : Id) : (s.raise e p r).events = s.events := rfl
@[simp] theorem raise_outputs (e : Fault) (p : Phase) (r : Id) : (s.raise e p r).outputs = s.outputs := rfl
@[simp] theorem raise_resetHookCalls (e : Fault) (p : Phase) (r : Id) : (s.raise e p r).resetHookCalls = s.resetHookCalls := rfl
@[simp] theorem raise_hasRun (e : Fault) (p : Phase) (r : Id) : (s.raise e p r).hasRun = s.hasRun := rfl
@[simp] theorem raise_inputs (e : Fault) (p : Phase) (r : Id) : (s.raise e p r).inputs = s.inputs := rfl
@[simp] theorem raise_draws (e : Fault) (p : Phase) (r : Id) : (s.raise e p r).draws = s.draws := rfl
@[simp] theorem raise_requests (e : Fault) (p : Phase) (r : Id) : (s.raise e p r).requests = s.requests := rfl
@[simp] theorem raise_channelErrorSlots (e : Fault) (p : Phase) (r : Id) : (s.raise e p r).channelErrorSlots = s.channelErrorSlots := rfl
@[simp] theorem raise_reg (e : Fault) (p : Phase) (r : Id) (i : Id) : (s.raise e p r).reg i = s.reg i := rfl
@[simp] theorem raise_areg (e : Fault) (p : Phase) (r : Id) (i : Id) : (s.raise e p r).areg i = s.areg i := rfl
@[simp] theorem raise_aluOp (e : Fault) (p : Phase) (r : Id) (i : Id) : (s.raise e p r).aluOp i = s.aluOp i := rfl
@[simp] theorem raise_resolve (e : Fault) (p : Phase) (r : Id) (i : Id) : (s.raise e p r).resolve i = s.resolve i := rfl

/-! ### `State.refuse` -/

@[simp] theorem refuse_wiring (r : Refusal) : (s.refuse r).wiring = s.wiring := rfl
@[simp] theorem refuse_bus (r : Refusal) : (s.refuse r).bus = s.bus := rfl
@[simp] theorem refuse_regs (r : Refusal) : (s.refuse r).regs = s.regs := rfl
@[simp] theorem refuse_aregs (r : Refusal) : (s.refuse r).aregs = s.aregs := rfl
@[simp] theorem refuse_aluOperation (r : Refusal) : (s.refuse r).aluOperation = s.aluOperation := rfl
@[simp] theorem refuse_mar (r : Refusal) : (s.refuse r).mar = s.mar := rfl
@[simp] theorem refuse_mem (r : Refusal) : (s.refuse r).mem = s.mem := rfl
@[simp] theorem refuse_ctrl (r : Refusal) : (s.refuse r).ctrl = s.ctrl := rfl
@[simp] theorem refuse_clock (r : Refusal) : (s.refuse r).clock = s.clock := rfl
@[simp] theorem refuse_cycles (r : Refusal) : (s.refuse r).cycles = s.cycles := rfl
@[simp] theorem refuse_fault (r : Refusal) : (s.refuse r).fault = some (.refusal r) := rfl
@[simp] theorem refuse_errorSlots (r : Refusal) : (s.refuse r).errorSlots = s.errorSlots := rfl
@[simp] theorem refuse_events (r : Refusal) : (s.refuse r).events = s.events := rfl
@[simp] theorem refuse_outputs (r : Refusal) : (s.refuse r).outputs = s.outputs := rfl
@[simp] theorem refuse_resetHookCalls (r : Refusal) : (s.refuse r).resetHookCalls = s.resetHookCalls := rfl
@[simp] theorem refuse_hasRun (r : Refusal) : (s.refuse r).hasRun = s.hasRun := rfl
@[simp] theorem refuse_inputs (r : Refusal) : (s.refuse r).inputs = s.inputs := rfl
@[simp] theorem refuse_draws (r : Refusal) : (s.refuse r).draws = s.draws := rfl
@[simp] theorem refuse_requests (r : Refusal) : (s.refuse r).requests = s.requests := rfl
@[simp] theorem refuse_channelErrorSlots (r : Refusal) : (s.refuse r).channelErrorSlots = s.channelErrorSlots := rfl
@[simp] theorem refuse_reg (r : Refusal) (i : Id) : (s.refuse r).reg i = s.reg i := rfl
@[simp] theorem refuse_areg (r : Refusal) (i : Id) : (s.refuse r).areg i = s.areg i := rfl
@[simp] theorem refuse_aluOp (r : Refusal) (i : Id) : (s.refuse r).aluOp i = s.aluOp i := rfl
@[simp] theorem refuse_resolve (r : Refusal) (i : Id) : (s.refuse r).resolve i = s.resolve i := rfl

/-! ### `State.takeInput` -/

@[simp] theorem takeInput_wiring (ch : Id) : (s.takeInput ch).wiring = s.wiring := rfl
@[simp] theorem takeInput_bus (ch : Id) : (s.takeInput ch).bus = s.bus := rfl
@[simp] theorem takeInput_regs (ch : Id) : (s.takeInput ch).regs = s.regs := rfl
@[simp] theorem takeInput_aregs (ch : Id) : (s.takeInput ch).aregs = s.aregs := rfl
@[simp] theorem takeInput_aluOperation (ch : Id) : (s.takeInput ch).aluOperation = s.aluOperation := rfl
@[simp] theorem takeInput_mar (ch : Id) : (s.takeInput ch).mar = s.mar := rfl
@[simp] theorem takeInput_mem (ch : Id) : (s.takeInput ch).mem = s.mem := rfl
@[simp] theorem takeInput_ctrl (ch : Id) : (s.takeInput ch).ctrl = s.ctrl := rfl
@[simp] theorem takeInput_clock (ch : Id) : (s.takeInput ch).clock = s.clock := rfl
@[simp] theorem takeInput_cycles (ch : Id) : (s.takeInput ch).cycles = s.cycles := rfl
@[simp] theorem takeInput_fault (ch : Id) : (s.takeInput ch).fault = s.fault := rfl
@[simp] theorem takeInput_errorSlots (ch : Id) : (s.takeInput ch).errorSlots = s.errorSlots := rfl
@[simp] theorem takeInput_events (ch : Id) : (s.takeInput ch).events = s.events := rfl
@[simp] theorem takeInput_outputs (ch : Id) : (s.takeInput ch).outputs = s.outputs := rfl
@[simp] theorem takeInput_resetHookCalls (ch : Id) : (s.takeInput ch).resetHookCalls = s.resetHookCalls := rfl
@[simp] theorem takeInput_hasRun (ch : Id) : (s.takeInput ch).hasRun = s.hasRun := rfl
@[simp] theorem takeInput_requests (ch : Id) : (s.takeInput ch).requests = s.requests := rfl
@[simp] theorem takeInput_channelErrorSlots (ch : Id) : (s.takeInput ch).channelErrorSlots = s.channelErrorSlots := rfl
@[simp] theorem takeInput_reg (ch : Id) (i : Id) : (s.takeInput ch).reg i = s.reg i := rfl
@[simp] theorem takeInput_areg (ch : Id) (i : Id) : (s.takeInput ch).areg i = s.areg i := rfl
@[simp] theorem takeInput_aluOp (ch : Id) (i : Id) : (s.takeInput ch).aluOp i = s.aluOp i := rfl
@[simp] theorem takeInput_resolve (ch : Id) (i : Id) : (s.takeInput ch).resolve i = s.resolve i := rfl

/-! ### `State.outputIf` -/

@[simp] theorem outputIf_wiring (b : Bool) (ch : Id) (v : Byte) : (s.outputIf b ch v).wiring = s.wiring := rfl
@[simp] theorem outputIf_bus (b : Bool) (ch : Id) (v : Byte) : (s.outputIf b ch v).bus = s.bus := rfl
@[simp] theorem outputIf_regs (b : Bool) (ch : Id) (v : Byte) : (s.outputIf b ch v).regs = s.regs := rfl
@[simp] theorem outputIf_aregs (b : Bool) (ch : Id) (v : Byte) : (s.outputIf b ch v).aregs = s.aregs := rfl
@[simp] theorem outputIf_aluOperation (b : Bool) (ch : Id) (v : Byte) : (s.outputIf b ch v).aluOperation = s.aluOperation := rfl
@[simp] theorem outputIf_mar (b : Bool) (ch : Id) (v : Byte) : (s.outputIf b ch v).mar = s.mar := rfl
@[simp] theorem outputIf_mem (b : Bool) (ch : Id) (v : Byte) : (s.outputIf b ch v).mem = s.mem := rfl
@[simp] theorem outputIf_ctrl (b : Bool) (ch : Id) (v : Byte) : (s.outputIf b ch v).ctrl = s.ctrl := rfl
@[simp] theorem outputIf_clock (b : Bool) (ch : Id) (v : Byte) : (s.outputIf b ch v).clock = s.clock := rfl
@[simp] theorem outputIf_cycles (b : Bool) (ch : Id) (v : Byte) : (s.outputIf b ch v).cycles = s.cycles := rfl
@[simp] theorem outputIf_fault (b : Bool) (ch : Id) (v : Byte) : (s.outputIf b ch v).fault = s.fault := rfl
@[simp] theorem outputIf_errorSlots (b : Bool) (ch : Id) (v : Byte) : (s.outputIf b ch v).errorSlots = s.errorSlots := rfl
@[simp] theorem outputIf_events (b : Bool) (ch : Id) (v : Byte) : (s.outputIf b ch v).events = s.events := rfl
@[simp] theorem outputIf_outputs (b : Bool) (ch : Id) (v : Byte) : (s.outputIf b ch v).outputs = if b then s.outputs ++ [(ch, v)] else s.outputs := rfl
@[simp] theorem outputIf_resetHookCalls (b : Bool) (ch : Id) (v : Byte) : (s.outputIf b ch v).resetHookCalls = s.resetHookCalls := rfl
@[simp] theorem outputIf_hasRun (b : Bool) (ch : Id) (v : Byte) : (s.outputIf b ch v).hasRun = s.hasRun := rfl
@[simp] theorem outputIf_inputs (b : Bool) (ch : Id) (v : Byte) : (s.outputIf b ch v).inputs = s.inputs := rfl
@[simp] theorem outputIf_draws (b : Bool) (ch : Id) (v : Byte) : (s.outputIf b ch v).draws = s.draws := rfl
@[simp] theorem outputIf_requests (b : Bool) (ch : Id) (v : Byte) : (s.outputIf b ch v).requests = s.requests := rfl
@[simp] theorem outputIf_channelErrorSlots (b : Bool) (ch : Id) (v : Byte) : (s.outputIf b ch v).channelErrorSlots = s.channelErrorSlots := rfl
@[simp] theorem outputIf_reg (b : Bool) (ch : Id) (v : Byte) (i : Id) : (s.outputIf b ch v).reg i = s.reg i := rfl
@[simp] theorem outputIf_areg (b : Bool) (ch : Id) (v : Byte) (i : Id) : (s.outputIf b ch v).areg i = s.areg i := rfl
@[simp] theorem outputIf_aluOp (b : Bool) (ch : Id) (v : Byte) (i : Id) : (s.outputIf b ch v).aluOp i = s.aluOp i := rfl
@[simp] theorem outputIf_resolve (b : Bool) (ch : Id) (v : Byte) (i : Id) : (s.outputIf b ch v).resolve i = s.resolve i := rfl

/-! ### `State.countCycle` -/

@[simp] theorem countCycle_wiring  : s.countCycle.wiring = s.wiring := rfl
@[simp] theorem countCycle_bus  : s.countCycle.bus = s.bus := rfl
@[simp] theorem countCycle_regs  : s.countCycle.regs = s.regs := rfl
@[simp] theorem countCycle_aregs  : s.countCycle.aregs = s.aregs := rfl
@[simp] theorem countCycle_aluOperation  : s.countCycle.aluOperation = s.aluOperation := rfl
@[simp] theorem countCycle_mar  : s.countCycle.mar = s.mar := rfl
@[simp] theorem countCycle_mem  : s.countCycle.mem = s.mem := rfl
@[simp] theorem countCycle_ctrl  : s.countCycle.ctrl = s.ctrl := rfl
@[simp] theorem countCycle_clock  : s.countCycle.clock = s.clock := rfl
@[simp] theorem countCycle_cycles  : s.countCycle.cycles = s.cycles + 1 := rfl
@[simp] theorem countCycle_fault  : s.countCycle.fault = s.fault := rfl
@[simp] theorem countCycle_errorSlots  : s.countCycle.errorSlots = s.errorSlots := rfl
@[simp] theorem countCycle_events  : s.countCycle.events = s.events := rfl
@[simp] theorem countCycle_outputs  : s.countCycle.outputs = s.outputs := rfl
@[simp] theorem countCycle_resetHookCalls  : s.countCycle.resetHookCalls = s.resetHookCalls := rfl
@[simp] theorem countCycle_hasRun  : s.countCycle.hasRun = s.hasRun := rfl
@[simp] theorem countCycle_inputs  : s.countCycle.inputs = s.inputs := rfl
@[simp] theorem countCycle_draws  : s.countCycle.draws = s.draws := rfl
@[simp] theorem countCycle_requests  : s.countCycle.requests = s.requests := rfl
@[simp] theorem countCycle_channelErrorSlots  : s.countCycle.channelErrorSlots = s.channelErrorSlots := rfl
@[simp] theorem countCycle_reg  (i : Id) : s.countCycle.reg i = s.reg i := rfl
@[simp] theorem countCycle_areg  (i : Id) : s.countCycle.areg i = s.areg i := rfl
@[simp] theorem countCycle_aluOp  (i : Id) : s.countCycle.aluOp i = s.aluOp i := rfl
@[simp] theorem countCycle_resolve  (i : Id) : s.countCycle.resolve i = s.resolve i := rfl

/-! ### Reading a register after writing one -/

theorem setReg_reg (r : Id) (v : Byte) (i : Id) : (s.setReg r v).reg i = if r = i then v else s.reg i := by
  by_cases h : r = i
  · subst h; simp [State.setReg, State.reg]
  · have : r.toNat ≠ i.toNat := fun h' => h (BitVec.eq_of_toNat_eq h')
    simp [State.setReg, State.reg, h, Vector.getElem_set_ne, this]

theorem setAreg_areg (r : Id) (v : Word) (i : Id) : (s.setAreg r v).areg i = if r = i then v else s.areg i := by
  by_cases h : r = i
  · subst h; simp [State.setAreg, State.areg]
  · have : r.toNat ≠ i.toNat := fun h' => h (BitVec.eq_of_toNat_eq h')
    simp [State.setAreg, State.areg, h, Vector.getElem_set_ne, this]

theorem setAluOp_aluOp (r : Id) (v : BitVec 4) (i : Id) :
    (s.setAluOp r v).aluOp i = if r = i then v else s.aluOp i := by
  by_cases h : r = i
  · subst h; simp [State.setAluOp, State.aluOp]
  · have : r.toNat ≠ i.toNat := fun h' => h (BitVec.eq_of_toNat_eq h')
    simp [State.setAluOp, State.aluOp, h, Vector.getElem_set_ne, this]

@[simp] theorem setReg_reg_same (r : Id) (v : Byte) : (s.setReg r v).reg r = v := by simp [setReg_reg]

@[simp] theorem setAreg_areg_same (r : Id) (v : Word) : (s.setAreg r v).areg r = v := by simp [setAreg_areg]

@[simp] theorem setAluOp_aluOp_same (r : Id) (v : BitVec 4) : (s.setAluOp r v).aluOp r = v := by simp [setAluOp_aluOp]

@[simp] theorem setReg_reg_other (r i : Id) (v : Byte) (h : r ≠ i) : (s.setReg r v).reg i = s.reg i := by
  simp [setReg_reg, h]

@[simp] theorem setAreg_areg_other (r i : Id) (v : Word) (h : r ≠ i) : (s.setAreg r v).areg i = s.areg i := by
  simp [setAreg_areg, h]

@[simp] theorem setAluOp_aluOp_other (r i : Id) (v : BitVec 4) (h : r ≠ i) : (s.setAluOp r v).aluOp i = s.aluOp i := by
  simp [setAluOp_aluOp, h]

/-! ### Repeated updates -/

@[simp] theorem setBus_setBus (b b' : Bus) : (s.setBus b).setBus b' = s.setBus b' := rfl

@[simp] theorem setMar_setMar (v w : Word) : (s.setMar v).setMar w = s.setMar w := rfl

@[simp] theorem setMem_setMem (m m' : Memory) : (s.setMem m).setMem m' = s.setMem m' := rfl

@[simp] theorem setCtrl_setCtrl (c c' : Controller) : (s.setCtrl c).setCtrl c' = s.setCtrl c' := rfl

/-! ### Driving the bus -/

@[simp] theorem setData_eq (v : Byte) : s.setData v = s.setBus { s.bus with dataByte := v } := rfl

@[simp] theorem setBusWord_eq (v : Word) :
    s.setBusWord v = s.setBus { s.bus with dataByte := lowByte v, addrByte := highByte v } := rfl

/-! ### The shared operations that end a cycle -/

/-- Continuing from a state with no fault record is the continuation. -/
@[simp] theorem andThen_of_none (f : State → State) (h : s.fault = none) : s.andThen f = f s := by
  simp [State.andThen, h]

/-- A fault record ends the cycle (R177). -/
@[simp] theorem andThen_of_some (f : State → State) (r : FaultRecord) (h : s.fault = some r) : s.andThen f = s := by
  simp [State.andThen, h]

/-- A state with no fault record is a next state. -/
@[simp] theorem outcome_of_none (h : s.fault = none) : s.outcome = .next s := by simp [State.outcome, h]

/-- A recorded error is a next state (R430; notes/assumptions/4.md). -/
theorem outcome_of_error (e : Fault) (n : Nat) (p : Phase) (r : Id) (h : s.fault = some (.error e n p r)) :
    s.outcome = .next s := by simp [State.outcome, h]

/-- A recorded refusal is a refusal (R435). -/
theorem outcome_of_refusal (r : Refusal) (h : s.fault = some (.refusal r)) : s.outcome = .refused r := by
  simp [State.outcome, h]

/-- Every next state is the state itself, without a recorded refusal. -/
theorem outcome_eq_next {t : State} (h : s.outcome = .next t) : t = s ∧ ∀ r, s.fault ≠ some (.refusal r) := by
  unfold State.outcome at h
  split at h
  · cases h
  · rename_i hne
    cases h
    exact ⟨rfl, fun r hr => hne r hr⟩

/-- No state is a fault outcome. -/
theorem outcome_ne_fault (e : Fault) : s.outcome ≠ .fault e := by
  unfold State.outcome; split <;> simp

/-- What `guarded` can do: refuse a machine with a fault record, refuse asserted `nmi`, or go on (R438). -/
theorem guarded_cases (k : State → State) :
    (s.fault.isSome = true ∧ s.guarded k = .refused .afterError) ∨
    (s.fault = none ∧ s.bus.nmi = true ∧ s.guarded k = .refused .nmiAsserted) ∨
    (s.fault = none ∧ s.bus.nmi = false ∧ s.guarded k = (k s).outcome) := by
  unfold State.guarded
  cases hf : s.fault <;> cases hn : s.bus.nmi <;> simp

/-- A ready machine passes the first two checks (R438). -/
theorem guarded_of_ready (k : State → State) (hf : s.fault = none) (hn : s.bus.nmi = false) :
    s.guarded k = (k s).outcome := by simp [State.guarded, hf, hn]

/-- A next state from `guarded` is what the continuation gives, from a ready machine. -/
theorem guarded_eq_next {k : State → State} {t : State} (h : s.guarded k = .next t) :
    s.fault = none ∧ s.bus.nmi = false ∧ t = k s := by
  rcases guarded_cases s k with ⟨_, h'⟩ | ⟨_, _, h'⟩ | ⟨hf, hn, h'⟩
  · rw [h] at h'; cases h'
  · rw [h] at h'; cases h'
  · rw [h] at h'; exact ⟨hf, hn, (outcome_eq_next _ h'.symm).1⟩

end Sys2Proof.Machine
end

