-- ==== Sys2Proof/Laws/Cycle.lean ====
section
/-! SUPPORT. What one cycle can do, said once: the phases of a cycle that no check stops, the rising edge and the high clock by
role, the falling edge, and the run of an instruction's cycles. Proofs about instructions cite these and unfold no phase. -/

namespace Sys2Proof.Machine

/-! ### Bytes and words -/

/-- `word(h, l) = h * 256 + l` (R11). -/
theorem joinWord_toNat (h l : Byte) : (joinWord h l).toNat = h.toNat * 256 + l.toNat := by
  change (h ++ l : BitVec (8 + 8)).toNat = _
  rw [BitVec.toNat_append, ← Nat.shiftLeft_add_eq_or_of_lt l.isLt, Nat.shiftLeft_eq]

theorem lowByte_toNat (w : Word) : (lowByte w).toNat = w.toNat % 256 := by
  simp [lowByte]

theorem highByte_toNat (w : Word) : (highByte w).toNat = w.toNat / 256 := by
  have h : w.toNat < 65536 := w.isLt
  simp only [highByte, BitVec.extractLsb'_toNat, Nat.shiftRight_eq_div_pow]
  omega

/-- A word is its two halves (R11). -/
@[simp] theorem joinWord_halves (w : Word) : joinWord (highByte w) (lowByte w) = w := by
  apply BitVec.eq_of_toNat_eq
  rw [joinWord_toNat, lowByte_toNat, highByte_toNat]
  omega

@[simp] theorem lowByte_joinWord (h l : Byte) : lowByte (joinWord h l) = l := by
  apply BitVec.eq_of_toNat_eq
  have := l.isLt
  rw [lowByte_toNat, joinWord_toNat]
  omega

@[simp] theorem highByte_joinWord (h l : Byte) : highByte (joinWord h l) = h := by
  apply BitVec.eq_of_toNat_eq
  have := l.isLt
  rw [highByte_toNat, joinWord_toNat]
  omega

/-! ### Fields of the falling edge and of the end of a cycle -/

section fields
variable (s : State)

@[simp] theorem fallingPhase_wiring : s.fallingPhase.wiring = s.wiring := by unfold State.fallingPhase; split <;> rfl
@[simp] theorem fallingPhase_bus : s.fallingPhase.bus = s.bus := by unfold State.fallingPhase; split <;> rfl
@[simp] theorem fallingPhase_regs : s.fallingPhase.regs = s.regs := by unfold State.fallingPhase; split <;> rfl
@[simp] theorem fallingPhase_aregs : s.fallingPhase.aregs = s.aregs := by unfold State.fallingPhase; split <;> rfl
@[simp] theorem fallingPhase_aluOperation : s.fallingPhase.aluOperation = s.aluOperation := by
  unfold State.fallingPhase; split <;> rfl
@[simp] theorem fallingPhase_mar : s.fallingPhase.mar = s.mar := by unfold State.fallingPhase; split <;> rfl
@[simp] theorem fallingPhase_mem : s.fallingPhase.mem = s.mem := by unfold State.fallingPhase; split <;> rfl
@[simp] theorem fallingPhase_clock : s.fallingPhase.clock = s.clock := by unfold State.fallingPhase; split <;> rfl
@[simp] theorem fallingPhase_cycles : s.fallingPhase.cycles = s.cycles := by unfold State.fallingPhase; split <;> rfl
@[simp] theorem fallingPhase_fault : s.fallingPhase.fault = s.fault := by unfold State.fallingPhase; split <;> rfl
@[simp] theorem fallingPhase_errorSlots : s.fallingPhase.errorSlots = s.errorSlots := by
  unfold State.fallingPhase; split <;> rfl
@[simp] theorem fallingPhase_outputs : s.fallingPhase.outputs = s.outputs := by unfold State.fallingPhase; split <;> rfl
@[simp] theorem fallingPhase_resetHookCalls : s.fallingPhase.resetHookCalls = s.resetHookCalls := by
  unfold State.fallingPhase; split <;> rfl
@[simp] theorem fallingPhase_hasRun : s.fallingPhase.hasRun = s.hasRun := by unfold State.fallingPhase; split <;> rfl
@[simp] theorem fallingPhase_inputs : s.fallingPhase.inputs = s.inputs := by unfold State.fallingPhase; split <;> rfl
@[simp] theorem fallingPhase_draws : s.fallingPhase.draws = s.draws := by unfold State.fallingPhase; split <;> rfl
@[simp] theorem fallingPhase_requests : s.fallingPhase.requests = s.requests := by unfold State.fallingPhase; split <;> rfl
@[simp] theorem fallingPhase_channelErrorSlots : s.fallingPhase.channelErrorSlots = s.channelErrorSlots := by unfold State.fallingPhase; split <;> rfl

/-- The controller's part of the falling edge (R294). -/
@[simp] theorem fallingPhase_ctrl :
    s.fallingPhase.ctrl = if s.wiring.hasController then s.ctrl.advance s.bus.flagsByte else s.ctrl := by
  unfold State.fallingPhase; split <;> rfl

/-- A falling edge emits at most two events and drops none (R294). -/
theorem fallingPhase_events : ∃ es, s.fallingPhase.events = s.events ++ es := by
  unfold State.fallingPhase
  split
  · simp only [State.emitIf, State.emit]
    split <;> simp [State.setCtrl]
  · exact ⟨[], by simp⟩

end fields

/-! ### A cycle that no check stops -/

/-- A cycle of a wired controller places its current micro-step (R172, R284). -/
theorem cycle_of_current {mc : Microcode} {supply : Option Byte} {s : State} {m : MicroStep} (hf : s.fault = none)
    (hn : s.bus.nmi = false) (hc : s.wiring.hasController = true) (hcur : s.ctrl.current s.wiring = some m)
    (hk : knownKind m.kind = true) : s.cycle mc supply = (s.placeWord m).phases mc supply := by
  simp [State.cycle, hf, hn, State.cycleBody, hc, hcur, State.cycleOn, hk]

/-- The phases of a cycle that neither a check nor an error stops (R174, R179). -/
theorem phases_of_clear {mc : Microcode} {supply : Option Byte} {s u v : State} (hl : s.bus.multipleLines = false)
    (hr : s.roleRefusal = none) (hu : s.haltPhase.risingPhase supply = u) (huf : u.fault = none)
    (hv : u.highPhase mc = v) (hvf : v.fault = none) : s.phases mc supply = v.fallingPhase.countCycle := by
  subst hu hv
  simp [State.phases, hl, hr, huf, hvf]

/-- The phases of a cycle whose rising edge raises an error: it ends there (R177). -/
theorem phases_of_rising_error {mc : Microcode} {supply : Option Byte} {s u : State} {r : FaultRecord}
    (hl : s.bus.multipleLines = false) (hr : s.roleRefusal = none) (hu : s.haltPhase.risingPhase supply = u)
    (huf : u.fault = some r) : s.phases mc supply = u := by
  subst hu
  simp [State.phases, hl, hr, State.andThen, huf]

/-- The phases of a cycle whose high clock raises an error: it ends there (R177). -/
theorem phases_of_high_error {mc : Microcode} {supply : Option Byte} {s u v : State} {r : FaultRecord}
    (hl : s.bus.multipleLines = false) (hr : s.roleRefusal = none) (hu : s.haltPhase.risingPhase supply = u)
    (huf : u.fault = none) (hv : u.highPhase mc = v) (hvf : v.fault = some r) : s.phases mc supply = v := by
  subst hu hv
  simp [State.phases, hl, hr, State.andThen, huf, hvf]

/-- All that the phases of a cycle can do: refuse, end in the rising edge's or the high clock's error, or complete. -/
theorem phases_cases (mc : Microcode) (supply : Option Byte) (s : State) :
    (∃ r, s.phases mc supply = s.refuse r) ∨
    ((s.haltPhase.risingPhase supply).fault.isSome = true ∧ s.phases mc supply = s.haltPhase.risingPhase supply) ∨
    ((s.haltPhase.risingPhase supply).fault = none ∧
      ((s.haltPhase.risingPhase supply).highPhase mc).fault.isSome = true ∧
      s.phases mc supply = (s.haltPhase.risingPhase supply).highPhase mc) ∨
    ((s.haltPhase.risingPhase supply).fault = none ∧ ((s.haltPhase.risingPhase supply).highPhase mc).fault = none ∧
      s.phases mc supply = ((s.haltPhase.risingPhase supply).highPhase mc).fallingPhase.countCycle) := by
  by_cases hl : s.bus.multipleLines
  · exact .inl ⟨.multipleTransferLines, by simp [State.phases, hl]⟩
  · cases hr : s.roleRefusal with
    | some r => exact .inl ⟨r, by simp [State.phases, hl, hr]⟩
    | none =>
      simp only [Bool.not_eq_true] at hl
      right
      rcases hu : (s.haltPhase.risingPhase supply).fault with _ | r
      · right
        rcases hv : ((s.haltPhase.risingPhase supply).highPhase mc).fault with _ | r
        · exact .inr ⟨rfl, rfl, phases_of_clear hl hr rfl hu rfl hv⟩
        · exact .inl ⟨rfl, rfl, phases_of_high_error hl hr rfl hu rfl hv⟩
      · exact .inl ⟨rfl, phases_of_rising_error hl hr rfl hu⟩

/-- All that one cycle can do (R179, R438). -/
theorem cycle_cases (mc : Microcode) (supply : Option Byte) (s : State) :
    (s.fault.isSome = true ∧ s.cycle mc supply = s) ∨
    (s.fault = none ∧ ∃ r, s.cycle mc supply = s.refuse r) ∨
    (s.fault = none ∧ s.wiring.hasController = true ∧ ∃ m, s.ctrl.current s.wiring = some m ∧
      s.cycle mc supply = s.cycleOn mc supply m) ∨
    (s.fault = none ∧ s.wiring.hasController = false ∧ s.cycle mc supply = s.phases mc supply) := by
  unfold State.cycle
  cases hf : s.fault with
  | some r => left; simp
  | none =>
    right
    cases hn : s.bus.nmi with
    | true => left; exact ⟨rfl, .nmiAsserted, by simp⟩
    | false =>
      simp only [Option.isSome_none, Bool.false_eq_true, if_false, State.cycleBody]
      cases hc : s.wiring.hasController with
      | false => right; right; simp
      | true =>
        simp only [if_true]
        cases hm : s.ctrl.current s.wiring with
        | none => left; exact ⟨trivial, .controlStateOutOfRange, rfl⟩
        | some m => right; left; exact ⟨trivial, trivial, m, rfl, rfl⟩

/-! ### Reads and writes of the memory data port -/

/-- All that the memory data port does as a source with no supply (R86). -/
theorem driveMemory_none (id : Id) (s : State) :
    (∃ b, s.mem.read s.mar = some b ∧ s.driveMemory none id = s.setData b) ∨
    (s.mem.read s.mar = none ∧ s.driveMemory none id = s.raise (.invalidComponentID s.mar) .rising id) := by
  unfold State.driveMemory
  cases h : s.mem.read s.mar <;> simp

/-! ### Running an instruction's cycles -/

/-- A cycle after which the instruction goes on. -/
theorem runInstructionCycles_next {mc : Microcode} {fuel : Nat} {supplies : List (Option Byte)} {s : State}
    (h : (s.cycle mc (supplies.headD none)).inFlight = true) :
    State.runInstructionCycles mc (fuel + 1) supplies s =
      State.runInstructionCycles mc fuel supplies.tail (s.cycle mc (supplies.headD none)) := by
  rw [State.runInstructionCycles]; simp only [h, if_true]

/-- The cycle that ends an instruction, or the run. -/
theorem runInstructionCycles_last {mc : Microcode} {fuel : Nat} {supplies : List (Option Byte)} {s : State}
    (h : (s.cycle mc (supplies.headD none)).inFlight = false) :
    State.runInstructionCycles mc (fuel + 1) supplies s = s.cycle mc (supplies.headD none) := by
  rw [State.runInstructionCycles]; simp only [h]; rfl

/-- What holds before an instruction's cycles, and is kept by every cycle, holds after them. -/
theorem runInstructionCycles_induct {mc : Microcode} {P : State → Prop}
    (hstep : ∀ s supply, P s → P (s.cycle mc supply)) (fuel : Nat) (supplies : List (Option Byte)) (s : State)
    (h : P s) : P (State.runInstructionCycles mc fuel supplies s) := by
  induction fuel generalizing supplies s with
  | zero => exact h
  | succ n ih =>
    unfold State.runInstructionCycles
    dsimp only
    split
    · exact ih _ _ (hstep _ _ h)
    · exact hstep _ _ h

/-- What a reference instruction answers from a ready machine at the start of an instruction (R282). -/
theorem runRecord_of_start {rec : Record} {bytes : List Byte} {s : State} (hf : s.fault = none)
    (hn : s.bus.nmi = false) (hs : s.canStart = true) :
    runRecord rec bytes s = (State.runInstructionCycles (fun _ => some rec) Config.maxInstructionCycles
      (fetchSupplies bytes) s).outcome := by
  simp [runRecord, State.guarded, hf, hn, hs]

/-- A next state of a reference instruction is what its cycles give, from a ready machine that can start one. -/
theorem runRecord_eq_next {rec : Record} {bytes : List Byte} {s t : State} (h : runRecord rec bytes s = .next t) :
    s.fault = none ∧ s.bus.nmi = false ∧ s.canStart = true ∧
      t = State.runInstructionCycles (fun _ => some rec) Config.maxInstructionCycles (fetchSupplies bytes) s := by
  unfold runRecord at h
  rcases guarded_cases s _ with ⟨_, h'⟩ | ⟨_, _, h'⟩ | ⟨hf, hn, h'⟩
  · rw [h'] at h; cases h
  · rw [h'] at h; cases h
  · rw [h'] at h
    cases hs : s.canStart with
    | true => simp only [hs, if_true] at h; exact ⟨hf, hn, rfl, (outcome_eq_next _ h).1⟩
    | false =>
      simp only [hs] at h
      exact absurd rfl ((outcome_eq_next _ h).2 .noInstructionStart)

end Sys2Proof.Machine
end

