-- ==== Sys2Proof/Laws/Events.lean ====
section
/-! SUPPORT. The events of a cycle (45_host_interface.md R420), said once per phase and in the terms of Safety.lean. -/

namespace Sys2Proof.Machine

/-- The falling edge's events (R294). -/
theorem fallingPhase_events_eq (s : State) : s.fallingPhase.events = s.events ++ s.fallingEvents := by
  unfold State.fallingPhase State.fallingEvents
  split
  · cases h : s.ctrl.completes s.bus.flagsByte <;> simp [State.emit, State.emitIf, State.event]
  · simp

/-- A data transfer's source has no event (R200). -/
@[simp] theorem driveData_events (supply : Option Byte) (role : Role) (s : State) :
    (s.driveData supply role).events = s.events := by
  unfold State.driveData
  split <;> first | rfl | (split <;> rfl) | skip
  unfold State.driveMemory
  split
  · rfl
  · split <;> rfl

/-- An address transfer's source notifies of its post-increment or post-decrement (R210). -/
theorem driveAddress_events (src : Id) (s : State) :
    (s.driveAddress (s.resolve src)).events = s.events ++ s.postModifyEvents src s.bus.opFlags := by
  unfold State.driveAddress State.postModifyEvents
  cases s.resolve src <;> simp [State.emitIf, State.event, State.driveWord, State.setBusWord, postModify] <;>
    split <;> simp_all

/-- A data transfer's destination that raises no error notifies of what it latches (R200, R420). -/
theorem latchData_events (mc : Microcode) (dst : Id) (s : State)
    (h : (s.latchData mc (s.resolve dst)).fault = none) :
    (s.latchData mc (s.resolve dst)).events = s.events ++ s.latchEvents dst := by
  unfold State.latchEvents
  cases hr : s.resolve dst with
  | nothing => simp [State.latchData]
  | register r => simp [State.latchData, State.latchRegister, State.emit, State.emitIf, State.event]
  | addressRegister r d =>
    cases d <;> simp [State.latchData, State.latchAddressRegister, State.emit, State.emitIf, State.event]
  | alu r lhs =>
    rw [hr] at h
    simp only [State.latchData, State.latchAlu] at h ⊢
    split at h
    · cases h
    · simp [State.emit, State.emitIf, State.event, *]
  | memoryData id =>
    rw [hr] at h
    simp only [State.latchData, State.latchMemory] at h ⊢
    split at h
    · cases h
    · simp [State.emit, State.emitIf, State.event, *]
  | memoryAddress id => simp [State.latchData]
  | controller id =>
    rw [hr] at h
    simp only [State.latchData, State.latchController] at h ⊢
    split at h
    · simp [*]
    · split at h
      · cases h
      · split at h
        · cases h
        · simp [State.startRunner, State.latchIr, State.emit, State.emitIf, State.event, *]

/-- An address transfer's destination notifies of what it latches; MAR has no event (R209, R213). -/
theorem latchAddress_events (dst : Id) (s : State) :
    (s.latchAddress (s.resolve dst)).events = s.events ++ s.latchWordEvents dst := by
  unfold State.latchAddress State.latchWordEvents
  cases s.resolve dst <;>
    simp [State.latchRegister, State.latchAddressRegister, State.emit, State.emitIf, State.event]

/-- A channel that is read notifies where its callback answers a non-zero byte (R226). -/
theorem driveIo_in_events (s : State) (h : s.bus.flag flagMsb = false) :
    s.driveIo.events = s.events ++ s.inputEvents s.bus.destId := by
  unfold State.driveIo State.inputEvents
  simp only [h, Bool.false_eq_true, if_false]
  cases s.wiring.channel s.bus.destId with
  | none => simp
  | some ch =>
    unfold State.driveChannel
    cases hi : ch.hasInput with
    | false => simp [hi, State.setData]
    | true => by_cases h0 : s.nextInput ch.id = 0#8 <;> simp [hi, h0, State.emitIf, State.event, State.takeInput, State.setData]

/-- A channel that takes a byte notifies, with or without an output callback (R223). -/
theorem latchIo_out_events (s : State) (h : s.bus.flag flagMsb = true) :
    s.latchIo.events = s.events ++ s.outputEvents s.bus.destId := by
  unfold State.latchIo State.outputEvents
  simp only [h, if_true]
  cases s.wiring.channel s.bus.destId <;>
    simp [State.outputChannel, State.outputIf, State.emit, State.emitIf, State.event]

end Sys2Proof.Machine
end

