-- ==== Sys2Proof/Laws/Memory.lean ====
section
/-! SUPPORT. The memory bank: what a byte reads as after each memory operation, and that every memory operation keeps the
canonical form `Memory.wf`. -/

namespace Sys2Proof.Machine

/-! ### Cell lists -/

/-- The canonical form, cell by cell: no byte 0x00, and every later address is higher. -/
theorem cellsWf_cons (k : Nat) (v : Byte) (rest : List Host.Cell) :
    cellsWf ((k, v) :: rest) = true ↔ v ≠ 0x00#8 ∧ (∀ c ∈ rest, k < c.1) ∧ cellsWf rest = true := by
  induction rest generalizing k v with
  | nil => simp [cellsWf]
  | cons c rest ih =>
    obtain ⟨k', v'⟩ := c
    constructor
    · intro h
      simp only [cellsWf, Bool.and_eq_true, bne_iff_ne, decide_eq_true_eq] at h
      obtain ⟨⟨hv, hk⟩, hr⟩ := h
      refine ⟨hv, ?_, hr⟩
      intro c hc
      rcases List.mem_cons.1 hc with rfl | hc
      · exact hk
      · exact lt_trans hk ((ih k' v').1 hr |>.2.1 c hc)
    · rintro ⟨hv, hk, hr⟩
      simp only [cellsWf, Bool.and_eq_true, bne_iff_ne, decide_eq_true_eq]
      exact ⟨⟨hv, hk (k', v') List.mem_cons_self⟩, hr⟩

/-- What a write leaves in the list: cells it already had, and at most the written one. -/
theorem mem_cellsPut {cells : List Host.Cell} {a : Nat} {v : Byte} {c : Host.Cell} (h : c ∈ cellsPut cells a v) :
    c ∈ cells ∨ c = (a, v) := by
  induction cells with
  | nil => simp only [cellsPut] at h; split at h <;> simp_all
  | cons d rest ih =>
    obtain ⟨k, w⟩ := d
    simp only [cellsPut] at h
    split at h
    · split at h <;> simp_all
      tauto
    · split at h
      · split at h <;> simp_all
        tauto
      · rcases List.mem_cons.1 h with rfl | h
        · simp
        · rcases ih h with h | h <;> simp [h]

/-- A write keeps the canonical form of the list. -/
theorem cellsPut_wf {cells : List Host.Cell} (a : Nat) (v : Byte) (h : cellsWf cells = true) :
    cellsWf (cellsPut cells a v) = true := by
  induction cells with
  | nil => simp only [cellsPut]; split <;> simp_all [cellsWf]
  | cons d rest ih =>
    obtain ⟨k, w⟩ := d
    have hd := (cellsWf_cons k w rest).1 h
    simp only [cellsPut]
    split
    · rename_i hlt
      split
      · exact h
      · rename_i hv
        refine (cellsWf_cons _ _ _).2 ⟨hv, ?_, h⟩
        intro c hc
        rcases List.mem_cons.1 hc with rfl | hc
        · exact hlt
        · exact lt_trans hlt (hd.2.1 c hc)
    · split
      · rename_i heq
        split
        · exact hd.2.2
        · rename_i hv
          exact (cellsWf_cons _ _ _).2 ⟨hv, heq ▸ hd.2.1, hd.2.2⟩
      · rename_i hlt hne
        refine (cellsWf_cons _ _ _).2 ⟨hd.1, ?_, ih hd.2.2⟩
        intro c hc
        rcases mem_cellsPut hc with hc | rfl
        · exact hd.2.1 c hc
        · exact lt_of_le_of_ne (Nat.le_of_not_lt hlt) (Ne.symm hne)

/-- No cell above the last address listed is found. -/
theorem cellsGet_of_lt {cells : List Host.Cell} {a : Nat} (h : ∀ c ∈ cells, a < c.1) : cellsGet cells a = 0x00#8 := by
  induction cells with
  | nil => rfl
  | cons d rest ih =>
    obtain ⟨k, w⟩ := d
    have hk : a < k := h (k, w) List.mem_cons_self
    have : k ≠ a := by omega
    simp only [cellsGet, this, if_false]
    exact ih fun c hc => h c (List.mem_cons_of_mem _ hc)

/-- A write leaves every other address alone. -/
theorem cellsGet_cellsPut_other (cells : List Host.Cell) {a b : Nat} (v : Byte) (h : a ≠ b) :
    cellsGet (cellsPut cells a v) b = cellsGet cells b := by
  induction cells with
  | nil => simp only [cellsPut]; split <;> simp [cellsGet, h]
  | cons d rest ih =>
    obtain ⟨k, w⟩ := d
    simp only [cellsPut]
    split
    · split <;> simp [cellsGet, h]
    · split
      · rename_i heq
        subst heq
        split <;> simp [cellsGet, h]
      · simp [cellsGet, ih]

/-- A read after a write to the same address gives the byte written. -/
theorem cellsGet_cellsPut_same {cells : List Host.Cell} (a : Nat) (v : Byte) (h : cellsWf cells = true) :
    cellsGet (cellsPut cells a v) a = v := by
  induction cells with
  | nil =>
    simp only [cellsPut]
    split
    · rename_i hv; simp [cellsGet, hv]
    · simp [cellsGet]
  | cons d rest ih =>
    obtain ⟨k, w⟩ := d
    have hd := (cellsWf_cons k w rest).1 h
    simp only [cellsPut]
    split
    · rename_i hlt
      split
      · rename_i hv
        subst hv
        apply cellsGet_of_lt
        intro c hc
        rcases List.mem_cons.1 hc with rfl | hc
        · exact hlt
        · exact lt_trans hlt (hd.2.1 c hc)
      · simp [cellsGet]
    · split
      · rename_i heq
        subst heq
        split
        · rename_i hv
          subst hv
          exact cellsGet_of_lt hd.2.1
        · simp [cellsGet]
      · rename_i hne
        have : k ≠ a := fun h => hne h.symm
        simp [cellsGet, this, ih hd.2.2]

/-- Consecutive writes keep the canonical form of the list. -/
theorem cellsPutAll_wf {cells : List Host.Cell} (a : Nat) (bytes : List Byte) (h : cellsWf cells = true) :
    cellsWf (cellsPutAll cells a bytes) = true := by
  induction bytes generalizing cells a with
  | nil => exact h
  | cons b rest ih => exact ih (a + 1) (cellsPut_wf a b h)

/-- What consecutive writes leave in the list: cells it had, and cells at the addresses written. -/
theorem mem_cellsPutAll {cells : List Host.Cell} {a : Nat} {bytes : List Byte} {c : Host.Cell}
    (h : c ∈ cellsPutAll cells a bytes) : c ∈ cells ∨ (a ≤ c.1 ∧ c.1 < a + bytes.length) := by
  induction bytes generalizing cells a with
  | nil => exact .inl h
  | cons b rest ih =>
    rcases ih h with h | ⟨h1, h2⟩
    · rcases mem_cellsPut h with h | rfl
      · exact .inl h
      · right; simp
    · right; simp only [List.length_cons]; omega

/-- Dropping cells keeps the canonical form of the list. -/
theorem cellsWf_filter {cells : List Host.Cell} (p : Host.Cell → Bool) (h : cellsWf cells = true) :
    cellsWf (cells.filter p) = true := by
  induction cells with
  | nil => rfl
  | cons d rest ih =>
    obtain ⟨k, w⟩ := d
    have hd := (cellsWf_cons k w rest).1 h
    rw [List.filter_cons]
    split
    · exact (cellsWf_cons _ _ _).2 ⟨hd.1, fun c hc => hd.2.1 c (List.mem_of_mem_filter hc), ih hd.2.2⟩
    · exact ih hd.2.2

/-! ### The memory bank -/

/-- The canonical form, part by part. -/
theorem Memory.wf_iff (m : Memory) : m.wf = true ↔
    rangesWf m.ranges = true ∧ cellsWf m.cells = true ∧ ∀ c ∈ m.cells, ∃ r ∈ m.ranges, r.holds c.1 = true := by
  simp [Memory.wf, and_assoc]

/-- The empty bank is in canonical form. -/
theorem Memory.wf_empty : Memory.wf { ranges := [], cells := [] } = true := rfl

/-- The bank of the machine when it is built is in canonical form. -/
theorem reset_mem_wf : State.reset.mem.wf = true := rfl

/-- A read answers a byte exactly when a range holds the address (R84). -/
theorem Memory.read_eq_some {m : Memory} {a : Word} {b : Byte} :
    m.read a = some b ↔ (m.rangeOf a).isSome = true ∧ m.byteAt a = b := by
  unfold Memory.read; cases m.rangeOf a <;> simp

/-- A read answers nothing exactly when no range holds the address (R84). -/
theorem Memory.read_eq_none {m : Memory} {a : Word} : m.read a = none ↔ m.rangeOf a = none := by
  unfold Memory.read; cases m.rangeOf a <;> simp

/-- The range of an address is one of the bank's, and holds it (R81). -/
theorem Memory.rangeOf_eq_some {m : Memory} {a : Word} {r : Range} (h : m.rangeOf a = some r) :
    r ∈ m.ranges ∧ r.holds a.toNat = true := by
  unfold Memory.rangeOf at h
  exact ⟨List.mem_of_find?_eq_some h, by simpa using List.find?_some h⟩

@[simp] theorem Memory.store_ranges (m : Memory) (a : Word) (v : Byte) : (m.store a v).ranges = m.ranges := rfl

@[simp] theorem Memory.store_rangeOf (m : Memory) (a b : Word) (v : Byte) : (m.store a v).rangeOf b = m.rangeOf b := rfl

/-- The byte at another address after a store is the one before it. -/
theorem Memory.store_byteAt_other (m : Memory) {a b : Word} (v : Byte) (h : a ≠ b) :
    (m.store a v).byteAt b = m.byteAt b :=
  cellsGet_cellsPut_other m.cells v fun h' => h (BitVec.eq_of_toNat_eq h')

/-- The byte at the address of a store is the one stored. -/
theorem Memory.store_byteAt_same {m : Memory} (a : Word) (v : Byte) (h : m.wf = true) : (m.store a v).byteAt a = v :=
  cellsGet_cellsPut_same a.toNat v ((Memory.wf_iff m).1 h).2.1

/-- A read at another address after a store answers as before it. -/
theorem Memory.store_read_other (m : Memory) {a b : Word} (v : Byte) (h : a ≠ b) :
    (m.store a v).read b = m.read b := by simp [Memory.read, Memory.store_byteAt_other m v h]

/-- A store at an address some range holds keeps the canonical form. -/
theorem Memory.store_wf {m : Memory} {a : Word} (v : Byte) (hr : (m.rangeOf a).isSome = true) (h : m.wf = true) :
    (m.store a v).wf = true := by
  obtain ⟨h1, h2, h3⟩ := (Memory.wf_iff m).1 h
  refine (Memory.wf_iff _).2 ⟨h1, cellsPut_wf _ _ h2, ?_⟩
  intro c hc
  rcases mem_cellsPut hc with hc | rfl
  · exact h3 c hc
  · obtain ⟨r, hr⟩ := Option.isSome_iff_exists.1 hr
    exact ⟨r, Memory.rangeOf_eq_some hr⟩

/-- All that a bus write can do (R85): store in a writable range, or fail by one of two errors. -/
theorem Memory.write_cases (m : Memory) (a : Word) (v : Byte) :
    (∃ r, m.rangeOf a = some r ∧ r.writable = true ∧ m.write a v = .stored (m.store a v)) ∨
    (∃ r, m.rangeOf a = some r ∧ r.writable = false ∧ m.write a v = .failed (.protectedMemory a)) ∨
    (m.rangeOf a = none ∧ m.write a v = .failed (.invalidComponentID a)) := by
  unfold Memory.write
  cases h : m.rangeOf a with
  | none => simp
  | some r => cases hw : r.writable <;> simp [hw]

/-- A bus write that stores keeps the canonical form. -/
theorem Memory.write_wf {m m' : Memory} {a : Word} {v : Byte} (hw : m.write a v = .stored m') (h : m.wf = true) :
    m'.wf = true := by
  rcases Memory.write_cases m a v with ⟨r, hr, -, he⟩ | ⟨r, -, -, he⟩ | ⟨-, he⟩
  · rw [hw] at he; cases he; exact Memory.store_wf v (by simp [hr]) h
  · rw [hw] at he; cases he
  · rw [hw] at he; cases he

/-! ### Placing bytes -/

@[simp] theorem Memory.poke_ranges (m : Memory) (a : Word) (bytes : List Byte) : (m.poke a bytes).ranges = m.ranges := by
  induction bytes generalizing m a with
  | nil => rfl
  | cons b rest ih => simp [Memory.poke, ih]

/-- Placing bytes where every address can be read keeps the canonical form. -/
theorem Memory.poke_wf {m : Memory} {a : Word} {bytes : List Byte}
    (hr : ∀ k < bytes.length, (m.rangeOf (a + BitVec.ofNat 16 k)).isSome = true) (h : m.wf = true) :
    (m.poke a bytes).wf = true := by
  induction bytes generalizing m a with
  | nil => exact h
  | cons b rest ih =>
    refine ih ?_ (Memory.store_wf b (by simpa using hr 0 (by simp)) h)
    intro k hk
    have := hr (k + 1) (by simpa using hk)
    rw [BitVec.ofNat_add, BitVec.add_comm (BitVec.ofNat 16 k), ← BitVec.add_assoc] at this
    simpa using this

/-! ### Loading an image (R401) -/

/-- Overlap-freedom is symmetric. -/
theorem Range.disjoint_comm (r q : Range) : r.disjoint q = q.disjoint r := Bool.or_comm _ _

/-- The ranges of a bank in order: every range well formed, every two disjoint and in order of their numbers. -/
theorem rangesWf_cons (r : Range) (rest : List Range) : rangesWf (r :: rest) = true ↔
    r.wf = true ∧ (∀ q ∈ rest, r.disjoint q = true ∧ r.number < q.number) ∧ rangesWf rest = true := by
  simp [rangesWf, and_assoc]

/-- The ranges after one is put: the new one, and the old ones. -/
theorem mem_putRange {r q : Range} {rs : List Range} (h : q ∈ putRange r rs) : q = r ∨ q ∈ rs := by
  induction rs with
  | nil => simpa [putRange] using h
  | cons p rest ih =>
    simp only [putRange] at h
    split at h
    · simpa using h
    · split at h
      · simp at h; tauto
      · rcases List.mem_cons.1 h with rfl | h
        · simp
        · rcases ih h with h | h <;> simp [h]

/-- The new range is among the ranges after it is put. -/
theorem mem_putRange_self (r : Range) (rs : List Range) : r ∈ putRange r rs := by
  induction rs with
  | nil => simp [putRange]
  | cons p rest ih => simp only [putRange]; split <;> [simp; (split <;> simp [ih])]

/-- A range of another number is among the ranges after one is put. -/
theorem mem_putRange_of_ne {r q : Range} {rs : List Range} (h : q ∈ rs) (hn : q.number ≠ r.number) :
    q ∈ putRange r rs := by
  induction rs with
  | nil => cases h
  | cons p rest ih =>
    simp only [putRange]
    split
    · simp [h]
    · split
      · rename_i he
        rcases List.mem_cons.1 h with rfl | h
        · exact absurd he.symm hn
        · simp [h]
      · rcases List.mem_cons.1 h with rfl | h
        · simp
        · simp [ih h]

/-- Putting a well-formed range that overlaps none of the others keeps the ranges well formed. -/
theorem putRange_wf {r : Range} {rs : List Range} (hr : r.wf = true) (hd : ∀ q ∈ rs, r.disjoint q = true)
    (h : rangesWf rs = true) : rangesWf (putRange r rs) = true := by
  induction rs with
  | nil => simp [putRange, rangesWf, hr]
  | cons p rest ih =>
    obtain ⟨h1, h2, h3⟩ := (rangesWf_cons p rest).1 h
    simp only [putRange]
    split
    · rename_i hlt
      refine (rangesWf_cons _ _).2 ⟨hr, ?_, h⟩
      intro q hq
      refine ⟨hd q hq, ?_⟩
      rcases List.mem_cons.1 hq with rfl | hq
      · exact hlt
      · exact lt_trans hlt (h2 q hq).2
    · split
      · rename_i he
        refine (rangesWf_cons _ _).2 ⟨hr, ?_, h3⟩
        intro q hq
        exact ⟨hd q (List.mem_cons_of_mem _ hq), he ▸ (h2 q hq).2⟩
      · rename_i hlt hne
        refine (rangesWf_cons _ _).2 ⟨h1, ?_, ih (fun q hq => hd q (List.mem_cons_of_mem _ hq)) h3⟩
        intro q hq
        rcases mem_putRange hq with rfl | hq
        · exact ⟨Range.disjoint_comm _ _ ▸ hd p List.mem_cons_self, by omega⟩
        · exact h2 q hq

/-- Dropping ranges keeps the others well formed. -/
theorem rangesWf_filter {rs : List Range} (p : Range → Bool) (h : rangesWf rs = true) :
    rangesWf (rs.filter p) = true := by
  induction rs with
  | nil => rfl
  | cons r rest ih =>
    obtain ⟨h1, h2, h3⟩ := (rangesWf_cons r rest).1 h
    rw [List.filter_cons]
    split
    · exact (rangesWf_cons _ _).2 ⟨h1, fun q hq => h2 q (List.mem_of_mem_filter hq), ih h3⟩
    · exact ih h3

/-- Loading an image that `load_image` accepts keeps the canonical form (R401). -/
theorem Memory.install_wf {m : Memory} {number : Nat} {bytes : List Byte} {start : Nat} {writable : Bool}
    (hl : 1 ≤ bytes.length) (hs : start + bytes.length ≤ 0x10000)
    (ho : m.overlapsOther number start bytes.length = false) (h : m.wf = true) :
    (m.install number bytes start writable).wf = true := by
  obtain ⟨h1, h2, h3⟩ := (Memory.wf_iff m).1 h
  have hkept : ∀ q ∈ m.ranges.filter (fun q => q.number != number), q.number ≠ number := by
    intro q hq; simpa using (List.mem_filter.1 hq).2
  refine (Memory.wf_iff _).2 ⟨putRange_wf ?_ ?_ (rangesWf_filter _ h1), cellsPutAll_wf _ _ (cellsWf_filter _ h2), ?_⟩
  · simp [Range.wf, hl, hs]
  · intro q hq
    obtain ⟨hq1, hq2⟩ := List.mem_filter.1 hq
    have := List.any_eq_false.1 ho q hq1
    simp only [hq2, Bool.true_and, Bool.not_eq_true, Bool.not_eq_false'] at this
    exact this
  · intro c hc
    rcases mem_cellsPutAll hc with hc | ⟨hc1, hc2⟩
    · obtain ⟨-, hc⟩ := List.mem_filter.1 hc
      obtain ⟨q, hq, hh⟩ := List.any_eq_true.1 hc
      exact ⟨q, mem_putRange_of_ne hq (hkept q hq), hh⟩
    · exact ⟨_, mem_putRange_self _ _, by simp [Range.holds, hc1, hc2]⟩

end Sys2Proof.Machine
end

