-- ==== Sys2Proof/Laws/Transfers.lean ====
section
/-! SUPPORT. What a transfer cycle does, said once per kind of transfer and in the terms of Safety.lean: from a state, placing a
micro-step and running its phases gives a state that agrees with the latched one. Then the same for a machine that is known
up to its bus transfer fields and its trace (`tracks`), for proofs that run an instruction cycle after cycle. -/

namespace Sys2Proof.Machine

/-! ### Agreement -/

/-- `t` holds what `u` holds, memory included, but for the bus's transfer fields and the event trace. -/
def State.tracks (t u : State) : Prop := t.agrees u ∧ t.mem = u.mem

theorem State.agrees_refl (s : State) : s.agrees s := by simp [State.agrees]

theorem State.tracks_refl (s : State) : s.tracks s := ⟨s.agrees_refl, rfl⟩

theorem State.agrees.trans {s t u : State} (h : s.agrees t) (h' : t.agrees u) : s.agrees u := by
  unfold State.agrees at *
  simp_all

theorem State.tracks.trans {s t u : State} (h : s.tracks t) (h' : t.tracks u) : s.tracks u :=
  ⟨h.1.trans h'.1, h.2.trans h'.2⟩

/-- Memory that is equal reads the same at every address. -/
theorem State.sameMemory_of_eq {t s : State} (h : t.mem = s.mem) : t.sameMemory s := by simp [State.sameMemory, h]

/-- A store in a writable range is a stored byte (R85). -/
theorem State.storedByte_of_store {t s : State} {a : Word} {v : Byte} (hw : s.mem.wf = true)
    (ha : s.mem.writableAt a = true) (h : t.mem = s.mem.store a v) : t.storedByte s a v := by
  unfold Memory.writableAt at ha
  refine ⟨by simp [h], ?_, ?_⟩
  · rw [h, Memory.read_eq_some]
    cases hr : s.mem.rangeOf a with
    | none => simp [hr] at ha
    | some r => exact ⟨by simp [hr], Memory.store_byteAt_same a v hw⟩
  · intro x hx
    rw [h, Memory.store_read_other _ _ (Ne.symm hx)]

/-- A bus write at a writable address stores (R85). -/
theorem Memory.write_of_writableAt {m : Memory} {a : Word} (v : Byte) (h : m.writableAt a = true) :
    m.write a v = .stored (m.store a v) := by
  unfold Memory.writableAt at h
  unfold Memory.write
  cases hr : m.rangeOf a with
  | none => simp [hr] at h
  | some r => simp [hr] at h; simp [h]

@[simp] theorem Memory.store_writableAt (m : Memory) (a b : Word) (v : Byte) :
    (m.store a v).writableAt b = m.writableAt b := rfl

/-! ### Fields of the vocabulary of Safety.lean -/

section fields
variable (s : State)

@[simp] theorem raiseFlags_eq (z c : Bool) :
    s.raiseFlags z c = s.setBus { s.bus with z := s.bus.z || z, c := s.bus.c || c } := rfl
@[simp] theorem writeFlags_eq (r : AluResult) : s.writeFlags r = s.setBus { s.bus with z := r.z, c := r.c, v := r.v } := rfl
@[simp] theorem haltIf_eq (h : Bool) : s.haltIf h = s.setBus { s.bus with halt := s.bus.halt || h } := rfl

@[simp] theorem afterCycles_wiring (n : Nat) : (s.afterCycles n).wiring = s.wiring := rfl
@[simp] theorem afterCycles_bus (n : Nat) : (s.afterCycles n).bus = s.bus := rfl
@[simp] theorem afterCycles_regs (n : Nat) : (s.afterCycles n).regs = s.regs := rfl
@[simp] theorem afterCycles_aregs (n : Nat) : (s.afterCycles n).aregs = s.aregs := rfl
@[simp] theorem afterCycles_aluOperation (n : Nat) : (s.afterCycles n).aluOperation = s.aluOperation := rfl
@[simp] theorem afterCycles_mar (n : Nat) : (s.afterCycles n).mar = s.mar := rfl
@[simp] theorem afterCycles_mem (n : Nat) : (s.afterCycles n).mem = s.mem := rfl
@[simp] theorem afterCycles_ctrl (n : Nat) : (s.afterCycles n).ctrl = s.ctrl := rfl
@[simp] theorem afterCycles_clock (n : Nat) : (s.afterCycles n).clock = s.clock := rfl
@[simp] theorem afterCycles_cycles (n : Nat) : (s.afterCycles n).cycles = s.cycles + n := rfl
@[simp] theorem afterCycles_fault (n : Nat) : (s.afterCycles n).fault = s.fault := rfl
@[simp] theorem afterCycles_errorSlots (n : Nat) : (s.afterCycles n).errorSlots = s.errorSlots := rfl
@[simp] theorem afterCycles_events (n : Nat) : (s.afterCycles n).events = s.events := rfl
@[simp] theorem afterCycles_outputs (n : Nat) : (s.afterCycles n).outputs = s.outputs := rfl
@[simp] theorem afterCycles_resetHookCalls (n : Nat) : (s.afterCycles n).resetHookCalls = s.resetHookCalls := rfl
@[simp] theorem afterCycles_hasRun (n : Nat) : (s.afterCycles n).hasRun = s.hasRun := rfl
@[simp] theorem afterCycles_inputs (n : Nat) : (s.afterCycles n).inputs = s.inputs := rfl
@[simp] theorem afterCycles_draws (n : Nat) : (s.afterCycles n).draws = s.draws := rfl
@[simp] theorem afterCycles_requests (n : Nat) : (s.afterCycles n).requests = s.requests := rfl
@[simp] theorem afterCycles_channelErrorSlots (n : Nat) : (s.afterCycles n).channelErrorSlots = s.channelErrorSlots := rfl
@[simp] theorem afterCycles_reg (n : Nat) (i : Id) : (s.afterCycles n).reg i = s.reg i := rfl
@[simp] theorem afterCycles_areg (n : Nat) (i : Id) : (s.afterCycles n).areg i = s.areg i := rfl

@[simp] theorem cycleEnd_eq : s.cycleEnd =
    (s.setCtrl (if s.wiring.hasController then s.ctrl.advance s.bus.flagsByte else s.ctrl)).afterCycles 1 := rfl

end fields

/-! ### Fields after an input is taken (R226) -/

section inputs
variable (s : State) (i : Id)

@[simp] theorem inputTaken_wiring : (s.inputTaken i).wiring = s.wiring := by
  unfold State.inputTaken; split <;> [(split <;> rfl); rfl]
@[simp] theorem inputTaken_bus : (s.inputTaken i).bus = s.bus := by
  unfold State.inputTaken; split <;> [(split <;> rfl); rfl]
@[simp] theorem inputTaken_regs : (s.inputTaken i).regs = s.regs := by
  unfold State.inputTaken; split <;> [(split <;> rfl); rfl]
@[simp] theorem inputTaken_aregs : (s.inputTaken i).aregs = s.aregs := by
  unfold State.inputTaken; split <;> [(split <;> rfl); rfl]
@[simp] theorem inputTaken_aluOperation : (s.inputTaken i).aluOperation = s.aluOperation := by
  unfold State.inputTaken; split <;> [(split <;> rfl); rfl]
@[simp] theorem inputTaken_mar : (s.inputTaken i).mar = s.mar := by
  unfold State.inputTaken; split <;> [(split <;> rfl); rfl]
@[simp] theorem inputTaken_mem : (s.inputTaken i).mem = s.mem := by
  unfold State.inputTaken; split <;> [(split <;> rfl); rfl]
@[simp] theorem inputTaken_ctrl : (s.inputTaken i).ctrl = s.ctrl := by
  unfold State.inputTaken; split <;> [(split <;> rfl); rfl]
@[simp] theorem inputTaken_clock : (s.inputTaken i).clock = s.clock := by
  unfold State.inputTaken; split <;> [(split <;> rfl); rfl]
@[simp] theorem inputTaken_cycles : (s.inputTaken i).cycles = s.cycles := by
  unfold State.inputTaken; split <;> [(split <;> rfl); rfl]
@[simp] theorem inputTaken_fault : (s.inputTaken i).fault = s.fault := by
  unfold State.inputTaken; split <;> [(split <;> rfl); rfl]
@[simp] theorem inputTaken_errorSlots : (s.inputTaken i).errorSlots = s.errorSlots := by
  unfold State.inputTaken; split <;> [(split <;> rfl); rfl]
@[simp] theorem inputTaken_events : (s.inputTaken i).events = s.events := by
  unfold State.inputTaken; split <;> [(split <;> rfl); rfl]
@[simp] theorem inputTaken_outputs : (s.inputTaken i).outputs = s.outputs := by
  unfold State.inputTaken; split <;> [(split <;> rfl); rfl]
@[simp] theorem inputTaken_resetHookCalls : (s.inputTaken i).resetHookCalls = s.resetHookCalls := by
  unfold State.inputTaken; split <;> [(split <;> rfl); rfl]
@[simp] theorem inputTaken_hasRun : (s.inputTaken i).hasRun = s.hasRun := by
  unfold State.inputTaken; split <;> [(split <;> rfl); rfl]
@[simp] theorem inputTaken_resolve (j : Id) : (s.inputTaken i).resolve j = s.resolve j := by simp [State.resolve]

end inputs

/-! ### The control word of a micro-step -/

/-- A micro-step asserts at most one line (R122). -/
theorem placeWord_multipleLines (m : MicroStep) (s : State) : (s.placeWord m).bus.multipleLines = false := by
  simp only [Bus.multipleLines, State.placeWord, setBus_bus]
  by_cases h1 : m.kind = kindXdata
  · simp [h1, kindXdata, kindXaddr, kindIo]
  · by_cases h2 : m.kind = kindXaddr
    · simp [h2, kindXdata, kindXaddr, kindIo]
    · simp [h1, h2]

/-- A data transfer and a step without a transfer meet no role check (R436). -/
theorem placeWord_roleRefusal_none {m : MicroStep} (s : State) (h1 : m.kind ≠ kindXaddr) (h2 : m.kind ≠ kindIo) :
    (s.placeWord m).roleRefusal = none := by
  simp [State.roleRefusal, State.placeWord, h1, h2]

/-- The role check of an address transfer (R436). -/
theorem placeWord_roleRefusal_xaddr {m : MicroStep} (s : State) (h : m.kind = kindXaddr) :
    (s.placeWord m).roleRefusal = addressRefusal (s.resolve m.src) (s.resolve m.dst) m.opFlags := by
  simp [State.roleRefusal, State.placeWord, h]

/-- The role check of an I/O transfer (R436). -/
theorem placeWord_roleRefusal_io {m : MicroStep} (s : State) (h : m.kind = kindIo) :
    (s.placeWord m).roleRefusal = ioRefusal (s.resolve m.src) := by
  simp [State.roleRefusal, State.placeWord, h, kindIo, kindXaddr]

/-- The state at the rising edge: control word placed, `halt` asserted by the HALT op-flag (R172, R173). -/
def State.placed (m : MicroStep) (s : State) : State := (s.placeWord m).haltPhase

/-- The bus at the rising edge. -/
theorem placed_bus (m : MicroStep) (s : State) : (s.placed m).bus =
    { s.bus with xdata := m.kind != kindXdata, xaddr := m.kind != kindXaddr, io := m.kind != kindIo,
                 sourceId := m.src, destId := m.dst, opFlags := m.opFlags,
                 halt := s.bus.halt || hasFlag m.opFlags flagHalt } := rfl

theorem placed_eq (m : MicroStep) (s : State) : s.placed m = s.setBus
    { s.bus with xdata := m.kind != kindXdata, xaddr := m.kind != kindXaddr, io := m.kind != kindIo,
                 sourceId := m.src, destId := m.dst, opFlags := m.opFlags,
                 halt := s.bus.halt || hasFlag m.opFlags flagHalt } := rfl

@[simp] theorem placed_resolve (m : MicroStep) (s : State) (i : Id) : (s.placed m).resolve i = s.resolve i := rfl

/-! ### Data transfers (R200) -/

/-- The rising edge of a data transfer whose source gives a byte (R201, R203, R205, R86, R297, R31). -/
theorem risingPhase_xdata {s : State} {m : MicroStep} {b : Byte} (hk : m.kind = kindXdata)
    (hb : s.sourceByte m.src (hasFlag m.opFlags flagMsb) = some b) :
    (s.placed m).risingPhase none = (s.placed m).setData b := by
  have hr : (s.placed m).resolve m.src = s.resolve m.src := rfl
  simp only [State.risingPhase, placed_bus, hk, bne_self_eq_false, Bool.not_false, if_true, hr]
  unfold State.sourceByte at hb
  cases hrole : s.resolve m.src with
  | nothing => simp only [hrole, Option.some.injEq] at hb; subst hb; rfl
  | register r => simp only [hrole, Option.some.injEq] at hb; subst hb; rfl
  | addressRegister r u =>
    simp only [hrole, Option.some.injEq] at hb
    subst hb
    cases u <;> simp [State.driveData, placed_eq, Bus.flag]
  | alu r l => simp only [hrole, Option.some.injEq] at hb; subst hb; rfl
  | memoryData id =>
    simp only [hrole] at hb
    simp only [State.driveData, State.driveMemory]
    have : (s.placed m).mem.read (s.placed m).mar = s.mem.read s.mar := rfl
    rw [this, hb]
  | memoryAddress id => simp only [hrole, Option.some.injEq] at hb; subst hb; rfl
  | controller id => simp only [hrole, Option.some.injEq] at hb; subst hb; rfl

/-- The rising edge of a fetch: the memory data port drives the supplied byte (notes/assumptions/8.md). -/
theorem risingPhase_supply {s : State} {m : MicroStep} {id : Id} (b : Byte) (hk : m.kind = kindXdata)
    (hr : s.resolve m.src = .memoryData id) : (s.placed m).risingPhase (some b) = (s.placed m).setData b := by
  have hr' : (s.placed m).resolve m.src = s.resolve m.src := rfl
  simp only [State.risingPhase, placed_bus, hk, bne_self_eq_false, Bool.not_false, if_true, hr', hr, State.driveData,
    State.driveMemory]

/-- The rising edge of a data transfer from an address in no range: `InvalidComponentID` (R86). -/
theorem risingPhase_xdata_error {s : State} {m : MicroStep} {id : Id} (hk : m.kind = kindXdata)
    (hr : s.resolve m.src = .memoryData id) (hb : s.mem.read s.mar = none) :
    (s.placed m).risingPhase none = (s.placed m).raise (.invalidComponentID s.mar) .rising id := by
  have hr' : (s.placed m).resolve m.src = s.resolve m.src := rfl
  have : (s.placed m).mem.read (s.placed m).mar = s.mem.read s.mar := rfl
  simp only [State.risingPhase, placed_bus, hk, bne_self_eq_false, Bool.not_false, if_true, hr', hr, State.driveData,
    State.driveMemory, this, hb]
  rfl

/-- The high clock of a data transfer is the destination's latch (R200). -/
theorem highPhase_xdata {mc : Microcode} {s : State} {m : MicroStep} (b : Byte) (hk : m.kind = kindXdata) :
    ((s.placed m).setData b).highPhase mc = ((s.placed m).setData b).latchData mc (s.resolve m.dst) := by
  simp [State.highPhase, placed_bus, hk]

/-- A data transfer that neither the source nor the destination fails. -/
theorem phases_xdata {mc : Microcode} {supply : Option Byte} {s v : State} {m : MicroStep} {b : Byte}
    (hk : m.kind = kindXdata) (hf : s.fault = none)
    (hb : (s.placed m).risingPhase supply = (s.placed m).setData b)
    (hv : ((s.placed m).setData b).latchData mc (s.resolve m.dst) = v) (hvf : v.fault = none) :
    (s.placeWord m).phases mc supply = v.fallingPhase.countCycle := by
  refine phases_of_clear (placeWord_multipleLines m s)
    (placeWord_roleRefusal_none s (by rw [hk]; decide) (by rw [hk]; decide)) hb hf ?_ hvf
  rw [highPhase_xdata b hk]
  exact hv

/-- What a data transfer into a plainly latching destination leaves (R202, R204, R296). -/
theorem latchData_plain {mc : Microcode} {s : State} {m : MicroStep} (b : Byte) (hd : s.latchesPlainly m.dst = true) :
    (((s.placed m).setData b).latchData mc (s.resolve m.dst)).tracks
      ((s.latchByte m.dst (hasFlag m.opFlags flagMsb) b).haltIf (hasFlag m.opFlags flagHalt)) ∧
    (((s.placed m).setData b).latchData mc (s.resolve m.dst)).bus = ((s.placed m).setData b).bus := by
  unfold State.latchesPlainly at hd
  unfold State.latchByte
  cases hrole : s.resolve m.dst with
  | nothing => exact ⟨by simp [State.latchData, State.tracks, State.agrees, placed_eq], rfl⟩
  | register r =>
    exact ⟨by simp [State.latchData, State.latchRegister, State.tracks, State.agrees, placed_eq, State.setReg], rfl⟩
  | addressRegister r u =>
    cases u with
    | false => exact ⟨by simp [State.latchData, State.tracks, State.agrees, placed_eq], rfl⟩
    | true =>
      exact ⟨by simp [State.latchData, State.latchAddressRegister, State.tracks, State.agrees, placed_eq, State.setAreg,
        Bus.flag], rfl⟩
  | alu r l => simp [hrole] at hd
  | memoryData id => simp [hrole] at hd
  | memoryAddress id => exact ⟨by simp [State.latchData, State.tracks, State.agrees, placed_eq], rfl⟩
  | controller id =>
    simp only [hrole] at hd
    obtain ⟨r, hr⟩ := Option.isSome_iff_exists.1 hd
    have hr' : ((s.placed m).setData b).ctrl.runner = some r := hr
    constructor
    · simp only [State.latchData, State.latchController, hr']
      simp [State.tracks, State.agrees, placed_eq, Bus.flag, hr]
    · simp only [State.latchData, State.latchController, hr']
      rfl

/-- The end of a cycle tracks `cycleEnd`. -/
theorem tracks_cycleEnd {t u : State} (h : t.tracks u) : t.fallingPhase.countCycle.tracks u.cycleEnd := by
  obtain ⟨h, hm⟩ := h
  unfold State.agrees at h
  obtain ⟨h1, h2, h3, h4, h5, h6, h7, h8, h9, h10, h11, h12, h13, h14, h15, h16, h17, h18, h19, h20, h21, h22, h23⟩ := h
  have hfb : t.bus.flagsByte = u.bus.flagsByte := by simp [Bus.flagsByte, h20, h21, h22]
  simp [State.tracks, State.agrees, h1, h2, h3, h4, h5, h6, h7, h8, h9, h10, h11, h12, h13, h14, h15, h16, h17, h18, h19,
    h20, h21, h22, h23, hm, hfb]

/-! ### The ALU, the memory bank and the opcode latch as destinations -/

/-- What a data transfer into the ALU leaves (R250, R252). -/
theorem latchData_alu {mc : Microcode} {s : State} {m : MicroStep} {b : Byte} {r lhs : Id} {res : AluResult}
    (hd : s.resolve m.dst = .alu r lhs) (hres : aluResult (aluCode m.opFlags) (s.reg lhs) b s.bus.c = some res) :
    (((s.placed m).setData b).latchData mc (s.resolve m.dst)).tracks
      ((s.computed r (aluCode m.opFlags) (hasFlag m.opFlags flagFlags) b res).haltIf (hasFlag m.opFlags flagHalt)) ∧
    (((s.placed m).setData b).latchData mc (s.resolve m.dst)).bus.dataByte = b := by
  have hres' : aluResult (aluCode ((s.placed m).setData b).bus.opFlags) (((s.placed m).setData b).reg lhs)
      ((s.placed m).setData b).bus.dataByte ((s.placed m).setData b).bus.c = some res := hres
  simp only [hd, State.latchData, State.latchAlu, hres']
  constructor
  · unfold State.computed
    cases hfl : hasFlag m.opFlags flagFlags <;>
      simp [State.tracks, State.agrees, placed_eq, Bus.flag, Bus.applyAluFlags, State.setReg, State.setAluOp,
        State.setBus, State.emit, State.emitIf, hfl]
  · rfl

/-- A data transfer into the ALU with an operation code that names no operation (R251). -/
theorem latchData_alu_error {mc : Microcode} {s : State} {m : MicroStep} {b : Byte} {r lhs : Id}
    (hd : s.resolve m.dst = .alu r lhs) (hres : aluResult (aluCode m.opFlags) (s.reg lhs) b s.bus.c = none) :
    ((s.placed m).setData b).latchData mc (s.resolve m.dst) =
      ((s.placed m).setData b).raise (.invalidMicroCode ((s.placed m).setData b).bus.microStep.pack) .high r := by
  have hres' : aluResult (aluCode ((s.placed m).setData b).bus.opFlags) (((s.placed m).setData b).reg lhs)
      ((s.placed m).setData b).bus.dataByte ((s.placed m).setData b).bus.c = none := hres
  simp only [hd, State.latchData, State.latchAlu, hres']

/-- The bus shows the micro-step of a data transfer (R122, R129). -/
theorem microStep_xdata {s : State} {m : MicroStep} (b : Byte) (hk : m.kind = kindXdata) :
    ((s.placed m).setData b).bus.microStep = m := by
  obtain ⟨k, src, dst, fl⟩ := m
  simp only at hk
  subst hk
  simp [Bus.microStep, placed_bus]

/-- What a data transfer into the memory bank leaves (R87). -/
theorem latchData_memory {mc : Microcode} {s : State} {m : MicroStep} {b : Byte} {id : Id}
    (hd : s.resolve m.dst = .memoryData id) (hw : s.mem.writableAt s.mar = true) :
    (((s.placed m).setData b).latchData mc (s.resolve m.dst)).tracks
      ((s.setMem (s.mem.store s.mar b)).haltIf (hasFlag m.opFlags flagHalt)) ∧
    (((s.placed m).setData b).latchData mc (s.resolve m.dst)).bus.dataByte = b := by
  have hw' : ((s.placed m).setData b).mem.write ((s.placed m).setData b).mar ((s.placed m).setData b).bus.dataByte =
      .stored (s.mem.store s.mar b) := Memory.write_of_writableAt b hw
  simp only [hd, State.latchData, State.latchMemory, hw']
  exact ⟨by simp [State.tracks, State.agrees, placed_eq], rfl⟩

/-- A data transfer into the memory bank that fails (R85, R87). -/
theorem latchData_memory_error {mc : Microcode} {s : State} {m : MicroStep} {b : Byte} {id : Id} {e : Fault}
    (hd : s.resolve m.dst = .memoryData id) (hw : s.mem.write s.mar b = .failed e) :
    ((s.placed m).setData b).latchData mc (s.resolve m.dst) = ((s.placed m).setData b).raise e .high id := by
  have hw' : ((s.placed m).setData b).mem.write ((s.placed m).setData b).mar ((s.placed m).setData b).bus.dataByte =
      .failed e := hw
  simp only [hd, State.latchData, State.latchMemory, hw']

/-- What the opcode latch leaves (R285). -/
theorem latchData_opcode {mc : Microcode} {s : State} {m : MicroStep} {b : Byte} {id : Id} {rec : Record} {r : Runner}
    (hd : s.resolve m.dst = .controller id) (hn : s.ctrl.runner = none) (hrec : mc b = some rec)
    (hexp : expand s.wiring rec b = some r) :
    (((s.placed m).setData b).latchData mc (s.resolve m.dst)).tracks
      ((s.opcodeLatched b r).haltIf (hasFlag m.opFlags flagHalt)) ∧
    (((s.placed m).setData b).latchData mc (s.resolve m.dst)).bus.dataByte = b := by
  have h1 : ((s.placed m).setData b).ctrl.runner = none := hn
  have h2 : mc ((s.placed m).setData b).bus.dataByte = some rec := hrec
  have h3 : expand ((s.placed m).setData b).wiring rec ((s.placed m).setData b).bus.dataByte = some r := hexp
  simp only [hd, State.latchData, State.latchController, h1, h2, h3]
  exact ⟨by simp [State.tracks, State.agrees, placed_eq, State.latchIr, State.startRunner, State.opcodeLatched], rfl⟩

/-- The opcode latch of an opcode with no record (R285, R382). -/
theorem latchData_noMicroCode {mc : Microcode} {s : State} {m : MicroStep} {b : Byte} {id : Id}
    (hd : s.resolve m.dst = .controller id) (hn : s.ctrl.runner = none) (hrec : mc b = none) :
    ((s.placed m).setData b).latchData mc (s.resolve m.dst) =
      (((s.placed m).setData b).latchIr id).raise (.noMicroCode b) .high id := by
  have h1 : ((s.placed m).setData b).ctrl.runner = none := hn
  have h2 : mc ((s.placed m).setData b).bus.dataByte = none := hrec
  simp only [hd, State.latchData, State.latchController, h1, h2]
  rfl

/-! ### Address transfers (R206) -/

/-- The rising edge of an address transfer (R208, R210, R89, R298): word on the bus, source post-modified. -/
theorem risingPhase_xaddr {supply : Option Byte} {s : State} {m : MicroStep} (hk : m.kind = kindXaddr) :
    ((s.placed m).risingPhase supply).tracks
      ((s.postModifySource m.src m.opFlags).haltIf (hasFlag m.opFlags flagHalt)) ∧
    ((s.placed m).risingPhase supply).bus.word = s.sourceWord m.src ∧
    ((s.placed m).risingPhase supply).bus.xdata = true ∧
    ((s.placed m).risingPhase supply).bus.xaddr = false ∧
    ((s.placed m).risingPhase supply).bus.destId = m.dst ∧
    ((s.placed m).risingPhase supply).wiring = s.wiring ∧ ((s.placed m).risingPhase supply).fault = s.fault := by
  have hr : (s.placed m).risingPhase supply = (s.placed m).driveAddress (s.resolve m.src) := by
    simp [State.risingPhase, placed_bus, hk, kindXaddr, kindXdata]
  rw [hr]
  unfold State.sourceWord State.postModifySource
  have hx : (s.placed m).bus.xdata = true ∧ (s.placed m).bus.xaddr = false := by
    simp [placed_bus, hk, kindXaddr, kindXdata]
  cases hrole : s.resolve m.src <;>
    simp [State.driveAddress, State.tracks, State.agrees, placed_eq, hk, kindXaddr, kindXdata, State.driveWord, Bus.word,
      Bus.setPostFlags, State.setAreg, State.areg]

/-- The high clock of an address transfer whose destination meets no role check (R88, R209, R213). -/
theorem highPhase_xaddr {mc : Microcode} {u : State} (hx : u.bus.xdata = true) (ha : u.bus.xaddr = false) :
    (u.highPhase mc).tracks (u.latchWord u.bus.destId u.bus.word) ∧ (u.highPhase mc).bus = u.bus := by
  have hr : u.highPhase mc = u.latchAddress (u.resolve u.bus.destId) := by
    simp [State.highPhase, hx, ha]
  rw [hr]
  unfold State.latchWord
  cases hrole : u.resolve u.bus.destId <;>
    simp [State.latchAddress, State.latchRegister, State.latchAddressRegister, State.tracks, State.agrees, State.setReg,
      State.setAreg, Bus.word]

/-- Latching the same word in states that agree. -/
theorem tracks_latchWord {t u : State} (h : t.tracks u) (dst : Id) (w : Word) :
    (t.latchWord dst w).tracks (u.latchWord dst w) := by
  obtain ⟨h, hm⟩ := h
  unfold State.agrees at h
  have hw : t.wiring = u.wiring := h.1
  unfold State.latchWord
  rw [show t.resolve dst = u.resolve dst by simp [State.resolve, hw]]
  cases u.resolve dst <;> simp_all [State.tracks, State.agrees, State.setReg, State.setAreg]

/-- An address transfer that meets no role check (R206, R436). -/
theorem phases_xaddr {mc : Microcode} {supply : Option Byte} {s : State} {m : MicroStep} (hk : m.kind = kindXaddr)
    (hf : s.fault = none) (hr : addressRefusal (s.resolve m.src) (s.resolve m.dst) m.opFlags = none) :
    ((s.placeWord m).phases mc supply).tracks
      ((((s.postModifySource m.src m.opFlags).haltIf (hasFlag m.opFlags flagHalt)).latchWord m.dst
        (s.sourceWord m.src)).cycleEnd) ∧
    ((s.placeWord m).phases mc supply).bus.word = s.sourceWord m.src := by
  obtain ⟨h1, h2, h3, h4, h5, h6, h7⟩ := risingPhase_xaddr (supply := supply) (s := s) hk
  obtain ⟨g1, g2⟩ := highPhase_xaddr (mc := mc) h3 h4
  have hfl : ((s.placed m).risingPhase supply).fault = none := h7.trans hf
  have hvf : (((s.placed m).risingPhase supply).highPhase mc).fault = none := by
    rw [g1.1.2.2.2.2.2.2.2.2.1]
    unfold State.latchWord
    cases ((s.placed m).risingPhase supply).resolve ((s.placed m).risingPhase supply).bus.destId <;>
      simp [hfl]
  have hp := phases_of_clear (mc := mc) (placeWord_multipleLines m s)
    ((placeWord_roleRefusal_xaddr s hk).trans hr) rfl hfl rfl hvf
  rw [hp]
  constructor
  · refine tracks_cycleEnd (g1.trans ?_)
    rw [h2, h5]
    exact tracks_latchWord h1 _ _
  · simp only [countCycle_bus, fallingPhase_bus]
    exact (congrArg Bus.word g2).trans h2

/-! ### I/O transfers (R220, R221) -/

/-- An I/O-out transfer (R222, R223): the register side drives, the channel takes the byte. -/
theorem phases_ioOut {mc : Microcode} {supply : Option Byte} {s : State} {m : MicroStep} {b : Byte} (hk : m.kind = kindIo)
    (hf : s.fault = none) (ho : hasFlag m.opFlags flagMsb = true)
    (hb : (s.resolve m.src = .nothing ∧ b = s.bus.dataByte) ∨ ∃ r, s.resolve m.src = .register r ∧ b = s.reg r) :
    ((s.placeWord m).phases mc supply).tracks
      (((s.outputByte m.dst b).haltIf
        (hasFlag m.opFlags flagHalt)).cycleEnd) ∧
    ((s.placeWord m).phases mc supply).bus.dataByte = b := by
  have hrr : (s.placeWord m).roleRefusal = none := by
    rw [placeWord_roleRefusal_io s hk]
    rcases hb with ⟨hb, -⟩ | ⟨r, hb, -⟩ <;> rw [hb] <;> rfl
  have hu : (s.placed m).risingPhase supply = (s.placed m).setData b := by
    simp only [State.risingPhase, placed_bus, hk, State.driveIo, Bus.flag, ho]
    rcases hb with ⟨hb, rfl⟩ | ⟨r, hb, rfl⟩ <;> simp [hb, kindIo, kindXdata, kindXaddr] <;> rfl
  have hv : ((s.placed m).setData b).highPhase mc =
      match s.wiring.channel m.dst with
      | some ch => ((s.placed m).setData b).outputChannel ch
      | none => (s.placed m).setData b := by
    simp only [State.highPhase, setData_eq, setBus_bus, placed_bus, hk, State.latchIo, Bus.flag, ho]
    simp [kindIo, kindXdata, kindXaddr]
    rfl
  have hvf : (((s.placed m).setData b).highPhase mc).fault = none := by
    rw [hv]; cases s.wiring.channel m.dst <;> simp [State.outputChannel] <;> exact hf
  rw [phases_of_clear (placeWord_multipleLines m s) hrr hu hf rfl hvf]
  constructor
  · apply tracks_cycleEnd
    rw [hv]
    cases hc : s.wiring.channel m.dst with
    | none => simp [State.tracks, State.agrees, placed_eq, State.outputByte, State.outputIf, hc]
    | some ch =>
      have : ch.id = m.dst := by
        have := List.find?_some hc
        simpa using this
      simp [State.tracks, State.agrees, placed_eq, State.outputByte, State.outputChannel, State.outputIf, hc, this]
  · simp only [countCycle_bus, fallingPhase_bus, hv]
    cases s.wiring.channel m.dst <;> rfl

/-- The bus in an I/O-in transfer's high clock and the state it leaves (R224, R226). -/
theorem phases_ioIn {mc : Microcode} {supply : Option Byte} {s : State} {m : MicroStep} (hk : m.kind = kindIo)
    (hf : s.fault = none) (ho : hasFlag m.opFlags flagMsb = false) (hr : ioRefusal (s.resolve m.src) = none) :
    ((s.placeWord m).phases mc supply).tracks
      ((((s.inputTaken m.dst).latchByte m.src false (s.inputByte m.dst)).haltIf
        (hasFlag m.opFlags flagHalt)).cycleEnd) ∧
    ((s.placeWord m).phases mc supply).bus.dataByte = s.inputByte m.dst := by
  have hu : ((s.placed m).risingPhase supply) =
      match s.wiring.channel m.dst with
      | some ch => (s.placed m).driveChannel ch
      | none => s.placed m := by
    simp only [State.risingPhase, placed_bus, hk, State.driveIo, Bus.flag, ho]
    simp [kindIo, kindXdata, kindXaddr]
    rfl
  have hid : ∀ ch, s.wiring.channel m.dst = some ch → ch.id = m.dst := by
    intro ch hc
    simpa using List.find?_some hc
  have hut : ((s.placed m).risingPhase supply).tracks ((s.inputTaken m.dst).haltIf (hasFlag m.opFlags flagHalt)) ∧
      ((s.placed m).risingPhase supply).bus = { (s.placed m).bus with dataByte := s.inputByte m.dst } := by
    rw [hu]
    unfold State.inputTaken State.inputByte
    cases hc : s.wiring.channel m.dst with
    | none => exact ⟨by simp [State.tracks, State.agrees, placed_eq], rfl⟩
    | some ch =>
      have := hid ch hc
      cases hi : ch.hasInput
      · exact ⟨by simp [State.driveChannel, hi, State.tracks, State.agrees, placed_eq],
          by simp [State.driveChannel, hi]⟩
      · exact ⟨by simp [State.driveChannel, hi, this, State.tracks, State.agrees, placed_eq, State.takeInput,
            State.nextInput, State.setBus, State.emitIf],
          by simp [State.driveChannel, hi, this, placed_eq, State.takeInput, State.nextInput, State.setBus,
            State.emitIf]⟩
  generalize hug : (s.placed m).risingPhase supply = u at hut
  obtain ⟨⟨ha, hm⟩, hb⟩ := hut
  have huf : u.fault = none := by
    unfold State.agrees at ha
    rw [ha.2.2.2.2.2.2.2.2.1]
    simpa using hf
  have hur : u.resolve m.src = s.resolve m.src := by
    have : u.wiring = s.wiring := by rw [ha.1]; simp
    simp [State.resolve, this]
  have hsr : (s.inputTaken m.dst).resolve m.src = s.resolve m.src := inputTaken_resolve s _ _
  have hv : u.highPhase mc = match s.resolve m.src with
      | .register r => u.latchRegister r u.bus.dataByte
      | _ => u := by
    simp only [State.highPhase, State.latchIo, hb, placed_bus, hk, Bus.flag, ho, hur]
    cases hrole : s.resolve m.src <;> simp [kindIo, kindXdata, kindXaddr]
  have hvt : (u.highPhase mc).tracks (((s.inputTaken m.dst).latchByte m.src false (s.inputByte m.dst)).haltIf
      (hasFlag m.opFlags flagHalt)) ∧ (u.highPhase mc).bus.dataByte = s.inputByte m.dst := by
    rw [hv]
    have hdb : u.bus.dataByte = s.inputByte m.dst := by rw [hb]
    unfold State.agrees at ha
    unfold State.latchByte
    rw [hsr]
    cases hrole : s.resolve m.src with
    | nothing => exact ⟨⟨ha, hm⟩, hdb⟩
    | register r =>
      refine ⟨⟨?_, ?_⟩, ?_⟩
      · simp_all [State.agrees, State.latchRegister, State.setReg]
      · simpa [State.latchRegister] using hm
      · simpa [State.latchRegister] using hdb
    | addressRegister r d => simp [hrole, ioRefusal] at hr
    | alu r l => simp [hrole, ioRefusal] at hr
    | memoryData i => simp [hrole, ioRefusal] at hr
    | memoryAddress i => simp [hrole, ioRefusal] at hr
    | controller i => simp [hrole, ioRefusal] at hr
  have hvf : (u.highPhase mc).fault = none := by
    rw [hv]
    cases s.resolve m.src <;> simp [State.latchRegister, huf]
  rw [phases_of_clear (placeWord_multipleLines m s) ((placeWord_roleRefusal_io s hk).trans hr) hug huf rfl hvf]
  exact ⟨tracks_cycleEnd hvt.1, by simpa using hvt.2⟩

/-! ### No transfer (R231) -/

/-- A step without a transfer (R230, R231). -/
theorem phases_other {mc : Microcode} {supply : Option Byte} {s : State} {m : MicroStep} (hk : m.kind = kindOther)
    (hf : s.fault = none) :
    ((s.placeWord m).phases mc supply).tracks ((s.haltIf (hasFlag m.opFlags flagHalt)).cycleEnd) ∧
    ((s.placeWord m).phases mc supply).bus.dataByte = s.bus.dataByte ∧
    ((s.placeWord m).phases mc supply).bus.addrByte = s.bus.addrByte := by
  have hu : (s.placed m).risingPhase supply = s.placed m := by
    simp [State.risingPhase, placed_bus, hk, kindOther, kindIo, kindXdata, kindXaddr]
  have hv : (s.placed m).highPhase mc = s.placed m := by
    simp [State.highPhase, placed_bus, hk, kindOther, kindIo, kindXdata, kindXaddr]
  rw [phases_of_clear (placeWord_multipleLines m s)
    (placeWord_roleRefusal_none s (by rw [hk]; decide) (by rw [hk]; decide)) hu hf hv hf]
  exact ⟨tracks_cycleEnd (by simp [State.tracks, State.agrees, placed_eq]), by simp [placed_bus], by simp [placed_bus]⟩

end Sys2Proof.Machine
end

