-- ==== Sys2Proof/Laws/Reference.lean ====
section
/-! SUPPORT. Running a reference instruction cycle after cycle: what the ids of the reference wiring name, one lemma per kind of
cycle for a machine known up to its bus transfer fields and trace (`Live`), the fetch and prologue of each addressing mode,
and the lemmas that string cycles together (`Ends`). -/

namespace Sys2Proof.Machine

/-! ### The reference wiring (R45) -/

@[simp] theorem reference_A : referenceWiring.resolve 0x0#4 = .register 0x0#4 := rfl
@[simp] theorem reference_B : referenceWiring.resolve 0x1#4 = .register 0x1#4 := rfl
@[simp] theorem reference_C : referenceWiring.resolve 0x2#4 = .register 0x2#4 := rfl
@[simp] theorem reference_D : referenceWiring.resolve 0x3#4 = .register 0x3#4 := rfl
@[simp] theorem reference_LHS : referenceWiring.resolve 0x4#4 = .register 0x4#4 := rfl
@[simp] theorem reference_ALU : referenceWiring.resolve 0x5#4 = .alu 0x5#4 0x4#4 := rfl
@[simp] theorem reference_6 : referenceWiring.resolve 0x6#4 = .nothing := rfl
@[simp] theorem reference_CTRL : referenceWiring.resolve 0x7#4 = .controller 0x7#4 := rfl
@[simp] theorem reference_PC : referenceWiring.resolve 0x8#4 = .addressRegister 0x8#4 true := rfl
@[simp] theorem reference_SP : referenceWiring.resolve 0x9#4 = .addressRegister 0x9#4 true := rfl
@[simp] theorem reference_SI : referenceWiring.resolve 0xA#4 = .addressRegister 0xA#4 true := rfl
@[simp] theorem reference_DI : referenceWiring.resolve 0xB#4 = .addressRegister 0xB#4 true := rfl
@[simp] theorem reference_TX : referenceWiring.resolve 0xC#4 = .addressRegister 0xC#4 true := rfl
@[simp] theorem reference_D_id : referenceWiring.resolve 0xD#4 = .nothing := rfl
@[simp] theorem reference_MEM : referenceWiring.resolve 0xE#4 = .memoryData 0xE#4 := rfl
@[simp] theorem reference_MEMADDR : referenceWiring.resolve 0xF#4 = .memoryAddress 0xE#4 := rfl
@[simp] theorem reference_hasController : referenceWiring.hasController = true := rfl
@[simp] theorem reference_pcId : referenceWiring.pcId = 0x8#4 := rfl
@[simp] theorem reference_memId : referenceWiring.memId = 0xE#4 := rfl
@[simp] theorem reference_memAddrId : referenceWiring.memAddrId = 0xF#4 := rfl
@[simp] theorem reference_ctrlId : referenceWiring.ctrlId = 0x7#4 := rfl
@[simp] theorem reference_portsNamed : referenceWiring.portsNamed = true := rfl

/-- The reference wiring is well formed (R7). -/
theorem reference_wf : referenceWiring.wf = true := by decide

/-- The reference output channel (R45). -/
theorem reference_channelOut : referenceWiring.channel 0x0#4 =
    some { id := 0x0#4, name := "OUT", hasInput := false, hasOutput := true, hasResetHook := false,
           hasStatusHook := false } := rfl

/-- The reference input channel (R45). -/
theorem reference_channelIn : referenceWiring.channel 0x1#4 =
    some { id := 0x1#4, name := "IN", hasInput := true, hasOutput := false, hasResetHook := false,
           hasStatusHook := false } := rfl

/-! ### Fields from agreement -/

section tracks
variable {t u : State}

theorem State.tracks.wiring (h : t.tracks u) : t.wiring = u.wiring := h.1.1
theorem State.tracks.regs (h : t.tracks u) : t.regs = u.regs := h.1.2.1
theorem State.tracks.aregs (h : t.tracks u) : t.aregs = u.aregs := h.1.2.2.1
theorem State.tracks.aluOperation (h : t.tracks u) : t.aluOperation = u.aluOperation := h.1.2.2.2.1
theorem State.tracks.mar (h : t.tracks u) : t.mar = u.mar := h.1.2.2.2.2.1
theorem State.tracks.ctrl (h : t.tracks u) : t.ctrl = u.ctrl := h.1.2.2.2.2.2.1
theorem State.tracks.clock (h : t.tracks u) : t.clock = u.clock := h.1.2.2.2.2.2.2.1
theorem State.tracks.cycles (h : t.tracks u) : t.cycles = u.cycles := h.1.2.2.2.2.2.2.2.1
theorem State.tracks.fault (h : t.tracks u) : t.fault = u.fault := h.1.2.2.2.2.2.2.2.2.1
theorem State.tracks.inputs (h : t.tracks u) : t.inputs = u.inputs := h.1.2.2.2.2.2.2.2.2.2.2.2.2.2.1
theorem State.tracks.draws (h : t.tracks u) : t.draws = u.draws := h.1.2.2.2.2.2.2.2.2.2.2.2.2.2.2.1
theorem State.tracks.nmi (h : t.tracks u) : t.bus.nmi = u.bus.nmi := by
  have := h.1; unfold State.agrees at this; simp_all
theorem State.tracks.c (h : t.tracks u) : t.bus.c = u.bus.c := by
  have := h.1; unfold State.agrees at this; simp_all
theorem State.tracks.mem (h : t.tracks u) : t.mem = u.mem := h.2

theorem State.tracks.resolve (h : t.tracks u) (i : Id) : t.resolve i = u.resolve i := by
  simp [State.resolve, h.wiring]

theorem State.tracks.inFlight (h : t.tracks u) : t.inFlight = u.inFlight := by
  simp [State.inFlight, h.fault, h.ctrl]

end tracks

/-- Agreement is kept by one update of both sides; `f` is any of the updates below. -/
theorem tracks_latchByte {t u : State} (h : t.tracks u) (dst : Id) (msb : Bool) (b : Byte) :
    (t.latchByte dst msb b).tracks (u.latchByte dst msb b) := by
  have hr := h.resolve dst
  obtain ⟨h, hm⟩ := h
  unfold State.agrees at h
  unfold State.latchByte
  rw [hr]
  cases u.resolve dst <;> try (simp_all [State.tracks, State.agrees, State.setReg, State.setAreg]; done)
  rename_i r d
  cases d <;> simp_all [State.tracks, State.agrees, State.setAreg, State.areg]

theorem tracks_haltIf_false {t u : State} (h : t.tracks (u.haltIf false)) : t.tracks u := by
  unfold State.tracks State.agrees at *; simp_all

theorem tracks_cycleEnd_congr {t u : State} (h : t.tracks u) : t.cycleEnd.tracks u.cycleEnd := by
  obtain ⟨h, hm⟩ := h
  unfold State.agrees at h
  simp_all [State.tracks, State.agrees, Bus.flagsByte]

/-! ### One cycle -/

/-- `t` is known to be `u` up to the bus's transfer fields and the trace, and its next micro-step is `m`. -/
structure Live (t u : State) (m : MicroStep) : Prop where
  tracks : t.tracks u
  fault : u.fault = none
  nmi : u.bus.nmi = false
  wiring : u.wiring = referenceWiring
  current : u.ctrl.current referenceWiring = some m

/-- The cycle of a live machine is the phases of its micro-step. -/
theorem Live.cycle {t u : State} {m : MicroStep} {mc : Microcode} {supply : Option Byte} (h : Live t u m)
    (hk : knownKind m.kind = true) : t.cycle mc supply = (t.placeWord m).phases mc supply :=
  cycle_of_current (h.tracks.fault.trans h.fault) (h.tracks.nmi.trans h.nmi)
    (by rw [h.tracks.wiring, h.wiring]; rfl) (by rw [h.tracks.wiring, h.tracks.ctrl, h.wiring]; exact h.current) hk

/-- A component that drives `data_byte` as the source of a data transfer (R201, R203, R205, R86, R297). -/
def Role.drivesData : Role → Bool
  | .nothing => false
  | .register _ => true
  | .addressRegister _ usesDataBus => usesDataBus
  | .alu _ _ => true
  | .memoryData _ => true
  | .memoryAddress _ => false
  | .controller _ => true

/-- Such a source gives the same byte in states that agree. -/
theorem sourceByte_congr {t u : State} (h : t.tracks u) {src : Id} {msb : Bool}
    (hd : (u.resolve src).drivesData = true) : t.sourceByte src msb = u.sourceByte src msb := by
  unfold State.sourceByte
  rw [h.resolve]
  cases hr : u.resolve src <;> simp_all [Role.drivesData, State.reg, State.areg, h.regs, h.aregs, h.mem, h.mar, h.ctrl]

/-- A data transfer into a register, an address register or the constant (R202, R204, R296). -/
theorem Live.move {t u : State} {m : MicroStep} {mc : Microcode} {b : Byte} (h : Live t u m) (hk : m.kind = kindXdata)
    (hh : hasFlag m.opFlags flagHalt = false) (hs : (u.resolve m.src).drivesData = true)
    (hb : u.sourceByte m.src (hasFlag m.opFlags flagMsb) = some b) (hd : u.latchesPlainly m.dst = true) :
    (t.cycle mc none).tracks (u.latchByte m.dst (hasFlag m.opFlags flagMsb) b).cycleEnd := by
  rw [h.cycle (by rw [hk]; rfl)]
  have hdt : t.latchesPlainly m.dst = true := by
    unfold State.latchesPlainly at *; rw [h.tracks.resolve, h.tracks.ctrl]; exact hd
  have hf : t.fault = none := h.tracks.fault.trans h.fault
  obtain ⟨hv, -⟩ := latchData_plain (mc := mc) (m := m) b hdt
  rw [hh] at hv
  have hv := (tracks_haltIf_false hv).trans (tracks_latchByte h.tracks m.dst _ b)
  have hvf : (((t.placed m).setData b).latchData mc (t.resolve m.dst)).fault = none := by
    rw [hv.fault]
    unfold State.latchByte
    split <;> first | (split <;> simp [h.fault]) | simp [h.fault]
  rw [phases_xdata hk hf (risingPhase_xdata hk ((sourceByte_congr h.tracks hs).trans hb)) rfl hvf]
  exact tracks_cycleEnd hv

/-- The same with the byte supplied: the second half of an operand fetch (R287, R296). -/
theorem Live.moveSupplied {t u : State} {m : MicroStep} {mc : Microcode} {id : Id} (b : Byte) (h : Live t u m)
    (hk : m.kind = kindXdata) (hh : hasFlag m.opFlags flagHalt = false) (hs : u.resolve m.src = .memoryData id)
    (hd : u.latchesPlainly m.dst = true) :
    (t.cycle mc (some b)).tracks (u.latchByte m.dst (hasFlag m.opFlags flagMsb) b).cycleEnd := by
  rw [h.cycle (by rw [hk]; rfl)]
  have hdt : t.latchesPlainly m.dst = true := by
    unfold State.latchesPlainly at *; rw [h.tracks.resolve, h.tracks.ctrl]; exact hd
  have hf : t.fault = none := h.tracks.fault.trans h.fault
  obtain ⟨hv, -⟩ := latchData_plain (mc := mc) (m := m) b hdt
  rw [hh] at hv
  have hv := (tracks_haltIf_false hv).trans (tracks_latchByte h.tracks m.dst _ b)
  have hvf : (((t.placed m).setData b).latchData mc (t.resolve m.dst)).fault = none := by
    rw [hv.fault]
    unfold State.latchByte
    split <;> first | (split <;> simp [h.fault]) | simp [h.fault]
  rw [phases_xdata hk hf (risingPhase_supply b hk ((h.tracks.resolve _).trans hs)) rfl hvf]
  exact tracks_cycleEnd hv

/-- The opcode latch with the byte supplied (R285). -/
theorem Live.opcode {t u : State} {m : MicroStep} {mc : Microcode} {id cid : Id} {rec : Record} {r : Runner} (b : Byte)
    (h : Live t u m) (hk : m.kind = kindXdata) (hh : hasFlag m.opFlags flagHalt = false)
    (hs : u.resolve m.src = .memoryData id) (hd : u.resolve m.dst = .controller cid) (hn : u.ctrl.runner = none)
    (hrec : mc b = some rec) (hexp : expand referenceWiring rec b = some r) :
    (t.cycle mc (some b)).tracks (u.opcodeLatched b r).cycleEnd := by
  rw [h.cycle (by rw [hk]; rfl)]
  have hf : t.fault = none := h.tracks.fault.trans h.fault
  obtain ⟨hv, -⟩ := latchData_opcode (mc := mc) (m := m) (b := b) ((h.tracks.resolve _).trans hd)
    (by rw [h.tracks.ctrl]; exact hn) hrec (by rw [h.tracks.wiring, h.wiring]; exact hexp)
  rw [hh] at hv
  have hv : (((t.placed m).setData b).latchData mc (t.resolve m.dst)).tracks (u.opcodeLatched b r) := by
    refine (tracks_haltIf_false hv).trans ?_
    have := h.tracks
    unfold State.tracks State.agrees at this
    simp [State.tracks, State.agrees, State.opcodeLatched, this]
  have hvf : (((t.placed m).setData b).latchData mc (t.resolve m.dst)).fault = none := by
    rw [hv.fault]; exact h.fault
  rw [phases_xdata hk hf (risingPhase_supply b hk ((h.tracks.resolve _).trans hs)) rfl hvf]
  exact tracks_cycleEnd hv

/-- A data transfer into the ALU (R250, R252). -/
theorem Live.compute {t u : State} {m : MicroStep} {mc : Microcode} {b : Byte} {r lhs : Id} {res : AluResult}
    (h : Live t u m) (hk : m.kind = kindXdata) (hh : hasFlag m.opFlags flagHalt = false)
    (hs : (u.resolve m.src).drivesData = true) (hb : u.sourceByte m.src (hasFlag m.opFlags flagMsb) = some b)
    (hd : u.resolve m.dst = .alu r lhs) (hres : aluResult (aluCode m.opFlags) (u.reg lhs) b u.bus.c = some res) :
    (t.cycle mc none).tracks
      (u.computed r (aluCode m.opFlags) (hasFlag m.opFlags flagFlags) b res).cycleEnd := by
  rw [h.cycle (by rw [hk]; rfl)]
  have hf : t.fault = none := h.tracks.fault.trans h.fault
  have hreg : t.reg lhs = u.reg lhs := by simp [State.reg, h.tracks.regs]
  obtain ⟨hv, -⟩ := latchData_alu (mc := mc) (m := m) (b := b) ((h.tracks.resolve _).trans hd)
    (by rw [hreg, h.tracks.c]; exact hres)
  rw [hh] at hv
  have hv : (((t.placed m).setData b).latchData mc (t.resolve m.dst)).tracks
      (u.computed r (aluCode m.opFlags) (hasFlag m.opFlags flagFlags) b res) := by
    refine (tracks_haltIf_false hv).trans ?_
    have := h.tracks
    unfold State.tracks State.agrees at this
    unfold State.computed
    cases hasFlag m.opFlags flagFlags <;>
      simp [State.tracks, State.agrees, State.setReg, State.setAluOp, State.setBus, this]
  have hvf : (((t.placed m).setData b).latchData mc (t.resolve m.dst)).fault = none := by
    rw [hv.fault]; unfold State.computed; dsimp only; split <;> simp [h.fault]
  rw [phases_xdata hk hf (risingPhase_xdata hk ((sourceByte_congr h.tracks hs).trans hb)) rfl hvf]
  exact tracks_cycleEnd hv

/-- A data transfer into the memory bank at a writable address (R87). -/
theorem Live.store {t u : State} {m : MicroStep} {mc : Microcode} {b : Byte} {id : Id} (h : Live t u m)
    (hk : m.kind = kindXdata) (hh : hasFlag m.opFlags flagHalt = false) (hs : (u.resolve m.src).drivesData = true)
    (hb : u.sourceByte m.src (hasFlag m.opFlags flagMsb) = some b) (hd : u.resolve m.dst = .memoryData id)
    (hw : u.mem.writableAt u.mar = true) :
    (t.cycle mc none).tracks (u.setMem (u.mem.store u.mar b)).cycleEnd := by
  rw [h.cycle (by rw [hk]; rfl)]
  have hf : t.fault = none := h.tracks.fault.trans h.fault
  obtain ⟨hv, -⟩ := latchData_memory (mc := mc) (m := m) (b := b) ((h.tracks.resolve _).trans hd)
    (by rw [h.tracks.mem, h.tracks.mar]; exact hw)
  rw [hh] at hv
  have hv : (((t.placed m).setData b).latchData mc (t.resolve m.dst)).tracks (u.setMem (u.mem.store u.mar b)) := by
    refine (tracks_haltIf_false hv).trans ?_
    have := h.tracks
    unfold State.tracks State.agrees at this
    simp [State.tracks, State.agrees, this]
  have hvf : (((t.placed m).setData b).latchData mc (t.resolve m.dst)).fault = none := by
    rw [hv.fault]; exact h.fault
  rw [phases_xdata hk hf (risingPhase_xdata hk ((sourceByte_congr h.tracks hs).trans hb)) rfl hvf]
  exact tracks_cycleEnd hv

/-- A component that drives both bus bytes as the source of an address transfer (R208, R89, R298). -/
def Role.drivesAddress : Role → Bool
  | .addressRegister _ _ => true
  | .memoryAddress _ => true
  | .controller _ => true
  | _ => false

/-- An address transfer (R206). -/
theorem Live.address {t u : State} {m : MicroStep} {mc : Microcode} {supply : Option Byte} (h : Live t u m)
    (hk : m.kind = kindXaddr) (hh : hasFlag m.opFlags flagHalt = false) (hs : (u.resolve m.src).drivesAddress = true)
    (hr : addressRefusal (u.resolve m.src) (u.resolve m.dst) m.opFlags = none) :
    (t.cycle mc supply).tracks
      ((u.postModifySource m.src m.opFlags).latchWord m.dst (u.sourceWord m.src)).cycleEnd := by
  rw [h.cycle (by rw [hk]; rfl)]
  have hf : t.fault = none := h.tracks.fault.trans h.fault
  have hw : t.sourceWord m.src = u.sourceWord m.src := by
    unfold State.sourceWord
    rw [h.tracks.resolve]
    cases hrole : u.resolve m.src <;>
      simp_all [Role.drivesAddress, State.areg, h.tracks.aregs, h.tracks.mar, h.tracks.ctrl]
  obtain ⟨hv, -⟩ := phases_xaddr (mc := mc) (supply := supply) hk hf (by rw [h.tracks.resolve, h.tracks.resolve]; exact hr)
  refine hv.trans ?_
  rw [hw, hh]
  apply tracks_cycleEnd_congr
  apply tracks_latchWord
  have := h.tracks
  unfold State.tracks State.agrees at this
  unfold State.postModifySource
  rw [h.tracks.resolve]
  cases hrole : u.resolve m.src <;> simp [State.tracks, State.agrees, State.setAreg, State.areg, this]

/-- An I/O-out transfer (R222). -/
theorem Live.output {t u : State} {m : MicroStep} {mc : Microcode} {supply : Option Byte} {r : Id} (h : Live t u m)
    (hk : m.kind = kindIo) (hh : hasFlag m.opFlags flagHalt = false) (ho : hasFlag m.opFlags flagMsb = true)
    (hs : u.resolve m.src = .register r) :
    (t.cycle mc supply).tracks (u.outputByte m.dst (u.reg r)).cycleEnd := by
  rw [h.cycle (by rw [hk]; rfl)]
  have hf : t.fault = none := h.tracks.fault.trans h.fault
  have hreg : t.reg r = u.reg r := by simp [State.reg, h.tracks.regs]
  obtain ⟨hv, -⟩ := phases_ioOut (mc := mc) (supply := supply) hk hf ho
    (.inr ⟨r, (h.tracks.resolve _).trans hs, rfl⟩)
  refine hv.trans ?_
  rw [hh, hreg]
  apply tracks_cycleEnd_congr
  have := h.tracks
  unfold State.tracks State.agrees at this
  simp [State.tracks, State.agrees, State.outputByte, State.outputIf, this]

/-- An I/O-in transfer from a channel with an input callback into a register (R224, R226). -/
theorem Live.input {t u : State} {m : MicroStep} {mc : Microcode} {supply : Option Byte} {r : Id} {ch : Channel}
    (h : Live t u m) (hk : m.kind = kindIo) (hh : hasFlag m.opFlags flagHalt = false)
    (ho : hasFlag m.opFlags flagMsb = false) (hs : u.resolve m.src = .register r)
    (hc : u.wiring.channel m.dst = some ch) (hi : ch.hasInput = true) :
    (t.cycle mc supply).tracks ((u.takeInput m.dst).setReg r (u.nextInput m.dst)).cycleEnd := by
  rw [h.cycle (by rw [hk]; rfl)]
  have hf : t.fault = none := h.tracks.fault.trans h.fault
  obtain ⟨hv, -⟩ := phases_ioIn (mc := mc) (supply := supply) hk hf ho
    (by rw [h.tracks.resolve, hs]; rfl)
  refine hv.trans ?_
  rw [hh]
  apply tracks_cycleEnd_congr
  have htr : (t.inputTaken m.dst).resolve m.src = .register r := by simp [h.tracks.resolve, hs]
  have hb : t.inputByte m.dst = u.nextInput m.dst := by
    simp [State.inputByte, h.tracks.wiring, hc, hi, State.nextInput, h.tracks.inputs, h.tracks.draws]
  have htk : t.inputTaken m.dst = t.takeInput m.dst := by simp [State.inputTaken, h.tracks.wiring, hc, hi]
  unfold State.latchByte
  rw [htr, hb, htk]
  have := h.tracks
  unfold State.tracks State.agrees at this
  simp [State.tracks, State.agrees, State.setReg, State.takeInput, this]

/-- A step without a transfer (R230, R231). -/
theorem Live.other {t u : State} {m : MicroStep} {mc : Microcode} {supply : Option Byte} (h : Live t u m)
    (hk : m.kind = kindOther) :
    (t.cycle mc supply).tracks (u.haltIf (hasFlag m.opFlags flagHalt)).cycleEnd := by
  rw [h.cycle (by rw [hk]; rfl)]
  obtain ⟨hv, -⟩ := phases_other (mc := mc) (supply := supply) hk (h.tracks.fault.trans h.fault)
  refine hv.trans ?_
  apply tracks_cycleEnd_congr
  have := h.tracks
  unfold State.tracks State.agrees at this
  simp [State.tracks, State.agrees, this]

/-! ### Stringing cycles together -/

/-- The cycles of an instruction from `t`, at most `fuel`, end in a state that tracks `U`. -/
def Ends (mc : Microcode) (fuel : Nat) (supplies : List (Option Byte)) (t U : State) : Prop :=
  (State.runInstructionCycles mc fuel supplies t).tracks U

/-- A cycle after which the instruction goes on. -/
theorem ends_next {mc : Microcode} {fuel : Nat} {supplies : List (Option Byte)} {t v U : State}
    (h : (t.cycle mc (supplies.headD none)).tracks v) (hv : v.inFlight = true)
    (k : ∀ t', t'.tracks v → Ends mc fuel supplies.tail t' U) : Ends mc (fuel + 1) supplies t U := by
  unfold Ends
  rw [runInstructionCycles_next (by rw [h.inFlight]; exact hv)]
  exact k _ h

/-- The cycle that ends the instruction. -/
theorem ends_last {mc : Microcode} {fuel : Nat} {supplies : List (Option Byte)} {t v U : State}
    (h : (t.cycle mc (supplies.headD none)).tracks v) (hv : v.inFlight = false) (hU : v.tracks U) :
    Ends mc (fuel + 1) supplies t U := by
  unfold Ends
  rw [runInstructionCycles_last (by rw [h.inFlight]; exact hv)]
  exact h.trans hU

/-- A reference instruction whose cycles end without a fault answers a next state. -/
theorem runRecord_ends {rec : Record} {bytes : List Byte} {s U : State} (h : s.atStart)
    (he : Ends (fun _ => some rec) Config.maxInstructionCycles (fetchSupplies bytes) s U) (hU : U.fault = none) :
    ∃ t, runRecord rec bytes s = .next t ∧ t.tracks U := by
  obtain ⟨hw, ⟨hf, hn⟩, h1, h2⟩ := h
  have hs : s.canStart = true := by simp [State.canStart, hw, Controller.atBoundary, h1, h2]
  refine ⟨_, ?_, he⟩
  rw [runRecord_of_start hf hn hs, outcome_of_none]
  rw [he.fault]
  exact hU

end Sys2Proof.Machine
end

