-- ==== Sys2Proof/Laws/Fetch.lean ====
section
/-! SUPPORT. The fetch of a reference instruction and the prologue of each addressing mode (43_controller.md R283, R287, R289), up
to the first table step: `Ends` of an instruction from its start follows from `Ends` of its table steps. -/

namespace Sys2Proof.Machine

/-- The controller at step `n` of a runner. -/
def State.inStep (s : State) (r : Runner) (n : Nat) : State := s.setCtrl { s.ctrl with step := n, runner := some r }

section fields
variable (s : State) (op : Byte) (len : Nat) (k : Word)

@[simp] theorem afterFetch_wiring : (s.afterFetch op len k).wiring = s.wiring := rfl
@[simp] theorem afterFetch_regs : (s.afterFetch op len k).regs = s.regs := rfl
@[simp] theorem afterFetch_reg (i : Id) : (s.afterFetch op len k).reg i = s.reg i := rfl
@[simp] theorem afterFetch_aluOperation : (s.afterFetch op len k).aluOperation = s.aluOperation := rfl
@[simp] theorem afterFetch_mar : (s.afterFetch op len k).mar = s.areg idPc + BitVec.ofNat 16 (len - 1) := rfl
@[simp] theorem afterFetch_mem : (s.afterFetch op len k).mem = s.mem := rfl
@[simp] theorem afterFetch_ctrl : (s.afterFetch op len k).ctrl = { s.ctrl with ir := op, constant := k } := rfl
@[simp] theorem afterFetch_clock : (s.afterFetch op len k).clock = s.clock := rfl
@[simp] theorem afterFetch_cycles : (s.afterFetch op len k).cycles = s.cycles + 2 * len := rfl
@[simp] theorem afterFetch_fault : (s.afterFetch op len k).fault = s.fault := rfl
@[simp] theorem afterFetch_errorSlots : (s.afterFetch op len k).errorSlots = s.errorSlots := rfl
@[simp] theorem afterFetch_outputs : (s.afterFetch op len k).outputs = s.outputs := rfl
@[simp] theorem afterFetch_resetHookCalls : (s.afterFetch op len k).resetHookCalls = s.resetHookCalls := rfl
@[simp] theorem afterFetch_hasRun : (s.afterFetch op len k).hasRun = s.hasRun := rfl
@[simp] theorem afterFetch_inputs : (s.afterFetch op len k).inputs = s.inputs := rfl
@[simp] theorem afterFetch_draws : (s.afterFetch op len k).draws = s.draws := rfl
@[simp] theorem afterFetch_requests : (s.afterFetch op len k).requests = s.requests := rfl
@[simp] theorem afterFetch_channelErrorSlots : (s.afterFetch op len k).channelErrorSlots = s.channelErrorSlots := rfl
@[simp] theorem afterFetch_resolve (i : Id) : (s.afterFetch op len k).resolve i = s.resolve i := rfl
@[simp] theorem afterFetch_bus : (s.afterFetch op len k).bus =
    { s.bus with z := s.bus.z || s.fetchWraps len, c := s.bus.c || s.fetchWraps len } := rfl
@[simp] theorem afterFetch_aregs : (s.afterFetch op len k).aregs =
    s.aregs.set 8 (s.areg idPc + BitVec.ofNat 16 len) := rfl
@[simp] theorem afterFetch_areg_pc : (s.afterFetch op len k).areg idPc = s.areg idPc + BitVec.ofNat 16 len := by
  simp [State.afterFetch]
@[simp] theorem afterFetch_areg_other (i : Id) (h : i ≠ idPc) : (s.afterFetch op len k).areg i = s.areg i := by
  have : idPc ≠ i := fun h' => h h'.symm
  simp [State.afterFetch, this]
@[simp] theorem afterFetch_nextInput (i : Id) : (s.afterFetch op len k).nextInput i = s.nextInput i := rfl

variable (r : Runner) (n : Nat)

@[simp] theorem inStep_wiring : (s.inStep r n).wiring = s.wiring := rfl
@[simp] theorem inStep_bus : (s.inStep r n).bus = s.bus := rfl
@[simp] theorem inStep_regs : (s.inStep r n).regs = s.regs := rfl
@[simp] theorem inStep_reg (i : Id) : (s.inStep r n).reg i = s.reg i := rfl
@[simp] theorem inStep_aregs : (s.inStep r n).aregs = s.aregs := rfl
@[simp] theorem inStep_areg (i : Id) : (s.inStep r n).areg i = s.areg i := rfl
@[simp] theorem inStep_aluOperation : (s.inStep r n).aluOperation = s.aluOperation := rfl
@[simp] theorem inStep_mar : (s.inStep r n).mar = s.mar := rfl
@[simp] theorem inStep_mem : (s.inStep r n).mem = s.mem := rfl
@[simp] theorem inStep_ctrl : (s.inStep r n).ctrl = { s.ctrl with step := n, runner := some r } := rfl
@[simp] theorem inStep_clock : (s.inStep r n).clock = s.clock := rfl
@[simp] theorem inStep_cycles : (s.inStep r n).cycles = s.cycles := rfl
@[simp] theorem inStep_fault : (s.inStep r n).fault = s.fault := rfl
@[simp] theorem inStep_errorSlots : (s.inStep r n).errorSlots = s.errorSlots := rfl
@[simp] theorem inStep_outputs : (s.inStep r n).outputs = s.outputs := rfl
@[simp] theorem inStep_resetHookCalls : (s.inStep r n).resetHookCalls = s.resetHookCalls := rfl
@[simp] theorem inStep_hasRun : (s.inStep r n).hasRun = s.hasRun := rfl
@[simp] theorem inStep_inputs : (s.inStep r n).inputs = s.inputs := rfl
@[simp] theorem inStep_draws : (s.inStep r n).draws = s.draws := rfl
@[simp] theorem inStep_requests : (s.inStep r n).requests = s.requests := rfl
@[simp] theorem inStep_channelErrorSlots : (s.inStep r n).channelErrorSlots = s.channelErrorSlots := rfl
@[simp] theorem inStep_resolve (i : Id) : (s.inStep r n).resolve i = s.resolve i := rfl
@[simp] theorem inStep_nextInput (i : Id) : (s.inStep r n).nextInput i = s.nextInput i := rfl

end fields

/-- An increment that reaches 0x0000 is one that passes 0xFFFF. -/
theorem wraps_succ (s : State) (n : Nat) (hn : n < 0xFFFF) :
    (s.fetchWraps n || (s.areg idPc + BitVec.ofNat 16 n + 1 == 0x0000#16)) = s.fetchWraps (n + 1) := by
  unfold State.fetchWraps
  have hp : (s.areg idPc).toNat < 65536 := (s.areg idPc).isLt
  rw [Bool.eq_iff_iff]
  simp only [Bool.or_eq_true, decide_eq_true_eq, beq_iff_eq, ← BitVec.toNat_inj, BitVec.toNat_add, BitVec.toNat_ofNat]
  have h1 : (1 : Word).toNat = 1 := rfl
  rw [h1]
  omega

/-- `s` with `len` bytes at the pc fetched, the controller `c`, and `n` cycles completed (R283, R289, R211). -/
def State.fetching (s : State) (c : Controller) (len n : Nat) : State :=
  { s with
    bus := { s.bus with z := s.bus.z || s.fetchWraps len, c := s.bus.c || s.fetchWraps len }
    aregs := s.aregs.set 8 (s.areg idPc + BitVec.ofNat 16 len)
    mar := s.areg idPc + BitVec.ofNat 16 (len - 1)
    ctrl := c
    cycles := n }

/-- The flags a condition is tested against after `len` bytes are fetched (R292, R293). -/
def State.fetchedFlags (s : State) (len : Nat) : Byte :=
  flagsByte (s.bus.z || s.fetchWraps len) (s.bus.c || s.fetchWraps len) s.bus.v

theorem fetching_areg_pc (s : State) (c : Controller) (len n : Nat) :
    (s.fetching c len n).areg idPc = s.areg idPc + BitVec.ofNat 16 len := by
  simp [State.fetching, State.areg, idPc]

/-- The first fetch cycle (R283). -/
theorem Live.fetchFirst {t s : State} {mc : Microcode} {supply : Option Byte}
    (h : Live t s (addressStep referenceWiring)) :
    (t.cycle mc supply).tracks (s.fetching (s.ctrl.advance (s.fetchedFlags 1)) 1 (s.cycles + 1)) := by
  have hw : s.wiring = referenceWiring := h.wiring
  refine (h.address rfl rfl ?_ ?_).trans ?_
  · simp [addressStep, State.resolve, hw, Role.drivesAddress]
  · simp [addressStep, State.resolve, hw, addressRefusal, Role.isMemoryData, Role.isAlu, Role.isController, hasFlag,
      flagInc, flagDec]
  · have h1 : hasFlag flagInc flagInc = true := by decide
    have h2 : hasFlag flagInc flagDec = false := by decide
    have h3 : (s.aregs[8] + 1#16 == 0x0000#16) = s.fetchWraps 1 := by
      have := wraps_succ s 0 (by norm_num)
      have h0 : s.fetchWraps 0 = false := by
        have : (s.areg idPc).toNat < 0x10000 := (s.areg idPc).isLt
        simp only [State.fetchWraps, decide_eq_false_iff_not]
        omega
      rw [h0, Bool.false_or, BitVec.add_zero] at this
      exact this
    simp [State.tracks, State.agrees, addressStep, State.resolve, hw, State.postModifySource, State.latchWord,
      State.sourceWord, postModify, h1, h2, h3, State.fetching, State.fetchedFlags, Bus.flagsByte, State.setAreg,
      State.areg, idPc]

/-- The opcode latch (R285, R286). -/
theorem Live.fetchOpcode {t s : State} {c : Controller} {len n : Nat} {mc : Microcode} {rec : Record} {r : Runner}
    (op : Byte) (h : Live t (s.fetching c len n) (byteStep referenceWiring)) (hn : c.runner = none)
    (hrec : mc op = some rec) (hexp : expand referenceWiring rec op = some r) :
    (t.cycle mc (some op)).tracks (s.fetching
      (Controller.advance { c with ir := op, runner := some r, constant := 0x0000#16 } (s.fetchedFlags len)) len
      (n + 1)) := by
  have hw : s.wiring = referenceWiring := h.wiring
  refine (h.opcode (id := 0xE#4) (cid := 0x7#4) op rfl rfl ?_ ?_ hn hrec hexp).trans ?_
  · simp [byteStep, State.resolve, State.fetching, hw]
  · simp [byteStep, State.resolve, State.fetching, hw]
  · simp [State.tracks, State.agrees, State.opcodeLatched, State.fetching, hw, State.fetchedFlags, Bus.flagsByte]

/-- The address cycle of an operand byte (R287). -/
theorem Live.fetchNext {t s : State} {c : Controller} {len n : Nat} {mc : Microcode} {supply : Option Byte}
    (hl' : len < 0xFFFF) (h : Live t (s.fetching c len n) (addressStep referenceWiring)) :
    (t.cycle mc supply).tracks (s.fetching (c.advance (s.fetchedFlags (len + 1))) (len + 1) (n + 1)) := by
  have hw : s.wiring = referenceWiring := h.wiring
  refine (h.address rfl rfl ?_ ?_).trans ?_
  · simp [addressStep, State.resolve, State.fetching, hw, Role.drivesAddress]
  · simp [addressStep, State.resolve, State.fetching, hw, addressRefusal, Role.isMemoryData, Role.isAlu,
      Role.isController, hasFlag, flagInc, flagDec]
  · have h1 : hasFlag flagInc flagInc = true := by decide
    have h2 : hasFlag flagInc flagDec = false := by decide
    have h3 := wraps_succ s len hl'
    have h4 : s.areg 0x8#4 + BitVec.ofNat 16 len + 1 = s.areg 0x8#4 + BitVec.ofNat 16 (len + 1) := by
      rw [BitVec.add_assoc]; congr 1; simp [BitVec.ofNat_add]
    have hpc : (s.fetching c len n).areg 0x8#4 = s.areg 0x8#4 + BitVec.ofNat 16 len := fetching_areg_pc s c len n
    have hz : ∀ x : Bool, ((x || s.fetchWraps len) || (s.areg 0x8#4 + BitVec.ofNat 16 (len + 1) == 0x0000#16)) =
        (x || s.fetchWraps (len + 1)) := by
      intro x; rw [Bool.or_assoc, ← h3, ← h4]; rfl
    have e1 : (s.fetching c len n).wiring = referenceWiring := hw
    simp only [addressStep, State.resolve, e1, reference_pcId, reference_memAddrId, reference_PC, 
      State.postModifySource, State.latchWord, State.sourceWord, postModify, h1, h2, hpc, h4, raiseFlags_eq, cycleEnd_eq]
    simp [State.tracks, State.agrees, State.setAreg, State.fetching, hw, State.fetchedFlags,
      Bus.flagsByte, idPc, hz]

/-- The data cycle of an operand byte (R287, R296). -/
theorem Live.fetchOperand {t s : State} {c : Controller} {len n : Nat} {mc : Microcode} (b : Byte) (m : MicroStep)
    (hm : m = byteStep referenceWiring ∨ m = highByteStep referenceWiring) (h : Live t (s.fetching c len n) m)
    (hr : c.runner.isSome = true) :
    (t.cycle mc (some b)).tracks (s.fetching
      (Controller.advance { c with constant := setHalf (hasFlag m.opFlags flagMsb) c.constant b } (s.fetchedFlags len))
      len (n + 1)) := by
  have hw : s.wiring = referenceWiring := h.wiring
  refine (h.moveSupplied (id := 0xE#4) b ?_ ?_ ?_ ?_).trans ?_
  · rcases hm with rfl | rfl <;> rfl
  · rcases hm with rfl | rfl <;> rfl
  · rcases hm with rfl | rfl <;> simp [byteStep, highByteStep, State.resolve, State.fetching, hw]
  · rcases hm with rfl | rfl <;>
      simp [byteStep, highByteStep, State.latchesPlainly, State.resolve, State.fetching, hw, hr]
  · rcases hm with rfl | rfl <;>
      simp [byteStep, highByteStep, State.tracks, State.agrees, State.latchByte, State.resolve, State.fetching, hw,
        State.fetchedFlags, Bus.flagsByte]

/-- The dereference of the indirect modes (R287). -/
theorem Live.fetchDeref {t s : State} {c : Controller} {len n : Nat} {mc : Microcode} {supply : Option Byte}
    (h : Live t (s.fetching c len n) (derefStep referenceWiring)) :
    (t.cycle mc supply).tracks
      ((s.fetching (c.advance (s.fetchedFlags len)) len (n + 1)).setMar c.constant) := by
  have hw : s.wiring = referenceWiring := h.wiring
  refine (h.address rfl rfl ?_ ?_).trans ?_
  · simp [derefStep, State.resolve, State.fetching, hw, Role.drivesAddress]
  · simp [derefStep, State.resolve, State.fetching, hw, addressRefusal, Role.postModifies, Role.isMemoryData, Role.isAlu,
      Role.isController]
  · simp [derefStep, State.tracks, State.agrees, State.postModifySource, State.latchWord, State.sourceWord, State.resolve,
      State.fetching, hw, State.fetchedFlags, Bus.flagsByte]

/-! ### Whole prologues (R289) -/

/-- The runner of a record of a mode: prologue, then the table steps (R287). -/
structure Runner.Of (r : Runner) (mode : Mode) (table : List MicroStep) : Prop where
  steps : r.steps = prologue referenceWiring mode ++ table
  tableStart : r.tableStart = (prologue referenceWiring mode).length
  complete : r.complete = false

/-- The runner that `expand` builds of a record whose mode and operator are these (R287). -/
def runnerOf (rec : Record) (mode : Mode) (op : CondOp) : Runner :=
  { opcode := rec.opcode, mnemonic := rec.mnemonic, mode := mode, target := rec.target,
    condition := rec.condition, conditionOp := op, steps := prologue referenceWiring mode ++ rec.steps,
    tableStart := (prologue referenceWiring mode).length, complete := false }

theorem runnerOf_of (rec : Record) (mode : Mode) (op : CondOp) : (runnerOf rec mode op).Of mode rec.steps :=
  ⟨rfl, rfl, rfl⟩

/-- A well-formed record expands to that runner (R130, R287). -/
theorem expand_eq {rec : Record} {mode : Mode} {op : CondOp} (hm : modeOfCode rec.mode = some mode)
    (ho : condOpOfCode rec.conditionOp = some op) (hl : rec.steps.length ≤ 24) :
    expand referenceWiring rec rec.opcode = some (runnerOf rec mode op) := by
  simp [expand, hm, ho, Config.maxTableSteps, hl, runnerOf]

/-- A live machine at the start of an instruction. -/
theorem State.atStart.live {s : State} (h : s.atStart) : Live s s (addressStep referenceWiring) := by
  obtain ⟨hw, ⟨hf, hn⟩, h1, h2⟩ := h
  exact ⟨s.tracks_refl, hf, hn, hw, by simp [Controller.current, h1, h2]⟩

/-- The controller after the fetch, in the terms of Safety.lean. -/
theorem fetching_inStep {s : State} (op : Byte) (len : Nat) (k : Word) (r : Runner) (n : Nat) :
    s.fetching { s.ctrl with ir := op, constant := k, runner := some r, step := n } len (s.cycles + 2 * len) =
      (s.afterFetch op len k).inStep r n := rfl

theorem fetching_done {s : State} (h : s.atStart) (op : Byte) (len : Nat) (k : Word) :
    s.fetching { s.ctrl with ir := op, constant := k, runner := none, step := 0 } len (s.cycles + 2 * len) =
      s.afterFetch op len k := by
  obtain ⟨-, -, h1, h2⟩ := h
  rw [← h1, ← h2]
  rfl

/-- A falling edge in an instruction that goes on (R294). -/
theorem advance_next {c : Controller} {r : Runner} {fl : Byte} (hr : c.runner = some r)
    (hd : r.doneAt (c.step + 1 - 2) fl = false) : c.advance fl = { c with step := c.step + 1 } := by
  simp only [Controller.advance, Controller.completes, hr, hd]
  rfl

/-- The falling edge that ends an instruction (R294). -/
theorem advance_done {c : Controller} {r : Runner} {fl : Byte} (hr : c.runner = some r)
    (hd : r.doneAt (c.step + 1 - 2) fl = true) : c.advance fl = { c with step := 0, runner := none } := by
  simp only [Controller.advance, Controller.completes, hr, hd]
  rfl

/-- Inside the prologue no instruction ends (R294). -/
theorem Runner.Of.doneAt_prologue {r : Runner} {mode : Mode} {table : List MicroStep} (h : r.Of mode table) {i : Nat}
    (hi : i < (prologue referenceWiring mode).length) (fl : Byte) : r.doneAt i fl = false := by
  have hl : ¬ r.steps.length ≤ i := by rw [h.steps]; simp; omega
  have hn : ¬ i = r.tableStart := by rw [h.tableStart]; omega
  simp [Runner.doneAt, h.complete, hn, hl]

/-- The micro-steps of the prologue (R287). -/
theorem Runner.Of.current {r : Runner} {mode : Mode} {table : List MicroStep} (h : r.Of mode table) {c : Controller}
    (hr : c.runner = some r) {i : Nat} (hs : c.step = i + 2) {m : MicroStep}
    (hm : (prologue referenceWiring mode ++ table)[i]? = some m) : c.current referenceWiring = some m := by
  rw [← h.steps] at hm
  simp [Controller.current, hr, hs, hm]

/-- What both fetch cycles leave (R283, R285). -/
theorem ends_fetch {s U : State} {rec : Record} {op : Byte} {bytes : List Byte} {r : Runner} (h : s.atStart)
    (hexp : expand referenceWiring rec op = some r) (hd : r.doneAt 0 (s.fetchedFlags 1) = false)
    (k : ∀ t : State, t.tracks (s.fetching
      { s.ctrl with ir := op, constant := 0x0000#16, runner := some r, step := 2 } 1 (s.cycles + 2)) →
      Ends (fun _ => some rec) 29 (fetchSupplies bytes) t U) :
    Ends (fun _ => some rec) Config.maxInstructionCycles (fetchSupplies (op :: bytes)) s U := by
  have hl := h.live
  obtain ⟨hw, ⟨hf, hn⟩, h1, h2⟩ := h
  have f1 := hl.fetchFirst (mc := fun _ => some rec) (supply := none)
  refine ends_next f1 ?_ fun t ht => ?_
  · simp [State.inFlight, State.fetching, hf, Controller.advance, Controller.completes, h2]
  · have f2 := Live.fetchOpcode (mc := fun _ => some rec) (rec := rec) op
      ⟨ht, hf, hn, hw, by simp [State.fetching, Controller.current, Controller.advance, Controller.completes, h1, h2]⟩
      (by simp [Controller.advance, Controller.completes, h2]) rfl hexp
    rw [advance_next (r := r) rfl (by simpa [Controller.advance, Controller.completes, h1, h2] using hd)] at f2
    refine ends_next f2 (by simp [State.inFlight, State.fetching, hf]) fun t' ht' => k t' ?_
    simpa [Controller.advance, Controller.completes, h1, h2] using ht'

/-- The fetch of an Implied record whose table steps run (R289). -/
theorem ends_implied {s U : State} {rec : Record} {op : Byte} {r : Runner} (h : s.atStart)
    (hexp : expand referenceWiring rec op = some r) (hd : r.doneAt 0 (s.fetchedFlags 1) = false)
    (k : ∀ t : State, t.tracks ((s.afterFetch op 1 0x0000#16).inStep r 2) → Ends (fun _ => some rec) 29 [] t U) :
    Ends (fun _ => some rec) Config.maxInstructionCycles (fetchSupplies [op]) s U :=
  ends_fetch h hexp hd k

/-- The fetch of an Implied record that ends with it: no table step, or the condition not met (R294). -/
theorem ends_implied_done {s : State} {rec : Record} {op : Byte} {r : Runner} (h : s.atStart)
    (hexp : expand referenceWiring rec op = some r) (hd : r.doneAt 0 (s.fetchedFlags 1) = true) :
    Ends (fun _ => some rec) Config.maxInstructionCycles (fetchSupplies [op]) s (s.afterFetch op 1 0x0000#16) := by
  have hl := h.live
  have hfd := fetching_done h op 1 0x0000#16
  obtain ⟨hw, ⟨hf, hn⟩, h1, h2⟩ := h
  have f1 := hl.fetchFirst (mc := fun _ => some rec) (supply := none)
  refine ends_next f1 ?_ fun t ht => ?_
  · simp [State.inFlight, State.fetching, hf, Controller.advance, Controller.completes, h2]
  · have f2 := Live.fetchOpcode (mc := fun _ => some rec) (rec := rec) op
      ⟨ht, hf, hn, hw, by simp [State.fetching, Controller.current, Controller.advance, Controller.completes, h1, h2]⟩
      (by simp [Controller.advance, Controller.completes, h2]) rfl hexp
    rw [advance_done (r := r) rfl (by simpa [Controller.advance, Controller.completes, h1, h2] using hd)] at f2
    refine ends_last f2 (by simp [State.inFlight, State.fetching]) ?_
    rw [← hfd]
    simpa [Controller.advance, Controller.completes, h1, h2] using State.tracks_refl _

/-- The two cycles of an operand byte in a prologue that goes on (R287). -/
theorem ends_operand {s U : State} {mc : Microcode} {fuel : Nat} {supplies : List (Option Byte)} {c : Controller}
    {len n i : Nat} {b : Byte} {r : Runner} {m : MicroStep} (hs : s.wiring = referenceWiring ∧ s.ready)
    (hr : c.runner = some r) (hi : c.step = i + 2) (hl : len < 0xFFFF)
    (hm : m = byteStep referenceWiring ∨ m = highByteStep referenceWiring)
    (m0 : r.steps[i]? = some (addressStep referenceWiring)) (m1 : r.steps[i + 1]? = some m)
    (d1 : r.doneAt (i + 1) (s.fetchedFlags (len + 1)) = false)
    (d2 : r.doneAt (i + 2) (s.fetchedFlags (len + 1)) = false)
    (k : ∀ t : State, t.tracks (s.fetching
      { c with constant := setHalf (hasFlag m.opFlags flagMsb) c.constant b, step := i + 4 } (len + 1) (n + 2)) →
      Ends mc fuel supplies t U) :
    ∀ t : State, t.tracks (s.fetching c len n) → Ends mc (fuel + 2) (none :: some b :: supplies) t U := by
  obtain ⟨hw, hf, hn⟩ := hs
  intro t ht
  have f1 := Live.fetchNext (mc := mc) (supply := none) hl
    ⟨ht, hf, hn, hw, by simp [State.fetching, Controller.current, hr, hi, m0]⟩
  rw [advance_next hr (by rw [hi]; exact d1), hi] at f1
  refine ends_next f1 (by simp [State.inFlight, State.fetching, hf]) fun t' ht' => ?_
  have f2 := Live.fetchOperand (mc := mc) b m hm
    ⟨ht', hf, hn, hw, by simp [State.fetching, Controller.current, hr, m1]⟩ (by simp [hr])
  rw [advance_next (r := r) (by exact hr) (by exact d2)] at f2
  exact ends_next f2 (by simp [State.inFlight, State.fetching, hf]) fun t'' ht'' => k t'' ht''

/-- The two cycles of the last operand byte where the condition is not met (R293, R294). -/
theorem ends_operand_done {s U : State} {mc : Microcode} {fuel : Nat} {supplies : List (Option Byte)} {c : Controller}
    {len n i : Nat} {b : Byte} {r : Runner} {m : MicroStep} (hs : s.wiring = referenceWiring ∧ s.ready)
    (hr : c.runner = some r) (hi : c.step = i + 2) (hl : len < 0xFFFF)
    (hm : m = byteStep referenceWiring ∨ m = highByteStep referenceWiring)
    (m0 : r.steps[i]? = some (addressStep referenceWiring)) (m1 : r.steps[i + 1]? = some m)
    (d1 : r.doneAt (i + 1) (s.fetchedFlags (len + 1)) = false)
    (d2 : r.doneAt (i + 2) (s.fetchedFlags (len + 1)) = true)
    (hU : (s.fetching { c with constant := setHalf (hasFlag m.opFlags flagMsb) c.constant b, step := 0, runner := none }
      (len + 1) (n + 2)).tracks U) :
    ∀ t : State, t.tracks (s.fetching c len n) → Ends mc (fuel + 2) (none :: some b :: supplies) t U := by
  obtain ⟨hw, hf, hn⟩ := hs
  intro t ht
  have f1 := Live.fetchNext (mc := mc) (supply := none) hl
    ⟨ht, hf, hn, hw, by simp [State.fetching, Controller.current, hr, hi, m0]⟩
  rw [advance_next hr (by rw [hi]; exact d1), hi] at f1
  refine ends_next f1 (by simp [State.inFlight, State.fetching, hf]) fun t' ht' => ?_
  have f2 := Live.fetchOperand (mc := mc) b m hm
    ⟨ht', hf, hn, hw, by simp [State.fetching, Controller.current, hr, m1]⟩ (by simp [hr])
  rw [advance_done (r := r) (by exact hr) (by exact d2)] at f2
  exact ends_last f2 (by simp [State.inFlight, State.fetching]) hU

/-- The constant of an ImmediateByte operand (R133). -/
theorem setHalf_low_zero (b : Byte) : setHalf false 0x0000#16 b = zextWord b := rfl

/-- The constant of a two-byte operand, low byte first (R133). -/
theorem setHalf_operand (k : Word) : setHalf true (setHalf false 0x0000#16 (lowByte k)) (highByte k) = k := by
  simp [setHalf]

/-- The prologue of an ImmediateByte record whose table steps run (R289). -/
theorem ends_immediateByte {s U : State} {rec : Record} {op b : Byte} {r : Runner} {table : List MicroStep}
    (h : s.atStart) (hexp : expand referenceWiring rec op = some r) (hr : r.Of .immediateByte table)
    (hd : r.doneAt 2 (s.fetchedFlags 2) = false)
    (k : ∀ t : State, t.tracks ((s.afterFetch op 2 (zextWord b)).inStep r 4) → Ends (fun _ => some rec) 27 [] t U) :
    Ends (fun _ => some rec) Config.maxInstructionCycles (fetchSupplies [op, b]) s U := by
  have hp : (prologue referenceWiring .immediateByte).length = 2 := rfl
  refine ends_fetch h hexp (hr.doneAt_prologue (by rw [hp]; norm_num) _) ?_
  refine ends_operand (i := 0) (m := byteStep referenceWiring) ⟨h.1, h.2.1⟩ rfl rfl (by norm_num) (.inl rfl)
    (by rw [hr.steps]; rfl) (by rw [hr.steps]; rfl) (hr.doneAt_prologue (by rw [hp]; norm_num) _) hd fun t ht => k t ?_
  have : setHalf (hasFlag (byteStep referenceWiring).opFlags flagMsb) 0x0000#16 b = zextWord b := setHalf_low_zero b
  rw [this] at ht
  exact ht

/-- The four cycles of a two-byte operand in a prologue (R289). -/
theorem ends_operandWord {s U : State} {rec : Record} {op : Byte} {k : Word} {r : Runner} {mode : Mode}
    {table : List MicroStep} (h : s.atStart) (hexp : expand referenceWiring rec op = some r) (hr : r.Of mode table)
    (hm : mode = .immediateWord ∨ mode = .indirectByte ∨ mode = .indirectWord)
    (hd : r.doneAt 4 (s.fetchedFlags 3) = false)
    (hk : ∀ t : State, t.tracks (s.fetching
      { s.ctrl with ir := op, constant := k, runner := some r, step := 6 } 3 (s.cycles + 6)) →
      Ends (fun _ => some rec) 25 [] t U) :
    Ends (fun _ => some rec) Config.maxInstructionCycles (fetchSupplies [op, lowByte k, highByte k]) s U := by
  have hp : 4 ≤ (prologue referenceWiring mode).length := by
    rcases hm with rfl | rfl | rfl <;> decide
  refine ends_fetch h hexp (hr.doneAt_prologue (by omega) _) ?_
  refine ends_operand (i := 0) (m := byteStep referenceWiring) ⟨h.1, h.2.1⟩ rfl rfl (by norm_num) (.inl rfl)
    (by rw [hr.steps]; rcases hm with rfl | rfl | rfl <;> rfl)
    (by rw [hr.steps]; rcases hm with rfl | rfl | rfl <;> rfl)
    (hr.doneAt_prologue (by omega) _) (hr.doneAt_prologue (by omega) _) ?_
  refine ends_operand (i := 2) (m := highByteStep referenceWiring) ⟨h.1, h.2.1⟩ rfl rfl (by norm_num) (.inr rfl)
    (by rw [hr.steps]; rcases hm with rfl | rfl | rfl <;> rfl)
    (by rw [hr.steps]; rcases hm with rfl | rfl | rfl <;> rfl)
    (hr.doneAt_prologue (by omega) _) hd fun t ht => hk t ?_
  have : setHalf (hasFlag (highByteStep referenceWiring).opFlags flagMsb)
      (setHalf (hasFlag (byteStep referenceWiring).opFlags flagMsb) 0x0000#16 (lowByte k)) (highByte k) = k :=
    setHalf_operand k
  rw [this] at ht
  exact ht

/-- The prologue of an ImmediateWord record whose table steps run (R289). -/
theorem ends_immediateWord {s U : State} {rec : Record} {op : Byte} {k : Word} {r : Runner} {table : List MicroStep}
    (h : s.atStart) (hexp : expand referenceWiring rec op = some r) (hr : r.Of .immediateWord table)
    (hd : r.doneAt 4 (s.fetchedFlags 3) = false)
    (hk : ∀ t : State, t.tracks ((s.afterFetch op 3 k).inStep r 6) → Ends (fun _ => some rec) 25 [] t U) :
    Ends (fun _ => some rec) Config.maxInstructionCycles (fetchSupplies [op, lowByte k, highByte k]) s U :=
  ends_operandWord h hexp hr (.inl rfl) hd hk

/-- The prologue of an ImmediateWord record whose condition is not met: the instruction ends with it (R293). -/
theorem ends_immediateWord_done {s : State} {rec : Record} {op : Byte} {k : Word} {r : Runner}
    {table : List MicroStep} (h : s.atStart) (hexp : expand referenceWiring rec op = some r)
    (hr : r.Of .immediateWord table) (hd : r.doneAt 4 (s.fetchedFlags 3) = true) :
    Ends (fun _ => some rec) Config.maxInstructionCycles (fetchSupplies [op, lowByte k, highByte k]) s
      (s.afterFetch op 3 k) := by
  have hp : (prologue referenceWiring .immediateWord).length = 4 := rfl
  refine ends_fetch h hexp (hr.doneAt_prologue (by omega) _) ?_
  refine ends_operand (i := 0) (m := byteStep referenceWiring) ⟨h.1, h.2.1⟩ rfl rfl (by norm_num) (.inl rfl)
    (by rw [hr.steps]; rfl) (by rw [hr.steps]; rfl) (hr.doneAt_prologue (by omega) _)
    (hr.doneAt_prologue (by omega) _) ?_
  refine ends_operand_done (i := 2) (m := highByteStep referenceWiring) ⟨h.1, h.2.1⟩ rfl rfl (by norm_num) (.inr rfl)
    (by rw [hr.steps]; rfl) (by rw [hr.steps]; rfl) (hr.doneAt_prologue (by omega) _) hd ?_
  have : setHalf (hasFlag (highByteStep referenceWiring).opFlags flagMsb)
      (setHalf (hasFlag (byteStep referenceWiring).opFlags flagMsb) 0x0000#16 (lowByte k)) (highByte k) = k :=
    setHalf_operand k
  rw [← fetching_done h]
  simp only [this]
  exact State.tracks_refl _

/-- The prologue of an indirect record whose table steps run (R289): MAR is the operand address. -/
theorem ends_indirect {s U : State} {rec : Record} {op : Byte} {k : Word} {r : Runner} {mode : Mode}
    {table : List MicroStep} (h : s.atStart) (hexp : expand referenceWiring rec op = some r) (hr : r.Of mode table)
    (hm : mode = .indirectByte ∨ mode = .indirectWord) (hd : r.doneAt 5 (s.fetchedFlags 3) = false)
    (hk : ∀ t : State, t.tracks ((((s.afterFetch op 3 k).inStep r 7).setMar k).afterCycles 1) →
      Ends (fun _ => some rec) 24 [] t U) :
    Ends (fun _ => some rec) Config.maxInstructionCycles (fetchSupplies [op, lowByte k, highByte k]) s U := by
  have hp : (prologue referenceWiring mode).length = 5 := by rcases hm with rfl | rfl <;> rfl
  refine ends_operandWord h hexp hr (.inr hm) (hr.doneAt_prologue (by omega) _) fun t ht => ?_
  obtain ⟨hw, ⟨hf, hn⟩, h1, h2⟩ := h
  have f := Live.fetchDeref (mc := fun _ => some rec) (supply := none)
    ⟨ht, hf, hn, hw, hr.current (i := 4) rfl rfl (by rcases hm with rfl | rfl <;> rfl)⟩
  rw [advance_next (r := r) (by rfl) (by exact hd)] at f
  refine ends_next f (by simp [State.inFlight, State.fetching, hf]) fun t' ht' => hk t' ?_
  exact ht'

/-! ### Table steps -/

/-- A cycle after which the instruction goes on: the controller is at the next step (R294). -/
theorem ends_go {mc : Microcode} {fuel : Nat} {supplies : List (Option Byte)} {t V U : State} {r : Runner}
    (hc : (t.cycle mc (supplies.headD none)).tracks V.cycleEnd) (hw : V.wiring = referenceWiring)
    (hf : V.fault = none) (hr : V.ctrl.runner = some r)
    (hd : r.doneAt (V.ctrl.step + 1 - 2) V.bus.flagsByte = false)
    (k : ∀ t' : State, t'.tracks ((V.inStep r (V.ctrl.step + 1)).afterCycles 1) → Ends mc fuel supplies.tail t' U) :
    Ends mc (fuel + 1) supplies t U := by
  have he : V.cycleEnd = (V.inStep r (V.ctrl.step + 1)).afterCycles 1 := by
    rw [cycleEnd_eq, hw, reference_hasController, if_pos rfl, advance_next hr hd, hr]
    rw [State.inStep]
  rw [he] at hc
  exact ends_next hc (by simp [State.inFlight, hf]) k

/-- The cycle that ends the instruction: the controller is at fetch step 0 with no runner (R294, R295). -/
theorem ends_stop {mc : Microcode} {fuel : Nat} {supplies : List (Option Byte)} {t V U : State} {r : Runner}
    (hc : (t.cycle mc (supplies.headD none)).tracks V.cycleEnd) (hw : V.wiring = referenceWiring)
    (hr : V.ctrl.runner = some r) (hd : r.doneAt (V.ctrl.step + 1 - 2) V.bus.flagsByte = true)
    (hU : ((V.setCtrl { V.ctrl with step := 0, runner := none }).afterCycles 1).tracks U) :
    Ends mc (fuel + 1) supplies t U := by
  have he : V.cycleEnd = (V.setCtrl { V.ctrl with step := 0, runner := none }).afterCycles 1 := by
    rw [cycleEnd_eq, hw, reference_hasController, if_pos rfl, advance_done hr hd]
  rw [he] at hc
  exact ends_last hc (by simp [State.inFlight]) hU

end Sys2Proof.Machine
end

