-- ==== Sys2Proof/Laws/Frames.lean ====
section
/-! SUPPORT. What a cycle leaves unchanged, whatever its control word, and what memory can look like after it: for claims about
every step of the machine. -/

namespace Sys2Proof.Machine

/-- The fields no cycle of any machine writes (R9, R37, R43, R54, R299, R442, R445): wiring, clock, run mode, the host's
lines, the controller's inert bytes, the reset-hook log, `hasRun`, the host's requests and the channels' error slots; and a
cycle only adds to the trace and the outputs. -/
structure CycleKeeps (s t : State) : Prop where
  wiring : t.wiring = s.wiring
  clock : t.clock = s.clock
  runMode : t.bus.runMode = s.bus.runMode
  suspend : t.bus.suspend = s.bus.suspend
  nmi : t.bus.nmi = s.bus.nmi
  resetLine : t.bus.resetLine = s.bus.resetLine
  scratch : t.ctrl.scratch = s.ctrl.scratch
  interruptVector : t.ctrl.interruptVector = s.ctrl.interruptVector
  resetHookCalls : t.resetHookCalls = s.resetHookCalls
  hasRun : t.hasRun = s.hasRun
  requests : t.requests = s.requests
  channelErrorSlots : t.channelErrorSlots = s.channelErrorSlots
  halt : s.bus.halt = true → t.bus.halt = true
  events : ∃ es, t.events = s.events ++ es
  outputs : ∃ os, t.outputs = s.outputs ++ os
  ranges : t.mem.ranges = s.mem.ranges

theorem CycleKeeps.refl (s : State) : CycleKeeps s s :=
  ⟨rfl, rfl, rfl, rfl, rfl, rfl, rfl, rfl, rfl, rfl, rfl, rfl, id, ⟨[], by simp⟩, ⟨[], by simp⟩, rfl⟩

theorem CycleKeeps.trans {s t u : State} (h : CycleKeeps s t) (g : CycleKeeps t u) : CycleKeeps s u := by
  obtain ⟨es, he⟩ := h.events
  obtain ⟨es', he'⟩ := g.events
  obtain ⟨os, ho⟩ := h.outputs
  obtain ⟨os', ho'⟩ := g.outputs
  exact ⟨g.wiring.trans h.wiring, g.clock.trans h.clock, g.runMode.trans h.runMode, g.suspend.trans h.suspend,
    g.nmi.trans h.nmi, g.resetLine.trans h.resetLine, g.scratch.trans h.scratch,
    g.interruptVector.trans h.interruptVector, g.resetHookCalls.trans h.resetHookCalls, g.hasRun.trans h.hasRun,
    g.requests.trans h.requests, g.channelErrorSlots.trans h.channelErrorSlots,
    fun x => g.halt (h.halt x), ⟨es ++ es', by rw [he', he, List.append_assoc]⟩,
    ⟨os ++ os', by rw [ho', ho, List.append_assoc]⟩, g.ranges.trans h.ranges⟩

/-! ### Phase by phase -/

theorem keeps_placeWord (m : MicroStep) (s : State) : CycleKeeps s (s.placeWord m) :=
  ⟨rfl, rfl, rfl, rfl, rfl, rfl, rfl, rfl, rfl, rfl, rfl, rfl, id, ⟨[], by simp [State.placeWord]⟩,
    ⟨[], by simp [State.placeWord]⟩, rfl⟩

theorem keeps_haltPhase (s : State) : CycleKeeps s s.haltPhase :=
  ⟨rfl, rfl, rfl, rfl, rfl, rfl, rfl, rfl, rfl, rfl, rfl, rfl, fun h => by simp [State.haltPhase, h],
    ⟨[], by simp [State.haltPhase]⟩, ⟨[], by simp [State.haltPhase]⟩, rfl⟩

theorem keeps_refuse (s : State) (r : Refusal) : CycleKeeps s (s.refuse r) :=
  ⟨rfl, rfl, rfl, rfl, rfl, rfl, rfl, rfl, rfl, rfl, rfl, rfl, id,
    ⟨[], by simp [State.refuse]⟩, ⟨[], by simp [State.refuse]⟩, rfl⟩

theorem keeps_raise (s : State) (e : Fault) (p : Phase) (i : Id) : CycleKeeps s (s.raise e p i) :=
  ⟨rfl, rfl, rfl, rfl, rfl, rfl, rfl, rfl, rfl, rfl, rfl, rfl, id,
    ⟨[], by simp [State.raise]⟩, ⟨[], by simp [State.raise]⟩, rfl⟩

/-- Driving `data_byte` alone. -/
theorem keeps_setData (s : State) (b : Byte) : CycleKeeps s (s.setData b) :=
  ⟨rfl, rfl, rfl, rfl, rfl, rfl, rfl, rfl, rfl, rfl, rfl, rfl, id, ⟨[], by simp⟩, ⟨[], by simp⟩, rfl⟩

theorem keeps_driveData (supply : Option Byte) (role : Role) (s : State) : CycleKeeps s (s.driveData supply role) := by
  cases role with
  | nothing => exact .refl s
  | register r => exact keeps_setData s _
  | addressRegister r u => cases u <;> first | exact .refl s | exact keeps_setData s _
  | alu r l => exact keeps_setData s _
  | memoryData id =>
    unfold State.driveData State.driveMemory
    cases supply with
    | some b => exact keeps_setData s _
    | none => dsimp only; split <;> first | exact keeps_setData s _ | exact keeps_raise s _ _ _
  | memoryAddress id => exact .refl s
  | controller id => exact keeps_setData s _

theorem keeps_driveAddress (role : Role) (s : State) : CycleKeeps s (s.driveAddress role) := by
  cases role <;> try exact .refl s
  · unfold State.driveAddress
    dsimp only
    cases (postModify s.bus.opFlags (s.areg _)).changed <;>
      exact ⟨rfl, rfl, rfl, rfl, rfl, rfl, rfl, rfl, rfl, rfl, rfl, rfl, id, by simp [State.emitIf, State.driveWord],
        ⟨[], by simp [State.driveWord]⟩, rfl⟩
  · unfold State.driveAddress
    dsimp only
    cases (postModify s.bus.opFlags s.mar).changed <;>
      exact ⟨rfl, rfl, rfl, rfl, rfl, rfl, rfl, rfl, rfl, rfl, rfl, rfl, id, by simp [State.emitIf, State.driveWord],
        ⟨[], by simp [State.driveWord]⟩, rfl⟩
  · exact ⟨rfl, rfl, rfl, rfl, rfl, rfl, rfl, rfl, rfl, rfl, rfl, rfl, id, ⟨[], by simp [State.driveAddress]⟩,
      ⟨[], by simp [State.driveAddress]⟩, rfl⟩

theorem keeps_driveIo (s : State) : CycleKeeps s s.driveIo := by
  unfold State.driveIo
  split
  · split <;> exact keeps_setData s _
  · split
    · unfold State.driveChannel
      split
      · refine ⟨rfl, rfl, rfl, rfl, rfl, rfl, rfl, rfl, rfl, rfl, rfl, rfl, id, ?_, ⟨[], by simp⟩, rfl⟩
        simp only [State.emitIf]
        split <;> simp
      · exact keeps_setData s _
    · exact .refl s

/-- The rising edge (R174). -/
theorem keeps_risingPhase (supply : Option Byte) (s : State) : CycleKeeps s (s.risingPhase supply) := by
  unfold State.risingPhase
  split
  · exact keeps_driveData _ _ s
  · split
    · exact keeps_driveAddress _ s
    · split
      · exact keeps_driveIo s
      · exact .refl s

theorem keeps_latchRegister (r : Id) (v : Byte) (s : State) : CycleKeeps s (s.latchRegister r v) :=
  ⟨rfl, rfl, rfl, rfl, rfl, rfl, rfl, rfl, rfl, rfl, rfl, rfl, id,
    by simp [State.latchRegister, State.emit, State.emitIf],
    ⟨[], by simp [State.latchRegister]⟩, rfl⟩

theorem keeps_latchAddressRegister (r : Id) (v : Word) (s : State) : CycleKeeps s (s.latchAddressRegister r v) :=
  ⟨rfl, rfl, rfl, rfl, rfl, rfl, rfl, rfl, rfl, rfl, rfl, rfl, id,
    by simp [State.latchAddressRegister, State.emit, State.emitIf],
    ⟨[], by simp [State.latchAddressRegister]⟩, rfl⟩

theorem keeps_latchAlu (r lhs : Id) (s : State) : CycleKeeps s (s.latchAlu r lhs) := by
  unfold State.latchAlu
  split
  · exact keeps_raise s _ _ _
  · exact ⟨rfl, rfl, rfl, rfl, rfl, rfl, rfl, rfl, rfl, rfl, rfl, rfl, id,
      by simp [State.emit, State.emitIf], ⟨[], by simp⟩, rfl⟩

theorem keeps_latchMemory (i : Id) (s : State) : CycleKeeps s (s.latchMemory i) := by
  unfold State.latchMemory
  rcases Memory.write_cases s.mem s.mar s.bus.dataByte with ⟨r, -, -, h⟩ | ⟨r, -, -, h⟩ | ⟨-, h⟩ <;> rw [h]
  · exact ⟨rfl, rfl, rfl, rfl, rfl, rfl, rfl, rfl, rfl, rfl, rfl, rfl, id,
      by simp [State.emit, State.emitIf], ⟨[], by simp⟩, rfl⟩
  · exact keeps_raise s _ _ _
  · exact keeps_raise s _ _ _

theorem keeps_latchIr (i : Id) (s : State) : CycleKeeps s (s.latchIr i) :=
  ⟨rfl, rfl, rfl, rfl, rfl, rfl, rfl, rfl, rfl, rfl, rfl, rfl, id, by simp [State.latchIr, State.emit, State.emitIf],
    ⟨[], by simp [State.latchIr]⟩, rfl⟩

theorem keeps_latchController (mc : Microcode) (i : Id) (s : State) : CycleKeeps s (s.latchController mc i) := by
  unfold State.latchController
  split
  · exact ⟨rfl, rfl, rfl, rfl, rfl, rfl, rfl, rfl, rfl, rfl, rfl, rfl, id, ⟨[], by simp⟩, ⟨[], by simp⟩, rfl⟩
  · split
    · exact (keeps_latchIr i s).trans (keeps_raise _ _ _ _)
    · split
      · exact (keeps_latchIr i s).trans (keeps_raise _ _ _ _)
      · exact (keeps_latchIr i s).trans
          ⟨rfl, rfl, rfl, rfl, rfl, rfl, rfl, rfl, rfl, rfl, rfl, rfl, id, ⟨[], by simp [State.startRunner]⟩,
            ⟨[], by simp [State.startRunner]⟩, rfl⟩

theorem keeps_latchData (mc : Microcode) (role : Role) (s : State) : CycleKeeps s (s.latchData mc role) := by
  cases role with
  | nothing => exact .refl s
  | register r => exact keeps_latchRegister r _ s
  | addressRegister r u => cases u <;> first | exact .refl s | exact keeps_latchAddressRegister r _ s
  | alu r l => exact keeps_latchAlu r l s
  | memoryData i => exact keeps_latchMemory i s
  | memoryAddress i => exact .refl s
  | controller i => exact keeps_latchController mc i s

theorem keeps_latchAddress (role : Role) (s : State) : CycleKeeps s (s.latchAddress role) := by
  cases role with
  | register r => exact keeps_latchRegister r _ s
  | addressRegister r u => exact keeps_latchAddressRegister r _ s
  | memoryAddress i =>
    exact ⟨rfl, rfl, rfl, rfl, rfl, rfl, rfl, rfl, rfl, rfl, rfl, rfl, id, ⟨[], by simp [State.latchAddress]⟩,
      ⟨[], by simp [State.latchAddress]⟩, rfl⟩
  | nothing => exact .refl s
  | alu r l => exact .refl s
  | memoryData i => exact .refl s
  | controller i => exact .refl s

theorem keeps_latchIo (s : State) : CycleKeeps s s.latchIo := by
  unfold State.latchIo
  split
  · split
    · rename_i ch hch
      refine ⟨rfl, rfl, rfl, rfl, rfl, rfl, rfl, rfl, rfl, rfl, rfl, rfl, id, ?_, ?_, rfl⟩
      · simp [State.outputChannel, State.emit, State.emitIf, State.outputIf]
      · simp only [State.outputChannel, State.emit, State.emitIf, State.outputIf]
        split <;> simp
    · exact .refl s
  · split <;> first | exact keeps_latchRegister _ _ s | exact .refl s

/-- The high clock (R174). -/
theorem keeps_highPhase (mc : Microcode) (s : State) : CycleKeeps s (s.highPhase mc) := by
  unfold State.highPhase
  split
  · exact keeps_latchData _ _ s
  · split
    · exact keeps_latchAddress _ s
    · split
      · exact keeps_latchIo s
      · exact .refl s

theorem keeps_countCycle (s : State) : CycleKeeps s s.countCycle :=
  ⟨rfl, rfl, rfl, rfl, rfl, rfl, rfl, rfl, rfl, rfl, rfl, rfl, id, ⟨[], by simp⟩, ⟨[], by simp⟩, rfl⟩

theorem keeps_fallingPhase (s : State) : CycleKeeps s s.fallingPhase := by
  have hc : s.fallingPhase.ctrl.scratch = s.ctrl.scratch ∧
      s.fallingPhase.ctrl.interruptVector = s.ctrl.interruptVector := by
    rw [fallingPhase_ctrl]
    split
    · unfold Controller.advance; split <;> exact ⟨rfl, rfl⟩
    · exact ⟨rfl, rfl⟩
  exact ⟨by simp, by simp, by simp, by simp, by simp, by simp, hc.1, hc.2, by simp, by simp, by simp, by simp,
    fun h => by simpa using h, fallingPhase_events s, ⟨[], by simp⟩, by simp⟩

theorem keeps_phases (mc : Microcode) (supply : Option Byte) (s : State) : CycleKeeps s (s.phases mc supply) := by
  rcases phases_cases mc supply s with ⟨r, h⟩ | ⟨-, h⟩ | ⟨-, -, h⟩ | ⟨-, -, h⟩ <;> rw [h]
  · exact keeps_refuse s r
  · exact (keeps_haltPhase s).trans (keeps_risingPhase _ _)
  · exact ((keeps_haltPhase s).trans (keeps_risingPhase _ _)).trans (keeps_highPhase _ _)
  · exact ((((keeps_haltPhase s).trans (keeps_risingPhase _ _)).trans (keeps_highPhase _ _)).trans
      (keeps_fallingPhase _)).trans (keeps_countCycle _)

theorem keeps_cycleOn (mc : Microcode) (supply : Option Byte) (m : MicroStep) (s : State) :
    CycleKeeps s (s.cycleOn mc supply m) := by
  unfold State.cycleOn
  split
  · exact (keeps_placeWord m s).trans (keeps_phases _ _ _)
  · exact keeps_raise s _ _ _

/-- A cycle (R179). -/
theorem keeps_cycle (mc : Microcode) (supply : Option Byte) (s : State) : CycleKeeps s (s.cycle mc supply) := by
  rcases cycle_cases mc supply s with ⟨-, h⟩ | ⟨-, r, h⟩ | ⟨-, -, m, -, h⟩ | ⟨-, -, h⟩ <;> rw [h]
  · exact .refl s
  · exact keeps_refuse s r
  · exact keeps_cycleOn _ _ _ _
  · exact keeps_phases _ _ _

/-- The cycles of an instruction. -/
theorem keeps_runInstructionCycles (mc : Microcode) (fuel : Nat) (supplies : List (Option Byte)) (s : State) :
    CycleKeeps s (State.runInstructionCycles mc fuel supplies s) :=
  runInstructionCycles_induct (P := CycleKeeps s) (fun t supply h => h.trans (keeps_cycle mc supply t)) fuel supplies s
    (.refl s)

/-! ### What an instruction answers -/

/-- A micro-operation's next state is its cycle's, from a ready machine. -/
theorem execStep_eq_next {m : MicroStep} {s t : State} (h : execStep m s = .next t) :
    s.fault = none ∧ s.bus.nmi = false ∧ t = s.cycleOn referenceMicrocode none m := guarded_eq_next s h

theorem keeps_execStep {m : MicroStep} {s t : State} (h : execStep m s = .next t) : CycleKeeps s t := by
  obtain ⟨-, -, rfl⟩ := execStep_eq_next h
  exact keeps_cycleOn _ _ _ _

theorem keeps_runRecord {rec : Record} {bytes : List Byte} {s t : State} (h : runRecord rec bytes s = .next t) :
    CycleKeeps s t := by
  obtain ⟨-, -, -, rfl⟩ := runRecord_eq_next h
  exact keeps_runInstructionCycles _ _ _ _

/-- Every instruction is a micro-operation or a record of the reference table run with its own bytes. -/
theorem exec_cases (i : Instr) :
    (∃ m, stepOf i = some m ∧ ∀ s, exec i s = execStep m s) ∨
    (∃ rec bytes, stepOf i = none ∧ bytesOf i = some bytes ∧ referenceMicrocode rec.opcode = some rec ∧
      bytes.head? = some rec.opcode ∧ ∀ s, exec i s = runRecord rec bytes s) := by
  cases i <;> first
    | exact .inl ⟨_, rfl, fun _ => rfl⟩
    | exact .inr ⟨_, _, rfl, rfl, rfl, rfl, fun _ => rfl⟩

/-- What every instruction that answers a next state keeps. -/
theorem keeps_exec {i : Instr} {s t : State} (h : exec i s = .next t) : CycleKeeps s t := by
  rcases exec_cases i with ⟨m, -, he⟩ | ⟨rec, bytes, -, -, -, -, he⟩ <;> rw [he] at h
  · exact keeps_execStep h
  · exact keeps_runRecord h

end Sys2Proof.Machine
end

