-- ==== Sys2Proof/Laws/PerInstr.lean ====
section
/-! SUPPORT. Statements made of every instruction, one lemma per constructor: the length of its encoding (30_encoding.md R129,
R132) and the record that its opcode names. -/

namespace Sys2Proof.Laws.EncodedLength

open Sys2Proof.Machine

/-- How many bytes an instruction of a mode has (R132). -/
def modeLength : Mode → Nat
  | .implied => 1
  | .immediateByte => 2
  | .immediateWord => 3
  | .indirectByte => 3
  | .indirectWord => 3

/-- A micro-operation is one microword (R129); a reference instruction is the opcode byte of a record of the reference table
that is well formed (R130), followed by the operand bytes of the record's mode (R132). -/
def Statement (i : Instr) : Prop :=
  (∃ m, stepOf i = some m ∧ bytesOf i = none ∧ encode i = .control m.pack) ∨
  (∃ rec mode op bytes, stepOf i = none ∧ bytesOf i = some bytes ∧ encode i = .program bytes ∧
    bytes.head? = some rec.opcode ∧ referenceMicrocode rec.opcode = some rec ∧ modeOfCode rec.mode = some mode ∧
    condOpOfCode rec.conditionOp = some op ∧ bytes.length = modeLength mode ∧ rec.steps.length ≤ Config.maxTableSteps)

/-- A micro-operation. -/
theorem of_step {i : Instr} {m : MicroStep} (h : stepOf i = some m) (hb : bytesOf i = none) : Statement i :=
  .inl ⟨m, h, hb, by simp [encode, h]⟩

/-- A reference instruction. -/
theorem of_record {i : Instr} (rec : Record) (mode : Mode) (op : CondOp) (bytes : List Byte) (h : stepOf i = none)
    (hb : bytesOf i = some bytes) (hh : bytes.head? = some rec.opcode)
    (hr : referenceMicrocode rec.opcode = some rec) (hm : modeOfCode rec.mode = some mode)
    (ho : condOpOfCode rec.conditionOp = some op) (hl : bytes.length = modeLength mode)
    (hs : rec.steps.length ≤ Config.maxTableSteps) : Statement i :=
  .inr ⟨rec, mode, op, bytes, h, hb, by simp [encode, h, hb], hh, hr, hm, ho, hl, hs⟩

theorem xdata (src dst : Id) (flags : BitVec 7) : Statement (.xdata src dst flags) := of_step rfl rfl

theorem xaddr (src dst : Id) (flags : BitVec 7) : Statement (.xaddr src dst flags) := of_step rfl rfl

theorem ioOut (reg channel : Id) (flags : BitVec 7) : Statement (.ioOut reg channel flags) := of_step rfl rfl

theorem ioIn (reg channel : Id) (flags : BitVec 7) : Statement (.ioIn reg channel flags) := of_step rfl rfl

theorem other (src dst : Id) (flags : BitVec 7) : Statement (.other src dst flags) := of_step rfl rfl

theorem halt (kind : Byte) (src dst : Id) (flags : BitVec 7) : Statement (.halt kind src dst flags) := of_step rfl rfl

theorem aluAdd (src : Id) (flags : BitVec 3) : Statement (.aluAdd src flags) := of_step rfl rfl

theorem aluAdc (src : Id) (flags : BitVec 3) : Statement (.aluAdc src flags) := of_step rfl rfl

theorem aluSub (src : Id) (flags : BitVec 3) : Statement (.aluSub src flags) := of_step rfl rfl

theorem aluSbb (src : Id) (flags : BitVec 3) : Statement (.aluSbb src flags) := of_step rfl rfl

theorem aluAnd (src : Id) (flags : BitVec 3) : Statement (.aluAnd src flags) := of_step rfl rfl

theorem aluOr (src : Id) (flags : BitVec 3) : Statement (.aluOr src flags) := of_step rfl rfl

theorem aluXor (src : Id) (flags : BitVec 3) : Statement (.aluXor src flags) := of_step rfl rfl

theorem aluCmp (src : Id) (flags : BitVec 3) : Statement (.aluCmp src flags) := of_step rfl rfl

theorem aluInc (src : Id) (flags : BitVec 3) : Statement (.aluInc src flags) := of_step rfl rfl

theorem aluDec (src : Id) (flags : BitVec 3) : Statement (.aluDec src flags) := of_step rfl rfl

theorem aluNot (src : Id) (flags : BitVec 3) : Statement (.aluNot src flags) := of_step rfl rfl

theorem aluShl (src : Id) (flags : BitVec 3) : Statement (.aluShl src flags) := of_step rfl rfl

theorem aluShr (src : Id) (flags : BitVec 3) : Statement (.aluShr src flags) := of_step rfl rfl

theorem aluClr (src : Id) (flags : BitVec 3) : Statement (.aluClr src flags) := of_step rfl rfl

theorem nop : Statement .nop :=
  of_record nopRecord .implied .none _ rfl rfl rfl rfl rfl rfl rfl (by decide)

theorem hlt : Statement .hlt :=
  of_record hltRecord .implied .none _ rfl rfl rfl rfl rfl rfl rfl (by decide)

theorem movAImm (imm : Byte) : Statement (.movAImm imm) :=
  of_record movAImmRecord .immediateByte .none _ rfl rfl rfl rfl rfl rfl rfl (by decide)

theorem movBImm (imm : Byte) : Statement (.movBImm imm) :=
  of_record movBImmRecord .immediateByte .none _ rfl rfl rfl rfl rfl rfl rfl (by decide)

theorem movCImm (imm : Byte) : Statement (.movCImm imm) :=
  of_record movCImmRecord .immediateByte .none _ rfl rfl rfl rfl rfl rfl rfl (by decide)

theorem movDImm (imm : Byte) : Statement (.movDImm imm) :=
  of_record movDImmRecord .immediateByte .none _ rfl rfl rfl rfl rfl rfl rfl (by decide)

theorem movAB : Statement .movAB :=
  of_record movABRecord .implied .none _ rfl rfl rfl rfl rfl rfl rfl (by decide)

theorem movAC : Statement .movAC :=
  of_record movACRecord .implied .none _ rfl rfl rfl rfl rfl rfl rfl (by decide)

theorem movAD : Statement .movAD :=
  of_record movADRecord .implied .none _ rfl rfl rfl rfl rfl rfl rfl (by decide)

theorem movBA : Statement .movBA :=
  of_record movBARecord .implied .none _ rfl rfl rfl rfl rfl rfl rfl (by decide)

theorem movCA : Statement .movCA :=
  of_record movCARecord .implied .none _ rfl rfl rfl rfl rfl rfl rfl (by decide)

theorem movDA : Statement .movDA :=
  of_record movDARecord .implied .none _ rfl rfl rfl rfl rfl rfl rfl (by decide)

theorem movAMem (addr : Word) : Statement (.movAMem addr) :=
  of_record movAMemRecord .indirectByte .none _ rfl rfl rfl rfl rfl rfl rfl (by decide)

theorem movMemA (addr : Word) : Statement (.movMemA addr) :=
  of_record movMemARecord .indirectByte .none _ rfl rfl rfl rfl rfl rfl rfl (by decide)

theorem movBMem (addr : Word) : Statement (.movBMem addr) :=
  of_record movBMemRecord .indirectByte .none _ rfl rfl rfl rfl rfl rfl rfl (by decide)

theorem movMemB (addr : Word) : Statement (.movMemB addr) :=
  of_record movMemBRecord .indirectByte .none _ rfl rfl rfl rfl rfl rfl rfl (by decide)

theorem movSpImm (imm : Word) : Statement (.movSpImm imm) :=
  of_record movSpImmRecord .immediateWord .none _ rfl rfl rfl rfl rfl rfl rfl (by decide)

theorem movSiImm (imm : Word) : Statement (.movSiImm imm) :=
  of_record movSiImmRecord .immediateWord .none _ rfl rfl rfl rfl rfl rfl rfl (by decide)

theorem movDiImm (imm : Word) : Statement (.movDiImm imm) :=
  of_record movDiImmRecord .immediateWord .none _ rfl rfl rfl rfl rfl rfl rfl (by decide)

theorem movASiInc : Statement .movASiInc :=
  of_record movASiIncRecord .implied .none _ rfl rfl rfl rfl rfl rfl rfl (by decide)

theorem movDiIncA : Statement .movDiIncA :=
  of_record movDiIncARecord .implied .none _ rfl rfl rfl rfl rfl rfl rfl (by decide)

theorem movSiMem (addr : Word) : Statement (.movSiMem addr) :=
  of_record movSiMemRecord .indirectWord .none _ rfl rfl rfl rfl rfl rfl rfl (by decide)

theorem pushA : Statement .pushA :=
  of_record pushARecord .implied .none _ rfl rfl rfl rfl rfl rfl rfl (by decide)

theorem popA : Statement .popA :=
  of_record popARecord .implied .none _ rfl rfl rfl rfl rfl rfl rfl (by decide)

theorem addAB : Statement .addAB :=
  of_record addABRecord .implied .none _ rfl rfl rfl rfl rfl rfl rfl (by decide)

theorem adcAB : Statement .adcAB :=
  of_record adcABRecord .implied .none _ rfl rfl rfl rfl rfl rfl rfl (by decide)

theorem subAB : Statement .subAB :=
  of_record subABRecord .implied .none _ rfl rfl rfl rfl rfl rfl rfl (by decide)

theorem sbbAB : Statement .sbbAB :=
  of_record sbbABRecord .implied .none _ rfl rfl rfl rfl rfl rfl rfl (by decide)

theorem andAB : Statement .andAB :=
  of_record andABRecord .implied .none _ rfl rfl rfl rfl rfl rfl rfl (by decide)

theorem orAB : Statement .orAB :=
  of_record orABRecord .implied .none _ rfl rfl rfl rfl rfl rfl rfl (by decide)

theorem xorAB : Statement .xorAB :=
  of_record xorABRecord .implied .none _ rfl rfl rfl rfl rfl rfl rfl (by decide)

theorem cmpAB : Statement .cmpAB :=
  of_record cmpABRecord .implied .none _ rfl rfl rfl rfl rfl rfl rfl (by decide)

theorem incA : Statement .incA :=
  of_record incARecord .implied .none _ rfl rfl rfl rfl rfl rfl rfl (by decide)

theorem decA : Statement .decA :=
  of_record decARecord .implied .none _ rfl rfl rfl rfl rfl rfl rfl (by decide)

theorem notA : Statement .notA :=
  of_record notARecord .implied .none _ rfl rfl rfl rfl rfl rfl rfl (by decide)

theorem shlA : Statement .shlA :=
  of_record shlARecord .implied .none _ rfl rfl rfl rfl rfl rfl rfl (by decide)

theorem shrA : Statement .shrA :=
  of_record shrARecord .implied .none _ rfl rfl rfl rfl rfl rfl rfl (by decide)

theorem clrA : Statement .clrA :=
  of_record clrARecord .implied .none _ rfl rfl rfl rfl rfl rfl rfl (by decide)

theorem addAImm (imm : Byte) : Statement (.addAImm imm) :=
  of_record addAImmRecord .immediateByte .none _ rfl rfl rfl rfl rfl rfl rfl (by decide)

theorem cmpAImm (imm : Byte) : Statement (.cmpAImm imm) :=
  of_record cmpAImmRecord .immediateByte .none _ rfl rfl rfl rfl rfl rfl rfl (by decide)

theorem jmp (target : Word) : Statement (.jmp target) :=
  of_record jmpRecord .immediateWord .none _ rfl rfl rfl rfl rfl rfl rfl (by decide)

theorem jz (target : Word) : Statement (.jz target) :=
  of_record jzRecord .immediateWord .and _ rfl rfl rfl rfl rfl rfl rfl (by decide)

theorem jnz (target : Word) : Statement (.jnz target) :=
  of_record jnzRecord .immediateWord .nand _ rfl rfl rfl rfl rfl rfl rfl (by decide)

theorem jc (target : Word) : Statement (.jc target) :=
  of_record jcRecord .immediateWord .and _ rfl rfl rfl rfl rfl rfl rfl (by decide)

theorem jnc (target : Word) : Statement (.jnc target) :=
  of_record jncRecord .immediateWord .nand _ rfl rfl rfl rfl rfl rfl rfl (by decide)

theorem jv (target : Word) : Statement (.jv target) :=
  of_record jvRecord .immediateWord .and _ rfl rfl rfl rfl rfl rfl rfl (by decide)

theorem call (target : Word) : Statement (.call target) :=
  of_record callRecord .immediateWord .none _ rfl rfl rfl rfl rfl rfl rfl (by decide)

theorem ret : Statement .ret :=
  of_record retRecord .implied .none _ rfl rfl rfl rfl rfl rfl rfl (by decide)

theorem outA : Statement .outA :=
  of_record outARecord .implied .none _ rfl rfl rfl rfl rfl rfl rfl (by decide)

theorem inA : Statement .inA :=
  of_record inARecord .implied .none _ rfl rfl rfl rfl rfl rfl rfl (by decide)

end Sys2Proof.Laws.EncodedLength
end

