-- ==== Sys2Proof/Laws/Requests.lean ====
section
/-! SUPPORT. What the host's requests at a cycle boundary can do (45_host_interface.md R404, R411, R471; 60_exceptions.md R445):
one lemma says once what a step's `takeRequests` keeps, and two say when it does nothing. -/

namespace Sys2Proof.Machine

/-- What no request of the host changes: everything but the stop request, the frequency, the `reset` line, `nmi`, the trace and
the list of requests itself; and the frequency stays legal. -/
structure RequestsKeep (s t : State) : Prop where
  rest : t = { s with bus := { s.bus with resetLine := t.bus.resetLine, nmi := t.bus.nmi }
                      clock := { s.clock with khz := t.clock.khz, stopRequested := t.clock.stopRequested }
                      events := t.events, requests := t.requests }
  events : ∃ es, t.events = s.events ++ es
  speed : 0 < s.clock.khz ∧ s.clock.khz ≤ 1000 → 0 < t.clock.khz ∧ t.clock.khz ≤ 1000

theorem RequestsKeep.refl (s : State) (q : List (Nat × HostRequest)) : RequestsKeep s (s.setRequests q) :=
  ⟨rfl, ⟨[], by simp⟩, id⟩

theorem RequestsKeep.trans {s t u : State} (h : RequestsKeep s t) (g : RequestsKeep t u) : RequestsKeep s u := by
  obtain ⟨es, he⟩ := h.events
  obtain ⟨es', he'⟩ := g.events
  refine ⟨?_, ⟨es ++ es', by rw [he', he, List.append_assoc]⟩, fun x => g.speed (h.speed x)⟩
  have hr := g.rest
  rw [h.rest] at hr
  exact hr

/-- One request. -/
theorem keeps_grant (s : State) (r : HostRequest) : RequestsKeep s (s.grant r) := by
  cases r with
  | stop => exact ⟨rfl, ⟨[], by simp [State.grant, State.requestStop]⟩, id⟩
  | assertReset => exact ⟨rfl, ⟨[], by simp [State.grant, State.assertReset]⟩, id⟩
  | assertNmi => exact ⟨rfl, ⟨[], by simp [State.grant, State.assertNmi]⟩, id⟩
  | setSpeed khz =>
    simp only [State.grant, State.setSpeed]
    split
    · rename_i h
      refine ⟨rfl, by simp [State.emit, State.emitIf], fun _ => ?_⟩
      simpa using h
    · exact ⟨rfl, ⟨[], by simp⟩, id⟩

theorem grant_cycles (s : State) (r : HostRequest) : (s.grant r).cycles = s.cycles := by
  rw [(keeps_grant s r).rest]

theorem grant_requests (s : State) (r : HostRequest) : (s.grant r).requests = s.requests := by
  cases r <;> simp only [State.grant, State.requestStop, State.assertReset, State.assertNmi, State.setSpeed] <;>
    first | rfl | (split <;> rfl)

theorem keeps_takeRequestsFrom (q : List (Nat × HostRequest)) : ∀ s : State, RequestsKeep s (s.takeRequestsFrom q) := by
  induction q with
  | nil => exact fun s => .refl s []
  | cons p rest ih =>
    intro s
    obtain ⟨n, r⟩ := p
    unfold State.takeRequestsFrom
    split
    · exact (keeps_grant s r).trans (ih _)
    · exact .refl s _

/-- All requests that are due. -/
theorem keeps_takeRequests (s : State) : RequestsKeep s s.takeRequests := keeps_takeRequestsFrom _ _

@[simp] theorem takeRequests_cycles (s : State) : s.takeRequests.cycles = s.cycles := by rw [(keeps_takeRequests s).rest]
@[simp] theorem takeRequests_running (s : State) : s.takeRequests.clock.running = s.clock.running := by
  rw [(keeps_takeRequests s).rest]
@[simp] theorem takeRequests_wiring (s : State) : s.takeRequests.wiring = s.wiring := by rw [(keeps_takeRequests s).rest]
@[simp] theorem takeRequests_mem (s : State) : s.takeRequests.mem = s.mem := by rw [(keeps_takeRequests s).rest]
@[simp] theorem takeRequests_ctrl (s : State) : s.takeRequests.ctrl = s.ctrl := by rw [(keeps_takeRequests s).rest]
@[simp] theorem takeRequests_fault (s : State) : s.takeRequests.fault = s.fault := by rw [(keeps_takeRequests s).rest]

/-- With no request due, nothing happens. -/
theorem takeRequests_of_none {s : State} (h : s.requestBefore (s.cycles + 1) = false) : s.takeRequests = s := by
  unfold State.takeRequests
  unfold State.requestBefore at h
  cases hq : s.requests with
  | nil => cases s; cases hq; rfl
  | cons p rest =>
    obtain ⟨n, r⟩ := p
    simp only [hq, decide_eq_false_iff_not] at h
    have hn : ¬ n ≤ s.cycles := by omega
    simp only [State.takeRequestsFrom, hn, if_false]
    cases s
    cases hq
    rfl

theorem takeRequestsFrom_done (q : List (Nat × HostRequest)) :
    ∀ s : State, (s.takeRequestsFrom q).requestBefore ((s.takeRequestsFrom q).cycles + 1) = false := by
  induction q with
  | nil => exact fun s => rfl
  | cons p rest ih =>
    intro s
    obtain ⟨n, r⟩ := p
    unfold State.takeRequestsFrom
    split
    · exact ih _
    · rename_i h
      have hn : ¬ n < s.cycles + 1 := by omega
      simp [State.requestBefore, hn]

/-- After the requests that were due, none is due. -/
theorem takeRequests_done (s : State) : s.takeRequests.requestBefore (s.takeRequests.cycles + 1) = false :=
  takeRequestsFrom_done _ _

/-- A second time nothing happens. -/
theorem takeRequests_idem (s : State) : s.takeRequests.takeRequests = s.takeRequests := takeRequests_of_none (takeRequests_done s)

end Sys2Proof.Machine
end

