-- ==== Sys2Proof/Tests/Slice0.lean ====
section
/-! SUPPORT. The model's own tests: the WellFormed smoke, decoding of words written out from the spec's encodings, one step of
every instruction with the figures of the spec's worked examples (41_transfers.md, 42_alu.md, 44_reference_isa.md,
95_test_vectors.md), and for every obligation with hypotheses a state that meets them. -/

namespace Sys2Proof.Tests

open Sys2Proof Sys2Proof.Machine

/-! ### Helpers -/

/-- Whether an outcome is a next state with a property. -/
def gives (o : Host.Outcome State Fault Refusal) (p : State → Bool) : Bool :=
  match o with
  | .next t => p t
  | .fault _ => false
  | .refused _ => false

/-- Whether an outcome is this refusal. -/
def refuses (o : Host.Outcome State Fault Refusal) (r : Refusal) : Bool :=
  match o with
  | .next _ => false
  | .fault _ => false
  | .refused q => q == r

/-- One writable range over all addresses, with these bytes (95_test_vectors.md, REF). -/
def ram (cells : List Host.Cell) : Memory :=
  { ranges := [{ number := 0, start := 0, length := 0x10000, writable := true }], cells := cells }

/-- The ranges of T-MM-1: 0x0000..0x00FF writable, 0x8000..0x8003 read-only. -/
def banks : Memory :=
  { ranges := [{ number := 0, start := 0x0000, length := 0x100, writable := true },
               { number := 1, start := 0x8000, length := 4, writable := false }],
    cells := [(0x8000, 0xC3#8), (0x8001, 0xC3#8), (0x8002, 0xC3#8), (0x8003, 0xC3#8)] }

/-- The reference machine with this memory and the pc at 0x0100. -/
def ref (m : Memory) : State := (State.reset.setMem m).setAreg idPc 0x0100#16

/-- The reference machine with all addresses writable, these bytes, and these register values. -/
def with8 (regs : List (Id × Byte)) (cells : List Host.Cell) : State :=
  regs.foldl (fun s p => s.setReg p.1 p.2) (ref (ram cells))

/-- A machine with these address registers too. -/
def with16 (s : State) (aregs : List (Id × Word)) : State := aregs.foldl (fun s p => s.setAreg p.1 p.2) s

/-- A machine with these flags (Z, C, V). -/
def withFlags (s : State) (z c v : Bool) : State := s.setBus { s.bus with z := z, c := c, v := v }

/-- A machine whose clock runs. -/
def running (s : State) : State := s.setClock { s.clock with running := true }

/-- A register and the pc. -/
def regPc (r : Id) (b : Byte) (pc : Word) (cycles : Nat) (t : State) : Bool :=
  t.fault == none && t.reg r == b && t.areg idPc == pc && t.cycles == cycles

/-- The flags Z, C, V. -/
def flags (z c v : Bool) (t : State) : Bool := t.bus.z == z && t.bus.c == c && t.bus.v == v

/-! ### WellFormed smoke: an ill-formed term for each check -/

/-- An XDATA word into id 0x5 with code 0x2 belongs to the row ALU SUB (R125). -/
theorem test_wf_xdata_into_alu : (Instr.xdata 0x1#4 0x5#4 0x02#7).wellFormed = false := by decide

/-- The last assigned operation code. -/
theorem test_wf_xdata_code_d : (Instr.xdata 0x1#4 0x5#4 0x0D#7).wellFormed = false := by decide

/-- Code 0xE names no operation: the word stays an XDATA word. -/
theorem test_wf_xdata_code_e : (Instr.xdata 0x1#4 0x5#4 0x0E#7).wellFormed = true := by decide

/-- IO-out without IO_OUT (R220). -/
theorem test_wf_ioOut_bit_clear : (Instr.ioOut 0x0#4 0x0#4 0x00#7).wellFormed = false := by decide

/-- IO-in with IO_OUT (R221). -/
theorem test_wf_ioIn_bit_set : (Instr.ioIn 0x0#4 0x1#4 0x08#7).wellFormed = false := by decide

/-! ### Decoding: words written from the spec's encodings -/

/-- R129: XDATA, XADDR, IO, OTHER and HALT words (R200, R206, R220, R221, R230, R231, R353, R354). -/
theorem test_decode_transfers :
    decode (.control 0x001001#24) = .ok (.xdata 0x0#4 0x1#4 0#7) ∧
    decode (.control 0x08AE01#24) = .ok (.xdata 0xE#4 0xA#4 0x08#7) ∧
    decode (.control 0x01F802#24) = .ok (.xaddr 0x8#4 0xF#4 0x01#7) ∧
    decode (.control 0x02F902#24) = .ok (.xaddr 0x9#4 0xF#4 0x02#7) ∧
    decode (.control 0x080004#24) = .ok (.ioOut 0x0#4 0x0#4 0x08#7) ∧
    decode (.control 0x001004#24) = .ok (.ioIn 0x0#4 0x1#4 0#7) ∧
    decode (.control 0x000008#24) = .ok (.other 0x0#4 0x0#4 0#7) ∧
    decode (.control 0x800008#24) = .ok (.halt 0x08#8 0x0#4 0x0#4 0#7) ∧
    decode (.control 0x801001#24) = .ok (.halt 0x01#8 0x0#4 0x1#4 0#7) ∧
    decode (.control 0x800010#24) = .ok (.halt 0x10#8 0x0#4 0x0#4 0#7) :=
  ⟨rfl, rfl, rfl, rfl, rfl, rfl, rfl, rfl, rfl, rfl⟩

/-- XDATA B -> ALU with FLAGS and operation `k` is `0x1k5101` (R125, R356 to R362). -/
theorem test_decode_alu :
    decode (.control 0x105101#24) = .ok (.aluAdd 0x1#4 1#3) ∧
    decode (.control 0x115101#24) = .ok (.aluAdc 0x1#4 1#3) ∧
    decode (.control 0x125101#24) = .ok (.aluSub 0x1#4 1#3) ∧
    decode (.control 0x135101#24) = .ok (.aluSbb 0x1#4 1#3) ∧
    decode (.control 0x145101#24) = .ok (.aluAnd 0x1#4 1#3) ∧
    decode (.control 0x155101#24) = .ok (.aluOr 0x1#4 1#3) ∧
    decode (.control 0x165101#24) = .ok (.aluXor 0x1#4 1#3) ∧
    decode (.control 0x175101#24) = .ok (.aluCmp 0x1#4 1#3) ∧
    decode (.control 0x185101#24) = .ok (.aluInc 0x1#4 1#3) ∧
    decode (.control 0x195101#24) = .ok (.aluDec 0x1#4 1#3) ∧
    decode (.control 0x1A5101#24) = .ok (.aluNot 0x1#4 1#3) ∧
    decode (.control 0x1B5101#24) = .ok (.aluShl 0x1#4 1#3) ∧
    decode (.control 0x1C5101#24) = .ok (.aluShr 0x1#4 1#3) ∧
    decode (.control 0x1D5101#24) = .ok (.aluClr 0x1#4 1#3) :=
  ⟨rfl, rfl, rfl, rfl, rfl, rfl, rfl, rfl, rfl, rfl, rfl, rfl, rfl, rfl⟩

/-- Codes 0xE and 0xF stay XDATA (R125). -/
theorem test_decode_alu_no_operation :
    decode (.control 0x0E5101#24) = .ok (.xdata 0x1#4 0x5#4 0x0E#7) ∧
    decode (.control 0x0F5101#24) = .ok (.xdata 0x1#4 0x5#4 0x0F#7) :=
  ⟨rfl, rfl⟩

/-- A step of unknown kind (R128). -/
theorem test_decode_unknown_kind : decode (.control 0x000003#24) = .error (.unknownKind 0x03#8) := rfl

/-- R332 to R343. -/
theorem test_decode_byte_moves :
    decode (.program [0x00#8]) = .ok .nop ∧
    decode (.program [0x01#8]) = .ok .hlt ∧
    decode (.program [0x10#8, 0x42#8]) = .ok (.movAImm 0x42#8) ∧
    decode (.program [0x11#8, 0xA5#8]) = .ok (.movBImm 0xA5#8) ∧
    decode (.program [0x12#8, 0x03#8]) = .ok (.movCImm 0x03#8) ∧
    decode (.program [0x13#8, 0xFF#8]) = .ok (.movDImm 0xFF#8) ∧
    decode (.program [0x14#8]) = .ok .movAB ∧
    decode (.program [0x15#8]) = .ok .movAC ∧
    decode (.program [0x16#8]) = .ok .movAD ∧
    decode (.program [0x17#8]) = .ok .movBA ∧
    decode (.program [0x18#8]) = .ok .movCA ∧
    decode (.program [0x19#8]) = .ok .movDA :=
  ⟨rfl, rfl, rfl, rfl, rfl, rfl, rfl, rfl, rfl, rfl, rfl, rfl⟩

/-- R344 to R355, low operand byte first. -/
theorem test_decode_word_moves :
    decode (.program [0x20#8, 0x00#8, 0x20#8]) = .ok (.movAMem 0x2000#16) ∧
    decode (.program [0x21#8, 0x00#8, 0x20#8]) = .ok (.movMemA 0x2000#16) ∧
    decode (.program [0x22#8, 0x00#8, 0x20#8]) = .ok (.movBMem 0x2000#16) ∧
    decode (.program [0x23#8, 0x00#8, 0x20#8]) = .ok (.movMemB 0x2000#16) ∧
    decode (.program [0x24#8, 0x00#8, 0x80#8]) = .ok (.movSpImm 0x8000#16) ∧
    decode (.program [0x25#8, 0x34#8, 0x12#8]) = .ok (.movSiImm 0x1234#16) ∧
    decode (.program [0x26#8, 0xCD#8, 0xAB#8]) = .ok (.movDiImm 0xABCD#16) ∧
    decode (.program [0x27#8]) = .ok .movASiInc ∧
    decode (.program [0x28#8]) = .ok .movDiIncA ∧
    decode (.program [0x29#8, 0x00#8, 0x20#8]) = .ok (.movSiMem 0x2000#16) ∧
    decode (.program [0x30#8]) = .ok .pushA ∧
    decode (.program [0x31#8]) = .ok .popA :=
  ⟨rfl, rfl, rfl, rfl, rfl, rfl, rfl, rfl, rfl, rfl, rfl, rfl⟩

/-- R356 to R371. -/
theorem test_decode_alu_instructions :
    decode (.program [0x40#8]) = .ok .addAB ∧
    decode (.program [0x41#8]) = .ok .adcAB ∧
    decode (.program [0x42#8]) = .ok .subAB ∧
    decode (.program [0x43#8]) = .ok .sbbAB ∧
    decode (.program [0x44#8]) = .ok .andAB ∧
    decode (.program [0x45#8]) = .ok .orAB ∧
    decode (.program [0x46#8]) = .ok .xorAB ∧
    decode (.program [0x47#8]) = .ok .cmpAB ∧
    decode (.program [0x48#8]) = .ok .incA ∧
    decode (.program [0x49#8]) = .ok .decA ∧
    decode (.program [0x4A#8]) = .ok .notA ∧
    decode (.program [0x4B#8]) = .ok .shlA ∧
    decode (.program [0x4C#8]) = .ok .shrA ∧
    decode (.program [0x4D#8]) = .ok .clrA ∧
    decode (.program [0x4E#8, 0x10#8]) = .ok (.addAImm 0x10#8) ∧
    decode (.program [0x4F#8, 0x41#8]) = .ok (.cmpAImm 0x41#8) :=
  ⟨rfl, rfl, rfl, rfl, rfl, rfl, rfl, rfl, rfl, rfl, rfl, rfl, rfl, rfl, rfl, rfl⟩

/-- R372 to R381. -/
theorem test_decode_jumps :
    decode (.program [0x50#8, 0x00#8, 0x02#8]) = .ok (.jmp 0x0200#16) ∧
    decode (.program [0x51#8, 0x00#8, 0x02#8]) = .ok (.jz 0x0200#16) ∧
    decode (.program [0x52#8, 0x00#8, 0x02#8]) = .ok (.jnz 0x0200#16) ∧
    decode (.program [0x53#8, 0x00#8, 0x02#8]) = .ok (.jc 0x0200#16) ∧
    decode (.program [0x54#8, 0x00#8, 0x02#8]) = .ok (.jnc 0x0200#16) ∧
    decode (.program [0x55#8, 0x00#8, 0x02#8]) = .ok (.jv 0x0200#16) ∧
    decode (.program [0x56#8, 0x00#8, 0x02#8]) = .ok (.call 0x0200#16) ∧
    decode (.program [0x57#8]) = .ok .ret ∧
    decode (.program [0x60#8]) = .ok .outA ∧
    decode (.program [0x61#8]) = .ok .inA :=
  ⟨rfl, rfl, rfl, rfl, rfl, rfl, rfl, rfl, rfl, rfl⟩

/-- An opcode with no record, a missing operand byte, a byte too many (R132, R382). -/
theorem test_decode_refused :
    decode (.program [0x02#8]) = .error (.noMicroCode 0x02#8) ∧
    decode (.program [0x20#8, 0x00#8]) = .error (.missingOperand 0x20#8) ∧
    decode (.program [0x00#8, 0x00#8]) = .error .trailingBytes ∧ decode (.program []) = .error .noBytes :=
  ⟨rfl, rfl, rfl, rfl⟩

/-- Numbers of opcode-table rows: a microword, an opcode byte, an opcode with an operand byte, one with two. -/
theorem test_table_words :
    decodeTableWord 24 0x125101 = some (.aluSub 0x1#4 1#3) ∧ decodeTableWord 24 0x01F802 = some (.xaddr 0x8#4 0xF#4 1#7) ∧
    decodeTableWord 8 0x01 = some .hlt ∧ decodeTableWord 16 0x4210 = some (.movAImm 0x42#8) ∧
    decodeTableWord 24 0x200020 = some (.movAMem 0x2000#16) ∧ decodeTableWord 8 0x02 = some (.xaddr 0x0#4 0x0#4 0#7) ∧
    decodeTableWord 16 0x00FF = none ∧ decodeTableWord 8 0xFF = none := by decide

/-! ### Micro-operations -/

/-- T-XD-3: MSB selects the high half of SI. -/
theorem test_xdata :
    gives (exec (.xdata 0xA#4 0x0#4 0x08#7) (with16 (ref (ram [])) [(idSi, 0x1234#16)])) (fun t => t.reg idA == 0x12#8 && t.bus.dataByte == 0x12#8 && t.areg idSi == 0x1234#16) = true := by decide

/-- T-MEM-2: a write to a read-only range. -/
theorem test_xdata_protected :
    gives (exec (.xdata 0x0#4 0xE#4 0#7) ((ref banks).setMar 0x8003#16)) (fun t => t.fault == some (.error (.protectedMemory 0x8003#16) 0 .high idMem) && t.mem == banks && t.cycles == 0) = true := by decide

/-- T-XA-5: source and destination the same, the flags of the increment. -/
theorem test_xaddr :
    gives (exec (.xaddr 0x9#4 0x9#4 0x01#7) (with16 (ref (ram [])) [(idSp, 0xFFFF#16)])) (fun t => t.areg idSp == 0xFFFF#16 && flags true true false t) = true := by decide

/-- T-XA-10. -/
theorem test_xaddr_inc_dec : refuses (exec (.xaddr 0xA#4 0xF#4 0x03#7) (ref (ram []))) .incAndDec = true := by decide

/-- T-IO-1. -/
theorem test_ioOut :
    gives (exec (.ioOut 0x0#4 0x0#4 0x08#7) (with8 [(idA, 0x48#8)] [])) (fun t => t.outputs == [(channelOut, 0x48#8)]) = true := by decide

/-- T-IO-7. -/
theorem test_ioOut_pc : refuses (exec (.ioOut 0x8#4 0x0#4 0x08#7) (ref (ram []))) .ioRegisterSide = true := by decide

/-- T-IO-3. -/
theorem test_ioIn :
    gives (exec (.ioIn 0x0#4 0x1#4 0#7) ((ref (ram [])).scheduleInput channelIn 0x61#8)) (fun t => t.reg idA == 0x61#8 && t.inputs == []) = true := by decide

/-- T-IO-5. -/
theorem test_ioIn_no_channel :
    gives (exec (.ioIn 0x0#4 0x5#4 0#7) ((ref (ram [])).setData 0x33#8)) (fun t => t.reg idA == 0x33#8) = true := by decide

/-- T-OT-1. -/
theorem test_other :
    gives (exec (.other 0x0#4 0x1#4 0x7F#7) ((with8 [(idA, 0x12#8)] []).setData 0x55#8)) (fun t => t.reg idB == 0x00#8 && t.bus.dataByte == 0x55#8 && flags false false false t && !t.bus.halt) = true := by decide

/-- T-OT-3. -/
theorem test_halt :
    gives (exec (.halt 0x01#8 0x0#4 0x1#4 0#7) (with8 [(idA, 0x12#8)] [])) (fun t => t.reg idB == 0x12#8 && t.bus.halt && t.cycles == 1) = true := by decide

/-- R284: a step of unknown kind. -/
theorem test_halt_unknown_kind :
    gives (exec (.halt 0x10#8 0x0#4 0x1#4 0#7) (ref (ram []))) (fun t => t.fault == some (.error (.invalidMicroCode 0x801010#24) 0 .rising idCtrl) && !t.bus.halt) = true := by decide

/-- 42_alu.md, vector of 95_test_vectors.md section 2.5. -/
theorem test_aluAdd :
    gives (exec (.aluAdd 0x6#4 1#3) ((withFlags (with8 [(idLhs, 0x80#8)] []) false false false).setData 0x80#8)) (fun t => t.reg idAlu == 0x00#8 && flags true true true t) = true := by decide

/-- 42_alu.md, vector of 95_test_vectors.md section 2.5. -/
theorem test_aluAdd_2 :
    gives (exec (.aluAdd 0x6#4 1#3) ((withFlags (with8 [(idLhs, 0x80#8)] []) false true false).setData 0xFF#8)) (fun t => t.reg idAlu == 0x7F#8 && flags false true true t) = true := by decide

/-- 42_alu.md, vector of 95_test_vectors.md section 2.5. -/
theorem test_aluAdc :
    gives (exec (.aluAdc 0x6#4 1#3) ((withFlags (with8 [(idLhs, 0x7F#8)] []) false true false).setData 0x00#8)) (fun t => t.reg idAlu == 0x80#8 && flags false false true t) = true := by decide

/-- 42_alu.md, vector of 95_test_vectors.md section 2.5. -/
theorem test_aluAdc_2 :
    gives (exec (.aluAdc 0x6#4 1#3) ((withFlags (with8 [(idLhs, 0xFF#8)] []) false true false).setData 0xFF#8)) (fun t => t.reg idAlu == 0xFF#8 && flags false true false t) = true := by decide

/-- 42_alu.md, vector of 95_test_vectors.md section 2.5. -/
theorem test_aluSub :
    gives (exec (.aluSub 0x6#4 1#3) ((withFlags (with8 [(idLhs, 0x00#8)] []) false false false).setData 0x80#8)) (fun t => t.reg idAlu == 0x80#8 && flags false true true t) = true := by decide

/-- 42_alu.md, vector of 95_test_vectors.md section 2.5. -/
theorem test_aluSub_2 :
    gives (exec (.aluSub 0x6#4 1#3) ((withFlags (with8 [(idLhs, 0x80#8)] []) false false false).setData 0x01#8)) (fun t => t.reg idAlu == 0x7F#8 && flags false false true t) = true := by decide

/-- 42_alu.md, vector of 95_test_vectors.md section 2.5. -/
theorem test_aluSbb :
    gives (exec (.aluSbb 0x6#4 1#3) ((withFlags (with8 [(idLhs, 0x00#8)] []) false true false).setData 0x00#8)) (fun t => t.reg idAlu == 0xFF#8 && flags false true false t) = true := by decide

/-- 42_alu.md, vector of 95_test_vectors.md section 2.5. -/
theorem test_aluSbb_2 :
    gives (exec (.aluSbb 0x6#4 1#3) ((withFlags (with8 [(idLhs, 0x80#8)] []) false true false).setData 0x7F#8)) (fun t => t.reg idAlu == 0x00#8 && flags true false true t) = true := by decide

/-- 42_alu.md, vector of 95_test_vectors.md section 2.5. -/
theorem test_aluAnd :
    gives (exec (.aluAnd 0x6#4 1#3) ((withFlags (with8 [(idLhs, 0xF0#8)] []) false true false).setData 0x0F#8)) (fun t => t.reg idAlu == 0x00#8 && flags true false false t) = true := by decide

/-- 42_alu.md, vector of 95_test_vectors.md section 2.5. -/
theorem test_aluAnd_2 :
    gives (exec (.aluAnd 0x6#4 1#3) ((withFlags (with8 [(idLhs, 0x3C#8)] []) false false false).setData 0x0F#8)) (fun t => t.reg idAlu == 0x0C#8 && flags false false false t) = true := by decide

/-- 42_alu.md, vector of 95_test_vectors.md section 2.5. -/
theorem test_aluOr :
    gives (exec (.aluOr 0x6#4 1#3) ((withFlags (with8 [(idLhs, 0x30#8)] []) false true false).setData 0x05#8)) (fun t => t.reg idAlu == 0x35#8 && flags false false false t) = true := by decide

/-- 42_alu.md, vector of 95_test_vectors.md section 2.5. -/
theorem test_aluXor :
    gives (exec (.aluXor 0x6#4 1#3) ((withFlags (with8 [(idLhs, 0x5A#8)] []) false true false).setData 0x5A#8)) (fun t => t.reg idAlu == 0x00#8 && flags true false false t) = true := by decide

/-- 42_alu.md, vector of 95_test_vectors.md section 2.5. -/
theorem test_aluCmp :
    gives (exec (.aluCmp 0x6#4 1#3) ((withFlags (with8 [(idLhs, 0x01#8)] []) false true false).setData 0x80#8)) (fun t => t.reg idAlu == 0x80#8 && flags false true true t) = true := by decide

/-- 42_alu.md, vector of 95_test_vectors.md section 2.5. -/
theorem test_aluCmp_2 :
    gives (exec (.aluCmp 0x6#4 1#3) ((withFlags (with8 [(idLhs, 0x20#8)] []) false false false).setData 0x20#8)) (fun t => t.reg idAlu == 0x20#8 && flags true false false t) = true := by decide

/-- 42_alu.md, vector of 95_test_vectors.md section 2.5. -/
theorem test_aluInc :
    gives (exec (.aluInc 0x6#4 1#3) ((withFlags (with8 [(idLhs, 0x00#8)] []) false false false).setData 0x7F#8)) (fun t => t.reg idAlu == 0x80#8 && flags false false true t) = true := by decide

/-- 42_alu.md, vector of 95_test_vectors.md section 2.5. -/
theorem test_aluInc_2 :
    gives (exec (.aluInc 0x6#4 1#3) ((withFlags (with8 [(idLhs, 0x00#8)] []) false false false).setData 0xFF#8)) (fun t => t.reg idAlu == 0x00#8 && flags true true false t) = true := by decide

/-- 42_alu.md, vector of 95_test_vectors.md section 2.5. -/
theorem test_aluDec :
    gives (exec (.aluDec 0x6#4 1#3) ((withFlags (with8 [(idLhs, 0x00#8)] []) false false false).setData 0x80#8)) (fun t => t.reg idAlu == 0x7F#8 && flags false false true t) = true := by decide

/-- 42_alu.md, vector of 95_test_vectors.md section 2.5. -/
theorem test_aluDec_2 :
    gives (exec (.aluDec 0x6#4 1#3) ((withFlags (with8 [(idLhs, 0x00#8)] []) false false false).setData 0x00#8)) (fun t => t.reg idAlu == 0xFF#8 && flags false true false t) = true := by decide

/-- 42_alu.md, vector of 95_test_vectors.md section 2.5. -/
theorem test_aluNot :
    gives (exec (.aluNot 0x6#4 1#3) ((withFlags (with8 [(idLhs, 0x00#8)] []) false true false).setData 0x0F#8)) (fun t => t.reg idAlu == 0xF0#8 && flags false false false t) = true := by decide

/-- 42_alu.md, vector of 95_test_vectors.md section 2.5. -/
theorem test_aluShl :
    gives (exec (.aluShl 0x6#4 1#3) ((withFlags (with8 [(idLhs, 0x00#8)] []) false false false).setData 0xC1#8)) (fun t => t.reg idAlu == 0x82#8 && flags false true false t) = true := by decide

/-- 42_alu.md, vector of 95_test_vectors.md section 2.5. -/
theorem test_aluShr :
    gives (exec (.aluShr 0x6#4 1#3) ((withFlags (with8 [(idLhs, 0x00#8)] []) false true false).setData 0x82#8)) (fun t => t.reg idAlu == 0x41#8 && flags false false false t) = true := by decide

/-- 42_alu.md, vector of 95_test_vectors.md section 2.5. -/
theorem test_aluShr_2 :
    gives (exec (.aluShr 0x6#4 1#3) ((withFlags (with8 [(idLhs, 0x00#8)] []) false false false).setData 0x01#8)) (fun t => t.reg idAlu == 0x00#8 && flags true true false t) = true := by decide

/-- 42_alu.md, vector of 95_test_vectors.md section 2.5. -/
theorem test_aluClr :
    gives (exec (.aluClr 0x6#4 1#3) ((withFlags (with8 [(idLhs, 0x5A#8)] []) false true false).setData 0xA5#8)) (fun t => t.reg idAlu == 0x00#8 && flags true false false t) = true := by decide

/-! ### Reference instructions: the worked examples of 44_reference_isa.md -/

/-- R332. -/
theorem test_nop :
    gives (exec .nop (ref (ram []))) (fun t => t.areg idPc == 0x0101#16 && t.cycles == 2 && t.ctrl.step == 0) = true := by decide

/-- R333. -/
theorem test_hlt :
    gives (exec .hlt (ref (ram []))) (fun t => t.areg idPc == 0x0101#16 && t.cycles == 3 && t.bus.halt) = true := by decide

/-- R334 to R337. -/
theorem test_movAImm : gives (exec (.movAImm 0x42#8) (ref (ram []))) (regPc idA 0x42#8 0x0102#16 5) = true := by decide

/-- R334 to R337. -/
theorem test_movBImm : gives (exec (.movBImm 0xA5#8) (ref (ram []))) (regPc idB 0xA5#8 0x0102#16 5) = true := by decide

/-- R334 to R337. -/
theorem test_movCImm : gives (exec (.movCImm 0x03#8) (ref (ram []))) (regPc idC 0x03#8 0x0102#16 5) = true := by decide

/-- R334 to R337. -/
theorem test_movDImm : gives (exec (.movDImm 0xFF#8) (ref (ram []))) (regPc idD 0xFF#8 0x0102#16 5) = true := by decide

/-- R338 to R343. -/
theorem test_movAB : gives (exec .movAB (with8 [(idB, 0x2A#8)] [])) (regPc idA 0x2A#8 0x0101#16 3) = true := by decide

/-- R338 to R343. -/
theorem test_movAC : gives (exec .movAC (with8 [(idC, 0x3B#8)] [])) (regPc idA 0x3B#8 0x0101#16 3) = true := by decide

/-- R338 to R343. -/
theorem test_movAD : gives (exec .movAD (with8 [(idD, 0x4C#8)] [])) (regPc idA 0x4C#8 0x0101#16 3) = true := by decide

/-- R338 to R343. -/
theorem test_movBA : gives (exec .movBA (with8 [(idA, 0x5D#8)] [])) (regPc idB 0x5D#8 0x0101#16 3) = true := by decide

/-- R338 to R343. -/
theorem test_movCA : gives (exec .movCA (with8 [(idA, 0x6E#8)] [])) (regPc idC 0x6E#8 0x0101#16 3) = true := by decide

/-- R338 to R343. -/
theorem test_movDA : gives (exec .movDA (with8 [(idA, 0x7F#8)] [])) (regPc idD 0x7F#8 0x0101#16 3) = true := by decide

/-- R344. -/
theorem test_movAMem :
    gives (exec (.movAMem 0x2000#16) (ref (ram [(0x2000, 0x5A#8)]))) (fun t => regPc idA 0x5A#8 0x0103#16 8 t && t.mar == 0x2000#16) = true := by decide

/-- R345. -/
theorem test_movMemA :
    gives (exec (.movMemA 0x2000#16) (with8 [(idA, 0x33#8)] [])) (fun t => t.mem == ram [(0x2000, 0x33#8)] && t.cycles == 8) = true := by decide

/-- R346. -/
theorem test_movBMem :
    gives (exec (.movBMem 0x2000#16) (ref (ram [(0x2000, 0xA5#8)]))) (regPc idB 0xA5#8 0x0103#16 8) = true := by decide

/-- R347. -/
theorem test_movMemB :
    gives (exec (.movMemB 0x2000#16) (with8 [(idB, 0x44#8)] [])) (fun t => t.mem == ram [(0x2000, 0x44#8)] && t.cycles == 8) = true := by decide

/-- R348 to R350. -/
theorem test_movSpImm :
    gives (exec (.movSpImm 0x8000#16) (ref (ram []))) (fun t => t.areg idSp == 0x8000#16 && t.areg idPc == 0x0103#16 && t.cycles == 7) = true := by decide

/-- R348 to R350. -/
theorem test_movSiImm :
    gives (exec (.movSiImm 0x1234#16) (ref (ram []))) (fun t => t.areg idSi == 0x1234#16 && t.areg idPc == 0x0103#16 && t.cycles == 7) = true := by decide

/-- R348 to R350. -/
theorem test_movDiImm :
    gives (exec (.movDiImm 0xABCD#16) (ref (ram []))) (fun t => t.areg idDi == 0xABCD#16 && t.areg idPc == 0x0103#16 && t.cycles == 7) = true := by decide

/-- R351, corner. -/
theorem test_movASiInc :
    gives (exec .movASiInc (with16 (ref (ram [(0xFFFF, 0x11#8)])) [(idSi, 0xFFFF#16)])) (fun t => regPc idA 0x11#8 0x0101#16 4 t && t.areg idSi == 0 && flags true true false t) = true := by decide

/-- R352. -/
theorem test_movDiIncA :
    gives (exec .movDiIncA (with16 (with8 [(idA, 0x88#8)] []) [(idDi, 0x3000#16)])) (fun t => t.mem == ram [(0x3000, 0x88#8)] && t.areg idDi == 0x3001#16 && t.cycles == 4) = true := by decide

/-- T-RI-2. -/
theorem test_movSiMem :
    gives (exec (.movSiMem 0xFFFF#16) (ref (ram [(0x0000, 0x12#8), (0xFFFF, 0x34#8)]))) (fun t => t.areg idSi == 0x1234#16 && t.areg idTx == 0xFFFF#16 && t.mar == 0 && flags true true false t && t.cycles == 10) = true := by decide

/-- T-RI-3. -/
theorem test_pushA :
    gives (exec .pushA (with16 (with8 [(idA, 0x99#8)] []) [(idSp, 0x0001#16)])) (fun t => t.mem == ram [(0x0001, 0x99#8)] && t.areg idSp == 0 && flags true false false t && t.cycles == 4) = true := by decide

/-- R355. -/
theorem test_popA :
    gives (exec .popA (with16 (ref (ram [(0x8000, 0x99#8)])) [(idSp, 0x7FFF#16)])) (fun t => regPc idA 0x99#8 0x0101#16 5 t && t.areg idSp == 0x8000#16 && t.mar == 0x8000#16) = true := by decide

/-- R356. -/
theorem test_addAB :
    gives (exec .addAB (withFlags (with8 [(idA, 0x7F#8), (idB, 0x01#8)] []) false false false)) (fun t => regPc idA 0x80#8 0x0101#16 5 t && flags false false true t) = true := by decide

/-- R357. -/
theorem test_adcAB :
    gives (exec .adcAB (withFlags (with8 [(idA, 0xFF#8), (idB, 0x00#8)] []) false true false)) (fun t => regPc idA 0x00#8 0x0101#16 5 t && flags true true false t) = true := by decide

/-- R358. -/
theorem test_subAB :
    gives (exec .subAB (withFlags (with8 [(idA, 0x03#8), (idB, 0x05#8)] []) false false false)) (fun t => regPc idA 0xFE#8 0x0101#16 5 t && flags false true false t) = true := by decide

/-- R359. -/
theorem test_sbbAB :
    gives (exec .sbbAB (withFlags (with8 [(idA, 0x80#8), (idB, 0x7F#8)] []) false true false)) (fun t => regPc idA 0x00#8 0x0101#16 5 t && flags true false true t) = true := by decide

/-- R360. -/
theorem test_andAB :
    gives (exec .andAB (withFlags (with8 [(idA, 0xF0#8), (idB, 0x0F#8)] []) false true false)) (fun t => regPc idA 0x00#8 0x0101#16 5 t && flags true false false t) = true := by decide

/-- R361. -/
theorem test_orAB :
    gives (exec .orAB (withFlags (with8 [(idA, 0x30#8), (idB, 0x05#8)] []) false true false)) (fun t => regPc idA 0x35#8 0x0101#16 5 t && flags false false false t) = true := by decide

/-- R362. -/
theorem test_xorAB :
    gives (exec .xorAB (withFlags (with8 [(idA, 0xFF#8), (idB, 0x0F#8)] []) false false false)) (fun t => regPc idA 0xF0#8 0x0101#16 5 t && flags false false false t) = true := by decide

/-- R363. -/
theorem test_cmpAB :
    gives (exec .cmpAB (with8 [(idA, 0x10#8), (idB, 0x20#8)] [])) (fun t => regPc idA 0x10#8 0x0101#16 4 t && flags false true false t && t.reg idAlu == 0x20#8 && t.reg idLhs == 0x10#8) = true := by decide

/-- R364. -/
theorem test_incA :
    gives (exec .incA (withFlags (with8 [(idA, 0x7F#8), (idB, 0x00#8)] []) false false false)) (fun t => regPc idA 0x80#8 0x0101#16 4 t && flags false false true t) = true := by decide

/-- R365. -/
theorem test_decA :
    gives (exec .decA (withFlags (with8 [(idA, 0x80#8), (idB, 0x00#8)] []) false false false)) (fun t => regPc idA 0x7F#8 0x0101#16 4 t && flags false false true t) = true := by decide

/-- R366. -/
theorem test_notA :
    gives (exec .notA (withFlags (with8 [(idA, 0x0F#8), (idB, 0x00#8)] []) false true false)) (fun t => regPc idA 0xF0#8 0x0101#16 4 t && flags false false false t) = true := by decide

/-- R367. -/
theorem test_shlA :
    gives (exec .shlA (withFlags (with8 [(idA, 0x80#8), (idB, 0x00#8)] []) false false false)) (fun t => regPc idA 0x00#8 0x0101#16 4 t && flags true true false t) = true := by decide

/-- R368. -/
theorem test_shrA :
    gives (exec .shrA (withFlags (with8 [(idA, 0x82#8), (idB, 0x00#8)] []) false true false)) (fun t => regPc idA 0x41#8 0x0101#16 4 t && flags false false false t) = true := by decide

/-- R369. -/
theorem test_clrA :
    gives (exec .clrA (withFlags (with8 [(idA, 0x99#8), (idB, 0x00#8)] []) false true false)) (fun t => regPc idA 0x00#8 0x0101#16 4 t && flags true false false t) = true := by decide

/-- R370. -/
theorem test_addAImm :
    gives (exec (.addAImm 0x10#8) (with8 [(idA, 0xF8#8)] [])) (fun t => regPc idA 0x08#8 0x0102#16 7 t && flags false true false t) = true := by decide

/-- R371. -/
theorem test_cmpAImm :
    gives (exec (.cmpAImm 0x41#8) (with8 [(idA, 0x41#8)] [])) (fun t => regPc idA 0x41#8 0x0102#16 6 t && flags true false false t) = true := by decide

/-- R372. -/
theorem test_jmp :
    gives (exec (.jmp 0x0200#16) (ref (ram []))) (fun t => t.areg idPc == 0x0200#16 && t.cycles == 7) = true := by decide

/-- R373 to R377, taken. -/
theorem test_jz :
    gives (exec (.jz 0x0200#16) (withFlags (ref (ram [])) true false false)) (fun t => t.areg idPc == 0x0200#16 && t.cycles == 7) = true := by decide

/-- R373 to R377, not taken. -/
theorem test_jz_not_taken :
    gives (exec (.jz 0x0200#16) (withFlags (ref (ram [])) false true true)) (fun t => t.areg idPc == 0x0103#16 && t.cycles == 6) = true := by decide

/-- R373 to R377, taken. -/
theorem test_jnz :
    gives (exec (.jnz 0x0200#16) (withFlags (ref (ram [])) false true true)) (fun t => t.areg idPc == 0x0200#16 && t.cycles == 7) = true := by decide

/-- R373 to R377, not taken. -/
theorem test_jnz_not_taken :
    gives (exec (.jnz 0x0200#16) (withFlags (ref (ram [])) true false false)) (fun t => t.areg idPc == 0x0103#16 && t.cycles == 6) = true := by decide

/-- R373 to R377, taken. -/
theorem test_jc :
    gives (exec (.jc 0x0200#16) (withFlags (ref (ram [])) false true false)) (fun t => t.areg idPc == 0x0200#16 && t.cycles == 7) = true := by decide

/-- R373 to R377, not taken. -/
theorem test_jc_not_taken :
    gives (exec (.jc 0x0200#16) (withFlags (ref (ram [])) true false true)) (fun t => t.areg idPc == 0x0103#16 && t.cycles == 6) = true := by decide

/-- R373 to R377, taken. -/
theorem test_jnc :
    gives (exec (.jnc 0x0200#16) (withFlags (ref (ram [])) true false true)) (fun t => t.areg idPc == 0x0200#16 && t.cycles == 7) = true := by decide

/-- R373 to R377, not taken. -/
theorem test_jnc_not_taken :
    gives (exec (.jnc 0x0200#16) (withFlags (ref (ram [])) false true false)) (fun t => t.areg idPc == 0x0103#16 && t.cycles == 6) = true := by decide

/-- R373 to R377, taken. -/
theorem test_jv :
    gives (exec (.jv 0x0200#16) (withFlags (ref (ram [])) false false true)) (fun t => t.areg idPc == 0x0200#16 && t.cycles == 7) = true := by decide

/-- R373 to R377, not taken. -/
theorem test_jv_not_taken :
    gives (exec (.jv 0x0200#16) (withFlags (ref (ram [])) true true false)) (fun t => t.areg idPc == 0x0103#16 && t.cycles == 6) = true := by decide

/-- R378. -/
theorem test_call :
    gives (exec (.call 0x0200#16) (with16 (ref (ram [])) [(idSp, 0x8000#16)])) (fun t => t.mem == ram [(0x7FFF, 0x03#8), (0x8000, 0x01#8)] && t.areg idSp == 0x7FFE#16 && t.areg idPc == 0x0200#16 && t.mar == 0x7FFF#16 && t.cycles == 11) = true := by decide

/-- R379. -/
theorem test_ret :
    gives (exec .ret (with16 (ref (ram [(0x7FFF, 0x03#8), (0x8000, 0x01#8)])) [(idSp, 0x7FFE#16)])) (fun t => t.areg idPc == 0x0103#16 && t.areg idSp == 0x8000#16 && t.cycles == 8) = true := by decide

/-- R380. -/
theorem test_outA :
    gives (exec .outA (with8 [(idA, 0x48#8)] [])) (fun t => t.outputs == [(channelOut, 0x48#8)] && t.cycles == 3) = true := by decide

/-- R381. -/
theorem test_inA :
    gives (exec .inA ((ref (ram [])).scheduleInput channelIn 0x61#8)) (regPc idA 0x61#8 0x0101#16 3) = true := by decide

/-! ### The machine -/

/-- The first instruction after reset, placed where `step` takes it. -/
theorem test_step_from_reset :
    gives (step (State.reset.withFetchWord 16 0x4210)) (regPc idA 0x42#8 0x0002#16 5) = true := by decide

/-- The same for a microword (R230). -/
theorem test_step_microword_from_reset :
    gives (step (State.reset.withFetchWord 24 0x800008)) (fun t => t.bus.halt && t.cycles == 1) = true := by decide

/-- T-RI-5: an opcode with no record. -/
theorem test_no_record :
    gives (step (running (ref (ram [(0x0100, 0x02#8)])))) (fun t => gives (step t) fun u =>
      u.fault == some (.error (.noMicroCode 0x02#8) 1 .high idCtrl) && u.areg idPc == 0x0101#16 && u.ctrl.ir == 0x02#8 &&
      u.ctrl.step == 1 && u.cycles == 1) = true := by decide

/-- T-LN-3. -/
theorem test_nmi : refuses (exec .nop ((ref (ram [])).assertNmi)) .nmiAsserted = true := by decide

/-- T-RS-1. -/
theorem test_reset_keeps_memory : ((ref banks).raise (.protectedMemory 0#16) .high idMem).resetMachine.mem = banks := rfl

/-- T-MM-6. -/
theorem test_load_empty : refuses (State.reset.loadImage 0 [] 0x0000#16 true) .memoryRangeOverlap = true := by decide

/-- T-MM-6. -/
theorem test_load_wraps :
    refuses (State.reset.loadImage 1 (List.replicate 16 0x00#8) 0xFFF8#16 true) .memoryRangeOverlap = true := by decide

/-- R404: a stop at the cycle boundary inside an instruction ends the run there. -/
theorem test_stop_inside_instruction :
    gives (step ((running (ref (ram [(0x0100, 0x10#8)]))).scheduleRequest 1 .stop)) (fun t =>
      t.cycles == 1 && t.clock.running &&
      gives (step t) (fun u => u.cycles == 1 && !u.clock.running && u.ctrl.step == 1)) = true := by decide

/-- R7, R251: a harness whose ALU operand is an address register runs no cycle. -/
theorem test_cycle_wide_operand :
    refuses ({ ref (ram []) with wiring := { emptyWiring with components :=
      [{ id := 0xA#4, aliasId := none, name := "SI", kind := .addressRegister true },
       { id := 0x6#4, aliasId := none, name := "ALU", kind := .alu 0xA#4 }] } }.manualCycle) .aluWideOperand = true := by decide

/-- R7: a controller whose ports are not wired runs no cycle. -/
theorem test_cycle_ports :
    refuses ({ ref (ram []) with wiring := { emptyWiring with components :=
      [{ id := 0x7#4, aliasId := none, name := "CU", kind := .controller }] } }.manualCycle) .badWiring = true := by decide

/-- R400, R409: the times of host operations. -/
theorem test_times :
    refuses (State.setRunMode .breakAtClock (running (ref (ram [])))) .hostOperationNotNow = true ∧
    refuses (ref (ram [])).stop .hostOperationNotNow = true ∧ gives (State.start none (ref (ram []))) (fun t => !t.hasRun) = true ∧
    gives (State.run 0x0100#16 (ref (ram []))) (fun t => t.hasRun && t.clock.running) = true := by decide

/-- T-CLK-1. -/
theorem test_tick : tick 1 = 500000 ∧ tick 1000 = 500 ∧ tick 100 = 5000 := by decide
/-! ### Witnesses: for every obligation with hypotheses, states and operands that meet them -/

/-- An outcome that `gives` something is a next state. -/
theorem next_of_gives {o : Host.Outcome State Fault Refusal} {p : State → Bool} (h : gives o p = true) :
    ∃ t, o = .next t ∧ p t = true := by
  cases o with
  | next t => exact ⟨t, rfl, h⟩
  | fault _ => cases h
  | refused _ => cases h

/-- The reference machine at 0x0100 is at the start of an instruction. -/
theorem ref_atStart (m : Memory) : (ref m).atStart := ⟨rfl, ⟨rfl, rfl⟩, rfl, rfl⟩

/-- A running clock that nothing stops. -/
theorem ref_turning (m : Memory) : (running (ref m)).turning :=
  ⟨rfl, rfl, rfl, rfl, (by intro h; cases h), rfl⟩

/-- Its frequency is legal, whatever CLOCK_KHZ_DEFAULT is. -/
theorem ref_invariant (m : Memory) (h : m.wf = true) : (running (ref m)).invariant := by
  refine ⟨(by decide : referenceWiring.wf = true), h, rfl, ?_⟩
  show (decide (0 < Config.clockKhzDefaultPred.val + 1) && decide (Config.clockKhzDefaultPred.val + 1 ≤ 1000)) = true
  have := Config.clockKhzDefaultPred.isLt
  simp only [Bool.and_eq_true, decide_eq_true_eq]
  omega

theorem witness_DecodeEncodeRoundTrip : (Instr.ioOut 0x0#4 0x0#4 0x08#7).wellFormed = true ∧
    (Instr.xdata 0x1#4 0x5#4 0x0E#7).wellFormed = true ∧ (Instr.movSiMem 0xFFFF#16).wellFormed = true := by decide

theorem witness_DecodedCodeReencodes : decode (.control 0xFFFFFF#24) = .ok (.halt 0xFF#8 0xF#4 0xF#4 0x7F#7) ∧
    decode (.program [0x57#8]) = .ok .ret := ⟨rfl, rfl⟩

/-- A mask of 0, and the lowest mask bit that names no flag. -/
theorem witness_ConditionSemantics : condMet .nand 0x00#8 (flagsByte true true true) = false ∧ (0x08#8 : Byte) >>> 3 ≠ 0x00#8 ∧
    condMet .and 0x08#8 (flagsByte true true true) = false := by decide

/-- A machine with this runner in flight at this step. -/
def inFlight (step : Nat) (r : Runner) : State :=
  (ref (ram [])).setCtrl { (ref (ram [])).ctrl with step := step, runner := some r }

/-- A runner with one table step and a condition. -/
def runnerOf (start : Nat) (op : CondOp) (complete : Bool) : Runner :=
  { opcode := 0x51#8, mnemonic := "JZ", mode := .immediateWord, target := 0x0#4, condition := 0x01#8, conditionOp := op,
    steps := prologue referenceWiring .immediateWord ++ [MicroStep.unpack 0x008702#24], tableStart := start,
    complete := complete }

/-- Each way an instruction ends, and one in which it does not. -/
theorem witness_FallingEdge : (ref (ram [])).wiring.hasController = true ∧ (ref (ram [])).ctrl.runner = none ∧
    (inFlight 5 (runnerOf 4 .and false)).fallingPhase.ctrl.step = 0 ∧
    (inFlight 2 (runnerOf 4 .and true)).fallingPhase.ctrl.step = 0 ∧
    (inFlight 6 (runnerOf 4 .none false)).fallingPhase.ctrl.step = 0 ∧
    (inFlight 5 (runnerOf 4 .none false)).fallingPhase.ctrl.step = 6 := by decide

theorem witness_MemoryReadAfterWrite : (ram []).wf = true ∧
    (ram []).write 0xFFFF#16 0x01#8 = .stored (ram [(0xFFFF, 0x01#8)]) ∧
    (ram [(0xFFFF, 0x01#8)]).write 0xFFFF#16 0x00#8 = .stored (ram []) := by decide

/-- An image that ends at the top of memory, beside two ranges. -/
theorem witness_LoadImageInstalls : (ref banks).mem.wf = true ∧
    gives ((ref banks).loadImage 2 [0x01#8, 0x02#8] 0xFFFE#16 false) (fun t => t.mem.read 0xFFFF#16 == some 0x02#8 &&
      t.mem.read 0x8003#16 == some 0xC3#8 && t.mem.read 0xFFFD#16 == none) = true ∧
    (ref banks).mem.rangeOf 0x8003#16 = some { number := 1, start := 0x8000, length := 4, writable := false } ∧
    (ref banks).mem.rangeOf 0xFFFD#16 = none := by decide

theorem witness_DataTransferLatches : (ref (ram [])).ready ∧ (ref (ram [])).sourceByte 0xE#4 false = some 0x00#8 ∧
    (ref (ram [])).sourceByte 0x6#4 false = some 0x00#8 ∧ (ref (ram [])).sourceByte 0xA#4 true = some 0x00#8 ∧
    (ref (ram [])).latchesPlainly 0x0#4 = true ∧ (ref (ram [])).latchesPlainly 0xF#4 = true ∧
    (inFlight 2 (runnerOf 4 .none false)).latchesPlainly 0x7#4 = true := ⟨⟨rfl, rfl⟩, rfl, rfl, rfl, rfl, rfl, rfl⟩

theorem witness_DataTransferStores : ((ref banks).setMar 0x00FF#16).ready ∧ banks.wf = true ∧
    ((ref banks).setMar 0x00FF#16).sourceByte 0x0#4 false = some 0x00#8 ∧
    ((ref banks).setMar 0x00FF#16).resolve 0xE#4 = .memoryData 0xE#4 ∧ banks.writableAt 0x00FF#16 = true :=
  ⟨⟨rfl, rfl⟩, by decide, rfl, rfl, by decide⟩

/-- An opcode with a record, and one without. -/
theorem witness_OpcodeLatch : (ref (ram [])).ready ∧ (ref (ram [])).sourceByte 0xE#4 false = some 0x00#8 ∧
    (ref (ram [])).resolve 0x7#4 = .controller 0x7#4 ∧ (ref (ram [])).ctrl.runner = none ∧
    referenceMicrocode 0x00#8 = some nopRecord ∧ (with8 [(idA, 0x02#8)] []).sourceByte 0x0#4 false = some 0x02#8 ∧
    referenceMicrocode 0x02#8 = none := ⟨⟨rfl, rfl⟩, rfl, rfl, rfl, rfl, rfl, rfl⟩

theorem witness_AluOperations : (ref (ram [])).ready ∧ (ref (ram [])).resolve 0x5#4 = .alu idAlu idLhs ∧
    (ref (ram [])).sourceByte 0x1#4 true = some 0x00#8 := ⟨⟨rfl, rfl⟩, rfl, rfl⟩

/-- Both codes that name no operation. -/
theorem witness_AluUnknownOperation : (ref (ram [])).ready ∧ (ref (ram [])).resolve 0x5#4 = .alu idAlu idLhs ∧
    14 ≤ ((0x0E#7 : BitVec 7).extractLsb' 0 4).toNat ∧ 14 ≤ ((0x7F#7 : BitVec 7).extractLsb' 0 4).toNat ∧
    (ref (ram [])).sourceByte 0x1#4 true = some 0x00#8 := ⟨⟨rfl, rfl⟩, rfl, by decide, by decide, rfl⟩

theorem witness_AddressTransfer : (ref (ram [])).ready ∧
    addressRefusal ((ref (ram [])).resolve 0x8#4) ((ref (ram [])).resolve 0xF#4) (plainFlags 0x01#7) = none ∧
    addressRefusal ((ref (ram [])).resolve 0x0#4) ((ref (ram [])).resolve 0x0#4) (plainFlags 0x03#7) = none :=
  ⟨⟨rfl, rfl⟩, rfl, rfl⟩

theorem witness_OutputTransfer : (ref (ram [])).ready ∧ ioOutBit 0x08#7 = true ∧
    ioRefusal ((ref (ram [])).resolve 0x0#4) = none ∧ ioRefusal ((ref (ram [])).resolve 0x6#4) = none :=
  ⟨⟨rfl, rfl⟩, rfl, rfl, rfl⟩

theorem witness_InputTransfer : (ref (ram [])).ready ∧ ioOutBit 0x77#7 = false ∧
    ioRefusal ((ref (ram [])).resolve 0x0#4) = none ∧ ioRefusal ((ref (ram [])).resolve 0x6#4) = none :=
  ⟨⟨rfl, rfl⟩, rfl, rfl, rfl⟩

theorem witness_NoTransfer : (ref (ram [])).ready := ⟨rfl, rfl⟩

/-- Kinds of no transfer, with HALT and without. -/
theorem witness_UnknownStepKind : (ref (ram [])).ready ∧
    [0x00#8, 0x03#8, 0x10#8, 0xFF#8].all (fun k => k != 0x01#8 && k != 0x02#8 && k != 0x04#8 && k != 0x08#8) = true ∧
    decodeStep ⟨0x00#8, 0x0#4, 0x1#4, 0x80#8⟩ = .ok (.halt 0x00#8 0x0#4 0x1#4 0#7) ∧
    decodeStep ⟨0xFF#8, 0x0#4, 0x1#4, 0x7F#8⟩ = .error (.unknownKind 0xFF#8) := ⟨⟨rfl, rfl⟩, by decide, rfl, rfl⟩

theorem witness_MemoryReadTrap : ((ref banks).setMar 0x0100#16).ready ∧
    stepOf (.aluAdd 0xE#4 1#3) = some (MicroStep.unpack 0x105E01#24) ∧
    ((ref banks).setMar 0x0100#16).resolve 0xE#4 = .memoryData 0xE#4 ∧ banks.rangeOf 0x0100#16 = none :=
  ⟨⟨rfl, rfl⟩, rfl, rfl, by decide⟩

/-- No range, and a read-only one at its last byte. -/
theorem witness_MemoryWriteTrap : ((ref banks).setMar 0x8004#16).ready ∧
    ((ref banks).setMar 0x8003#16).sourceByte 0x0#4 false = some 0x00#8 ∧
    ((ref banks).setMar 0x8003#16).resolve 0xE#4 = .memoryData 0xE#4 ∧ banks.rangeOf 0x8004#16 = none ∧
    banks.rangeOf 0x8003#16 = some { number := 1, start := 0x8000, length := 4, writable := false } :=
  ⟨⟨rfl, rfl⟩, rfl, rfl, by decide, by decide⟩

/-- Each check of R436 on the reference wiring; INC and DEC with a memory port is the first check's. -/
theorem witness_RoleRefusals : (ref (ram [])).ready ∧
    refuses (exec (.xaddr 0xA#4 0xE#4 0x03#7) (ref (ram []))) .incAndDec = true ∧
    refuses (exec (.xaddr 0xE#4 0x5#4 0x03#7) (ref (ram []))) .memoryPortRole = true ∧
    refuses (exec (.xaddr 0xA#4 0x5#4 0x00#7) (ref (ram []))) .aluAddressTransfer = true ∧
    refuses (exec (.xaddr 0xA#4 0x7#4 0x01#7) (ref (ram []))) .controllerRole = true ∧
    refuses (exec (.ioOut 0xC#4 0x0#4 0x08#7) (ref (ram []))) .ioRegisterSide = true ∧
    refuses (exec (.ioIn 0x5#4 0x0#4 0x00#7) (ref (ram []))) .ioRegisterSide = true ∧
    refuses (exec (.ioIn 0x7#4 0x0#4 0x00#7) (ref (ram []))) .controllerRole = true ∧
    refuses (exec (.ioOut 0xF#4 0x0#4 0x08#7) (ref (ram []))) .memoryPortRole = true :=
  ⟨⟨rfl, rfl⟩, by decide⟩

theorem witness_NmiRefused : (ref (ram [])).assertNmi.fault = none ∧ (ref (ram [])).assertNmi.bus.nmi = true ∧
    ∃ t, exec .nop (ref (ram [])) = .next t ∧ (fun t : State => !t.bus.nmi) t = true :=
  ⟨rfl, rfl, next_of_gives (by decide)⟩

/-- The statements of instructions with no hypothesis but the start (ControlInstructions, ByteMoves, ImmediateWordMoves,
AluTwoOperand, Compare, AddImmediate, AluOneOperand, Jumps, InOut). -/
theorem witness_atStart : (ref (ram [])).atStart := ref_atStart _

/-- A pc at the top of memory, so that the fetch wraps. -/
theorem witness_atStart_wrap : (with16 (ref (ram [])) [(idPc, 0xFFFF#16)]).atStart ∧
    (with16 (ref (ram [])) [(idPc, 0xFFFF#16)]).fetchWraps 1 = true := ⟨⟨rfl, ⟨rfl, rfl⟩, rfl, rfl⟩, by decide⟩

theorem witness_AbsoluteLoads : (ref banks).atStart ∧ (ref banks).mem.read 0x8003#16 = some 0xC3#8 :=
  ⟨ref_atStart _, by decide⟩

theorem witness_AbsoluteStores : (ref banks).atStart ∧ (ref banks).mem.wf = true ∧
    (ref banks).mem.writableAt 0x00FF#16 = true := ⟨ref_atStart _, by decide, by decide⟩

theorem witness_PostIncrementLoad : (ref banks).atStart ∧
    (ref banks).mem.read ((ref banks).areg idSi) = some 0x00#8 := ⟨ref_atStart _, by decide⟩

theorem witness_PostIncrementStore : (ref banks).atStart ∧ (ref banks).mem.wf = true ∧
    (ref banks).mem.writableAt ((ref banks).areg idDi) = true := ⟨ref_atStart _, by decide, by decide⟩

theorem witness_WordLoad : (ref (ram [])).atStart ∧ (ref (ram [])).mem.read 0xFFFF#16 = some 0x00#8 ∧
    (ref (ram [])).mem.read (0xFFFF#16 + 1) = some 0x00#8 := ⟨ref_atStart _, by decide, by decide⟩

theorem witness_PushOntoStack : (ref banks).atStart ∧ (ref banks).mem.wf = true ∧
    (ref banks).mem.writableAt ((ref banks).areg idSp) = true := ⟨ref_atStart _, by decide, by decide⟩

theorem witness_PopFromStack : (ref banks).atStart ∧ (ref banks).mem.read ((ref banks).areg idSp + 1) = some 0x00#8 :=
  ⟨ref_atStart _, by decide⟩

theorem witness_Call : (ref (ram [])).atStart ∧ (ref (ram [])).mem.wf = true ∧
    (ref (ram [])).mem.writableAt ((ref (ram [])).areg idSp) = true ∧
    (ref (ram [])).mem.writableAt ((ref (ram [])).areg idSp - 1) = true :=
  ⟨ref_atStart _, by decide, by decide, by decide⟩

theorem witness_Return : (ref banks).atStart ∧ (ref banks).mem.read ((ref banks).areg idSp + 1) = some 0x00#8 ∧
    (ref banks).mem.read ((ref banks).areg idSp + 2) = some 0x00#8 := ⟨ref_atStart _, by decide, by decide⟩

/-- For each clause a register or an address at the edge of the low range: the first byte past it is in no range. -/
theorem witness_LoadTrap : (ref banks).atStart ∧ banks.rangeOf 0x0100#16 = none ∧
    (with16 (ref banks) [(idSi, 0x0100#16)]).atStart ∧ (with16 (ref banks) [(idSi, 0x0100#16)]).areg idSi = 0x0100#16 ∧
    banks.read 0x00FF#16 = some 0x00#8 ∧ (0x00FF#16 + 1 : Word) = 0x0100#16 ∧
    (with16 (ref banks) [(idSp, 0x00FF#16)]).atStart ∧ (with16 (ref banks) [(idSp, 0x00FF#16)]).areg idSp + 1 = 0x0100#16 ∧
    (with16 (ref banks) [(idSp, 0x00FE#16)]).atStart ∧ (with16 (ref banks) [(idSp, 0x00FE#16)]).areg idSp + 1 = 0x00FF#16 ∧
    (with16 (ref banks) [(idSp, 0x00FE#16)]).areg idSp + 2 = 0x0100#16 := by
  refine ⟨ref_atStart _, by decide, ⟨rfl, ⟨rfl, rfl⟩, rfl, rfl⟩, by decide, by decide, by decide, ⟨rfl, ⟨rfl, rfl⟩, rfl, rfl⟩,
    by decide, ⟨rfl, ⟨rfl, rfl⟩, rfl, rfl⟩, by decide, by decide⟩

/-- A read-only range above a writable byte, so that the second byte of a CALL is the protected one. -/
def romBelowRam : Memory :=
  { ranges := [{ number := 0, start := 0x8000, length := 4, writable := false },
               { number := 1, start := 0x8004, length := 1, writable := true }], cells := [] }

/-- Both errors; DI and the stack pointer in the read-only range; a stack pointer one byte above it. -/
theorem witness_StoreTrap : (with16 (ref banks) [(idSp, 0x8000#16), (idDi, 0x8000#16)]).atStart ∧
    (with16 (ref banks) [(idSp, 0x8000#16), (idDi, 0x8000#16)]).areg idSp = 0x8000#16 ∧
    (with16 (ref banks) [(idSp, 0x8000#16), (idDi, 0x8000#16)]).areg idDi = 0x8000#16 ∧ banks.rangeOf 0x0100#16 = none ∧
    banks.rangeOf 0x8000#16 = some { number := 1, start := 0x8000, length := 4, writable := false } ∧
    (with16 (ref romBelowRam) [(idSp, 0x8004#16)]).atStart ∧ romBelowRam.wf = true ∧
    romBelowRam.writableAt ((with16 (ref romBelowRam) [(idSp, 0x8004#16)]).areg idSp) = true ∧
    romBelowRam.rangeOf ((with16 (ref romBelowRam) [(idSp, 0x8004#16)]).areg idSp - 1) =
      some { number := 0, start := 0x8000, length := 4, writable := false } := by
  refine ⟨⟨rfl, ⟨rfl, rfl⟩, rfl, rfl⟩, by decide, by decide, by decide, by decide, ⟨rfl, ⟨rfl, rfl⟩, rfl, rfl⟩, by decide,
    by decide, by decide⟩

/-- A range 0x0000..0x0003 that holds `MOV A,[0x2000]` and nothing else. -/
def trapProgram : State :=
  running (with16 (State.reset.setMem
    { ranges := [{ number := 0, start := 0, length := 4, writable := true }],
      cells := [(0x0000, 0x20#8), (0x0002, 0x20#8)] }) [(idPc, 0x0000#16)])

/-- The machine with another run mode. -/
def inMode (m : RunMode) (s : State) : State := s.setBus { s.bus with runMode := m }

/-- A whole instruction, one refused, one that ends in an error, one that BreakAtInstruction stops after. -/
theorem witness_StepRunsDecodedInstruction : (running (ref (ram []))).turning ∧
    (running (ref (ram []))).wholeInstructions = true ∧
    decodeBytes (running (ref (ram []))).bytesAtPc = .ok (.nop, [0x00#8, 0x00#8]) ∧
    refuses (exec .nop (running (ref (ram []))).assertNmi) .nmiAsserted = true ∧ trapProgram.turning ∧
    trapProgram.wholeInstructions = true ∧ decodeBytes trapProgram.bytesAtPc = .ok (.movAMem 0x2000#16, []) ∧
    gives (exec (.movAMem 0x2000#16) trapProgram) (fun t => t.fault.isSome) = true ∧
    (inMode .breakAtInstruction (running (ref (ram [])))).turning ∧
    (inMode .breakAtInstruction (running (ref (ram [])))).wholeInstructions = true ∧
    gives (step (inMode .breakAtInstruction (running (ref (ram []))))) (fun t => t.bus.suspend && !t.clock.running) = true :=
  ⟨ref_turning _, by decide, rfl, by decide, ⟨rfl, rfl, rfl, rfl, (by intro h; cases h), rfl⟩, by decide, rfl, by decide,
    ⟨rfl, rfl, rfl, rfl, (by intro h; cases h), rfl⟩, by decide, by decide⟩

/-- The reference machine about to run with a cap. -/
def capped (n : Nat) : State := (running (ref (ram []))).setClock { (running (ref (ram []))).clock with cap := some n }

/-- A micro-step inside an instruction; the first fetch step under a cap, and under BreakAtClock. -/
theorem witness_StepRunsCurrentMicroStep : (running (inFlight 6 (runnerOf 4 .none false))).turning ∧
    (running (inFlight 6 (runnerOf 4 .none false))).wholeInstructions = false ∧
    (running (inFlight 6 (runnerOf 4 .none false))).ctrl.current referenceWiring = some (MicroStep.unpack 0x008702#24) ∧
    decodeStep (MicroStep.unpack 0x008702#24) = .ok (.xaddr 0x7#4 0x8#4 0x00#7) ∧ (capped 1).turning ∧
    (capped 1).wholeInstructions = false ∧ gives (step (capped 1)) (fun t => t.clock.cap == some 0 && t.clock.running) = true ∧
    (inMode .breakAtClock (running (ref (ram [])))).turning ∧
    (inMode .breakAtClock (running (ref (ram [])))).wholeInstructions = false ∧
    gives (step (inMode .breakAtClock (running (ref (ram []))))) (fun t => t.bus.suspend && !t.clock.running) = true :=
  ⟨⟨rfl, rfl, rfl, rfl, (by intro h; cases h), rfl⟩, by decide, rfl, rfl, ⟨rfl, rfl, rfl, rfl, (by intro h; cases h), rfl⟩,
    by decide, by decide, ⟨rfl, rfl, rfl, rfl, (by intro h; cases h), rfl⟩, by decide, by decide⟩

/-- The boundary opcodes of R382's list, at the pc. -/
theorem witness_UnassignedOpcodeTraps : (running (ref (ram [(0x0100, 0x02#8)]))).turning ∧
    (ref (ram [(0x0100, 0x02#8)])).atStart ∧ (running (ref (ram []))).bus.runMode ≠ .breakAtClock ∧
    (running (ref (ram []))).clock.cap = none ∧
    (running (ref (ram [(0x0100, 0x02#8)]))).requestBefore 2 = false ∧ (ref (ram [(0x0100, 0x02#8)])).mem.read 0x0100#16 = some 0x02#8 ∧
    [0x02#8, 0x0F#8, 0x1A#8, 0x1F#8, 0x2A#8, 0x2F#8, 0x32#8, 0x3F#8, 0x58#8, 0x5F#8, 0x62#8, 0xFF#8].all
      (fun op => (referenceMicrocode op).isNone) = true :=
  ⟨ref_turning _, ref_atStart _, by decide, rfl, rfl, by decide, by decide⟩

theorem witness_UnmappedFetchTraps : (running (ref banks)).turning ∧ (running (ref banks)).atStart ∧
    (running (ref banks)).bus.runMode ≠ .breakAtClock ∧ (running (ref banks)).clock.cap = none ∧
    (running (ref banks)).requestBefore 2 = false ∧ (running (ref banks)).mem.read ((running (ref banks)).areg idPc) = none :=
  ⟨ref_turning _, ⟨rfl, ⟨rfl, rfl⟩, rfl, rfl⟩, by decide, rfl, rfl, by decide⟩

/-- Each way the loop ends before a cycle; a request that is due, one due a cycle later, one inside 31 cycles and one after. -/
theorem witness_RunLoopStops :
    gives (step ((running (ref (ram []))).setBus { (running (ref (ram []))).bus with halt := true }))
      (fun t => !t.clock.running && t.cycles == 0) = true ∧
    gives (step (running (ref (ram []))).assertReset) (fun t => !t.clock.running && !t.bus.resetLine) = true ∧
    gives (step (running (ref (ram []))).requestStop) (fun t => !t.clock.running && !t.clock.stopRequested) = true ∧
    gives (step (capped 0)) (fun t => !t.clock.running && t.cycles == 0) = true ∧
    gives (step (ref (ram []))) (fun t => !t.clock.running) = true ∧
    step ((ref (ram [])).raise .generalError .high idMem) = .fault .generalError ∧
    ((running (ref (ram []))).scheduleRequest 0 .stop).requests = [(0, .stop)] ∧
    gives (step ((running (ref (ram []))).scheduleRequest 0 .stop)) (fun t => !t.clock.running && t.cycles == 0) = true ∧
    ((running (ref (ram []))).scheduleRequest 1 .stop).requestBefore 1 = false ∧
    ((running (ref (ram []))).scheduleRequest 30 .stop).requestBefore 31 = true ∧
    ((running (ref (ram []))).scheduleRequest 31 .stop).wholeInstructions = true :=
  ⟨by decide, by decide, by decide, by decide, by decide, rfl, rfl, by decide, by decide, by decide, by decide⟩

theorem witness_StepKeepsInvariant : (running (ref (ram []))).invariant ∧
    ∃ t, step (running (ref (ram []))) = .next t ∧ (fun t : State => t.cycles == 2) t = true :=
  ⟨ref_invariant _ (by decide), next_of_gives (by decide)⟩

theorem witness_StepKeepsReadOnlyMemory :
    (∃ t, step (running (with16 (ref banks) [(idPc, 0x0000#16)])) = .next t ∧ (fun t : State => t.cycles == 2) t = true) ∧
    banks.writableAt 0x8000#16 = false ∧ banks.writableAt 0x0100#16 = false :=
  ⟨next_of_gives (by decide), by decide, by decide⟩

theorem witness_StepLeavesHostState :
    (∃ t, step (running (ref (ram []))) = .next t ∧ (fun t : State => t.cycles == 2) t = true) ∧
    (running (ref (ram []))).bus.resetLine = false ∧ (running (ref (ram []))).requestBefore 1 = false :=
  ⟨next_of_gives (by decide), rfl, rfl⟩

theorem witness_InstructionIsItsCycles : (ref (ram [(0x0100, 0x30#8)])).atStart ∧
    decodeBytes ((ref (ram [(0x0100, 0x30#8)])).mem.readableBytes 3 0x0100#16) = .ok (.pushA, [0x00#8, 0x00#8]) :=
  ⟨ref_atStart _, rfl⟩

theorem witness_InstructionEndsAtBoundary : (ref (ram [])).atStart ∧
    bytesOf (.call 0x0200#16) = some [0x56#8, 0x00#8, 0x02#8] ∧
    ∃ t, exec (.call 0x0200#16) (ref (ram [])) = .next t ∧ (fun t : State => t.cycles == 11) t = true :=
  ⟨ref_atStart _, rfl, next_of_gives (by decide)⟩

theorem witness_ErrorStopsTheClock : trapProgram.fault = none ∧
    ∃ t, step trapProgram = .next t ∧ (fun t : State => t.fault.isSome) t = true := ⟨rfl, next_of_gives (by decide)⟩

theorem witness_FaultIsSticky : ((ref (ram [])).raise (.noMicroCode 0xFF#8) .high idCtrl).fault.isSome = true := rfl

/-- The bounds of the legal range. -/
theorem witness_SetSpeed : ((ref (ram [])).setSpeed 1).1 = true ∧ ((ref (ram [])).setSpeed 1000).1 = true ∧
    ((ref (ram [])).setSpeed 0).1 = false ∧ ((ref (ram [])).setSpeed 1001).1 = false := ⟨rfl, rfl, rfl, rfl⟩

end Sys2Proof.Tests
end

section
/-! PROOFS. The opcode map of the reference table (30_encoding.md R134, 44_reference_isa.md R382). -/

namespace Sys2Proof.Machine

/-- The opcode lies in one of the groups R134 lists: control, byte moves, memory and 16-bit moves, stack, ALU, jumps with call
and return, I/O. -/
def InOpcodeGroup (op : Byte) : Prop :=
  op.toNat ≤ 0x01 ∨ (0x10 ≤ op.toNat ∧ op.toNat ≤ 0x19) ∨ (0x20 ≤ op.toNat ∧ op.toNat ≤ 0x29) ∨
  (0x30 ≤ op.toNat ∧ op.toNat ≤ 0x31) ∨ (0x40 ≤ op.toNat ∧ op.toNat ≤ 0x4F) ∨
  (0x50 ≤ op.toNat ∧ op.toNat ≤ 0x57) ∨ (0x60 ≤ op.toNat ∧ op.toNat ≤ 0x61)

/-- A group of consecutive opcodes has a record under each of them once every number of the group has one. -/
theorem referenceMicrocode_isSome_of_group {lo hi : Nat}
    (hgroup : ∀ n ∈ Finset.Icc lo hi, (referenceMicrocode (BitVec.ofNat 8 n)).isSome = true)
    {op : Byte} (hlo : lo ≤ op.toNat) (hhi : op.toNat ≤ hi) : (referenceMicrocode op).isSome = true := by
  have hop := hgroup op.toNat (Finset.mem_Icc.2 ⟨hlo, hhi⟩)
  rwa [BitVec.ofNat_toNat, BitVec.setWidth_eq] at hop

/-- The groups hold no gap. -/
theorem referenceMicrocode_isSome_of_inOpcodeGroup {op : Byte} (h : InOpcodeGroup op) :
    (referenceMicrocode op).isSome = true := by
  obtain hcontrol | ⟨hlo, hhi⟩ | ⟨hlo, hhi⟩ | ⟨hlo, hhi⟩ | ⟨hlo, hhi⟩ | ⟨hlo, hhi⟩ | ⟨hlo, hhi⟩ := h
  · exact referenceMicrocode_isSome_of_group (lo := 0x00) (by decide) (Nat.zero_le _) hcontrol
  all_goals exact referenceMicrocode_isSome_of_group (by decide) hlo hhi

/-- The table holds no record outside the groups: each of its rows has its opcode in one of them. -/
theorem inOpcodeGroup_of_referenceMicrocode_eq_some {op : Byte} {rec : Record}
    (h : referenceMicrocode op = some rec) : InOpcodeGroup op := by
  unfold referenceMicrocode at h
  unfold InOpcodeGroup
  split at h
  case h_51 => cases h -- the opcode of no row has no record
  all_goals omega

/-- Settles O3: the groups hold no gap, and no row of the table lies outside them. -/
theorem opcodeMap : Obligations.OpcodeMap := by
  intro op
  constructor
  · intro hsome
    obtain ⟨rec, hrec⟩ := Option.isSome_iff_exists.1 hsome
    exact inOpcodeGroup_of_referenceMicrocode_eq_some hrec
  · exact referenceMicrocode_isSome_of_inOpcodeGroup

end Sys2Proof.Machine
end

section
/-! PROOFS. Values and flags of a post-increment and a post-decrement (41_transfers.md R210, R211). -/

namespace Sys2Proof.Machine

@[simp] theorem Bus.setPostFlags_z (b : Bus) (p : PostModified) : (b.setPostFlags p).z = (b.z || p.setZ) := rfl
@[simp] theorem Bus.setPostFlags_c (b : Bus) (p : PostModified) : (b.setPostFlags p).c = (b.c || p.setC) := rfl
@[simp] theorem Bus.setPostFlags_v (b : Bus) (p : PostModified) : (b.setPostFlags p).v = b.v := rfl

/-- An increment reaches 0x0000 only by the wrap from 0xFFFF. -/
theorem add_one_beq_zero (value : Word) : (value + 1 == 0x0000#16) = (value == 0xFFFF#16) := by
  rw [Bool.eq_iff_iff, beq_iff_eq, beq_iff_eq]
  exact add_eq_zero_iff_eq_neg

/-- A decrement reaches 0x0000 only from 0x0001: its wrap from 0x0000 does not. -/
theorem sub_one_beq_zero (value : Word) : (value - 1 == 0x0000#16) = (value == 0x0001#16) := by
  rw [Bool.eq_iff_iff, beq_iff_eq, beq_iff_eq]
  exact sub_eq_zero

/-- INC alone: no decrement follows, and the one wrap sets both flags. -/
theorem postModify_flagInc (value : Word) :
    postModify flagInc value =
      { value := value + 1, setZ := value == 0xFFFF#16, setC := value == 0xFFFF#16, changed := true } := by
  have hinc : hasFlag flagInc flagInc = true := by decide
  have hdec : hasFlag flagInc flagDec = false := by decide
  simp [postModify, hinc, hdec, ← add_one_beq_zero]

/-- DEC alone: no increment comes first, so nothing sets C. -/
theorem postModify_flagDec (value : Word) :
    postModify flagDec value =
      { value := value - 1, setZ := value == 0x0001#16, setC := false, changed := true } := by
  have hinc : hasFlag flagDec flagInc = false := by decide
  have hdec : hasFlag flagDec flagDec = true := by decide
  simp [postModify, hinc, hdec, ← sub_one_beq_zero]

/-- Settles O6: what INC alone and DEC alone compute, read through the flag write that only sets. -/
theorem postModifyFlags : Obligations.PostModifyFlags := by
  intro b value
  rw [postModify_flagInc, postModify_flagDec]
  refine ⟨rfl, b.setPostFlags_z _, b.setPostFlags_c _, b.setPostFlags_v _,
    rfl, b.setPostFlags_z _, ?decC, b.setPostFlags_v _⟩
  case decC => rw [Bus.setPostFlags_c, Bool.or_false] -- a decrement sets no carry

end Sys2Proof.Machine
end

section
/-! PROOFS. The flag table of the ALU's operations (42_alu.md R253 to R269). The model computes a sum or a difference exactly
and calls it an overflow when it leaves -128..127; the table reads the same off the sign bits. -/

namespace Sys2Proof.Machine

/-! ### Overflow by the sign bits -/

theorem toInt_byte_bounds (a : Byte) : -128 ≤ a.toInt ∧ a.toInt < 128 := ⟨a.le_toInt, a.toInt_lt⟩

theorem signedOverflow_eq_false_iff (t : Int) : signedOverflow t = false ↔ -128 ≤ t ∧ t < 128 := by
  simp only [signedOverflow, Bool.or_eq_false_iff, decide_eq_false_iff_not]
  omega

/-- Narrowing to a byte flips the sign of the exact value when that overflows, and only then. -/
theorem signedOverflow_eq_msb_ne {t : Int} (hlo : -256 ≤ t) (hhi : t < 256) :
    signedOverflow t = ((BitVec.ofInt 8 t).msb != decide (t < 0)) := by
  rw [Bool.eq_iff_iff, ← not_iff_not, Bool.not_eq_true, signedOverflow_eq_false_iff, BitVec.msb_eq_toInt,
    BitVec.toInt_ofInt, bne_iff_ne, not_not, decide_eq_decide, Int.bmod]
  omega

/-- Overflow by the sign bits, of any operation that can overflow only where `p` holds and whose exact value has the sign of
`a` there. -/
theorem signedOverflow_eq_and_msb_ne {t : Int} {p : Bool} {a : Byte} (hlo : -256 ≤ t) (hhi : t < 256)
    (hfits : ¬ p = true → -128 ≤ t ∧ t < 128) (hsign : p = true → (t < 0 ↔ a.toInt < 0)) :
    signedOverflow t = (p && (BitVec.ofInt 8 t).msb != a.msb) := by
  cases p with
  | false => exact (signedOverflow_eq_false_iff t).2 (hfits Bool.false_ne_true)
  | true => rw [signedOverflow_eq_msb_ne hlo hhi, decide_eq_decide.2 (hsign rfl), ← BitVec.msb_eq_toInt, Bool.true_and]

theorem carryNat_le_one (cin : Bool) : carryNat cin ≤ 1 := by
  cases cin <;> decide

theorem msb_eq_msb_iff (a b : Byte) : a.msb = b.msb ↔ (a.toInt < 0 ↔ b.toInt < 0) := by
  rw [BitVec.msb_eq_toInt, BitVec.msb_eq_toInt, decide_eq_decide]

/-- A sum can overflow only with operands of one sign, and then the exact value, carry included, has that sign. -/
theorem signedOverflow_sum (a b : Byte) (cin : Bool) :
    signedOverflow (a.toInt + b.toInt + carryNat cin) =
      (a.msb == b.msb && (BitVec.ofInt 8 (a.toInt + b.toInt + carryNat cin)).msb != a.msb) := by
  have hcin := carryNat_le_one cin
  obtain ⟨halo, hahi⟩ := toInt_byte_bounds a
  obtain ⟨hblo, hbhi⟩ := toInt_byte_bounds b
  refine signedOverflow_eq_and_msb_ne (by omega) (by omega) ?twoSigns ?oneSign
  all_goals rw [beq_iff_eq, msb_eq_msb_iff]; omega

/-- A difference can overflow only with operands of two signs, and then the exact value, borrow included, has the sign of the
minuend. -/
theorem signedOverflow_difference (a b : Byte) (cin : Bool) :
    signedOverflow (a.toInt - b.toInt - carryNat cin) =
      (a.msb != b.msb && (byteOfInt (a.toInt - b.toInt - carryNat cin)).msb != a.msb) := by
  have hcin := carryNat_le_one cin
  obtain ⟨halo, hahi⟩ := toInt_byte_bounds a
  obtain ⟨hblo, hbhi⟩ := toInt_byte_bounds b
  refine signedOverflow_eq_and_msb_ne (by omega) (by omega) ?oneSign ?twoSigns
  all_goals rw [bne_iff_ne, ne_eq, msb_eq_msb_iff]; omega

/-! ### The narrowed sum and difference -/

/-- The carry-in as a byte. -/
def carryByte (cin : Bool) : Byte := if cin then 1 else 0

theorem ofNat_carryNat (cin : Bool) : BitVec.ofNat 8 (carryNat cin) = carryByte cin := by
  cases cin <;> rfl

theorem byteOfInt_sub (t u : Int) : byteOfInt (t - u) = byteOfInt t - byteOfInt u := by
  simp only [byteOfInt, Int.sub_eq_add_neg, BitVec.ofInt_add, BitVec.ofInt_neg, BitVec.sub_eq_add_neg]

theorem ofNat_toNat_sum (a b : Byte) (cin : Bool) :
    BitVec.ofNat 8 (a.toNat + b.toNat + carryNat cin) = a + b + carryByte cin := by
  simp [BitVec.ofNat_add, ofNat_carryNat]

theorem ofInt_toInt_sum (a b : Byte) (cin : Bool) :
    BitVec.ofInt 8 (a.toInt + b.toInt + carryNat cin) = a + b + carryByte cin := by
  simp [BitVec.ofInt_add, ofNat_carryNat]

theorem byteOfInt_toNat_difference (a b : Byte) (cin : Bool) :
    byteOfInt ((a.toNat : Int) - b.toNat - carryNat cin) = a - b - carryByte cin := by
  rw [byteOfInt_sub, byteOfInt_sub]
  simp [byteOfInt, ofNat_carryNat]

theorem byteOfInt_toInt_difference (a b : Byte) (cin : Bool) :
    byteOfInt (a.toInt - b.toInt - carryNat cin) = a - b - carryByte cin := by
  rw [byteOfInt_sub, byteOfInt_sub]
  simp [byteOfInt, ofNat_carryNat]

/-! ### The rows that add and subtract: ADD and SUB are ADC and SBB without a carry in -/

theorem aluAdc_eq (a b : Byte) (cin : Bool) :
    aluAdc a b cin =
      { r := a + b + carryByte cin, z := a + b + carryByte cin == 0,
        c := decide (256 ≤ a.toNat + b.toNat + carryNat cin),
        v := a.msb == b.msb && (a + b + carryByte cin).msb != a.msb, store := true } := by
  rw [aluAdc, sumResult, signedOverflow_sum, ofNat_toNat_sum, ofInt_toInt_sum]
  rfl

theorem aluSbb_eq (a b : Byte) (cin : Bool) :
    aluSbb a b cin =
      { r := a - b - carryByte cin, z := a - b - carryByte cin == 0,
        c := decide (a.toNat < b.toNat + carryNat cin),
        v := a.msb != b.msb && (a - b - carryByte cin).msb != a.msb, store := true } := by
  have hborrow : (a.toNat : Int) - b.toNat - carryNat cin < 0 ↔ a.toNat < b.toNat + carryNat cin := by omega
  rw [aluSbb, differenceResult, signedOverflow_difference, byteOfInt_toNat_difference, byteOfInt_toInt_difference]
  simp [hborrow]

theorem aluAdd_eq_aluAdc (a b : Byte) (cin : Bool) : aluAdd a b cin = aluAdc a b false := by
  simp [aluAdd, aluAdc, carryNat]

theorem aluSub_eq_aluSbb (a b : Byte) (cin : Bool) : aluSub a b cin = aluSbb a b false := by
  simp [aluSub, aluSbb, carryNat]

theorem aluAdd_eq (a b : Byte) (cin : Bool) :
    aluAdd a b cin =
      { r := a + b, z := a + b == 0, c := decide (256 ≤ a.toNat + b.toNat),
        v := a.msb == b.msb && (a + b).msb != a.msb, store := true } := by
  rw [aluAdd_eq_aluAdc, aluAdc_eq]
  simp [carryByte, carryNat]

theorem aluSub_eq (a b : Byte) (cin : Bool) :
    aluSub a b cin =
      { r := a - b, z := a - b == 0, c := decide (a.toNat < b.toNat),
        v := a.msb != b.msb && (a - b).msb != a.msb, store := true } := by
  rw [aluSub_eq_aluSbb, aluSbb_eq]
  simp [carryByte, carryNat]

/-- The flags of SUB, the result not stored. -/
theorem aluCmp_eq (a b : Byte) (cin : Bool) :
    aluCmp a b cin =
      { r := a - b, z := a - b == 0, c := decide (a.toNat < b.toNat),
        v := a.msb != b.msb && (a - b).msb != a.msb, store := false } :=
  congrArg (fun res : AluResult => { res with store := false }) (aluSub_eq a b cin)

/-- Settles O5: the rows that add, subtract or compare by their equations above; the other nine are written in the model as in
the table, and codes 0xE and 0xF have none. -/
theorem aluFlagTable : Obligations.AluFlagTable := by
  intro a b cin
  refine ⟨congrArg some (aluAdd_eq a b cin), congrArg some (aluAdc_eq a b cin), congrArg some (aluSub_eq a b cin),
    congrArg some (aluSbb_eq a b cin), ?and, ?or, ?xor, congrArg some (aluCmp_eq a b cin), ?inc, ?dec, ?not, ?shl, ?shr,
    ?clr, ?codeE, ?codeF⟩
  all_goals rfl

end Sys2Proof.Machine
end

section
/-! PROOFS. The condition operators against the flags byte (43_controller.md R292). -/

namespace Sys2Proof.Machine

/-! ### The operators in terms of containment of the mask -/

@[simp] theorem condMet_none (mask flags : Byte) : condMet .none mask flags = true := rfl

theorem condMet_and_iff (mask flags : Byte) : condMet .and mask flags = true ↔ flags &&& mask = mask := beq_iff_eq

/-- Nand is the negation of And, whatever the mask. -/
theorem condMet_nand (mask flags : Byte) : condMet .nand mask flags = !condMet .and mask flags := rfl

theorem condMet_nand_iff (mask flags : Byte) : condMet .nand mask flags = true ↔ ¬ flags &&& mask = mask := by
  rw [condMet_nand, Bool.not_eq_true', ← condMet_and_iff, Bool.not_eq_true]

/-! ### The corners -/

/-- Every byte contains the empty mask. -/
theorem condMet_and_zero (flags : Byte) : condMet .and 0x00#8 flags = true :=
  (condMet_and_iff _ _).2 BitVec.and_zero

/-- Only bits 0 to 2 hold flags (R126). -/
theorem flagsByte_ushiftRight_three (z c v : Bool) : flagsByte z c v >>> 3 = 0x00#8 := by
  cases z <;> cases c <;> cases v <;> rfl

/-- A mask that the flags byte contains has no bit where the flags byte has none. -/
theorem ushiftRight_three_eq_zero_of_contained {mask : Byte} {z c v : Bool}
    (hcontained : flagsByte z c v &&& mask = mask) : mask >>> 3 = 0x00#8 :=
  calc mask >>> 3 = (flagsByte z c v &&& mask) >>> 3 := by rw [hcontained]
    _ = flagsByte z c v >>> 3 &&& mask >>> 3 := BitVec.ushiftRight_and_distrib _ _ _
    _ = 0x00#8 := by rw [flagsByte_ushiftRight_three, BitVec.zero_and]

theorem condMet_and_eq_false_of_high_bit {mask : Byte} (hhigh : mask >>> 3 ≠ 0x00#8) (z c v : Bool) :
    condMet .and mask (flagsByte z c v) = false := by
  rw [← Bool.not_eq_true, condMet_and_iff]
  exact mt ushiftRight_three_eq_zero_of_contained hhigh

/-- Settles O7: And is containment of the mask, Nand its negation; both corners follow from what And says there. -/
theorem conditionSemantics : Obligations.ConditionSemantics := by
  intro mask z c v
  refine ⟨condMet_none _ _, condMet_and_iff _ _, condMet_nand_iff _ _, ?emptyMask, ?highBit⟩
  case emptyMask =>
    rintro rfl
    rw [condMet_nand, condMet_and_zero]
    exact ⟨rfl, rfl⟩
  case highBit =>
    intro hhigh
    rw [condMet_nand, condMet_and_eq_false_of_high_bit hhigh]
    exact ⟨rfl, rfl⟩

end Sys2Proof.Machine
end

section
/-! PROOFS. The first two checks of every instruction (60_exceptions.md R438): `AfterError` (R437) and `NmiAsserted` (R445). -/

namespace Sys2Proof.Machine

/-! ### `guarded`, by check -/

theorem guarded_of_fault {s : State} (k : State → State) (hfault : s.fault.isSome = true) :
    s.guarded k = .refused .afterError := if_pos hfault

theorem guarded_of_nmi {s : State} (k : State → State) (hfault : s.fault = none) (hnmi : s.bus.nmi = true) :
    s.guarded k = .refused .nmiAsserted := by
  simp [State.guarded, hfault, hnmi]

/-- No instruction goes round the first two checks: one cycle and a whole record both stand behind them. -/
theorem exec_eq_guarded (i : Instr) : ∃ k : State → State, ∀ s, exec i s = s.guarded k := by
  obtain ⟨m, -, hstep⟩ | ⟨rec, bytes, -, -, -, -, hrecord⟩ := exec_cases i
  · exact ⟨_, hstep⟩
  · exact ⟨_, hrecord⟩

theorem exec_of_fault (i : Instr) {s : State} (hfault : s.fault.isSome = true) : exec i s = .refused .afterError := by
  obtain ⟨k, hk⟩ := exec_eq_guarded i
  rw [hk, guarded_of_fault k hfault]

theorem exec_of_nmi (i : Instr) {s : State} (hfault : s.fault = none) (hnmi : s.bus.nmi = true) :
    exec i s = .refused .nmiAsserted := by
  obtain ⟨k, hk⟩ := exec_eq_guarded i
  rw [hk, guarded_of_nmi k hfault hnmi]

/-- Settles O24: `nmi` is the second check of every instruction, and the line is among what no cycle writes. -/
theorem nmiRefused : Obligations.NmiRefused :=
  fun i _ => ⟨exec_of_nmi i, fun _ hnext => (keeps_exec hnext).nmi⟩

/-! ### Operations of the host after a fault (R437) -/

theorem hostDo_of_fault {s : State} (k : State → Host.Outcome State Fault Refusal) (hfault : s.fault.isSome = true) :
    s.hostDo k = .refused .afterError := by
  simp [State.hostDo, State.hostRefusal, hfault]

theorem stop_of_fault {s : State} (hfault : s.fault.isSome = true) : s.stop = .next s.requestStop := by
  simp [State.stop, hfault]

theorem setRunMode_of_fault {s : State} (m : RunMode) (hfault : s.fault.isSome = true) :
    s.setRunMode m = .next ((s.setBus { s.bus with runMode := m }).emit .backplane .configChanged none) := by
  simp [State.setRunMode, Option.isNone_eq_false_iff.2 hfault]

/-- Settles O59: the refused operations all stand behind `guarded` or `hostDo`; the others do not test the fault record, or
test it in order to stay allowed. -/
theorem faultIsSticky : Obligations.FaultIsSticky := by
  intro s hfault
  refine ⟨fun i => exec_of_fault i hfault, fun _ => hostDo_of_fault _ hfault, fun _ => hostDo_of_fault _ hfault,
    fun _ _ _ _ => hostDo_of_fault _ hfault, fun _ _ _ _ _ _ _ _ => hostDo_of_fault _ hfault,
    hostDo_of_fault _ hfault, ?resetClears, stop_of_fault hfault, ?runMode, ?speed⟩
  case resetClears => rfl
  case runMode => exact fun m => ⟨_, setRunMode_of_fault m hfault, rfl⟩
  case speed => rfl

end Sys2Proof.Machine
end

section
/-! PROOFS. The role checks of address and I/O transfers (60_exceptions.md R436). -/

namespace Sys2Proof.Machine

/-! ### The predicates of a role by its constructors -/

theorem Role.postModifies_iff {role : Role} :
    role.postModifies = true ↔ (∃ r d, role = .addressRegister r d) ∨ ∃ r, role = .memoryAddress r := by
  cases role <;> simp [Role.postModifies]

theorem Role.isMemoryData_iff {role : Role} : role.isMemoryData = true ↔ ∃ r, role = .memoryData r := by
  cases role <;> simp [Role.isMemoryData]

/-! ### INC and DEC in the op-flags of a step, with HALT or without -/

/-- A flag whose mask is one bit is that bit. -/
theorem hasFlag_twoPow (opFlags : Byte) {i : Nat} (hi : i < 8) :
    hasFlag opFlags (BitVec.twoPow 8 i) = opFlags.getLsbD i := by
  have hmask : BitVec.twoPow 8 i ≠ 0x00#8 := fun hzero => by
    simpa [hi] using congrArg (BitVec.getLsbD · i) hzero
  rw [hasFlag, BitVec.and_twoPow]
  cases opFlags.getLsbD i <;> simp [hmask]

theorem hasFlag_flagInc_append (h : Bool) (flags : BitVec 7) :
    hasFlag (BitVec.ofBool h ++ flags) flagInc = flags.getLsbD 0 :=
  (hasFlag_twoPow (i := 0) _ (by decide)).trans BitVec.getLsbD_append

theorem hasFlag_flagDec_append (h : Bool) (flags : BitVec 7) :
    hasFlag (BitVec.ofBool h ++ flags) flagDec = flags.getLsbD 1 :=
  (hasFlag_twoPow (i := 1) _ (by decide)).trans BitVec.getLsbD_append

/-! ### The checks of an address transfer, in their order -/

/-- The first check: a source that INC and DEC modify, with both. -/
def incAndDecApplies (src : Role) (opFlags : Byte) : Bool :=
  src.postModifies && hasFlag opFlags flagInc && hasFlag opFlags flagDec

/-- The second check: the memory data port on either side. -/
def memoryPortApplies (src dst : Role) : Bool := src.isMemoryData || dst.isMemoryData

section addressRefusal
variable {src dst : Role} {opFlags : Byte}

theorem addressRefusal_of_incAndDec (hboth : incAndDecApplies src opFlags = true) :
    addressRefusal src dst opFlags = some .incAndDec := if_pos hboth

theorem addressRefusal_of_memoryPort (hboth : ¬ incAndDecApplies src opFlags = true)
    (hport : memoryPortApplies src dst = true) : addressRefusal src dst opFlags = some .memoryPortRole :=
  (if_neg hboth).trans (if_pos hport)

theorem addressRefusal_of_alu {r lhs : Id} (hboth : ¬ incAndDecApplies src opFlags = true)
    (hport : ¬ memoryPortApplies src (.alu r lhs) = true) :
    addressRefusal src (.alu r lhs) opFlags = some .aluAddressTransfer :=
  (if_neg hboth).trans (if_neg hport)

theorem addressRefusal_of_controller {r : Id} (hboth : ¬ incAndDecApplies src opFlags = true)
    (hport : ¬ memoryPortApplies src (.controller r) = true) :
    addressRefusal src (.controller r) opFlags = some .controllerRole :=
  (if_neg hboth).trans (if_neg hport)

end addressRefusal

theorem incAndDecApplies_iff {src : Role} {h : Bool} {flags : BitVec 7} :
    incAndDecApplies src (BitVec.ofBool h ++ flags) = true ↔
      flags.getLsbD 0 = true ∧ flags.getLsbD 1 = true ∧
        ((∃ r d, src = .addressRegister r d) ∨ ∃ r, src = .memoryAddress r) := by
  rw [incAndDecApplies, hasFlag_flagInc_append, hasFlag_flagDec_append, Bool.and_eq_true, Bool.and_eq_true,
    Role.postModifies_iff, and_assoc, and_rotate]

theorem memoryPortApplies_iff {src dst : Role} :
    memoryPortApplies src dst = true ↔ (∃ r, src = .memoryData r) ∨ ∃ r, dst = .memoryData r := by
  rw [memoryPortApplies, Bool.or_eq_true, Role.isMemoryData_iff, Role.isMemoryData_iff]

/-! ### A transfer that a role check refuses -/

/-- A role check ends the cycle before any component acts, and its refusal is the instruction's answer (R435). -/
theorem execStep_of_roleRefusal {m : MicroStep} {s : State} {r : Refusal} (hready : s.ready)
    (hkind : knownKind m.kind = true) (hrole : (s.placeWord m).roleRefusal = some r) :
    execStep m s = .refused r := by
  obtain ⟨hfault, hnmi⟩ := hready
  have hcycle : s.cycleOn referenceMicrocode none m = (s.placeWord m).refuse r := by
    simp [State.cycleOn, hkind, State.phases, placeWord_multipleLines, hrole]
  rw [execStep, guarded_of_ready s _ hfault hnmi, hcycle]
  exact outcome_of_refusal _ r rfl

/-- An address transfer, with HALT or without. -/
theorem exec_address_refused {s : State} {src dst : Id} {flags : BitVec 7} {h : Bool} {r : Refusal} (hready : s.ready)
    (hrole : addressRefusal (s.resolve src) (s.resolve dst) (BitVec.ofBool h ++ flags) = some r) :
    exec (if h then .halt kindXaddr src dst flags else .xaddr src dst flags) s = .refused r := by
  have hstep : exec (if h then .halt kindXaddr src dst flags else .xaddr src dst flags) s =
      execStep { kind := kindXaddr, src := src, dst := dst, opFlags := BitVec.ofBool h ++ flags } s := by
    cases h <;> rfl
  rw [hstep]
  exact execStep_of_roleRefusal hready rfl ((placeWord_roleRefusal_xaddr s rfl).trans hrole)

/-- An I/O transfer in either direction, with HALT or without. -/
theorem exec_io_refused {s : State} {reg channel : Id} {flags : BitVec 7} {h : Bool} {r : Refusal} (hready : s.ready)
    (hrole : ioRefusal (s.resolve reg) = some r) :
    exec (if h then .halt kindIo reg channel flags
      else if ioOutBit flags then .ioOut reg channel flags else .ioIn reg channel flags) s = .refused r := by
  have hstep : exec (if h then .halt kindIo reg channel flags
      else if ioOutBit flags then .ioOut reg channel flags else .ioIn reg channel flags) s =
      execStep { kind := kindIo, src := reg, dst := channel, opFlags := BitVec.ofBool h ++ flags } s := by
    cases h
    case true => rfl
    case false => cases hout : ioOutBit flags <;> rfl
  rw [hstep]
  exact execStep_of_roleRefusal hready rfl ((placeWord_roleRefusal_io s rfl).trans hrole)

/-- Settles O23: each check by its own lemma, where those before it do not apply; the side of an I/O transfer has one role. -/
theorem roleRefusals : Obligations.RoleRefusals := by
  intro s src dst flags h hready address io both port
  have hboth : incAndDecApplies (s.resolve src) (BitVec.ofBool h ++ flags) = true ↔ both := incAndDecApplies_iff
  have hport : memoryPortApplies (s.resolve src) (s.resolve dst) = true ↔ port := memoryPortApplies_iff
  rw [← hboth, ← hport]
  refine ⟨?incAndDec, ?memoryPort, ?alu, ?controller, ?ioAddressRegister, ?ioAlu, ?ioController, ?ioMemory⟩
  case incAndDec => exact fun hb => exec_address_refused hready (addressRefusal_of_incAndDec hb)
  case memoryPort => exact fun hb hp => exec_address_refused hready (addressRefusal_of_memoryPort hb hp)
  case alu =>
    rintro hb hp ⟨r, lhs, hdst⟩
    rw [hdst] at hp
    exact exec_address_refused hready (hdst ▸ addressRefusal_of_alu hb hp)
  case controller =>
    rintro hb hp ⟨r, hdst⟩
    rw [hdst] at hp
    exact exec_address_refused hready (hdst ▸ addressRefusal_of_controller hb hp)
  case ioAddressRegister => exact fun ⟨_, _, hside⟩ => exec_io_refused hready (congrArg ioRefusal hside)
  case ioAlu => exact fun ⟨_, _, hside⟩ => exec_io_refused hready (congrArg ioRefusal hside)
  case ioController => exact fun ⟨_, hside⟩ => exec_io_refused hready (congrArg ioRefusal hside)
  case ioMemory =>
    rintro ⟨_, hside | hside⟩
    all_goals exact exec_io_refused hready (congrArg ioRefusal hside)

end Sys2Proof.Machine
end

section
/-! PROOFS. What `Reset()` sets and what it keeps (70_reset_and_hazards.md R470). -/

namespace Sys2Proof.Machine

variable (s : State)

/-! ### `State.resetMachine`, field by field: first what it sets, then what it keeps -/

@[simp] theorem resetMachine_bus : s.resetMachine.bus = idleBus s.bus.runMode := rfl
@[simp] theorem resetMachine_ctrl : s.resetMachine.ctrl = resetController := rfl
@[simp] theorem resetMachine_clock : s.resetMachine.clock = { s.clock with stopRequested := false } := rfl
@[simp] theorem resetMachine_cycles : s.resetMachine.cycles = 0 := rfl
@[simp] theorem resetMachine_fault : s.resetMachine.fault = none := rfl
@[simp] theorem resetMachine_resetHookCalls : s.resetMachine.resetHookCalls =
    s.resetHookCalls ++ (s.wiring.channels.filter fun ch => ch.hasResetHook).map (fun ch => ch.id) := rfl
@[simp] theorem resetMachine_wiring : s.resetMachine.wiring = s.wiring := rfl
@[simp] theorem resetMachine_mem : s.resetMachine.mem = s.mem := rfl
@[simp] theorem resetMachine_events : s.resetMachine.events = s.events := rfl

/-- Settles O53: the statement's bus is the idle pattern in the kept run mode and its controller the one at fetch; of the clock,
`Reset()` writes the stop request only. -/
theorem resetOperation : Obligations.ResetOperation := by
  intro s
  have hclock := resetMachine_clock s
  refine ⟨resetMachine_bus s, resetMachine_ctrl s, resetMachine_resetHookCalls s, resetMachine_fault s, ?stopRequested,
    resetMachine_cycles s, resetMachine_mem s, resetMachine_wiring s, ?khz, ?listener, resetMachine_events s⟩
  case stopRequested => rw [hclock]
  case khz => rw [hclock]
  case listener => rw [hclock]

end Sys2Proof.Machine
end

section
/-! PROOFS. Decoding and encoding are inverse on both code spaces (30_encoding.md R129, R132): microwords by their
packed micro-steps, reference instructions by their opcode and operand bytes. -/

namespace Sys2Proof

open Sys2Proof.Machine

/-! ### Packing a micro-step (R129) -/

theorem MicroStep.unpack_pack (m : MicroStep) : MicroStep.unpack m.pack = m := by
  obtain ⟨kind, src, dst, opFlags⟩ := m
  have hkind : (opFlags ++ dst ++ src ++ kind).extractLsb' 0 8 = kind := BitVec.extractLsb'_append_eq_right
  have hsrc : (opFlags ++ dst ++ src ++ kind).extractLsb' 8 4 = src :=
    (BitVec.extractLsb'_append_eq_of_le (by decide)).trans BitVec.extractLsb'_append_eq_right
  have hdst : (opFlags ++ dst ++ src ++ kind).extractLsb' 12 4 = dst :=
    (BitVec.extractLsb'_append_eq_of_le (by decide)).trans
      ((BitVec.extractLsb'_append_eq_of_le (by decide)).trans BitVec.extractLsb'_append_eq_right)
  have hflags : (opFlags ++ dst ++ src ++ kind).extractLsb' 16 8 = opFlags :=
    (BitVec.extractLsb'_append_eq_of_le (by decide)).trans
      ((BitVec.extractLsb'_append_eq_of_le (by decide)).trans BitVec.extractLsb'_append_eq_left)
  exact MicroStep.mk.injEq .. ▸ ⟨hkind, hsrc, hdst, hflags⟩

theorem MicroStep.pack_unpack (w : Microword) : (MicroStep.unpack w).pack = w :=
  calc w.extractLsb' 16 8 ++ w.extractLsb' 12 4 ++ w.extractLsb' 8 4 ++ w.extractLsb' 0 8
    _ = w.extractLsb' 12 12 ++ w.extractLsb' 8 4 ++ w.extractLsb' 0 8 :=
      congrArg (· ++ w.extractLsb' 8 4 ++ w.extractLsb' 0 8)
        (BitVec.extractLsb'_append_extractLsb'_eq_extractLsb' rfl)
    _ = w.extractLsb' 8 16 ++ w.extractLsb' 0 8 :=
      congrArg (· ++ w.extractLsb' 0 8) (BitVec.extractLsb'_append_extractLsb'_eq_extractLsb' rfl)
    _ = w.extractLsb' 0 24 := BitVec.extractLsb'_append_extractLsb'_eq_extractLsb' rfl
    _ = w := BitVec.extractLsb'_eq_self

/-! ### Op-flags: the HALT bit and the seven bits below it (R124) -/

theorem getLsbD_seven_append (h : Bool) (flags : BitVec 7) : (BitVec.ofBool h ++ flags).getLsbD 7 = h :=
  BitVec.getLsbD_append.trans (by simp)

theorem extractLsb'_append_flags (h : Bool) (flags : BitVec 7) : (BitVec.ofBool h ++ flags).extractLsb' 0 7 = flags :=
  BitVec.extractLsb'_append_eq_right

theorem ofBool_append_extractLsb' (opFlags : Byte) :
    BitVec.ofBool (opFlags.getLsbD 7) ++ opFlags.extractLsb' 0 7 = opFlags := by
  have hbit : BitVec.ofBool (opFlags.getLsbD 7) = opFlags.extractLsb' 7 1 := by
    ext i hi
    obtain rfl : i = 0 := by omega
    simp
  rw [hbit]
  exact BitVec.extractLsb'_append_extractLsb'

/-- The op-flags of an ALU row: HALT clear, the given bits, the operation code (R125). -/
theorem aluFlags_eq_plainFlags (flags : BitVec 3) (code : BitVec 4) :
    aluFlags flags code = plainFlags (flags ++ code) := BitVec.append_assoc ..

theorem extractLsb'_append_code (flags : BitVec 3) (code : BitVec 4) :
    (flags ++ code : BitVec 7).extractLsb' 0 4 = code := BitVec.extractLsb'_append_eq_right

theorem extractLsb'_append_high (flags : BitVec 3) (code : BitVec 4) :
    (flags ++ code : BitVec 7).extractLsb' 4 3 = flags := BitVec.extractLsb'_append_eq_left

theorem high_append_code (flags : BitVec 7) : flags.extractLsb' 4 3 ++ flags.extractLsb' 0 4 = flags :=
  BitVec.extractLsb'_append_extractLsb' (w := 3) (len := 4)

/-! ### Micro-operations -/

/-- HALT makes a step of any kind the row `halt` (R230). -/
theorem decodeStep_of_halt {m : MicroStep} (h : m.opFlags.getLsbD 7 = true) :
    decodeStep m = .ok (.halt m.kind m.src m.dst (m.opFlags.extractLsb' 0 7)) := if_pos h

/-- Without HALT the kind names the row (R128). -/
theorem decodeStep_plain (kind : Byte) (src dst : Id) (flags : BitVec 7) :
    decodeStep { kind := kind, src := src, dst := dst, opFlags := plainFlags flags } =
      if kind == kindXdata then .ok (if dst == 0x5#4 then decodeAluStep src flags else .xdata src dst flags)
      else if kind == kindXaddr then .ok (.xaddr src dst flags)
      else if kind == kindIo then .ok (if ioOutBit flags then .ioOut src dst flags else .ioIn src dst flags)
      else if kind == kindOther then .ok (.other src dst flags)
      else .error (.unknownKind kind) := by
  have hhalt : ¬ (plainFlags flags).getLsbD 7 = true := by
    rw [show (plainFlags flags).getLsbD 7 = false from getLsbD_seven_append false flags]
    exact Bool.false_ne_true
  have hlow : (plainFlags flags).extractLsb' 0 7 = flags := extractLsb'_append_flags false flags
  rw [decodeStep, if_neg hhalt, hlow]

/-- A step without HALT is one with plain op-flags. -/
theorem MicroStep.eq_plain {m : MicroStep} (h : m.opFlags.getLsbD 7 = false) :
    m = { kind := m.kind, src := m.src, dst := m.dst, opFlags := plainFlags (m.opFlags.extractLsb' 0 7) } := by
  have hflags := ofBool_append_extractLsb' m.opFlags
  rw [h] at hflags
  exact congrArg (MicroStep.mk m.kind m.src m.dst) hflags.symm

/-- The ALU row of a step into id 0x5, by its operation code (R125). -/
theorem decodeStep_aluStep (src : Id) (flags : BitVec 3) (code : BitVec 4) :
    decodeStep (aluStep src flags code) = .ok (decodeAluStep src (flags ++ code)) := by
  rw [aluStep, aluFlags_eq_plainFlags, decodeStep_plain]
  rfl

/-- A step into id 0x5 that is no ALU row stays an XDATA row: codes 0xE and 0xF. -/
theorem decodeAluStep_of_not_row {src : Id} {flags : BitVec 7} (h : isAluRowWord 0x5#4 flags = false) :
    decodeAluStep src flags = .xdata src 0x5#4 flags := by
  have hcode : 14 ≤ (flags.extractLsb' 0 4).toNat := by simpa [isAluRowWord] using h
  unfold decodeAluStep
  split
  case h_15 => rfl
  all_goals omega

/-- The micro-step of a well-formed micro-operation decodes to it. -/
theorem decodeStep_of_stepOf {i : Instr} {m : MicroStep} (hwf : i.wellFormed = true) (h : stepOf i = some m) :
    decodeStep m = .ok i := by
  cases i
  case xdata src dst flags =>
    cases h
    rw [decodeStep_plain]
    by_cases hdst : dst = 0x5#4
    · subst hdst
      exact congrArg Except.ok (decodeAluStep_of_not_row (by simpa [Instr.wellFormed] using hwf))
    · simp [hdst]
  case xaddr | other =>
    cases h
    rw [decodeStep_plain]
    rfl
  case ioOut reg channel flags =>
    cases h
    rw [decodeStep_plain]
    exact congrArg Except.ok (if_pos hwf)
  case ioIn reg channel flags =>
    cases h
    rw [decodeStep_plain]
    exact congrArg Except.ok (if_neg (by simpa [Instr.wellFormed] using hwf))
  case halt kind src dst flags =>
    cases h
    exact (decodeStep_of_halt (m := ⟨kind, src, dst, 1#1 ++ flags⟩) (getLsbD_seven_append true flags)).trans
      (congrArg (fun f => Except.ok (Instr.halt kind src dst f)) (extractLsb'_append_flags true flags))
  case aluAdd | aluAdc | aluSub | aluSbb | aluAnd | aluOr | aluXor | aluCmp | aluInc | aluDec | aluNot | aluShl |
      aluShr | aluClr =>
    cases h
    rw [decodeStep_aluStep, decodeAluStep, extractLsb'_append_code, extractLsb'_append_high]
    rfl
  all_goals cases h -- the reference instructions have no micro-step

/-- The row of a step into id 0x5 is well formed and has that step. -/
theorem decodeAluStep_row (src : Id) (flags : BitVec 7) :
    (decodeAluStep src flags).wellFormed = true ∧
      stepOf (decodeAluStep src flags) =
        some { kind := kindXdata, src := src, dst := 0x5#4, opFlags := plainFlags flags } := by
  have hstep (code : BitVec 4) (h : (flags.extractLsb' 0 4).toNat = code.toNat) :
      some (aluStep src (flags.extractLsb' 4 3) code) =
        some { kind := kindXdata, src := src, dst := 0x5#4, opFlags := plainFlags flags } := by
    rw [← BitVec.eq_of_toNat_eq h, aluStep, aluFlags_eq_plainFlags, high_append_code]
  rcases Nat.lt_or_ge (flags.extractLsb' 0 4).toNat 14 with hlt | hge
  · interval_cases hcode : (flags.extractLsb' 0 4).toNat
    all_goals
      simp only [decodeAluStep, hcode]
      exact ⟨rfl, hstep _ rfl⟩
  · have hrow : isAluRowWord 0x5#4 flags = false := by rw [isAluRowWord, decide_eq_false (Nat.not_lt.2 hge)]; rfl
    rw [decodeAluStep_of_not_row hrow]
    exact ⟨congrArg not hrow, rfl⟩

/-- What a step decodes to is well formed and has that step: no bit of a microword is ignored. -/
theorem stepOf_of_decodeStep {i : Instr} {m : MicroStep} (h : decodeStep m = .ok i) :
    i.wellFormed = true ∧ stepOf i = some m := by
  cases hhalt : m.opFlags.getLsbD 7 with
  | true =>
    rw [decodeStep_of_halt hhalt] at h
    cases h
    have hflags := ofBool_append_extractLsb' m.opFlags
    rw [hhalt] at hflags
    exact ⟨rfl, congrArg (fun f => some (MicroStep.mk m.kind m.src m.dst f)) hflags⟩
  | false =>
    rw [MicroStep.eq_plain hhalt] at h ⊢
    generalize m.opFlags.extractLsb' 0 7 = flags at h ⊢
    rw [decodeStep_plain] at h
    split at h
    case isTrue hkind =>
      rw [beq_iff_eq.1 hkind]
      cases h
      split
      case isTrue hdst =>
        rw [beq_iff_eq.1 hdst]
        exact decodeAluStep_row m.src flags
      case isFalse hdst =>
        rw [Bool.not_eq_true] at hdst
        exact ⟨by rw [Instr.wellFormed, isAluRowWord, hdst]; rfl, rfl⟩
    split at h
    case isTrue hkind => rw [beq_iff_eq.1 hkind]; cases h; exact ⟨rfl, rfl⟩
    split at h
    case isTrue hkind =>
      rw [beq_iff_eq.1 hkind]
      cases h
      split
      case isTrue hout => exact ⟨hout, rfl⟩
      case isFalse hin => exact ⟨by simpa [Instr.wellFormed] using hin, rfl⟩
    split at h
    case isTrue hkind => rw [beq_iff_eq.1 hkind]; cases h; exact ⟨rfl, rfl⟩
    case isFalse => cases h

/-! ### Reference instructions -/

theorem operandWord_wordBytes (op : Byte) (mk : Word → Instr) (w : Word) (rest : List Byte) :
    operandWord op mk (wordBytes w ++ rest) = .ok (mk w, rest) :=
  congrArg (fun k => Except.ok (mk k, rest)) (joinWord_halves w)

/-- The bytes of an instruction decode to it, whatever follows them. -/
theorem decodeBytes_append {i : Instr} {bytes : List Byte} (h : bytesOf i = some bytes) (rest : List Byte) :
    decodeBytes (bytes ++ rest) = .ok (i, rest) := by
  cases i
  case movAMem | movMemA | movBMem | movMemB | movSpImm | movSiImm | movDiImm | movSiMem | jmp | jz | jnz | jc | jnc |
      jv | call =>
    cases h
    simp only [List.cons_append, decodeBytes]
    exact operandWord_wordBytes _ _ _ _
  all_goals cases h -- no byte for a micro-operation
  all_goals rfl

theorem operandByte_eq_ok {op : Byte} {mk : Byte → Instr} {bytes rest : List Byte} {i : Instr}
    (h : operandByte op mk bytes = .ok (i, rest)) : ∃ b, i = mk b ∧ bytes = b :: rest := by
  cases bytes <;> cases h
  exact ⟨_, rfl, rfl⟩

theorem operandWord_eq_ok {op : Byte} {mk : Word → Instr} {bytes rest : List Byte} {i : Instr}
    (h : operandWord op mk bytes = .ok (i, rest)) : ∃ w, i = mk w ∧ bytes = wordBytes w ++ rest := by
  match bytes, h with
  | lo :: hi :: tail, h =>
    cases h
    exact ⟨joinWord hi lo, rfl, by simp [wordBytes]⟩

/-- What a byte list decodes to is a reference instruction whose bytes stand at its head. -/
theorem bytesOf_of_decodeBytes {i : Instr} {bytes rest : List Byte} (h : decodeBytes bytes = .ok (i, rest)) :
    stepOf i = none ∧ ∃ own, bytesOf i = some own ∧ bytes = own ++ rest := by
  cases bytes with
  | nil => cases h
  | cons op tail =>
    have hop {n : Nat} (h : op.toNat = n) : op = BitVec.ofNat 8 n := by rw [← h, BitVec.ofNat_toNat, BitVec.setWidth_eq]
    simp only [decodeBytes] at h
    split at h
    case h_3 | h_4 | h_5 | h_6 | h_39 | h_40 =>
      obtain ⟨b, rfl, rfl⟩ := operandByte_eq_ok h
      exact ⟨rfl, _, rfl, congrArg (· :: b :: rest) (hop (by assumption))⟩
    case h_13 | h_14 | h_15 | h_16 | h_17 | h_18 | h_19 | h_22 | h_41 | h_42 | h_43 | h_44 | h_45 | h_46 | h_47 =>
      obtain ⟨w, rfl, rfl⟩ := operandWord_eq_ok h
      exact ⟨rfl, _, rfl, congrArg (· :: (wordBytes w ++ rest)) (hop (by assumption))⟩
    all_goals cases h -- an opcode with no record decodes to nothing
    all_goals exact ⟨rfl, _, rfl, congrArg (· :: rest) (hop (by assumption))⟩

theorem wellFormed_of_bytesOf {i : Instr} {bytes : List Byte} (h : bytesOf i = some bytes) : i.wellFormed = true := by
  cases i
  case xdata | ioOut | ioIn => cases h
  all_goals rfl

/-! ### Codes -/

theorem encode_of_stepOf {i : Instr} {m : MicroStep} (h : stepOf i = some m) : encode i = .control m.pack := by
  rw [encode, h]

theorem encode_of_bytesOf {i : Instr} {bytes : List Byte} (hstep : stepOf i = none) (h : bytesOf i = some bytes) :
    encode i = .program bytes := by
  rw [encode, hstep, h]
  rfl

/-- Settles O1: a micro-operation by its micro-step, a reference instruction by its bytes with none after them. -/
theorem decodeEncodeRoundTrip : Obligations.DecodeEncodeRoundTrip := by
  intro i hwf
  obtain ⟨m, hstep, -⟩ | ⟨rec, bytes, hstep, hbytes, -⟩ := exec_cases i
  · rw [encode_of_stepOf hstep, decode, MicroStep.unpack_pack]
    exact decodeStep_of_stepOf hwf hstep
  · have hdecode := decodeBytes_append hbytes []
    rw [List.append_nil] at hdecode
    rw [encode_of_bytesOf hstep hbytes, decode, hdecode]

/-- Settles O2: what a code decodes to has the code's micro-step, or the code's bytes and none after them. -/
theorem decodedCodeReencodes : Obligations.DecodedCodeReencodes := by
  intro c i hdecode
  cases c with
  | control w =>
    obtain ⟨hwf, hstep⟩ := stepOf_of_decodeStep hdecode
    exact ⟨hwf, by rw [encode_of_stepOf hstep, MicroStep.pack_unpack]⟩
  | program bytes =>
    simp only [decode] at hdecode
    split at hdecode
    case h_1 j hbytes =>
      cases hdecode
      obtain ⟨hstep, own, hown, hall⟩ := bytesOf_of_decodeBytes hbytes
      rw [hall, List.append_nil]
      exact ⟨wellFormed_of_bytesOf hown, encode_of_bytesOf hstep hown⟩
    all_goals cases hdecode

/-- Settles O4: the words, evaluated. -/
theorem specWordsDecode : Obligations.SpecWordsDecode := by
  refine ⟨?_, ?_, ?_, ?_, ?_, ?_, ?_, ?_, ?_, ?_, ?_⟩
  all_goals rfl

end Sys2Proof
end

section
/-! PROOFS. What a cycle keeps: all that the rising edge and the high clock can write, that every cycle keeps memory
canonical and its bytes outside writable ranges (20_memory.md R85, R94), and that it keeps the controller coherent
(43_controller.md R284, R294). -/

namespace Sys2Proof.Machine

/-! ### The frame of the rising edge -/

/-- `t` is `s` but for what a source drives: the bus's bytes, Z and C, an address register or MAR, an error, the trace
and the inputs. -/
def RisingFrame (s t : State) : Prop :=
  t = { s with
    bus := { s.bus with dataByte := t.bus.dataByte, addrByte := t.bus.addrByte, z := t.bus.z, c := t.bus.c }
    aregs := t.aregs, mar := t.mar, fault := t.fault, errorSlots := t.errorSlots, events := t.events
    inputs := t.inputs, draws := t.draws }

theorem driveData_frame (supply : Option Byte) (role : Role) (s : State) : RisingFrame s (s.driveData supply role) := by
  cases role with
  | addressRegister r usesDataBus => cases usesDataBus <;> rfl
  | memoryData id =>
    cases supply with
    | some b => rfl
    | none => obtain ⟨b, -, h⟩ | ⟨-, h⟩ := driveMemory_none id s <;> rw [State.driveData, h] <;> rfl
  | _ => rfl

theorem driveAddress_frame (role : Role) (s : State) : RisingFrame s (s.driveAddress role) := by
  cases role <;> rfl

theorem driveIo_frame (s : State) : RisingFrame s s.driveIo := by
  unfold State.driveIo
  split
  · split <;> rfl
  · split
    · unfold State.driveChannel
      split <;> rfl
    · rfl

theorem risingPhase_frame (supply : Option Byte) (s : State) : RisingFrame s (s.risingPhase supply) := by
  unfold State.risingPhase
  split
  · exact driveData_frame _ _ s
  split
  · exact driveAddress_frame _ s
  split
  · exact driveIo_frame s
  · rfl

/-! ### The frame of the high clock -/

/-- `t` is `s` but for what a destination latches: the flags, registers, memory, a byte of the controller or a runner,
an error, the trace and the outputs. -/
def HighFrame (s t : State) : Prop :=
  t = { s with
    bus := { s.bus with z := t.bus.z, c := t.bus.c, v := t.bus.v }
    regs := t.regs, aregs := t.aregs, aluOperation := t.aluOperation, mar := t.mar, mem := t.mem
    ctrl := { s.ctrl with ir := t.ctrl.ir, constant := t.ctrl.constant, runner := t.ctrl.runner }
    fault := t.fault, errorSlots := t.errorSlots, events := t.events, outputs := t.outputs }

theorem latchController_frame (mc : Microcode) (id : Id) (s : State) : HighFrame s (s.latchController mc id) := by
  unfold State.latchController
  split
  · rfl
  split
  · rfl
  split <;> rfl

theorem latchData_frame (mc : Microcode) (role : Role) (s : State) : HighFrame s (s.latchData mc role) := by
  cases role with
  | addressRegister r usesDataBus => cases usesDataBus <;> rfl
  | alu r lhs => unfold State.latchData State.latchAlu; dsimp only; split <;> rfl
  | memoryData id => unfold State.latchData State.latchMemory; dsimp only; split <;> rfl
  | controller id => exact latchController_frame mc id s
  | _ => rfl

theorem latchAddress_frame (role : Role) (s : State) : HighFrame s (s.latchAddress role) := by
  cases role <;> rfl

theorem latchIo_frame (s : State) : HighFrame s s.latchIo := by
  unfold State.latchIo
  split <;> split <;> rfl

theorem highPhase_frame (mc : Microcode) (s : State) : HighFrame s (s.highPhase mc) := by
  unfold State.highPhase
  split
  · exact latchData_frame _ _ s
  split
  · exact latchAddress_frame _ s
  split
  · exact latchIo_frame s
  · rfl

section fields
variable (mc : Microcode) (supply : Option Byte) (s : State)

@[simp] theorem risingPhase_wiring : (s.risingPhase supply).wiring = s.wiring := by rw [risingPhase_frame supply s]
@[simp] theorem risingPhase_mem : (s.risingPhase supply).mem = s.mem := by rw [risingPhase_frame supply s]
@[simp] theorem risingPhase_ctrl : (s.risingPhase supply).ctrl = s.ctrl := by rw [risingPhase_frame supply s]
@[simp] theorem risingPhase_cycles : (s.risingPhase supply).cycles = s.cycles := by rw [risingPhase_frame supply s]
@[simp] theorem risingPhase_bus_xdata : (s.risingPhase supply).bus.xdata = s.bus.xdata := by
  rw [risingPhase_frame supply s]
@[simp] theorem risingPhase_bus_destId : (s.risingPhase supply).bus.destId = s.bus.destId := by
  rw [risingPhase_frame supply s]

@[simp] theorem highPhase_wiring : (s.highPhase mc).wiring = s.wiring := by rw [highPhase_frame mc s]
@[simp] theorem highPhase_cycles : (s.highPhase mc).cycles = s.cycles := by rw [highPhase_frame mc s]
@[simp] theorem highPhase_step : (s.highPhase mc).ctrl.step = s.ctrl.step := by rw [highPhase_frame mc s]

end fields

section destinations
variable (mc : Microcode) (r lhs id : Id) (s : State)

@[simp] theorem latchAlu_mem : (s.latchAlu r lhs).mem = s.mem := by unfold State.latchAlu; split <;> rfl
@[simp] theorem latchAlu_ctrl : (s.latchAlu r lhs).ctrl = s.ctrl := by unfold State.latchAlu; split <;> rfl
@[simp] theorem latchMemory_ctrl : (s.latchMemory id).ctrl = s.ctrl := by unfold State.latchMemory; split <;> rfl
@[simp] theorem latchController_mem : (s.latchController mc id).mem = s.mem := by
  rw [State.latchController]
  split
  · rfl
  split
  · rfl
  split <;> rfl

end destinations

/-! ### Memory -/

/-- `m'` keeps of `m` the ranges, every byte outside a writable range, and the canonical form. -/
structure MemoryKept (m m' : Memory) : Prop where
  ranges : m'.ranges = m.ranges
  read : ∀ a, m.writableAt a = false → m'.read a = m.read a
  wf : m.wf = true → m'.wf = true

theorem MemoryKept.refl (m : Memory) : MemoryKept m m := ⟨rfl, fun _ _ => rfl, id⟩

/-- Whether an address is writable is said by the ranges alone. -/
theorem Memory.writableAt_congr {m m' : Memory} (h : m'.ranges = m.ranges) (a : Word) :
    m'.writableAt a = m.writableAt a := by
  simp only [Memory.writableAt, Memory.rangeOf, h]

theorem MemoryKept.trans {m m' m'' : Memory} (h : MemoryKept m m') (g : MemoryKept m' m'') : MemoryKept m m'' :=
  ⟨g.ranges.trans h.ranges,
    fun a ha => (g.read a ((Memory.writableAt_congr h.ranges a).trans ha)).trans (h.read a ha),
    fun hm => g.wf (h.wf hm)⟩

/-- A bus write that stores does so in a writable range. -/
theorem memoryKept_of_write {m m' : Memory} {a : Word} {v : Byte} (h : m.write a v = .stored m') : MemoryKept m m' := by
  obtain ⟨r, hr, hw, he⟩ | ⟨r, -, -, he⟩ | ⟨-, he⟩ := Memory.write_cases m a v
  · obtain rfl : m' = m.store a v := by rw [h] at he; cases he; rfl
    refine ⟨rfl, fun x hx => Memory.store_read_other m v ?_, Memory.write_wf h⟩
    rintro rfl
    simp [Memory.writableAt, hr, hw] at hx
  · rw [h] at he; cases he
  · rw [h] at he; cases he

/-- Of all destinations only the memory data port writes memory. -/
theorem highPhase_memoryKept (mc : Microcode) (s : State) : MemoryKept s.mem (s.highPhase mc).mem := by
  have hkept {t : State} (h : t.mem = s.mem) : MemoryKept s.mem t.mem := by rw [h]; exact .refl _
  unfold State.highPhase
  split
  · cases s.resolve s.bus.destId with
    | memoryData id =>
      unfold State.latchData State.latchMemory
      dsimp only
      split
      case h_1 => exact .refl _
      case h_2 m hm => exact memoryKept_of_write hm
    | addressRegister r usesDataBus => cases usesDataBus <;> exact hkept rfl
    | alu r lhs => exact hkept (latchAlu_mem r lhs s)
    | controller id => exact hkept (latchController_mem mc id s)
    | _ => exact hkept rfl
  split
  · exact hkept (by cases s.resolve s.bus.destId <;> rfl)
  split
  · unfold State.latchIo
    split <;> split <;> exact hkept rfl
  · exact .refl _

theorem phases_memoryKept (mc : Microcode) (supply : Option Byte) (s : State) :
    MemoryKept s.mem (s.phases mc supply).mem := by
  have hrising : (s.haltPhase.risingPhase supply).mem = s.mem := risingPhase_mem _ _
  have hhigh := highPhase_memoryKept mc (s.haltPhase.risingPhase supply)
  rw [hrising] at hhigh
  obtain ⟨r, h⟩ | ⟨-, h⟩ | ⟨-, -, h⟩ | ⟨-, -, h⟩ := phases_cases mc supply s <;> rw [h]
  · exact .refl _
  · rw [hrising]; exact .refl _
  · exact hhigh
  · rwa [countCycle_mem, fallingPhase_mem]

theorem cycle_memoryKept (mc : Microcode) (supply : Option Byte) (s : State) :
    MemoryKept s.mem (s.cycle mc supply).mem := by
  obtain ⟨-, h⟩ | ⟨-, r, h⟩ | ⟨-, -, m, -, h⟩ | ⟨-, -, h⟩ := cycle_cases mc supply s <;> rw [h]
  · exact .refl _
  · exact .refl _
  · unfold State.cycleOn
    split
    · exact phases_memoryKept mc supply (s.placeWord m)
    · exact .refl _
  · exact phases_memoryKept mc supply s

/-! ### The controller -/

/-- What `expand` gives: at most 24 table steps after a prologue of at most 5, not complete (R130, R287). -/
structure Runner.Fresh (r : Runner) : Prop where
  length : r.steps.length ≤ 29
  tableStart : r.tableStart ≤ 5
  complete : r.complete = false

theorem prologue_length_le (w : Wiring) (mode : Mode) : (prologue w mode).length ≤ 5 := by
  cases mode <;> simp [prologue]

theorem expand_fresh {w : Wiring} {rec : Record} {op : Byte} {r : Runner} (h : expand w rec op = some r) : r.Fresh := by
  unfold expand at h
  split at h
  case h_1 mode cond _ _ =>
    split at h
    case isTrue hrec =>
      cases h
      have hprologue := prologue_length_le w mode
      rw [Bool.and_eq_true, decide_eq_true_eq] at hrec
      obtain ⟨-, hsteps⟩ := hrec
      unfold Config.maxTableSteps at hsteps
      exact ⟨by rw [List.length_append]; omega, hprologue, rfl⟩
    case isFalse => cases h
  case h_2 => cases h

/-- The high clock is an opcode latch: XDATA into a controller with no runner (R285). -/
def State.latchesOpcode (s : State) : Prop :=
  s.bus.xdata = false ∧ (∃ id, s.resolve s.bus.destId = .controller id) ∧ s.ctrl.runner = none

/-- Elsewhere the high clock neither starts nor drops a runner. -/
theorem highPhase_runner {mc : Microcode} {s : State} (h : ¬ s.latchesOpcode) :
    (s.highPhase mc).ctrl.runner = s.ctrl.runner := by
  unfold State.highPhase
  split
  case isTrue hx =>
    cases hrole : s.resolve s.bus.destId with
    | addressRegister r usesDataBus => cases usesDataBus <;> rfl
    | alu r lhs => exact congrArg Controller.runner (latchAlu_ctrl r lhs s)
    | memoryData id => exact congrArg Controller.runner (latchMemory_ctrl id s)
    | controller id =>
      cases hrunner : s.ctrl.runner with
      | some r => simp [State.latchData, State.latchController, hrunner]
      | none => exact absurd ⟨by simpa using hx, ⟨id, hrole⟩, hrunner⟩ h
    | _ => rfl
  split
  · cases s.resolve s.bus.destId <;> rfl
  split
  · unfold State.latchIo
    split <;> split <;> rfl
  · rfl

/-- An opcode latch raises an error and starts nothing, or starts a fresh runner (R285). -/
theorem highPhase_of_latchesOpcode (mc : Microcode) {s : State} (h : s.latchesOpcode) :
    ((s.highPhase mc).fault.isSome = true ∧ (s.highPhase mc).ctrl.runner = none) ∨
    ((s.highPhase mc).fault = s.fault ∧ ∃ r : Runner, r.Fresh ∧ (s.highPhase mc).ctrl.runner = some r) := by
  obtain ⟨hx, ⟨id, hrole⟩, hrunner⟩ := h
  have hlatch : s.highPhase mc = s.latchController mc id := by
    simp [State.highPhase, hx, hrole, State.latchData]
  rw [hlatch]
  unfold State.latchController
  rw [hrunner]
  dsimp only
  split
  · exact .inl ⟨rfl, hrunner⟩
  split
  case h_1 => exact .inl ⟨rfl, hrunner⟩
  case h_2 r hexpand => exact .inr ⟨rfl, r, expand_fresh hexpand, rfl⟩

theorem coherent_of_none {c : Controller} (hr : c.runner = none) : c.coherent = decide (c.step ≤ 1) := by
  simp [Controller.coherent, hr]

theorem coherent_of_some {c : Controller} {r : Runner} (hr : c.runner = some r) :
    c.coherent = true ↔ 2 ≤ c.step ∧ c.step < r.steps.length + 2 ∧ r.Fresh := by
  simp only [Controller.coherent, hr, Bool.and_eq_true, decide_eq_true_eq, Bool.not_eq_true', and_assoc]
  exact ⟨fun ⟨h1, h2, h3, h4, h5⟩ => ⟨h1, h2, h3, h4, h5⟩, fun ⟨h1, h2, h3, h4, h5⟩ => ⟨h1, h2, h3, h4, h5⟩⟩

/-- Coherence is a matter of the step and the runner. -/
theorem coherent_congr {c d : Controller} (hs : c.step = d.step) (hr : c.runner = d.runner) :
    c.coherent = d.coherent := by
  simp only [Controller.coherent, hs, hr]

/-- The falling edge of a fresh runner ends it or goes to one of its steps (R294). -/
theorem advance_coherent {c : Controller} {r : Runner} (flags : Byte) (hr : c.runner = some r) (hfresh : r.Fresh)
    (hstep : 1 ≤ c.step) : (c.advance flags).coherent = true := by
  cases hdone : r.doneAt (c.step + 1 - 2) flags with
  | true =>
    rw [advance_done hr hdone]
    rfl
  | false =>
    rw [advance_next hr hdone]
    refine (coherent_of_some (c := { c with step := c.step + 1 }) hr).2 ?_
    have hlast : ¬ r.steps.length ≤ c.step + 1 - 2 := by
      simp only [Runner.doneAt, Bool.or_eq_false_iff, decide_eq_false_iff_not] at hdone
      exact hdone.2
    exact ⟨Nat.succ_le_succ hstep, by simp only; omega, hfresh⟩

/-- The falling edge of fetch step 0 goes to fetch step 1 (R282). -/
theorem advance_coherent_of_fetch {c : Controller} (flags : Byte) (hr : c.runner = none) (hstep : c.step = 0) :
    (c.advance flags).coherent = true := by
  simp [Controller.advance, Controller.completes, Controller.coherent, hr, hstep]

/-- An id names a controller only where one is wired. -/
theorem hasController_of_resolve {w : Wiring} {i id : Id} (h : w.resolve i = .controller id) :
    w.hasController = true := by
  unfold Wiring.resolve at h
  split at h
  case h_1 c hfind =>
    refine List.any_eq_true.2 ⟨c, List.mem_of_find?_eq_some hfind, ?_⟩
    cases hkind : c.kind <;> simp [Component.role, hkind] at h ⊢
    split at h <;> cases h
  case h_2 => cases h

/-- A well-formed wiring with a controller names its ports (R7). -/
theorem portsNamed_of_wf {w : Wiring} (hwf : w.wf = true) (hc : w.hasController = true) : w.portsNamed = true := by
  by_contra hports
  rw [Bool.not_eq_true] at hports
  simp [Wiring.wf, Wiring.refusal, hc, hports] at hwf

theorem resolve_ctrlId {w : Wiring} (hports : w.portsNamed = true) : ∃ id, w.resolve w.ctrlId = .controller id := by
  unfold Wiring.portsNamed at hports
  split at hports
  case h_1 id _ _ _ h => exact ⟨id, h⟩
  case h_2 => cases hports

/-- After the rising edge of a micro-step, the high clock is an opcode latch exactly of a data transfer into a
controller with no runner. -/
theorem latchesOpcode_of_placed {m : MicroStep} {s : State} (supply : Option Byte) :
    ((s.placed m).risingPhase supply).latchesOpcode ↔
      m.kind = kindXdata ∧ (∃ id, s.resolve m.dst = .controller id) ∧ s.ctrl.runner = none := by
  have hresolve (i : Id) : ((s.placed m).risingPhase supply).resolve i = s.resolve i :=
    congrArg (fun w : Wiring => w.resolve i) (risingPhase_wiring supply (s.placed m))
  rw [State.latchesOpcode, risingPhase_bus_xdata, risingPhase_bus_destId, risingPhase_ctrl, placed_bus]
  simp only [hresolve, bne_eq_false_iff_eq]
  rfl

/-- A high clock that raises an error leaves the controller coherent: the step is kept and no runner is started
(R177). -/
theorem highPhase_coherent_of_error {mc : Microcode} {u : State} (hc : u.ctrl.coherent = true) (hu : u.fault = none)
    (hv : (u.highPhase mc).fault.isSome = true) : (u.highPhase mc).ctrl.coherent = true := by
  have hrunner : (u.highPhase mc).ctrl.runner = u.ctrl.runner := by
    by_cases hlatch : u.latchesOpcode
    · obtain ⟨-, hnone⟩ | ⟨hfault, -⟩ := highPhase_of_latchesOpcode mc hlatch
      · rw [hnone, hlatch.2.2]
      · rw [hfault, hu] at hv
        cases hv
    · exact highPhase_runner hlatch
  exact (coherent_congr (highPhase_step mc u) hrunner).trans hc

/-- A high clock without an error, in which the opcode is latched exactly at fetch step 1, leaves a controller that
the falling edge keeps coherent. -/
theorem highPhase_coherent_of_complete {mc : Microcode} {u : State} (flags : Byte) (hc : u.ctrl.coherent = true)
    (hv : (u.highPhase mc).fault = none) (hlatch : u.ctrl.runner = none → (u.latchesOpcode ↔ u.ctrl.step = 1)) :
    ((u.highPhase mc).ctrl.advance flags).coherent = true := by
  have hstep := highPhase_step mc u
  cases hrunner : u.ctrl.runner with
  | some r =>
    obtain ⟨h2, -, hfresh⟩ := (coherent_of_some hrunner).1 hc
    have hno : ¬ u.latchesOpcode := fun ⟨_, _, hnone⟩ => by rw [hrunner] at hnone; cases hnone
    exact advance_coherent flags ((highPhase_runner hno).trans hrunner) hfresh (by omega)
  | none =>
    have hiff := hlatch hrunner
    rw [coherent_of_none hrunner, decide_eq_true_eq] at hc
    obtain hzero | hone : u.ctrl.step = 0 ∨ u.ctrl.step = 1 := by omega
    · have hno : ¬ u.latchesOpcode := by rw [hiff, hzero]; exact Nat.zero_ne_one
      exact advance_coherent_of_fetch flags ((highPhase_runner hno).trans hrunner) (hstep.trans hzero)
    · obtain ⟨herror, -⟩ | ⟨-, r, hfresh, hr⟩ := highPhase_of_latchesOpcode mc (hiff.2 hone)
      · rw [hv] at herror
        cases herror
      · exact advance_coherent flags hr hfresh (by omega)

/-- Fetch step 1, and no other step without a runner, is a data transfer into the controller (R283). -/
theorem current_fetch {w : Wiring} {c : Controller} {m : MicroStep} (hports : w.portsNamed = true)
    (hr : c.runner = none) (hm : c.current w = some m) :
    (m.kind = kindXdata ∧ ∃ id, w.resolve m.dst = .controller id) ↔ c.step = 1 := by
  simp only [Controller.current, hr] at hm
  split at hm
  case h_1 hstep =>
    cases hm
    rw [hstep]
    exact iff_of_false (fun ⟨hkind, _⟩ => absurd (show kindXaddr = kindXdata from hkind) (by decide)) Nat.zero_ne_one
  case h_2 hstep =>
    cases hm
    exact iff_of_true ⟨rfl, resolve_ctrlId hports⟩ hstep
  case h_3 => cases hm

/-- A cycle of a coherent controller's micro-step leaves it coherent (R284, R294). -/
theorem placed_coherent {mc : Microcode} {supply : Option Byte} {s : State} {m : MicroStep} (hwf : s.wiring.wf = true)
    (hcontroller : s.wiring.hasController = true) (hc : s.ctrl.coherent = true)
    (hm : s.ctrl.current s.wiring = some m) : ((s.placeWord m).phases mc supply).ctrl.coherent = true := by
  have hctrl : ((s.placeWord m).haltPhase.risingPhase supply).ctrl = s.ctrl := risingPhase_ctrl _ _
  have hwiring : ((s.placeWord m).haltPhase.risingPhase supply).wiring = s.wiring := risingPhase_wiring _ _
  have hiff : ((s.placeWord m).haltPhase.risingPhase supply).latchesOpcode ↔ _ := latchesOpcode_of_placed supply
  have hcu := hc
  rw [← hctrl] at hcu
  obtain ⟨r, h⟩ | ⟨-, h⟩ | ⟨hu, hv, h⟩ | ⟨-, hv, h⟩ := phases_cases mc supply (s.placeWord m) <;> rw [h]
  · exact hc
  · exact hcu
  · exact highPhase_coherent_of_error hcu hu hv
  · rw [countCycle_ctrl, fallingPhase_ctrl, highPhase_wiring, hwiring, if_pos hcontroller]
    refine highPhase_coherent_of_complete _ hcu hv fun hnone => ?_
    rw [hctrl] at hnone ⊢
    rw [hiff, ← current_fetch (portsNamed_of_wf hwf hcontroller) hnone hm]
    simp [hnone, State.resolve]

/-- Without a controller nothing latches an opcode, and the controller's state is no component's. -/
theorem phases_coherent_of_harness {mc : Microcode} {supply : Option Byte} {s : State}
    (hcontroller : s.wiring.hasController = false) (hc : s.ctrl.coherent = true) :
    (s.phases mc supply).ctrl.coherent = true := by
  have hctrl : (s.haltPhase.risingPhase supply).ctrl = s.ctrl := risingPhase_ctrl _ _
  have hwiring : (s.haltPhase.risingPhase supply).wiring = s.wiring := risingPhase_wiring _ _
  have hno : ¬ (s.haltPhase.risingPhase supply).latchesOpcode := by
    rintro ⟨-, ⟨id, hid⟩, -⟩
    rw [State.resolve, hwiring] at hid
    rw [hasController_of_resolve hid] at hcontroller
    cases hcontroller
  have hhigh : ((s.haltPhase.risingPhase supply).highPhase mc).ctrl.coherent = true := by
    rw [coherent_congr (highPhase_step mc _) (highPhase_runner hno), hctrl]
    exact hc
  obtain ⟨r, h⟩ | ⟨-, h⟩ | ⟨-, -, h⟩ | ⟨-, -, h⟩ := phases_cases mc supply s <;> rw [h]
  · exact hc
  · rw [hctrl]; exact hc
  · exact hhigh
  · rw [countCycle_ctrl, fallingPhase_ctrl, highPhase_wiring, hwiring, hcontroller]
    exact hhigh

theorem cycle_coherent {mc : Microcode} {supply : Option Byte} {s : State} (hwf : s.wiring.wf = true)
    (hc : s.ctrl.coherent = true) : (s.cycle mc supply).ctrl.coherent = true := by
  obtain ⟨-, h⟩ | ⟨-, r, h⟩ | ⟨-, hcontroller, m, hm, h⟩ | ⟨-, hcontroller, h⟩ := cycle_cases mc supply s <;> rw [h]
  · exact hc
  · exact hc
  · unfold State.cycleOn
    split
    · exact placed_coherent hwf hcontroller hc hm
    · exact hc
  · exact phases_coherent_of_harness hcontroller hc

end Sys2Proof.Machine
end

section
/-! PROOFS. What a step of the machine can do (45_host_interface.md R403, R404), and what every step keeps. -/

namespace Sys2Proof.Machine

/-! ### One cycle as a step performs it -/

/-- The micro-step that the injected control fields show has these fields, unless two lines are asserted. -/
theorem placeWord_microStep {s : State} (h : s.bus.multipleLines = false) : s.placeWord s.bus.microStep = s := by
  obtain ⟨wiring, ⟨dataByte, addrByte, sourceId, destId, opFlags, xdata, xaddr, io⟩⟩ := s
  revert h
  cases xdata <;> cases xaddr <;> cases io <;>
    simp [Bus.multipleLines, Bus.microStep, State.placeWord, State.setBus, kindXdata, kindXaddr, kindIo, kindOther]

theorem knownKind_microStep (b : Bus) : knownKind b.microStep.kind = true := by
  unfold Bus.microStep
  dsimp only
  split
  · rfl
  split
  · rfl
  split <;> rfl

/-- The row that a micro-step decodes to performs that micro-step. -/
theorem exec_of_decodeStep {m : MicroStep} {i : Instr} (h : decodeStep m = .ok i) (s : State) :
    exec i s = execStep m s := by
  obtain ⟨-, hstep⟩ := stepOf_of_decodeStep h
  obtain ⟨m', hstep', hexec⟩ | ⟨_, _, hnone, -⟩ := exec_cases i
  · rw [hstep] at hstep'
    cases hstep'
    exact hexec s
  · rw [hstep] at hnone
    cases hnone

/-- One cycle of a step is `Cycle(S)` over the reference table, behind its first two checks (R179, R438). -/
theorem oneCycle_eq (s : State) : s.oneCycle = s.guarded (State.cycleBody referenceMicrocode none) := by
  have hdecoded (m : MicroStep) : (match decodeStep m with
      | .ok i => exec i s
      | .error _ => execStep m s) = s.guarded (State.cycleOn referenceMicrocode none m) := by
    cases hdecode : decodeStep m with
    | ok i => exact exec_of_decodeStep hdecode s
    | error e => rfl
  have hguarded {k k' : State → State} (h : k s = k' s) : s.guarded k = s.guarded k' := by
    simp only [State.guarded, h]
  unfold State.oneCycle
  split
  case isTrue hcontroller =>
    cases hm : s.ctrl.current s.wiring with
    | none => exact hguarded (by simp [State.cycleBody, hcontroller, hm])
    | some m => exact (hdecoded m).trans (hguarded (by simp [State.cycleBody, hcontroller, hm]))
  case isFalse hcontroller =>
    split
    case isTrue hlines => exact hguarded (by simp [State.cycleBody, hcontroller, State.phases, hlines])
    case isFalse hlines =>
      rw [Bool.not_eq_true] at hlines
      refine (hdecoded _).trans (hguarded ?_)
      simp [State.cycleBody, hcontroller, State.cycleOn, knownKind_microStep, placeWord_microStep hlines]

/-- The cycle behind the first two checks is `Cycle(S)` of a machine that passes them. -/
theorem cycle_of_ready {mc : Microcode} {supply : Option Byte} {s : State} (hfault : s.fault = none)
    (hnmi : s.bus.nmi = false) : s.cycle mc supply = s.cycleBody mc supply := by
  simp [State.cycle, hfault, hnmi]

theorem oneCycle_eq_next {s t : State} (h : s.oneCycle = .next t) :
    s.fault = none ∧ t = s.cycle referenceMicrocode none := by
  rw [oneCycle_eq] at h
  obtain ⟨hfault, hnmi, rfl⟩ := guarded_eq_next s h
  exact ⟨hfault, (cycle_of_ready hfault hnmi).symm⟩

/-- An instruction that bytes decode to is its record run with its own bytes. -/
theorem exec_of_decodeBytes {i : Instr} {bytes rest : List Byte} (h : decodeBytes bytes = .ok (i, rest)) :
    ∃ rec own, bytesOf i = some own ∧ referenceMicrocode rec.opcode = some rec ∧ own.head? = some rec.opcode ∧
      ∀ s, exec i s = runRecord rec own s := by
  obtain ⟨hnone, -⟩ := bytesOf_of_decodeBytes h
  obtain ⟨m, hstep, -⟩ | ⟨rec, own, -, hown, hrec, hhead, hexec⟩ := exec_cases i
  · rw [hnone] at hstep
    cases hstep
  · exact ⟨rec, own, hown, hrec, hhead, hexec⟩

/-- What one turn of the loop performs, where it answers a next state: one cycle, or the cycles of a whole
instruction. -/
theorem perform_eq_next {s t : State} (h : s.perform = .next t) :
    s.fault = none ∧ (t = s.cycle referenceMicrocode none ∨ ∃ rec bytes, s.canStart = true ∧
      t = State.runInstructionCycles (fun _ => some rec) Config.maxInstructionCycles (fetchSupplies bytes) s) := by
  have hcycle (h : s.oneCycle = .next t) := oneCycle_eq_next h
  unfold State.perform at h
  split at h
  case isFalse => exact ⟨(hcycle h).1, .inl (hcycle h).2⟩
  split at h
  case h_2 => exact ⟨(hcycle h).1, .inl (hcycle h).2⟩
  case h_1 i hi =>
    unfold State.instructionAtPc at hi
    split at hi
    case h_2 => cases hi
    case h_1 j rest hdecode =>
      cases hi
      obtain ⟨rec, own, -, -, -, hexec⟩ := exec_of_decodeBytes hdecode
      rw [hexec] at h
      obtain ⟨hfault, -, hstart, ht⟩ := runRecord_eq_next h
      exact ⟨hfault, .inr ⟨rec, own, hstart, ht⟩⟩

/-- What every cycle keeps, over any table and with any supply, a turn of the loop keeps. -/
theorem perform_induct {P : State → Prop} (hstep : ∀ mc supply s, P s → P (s.cycle mc supply)) {s t : State} (hs : P s)
    (h : s.perform = .next t) : P t := by
  obtain ⟨-, rfl | ⟨rec, bytes, -, rfl⟩⟩ := perform_eq_next h
  · exact hstep _ _ _ hs
  · exact runInstructionCycles_induct (fun u supply => hstep _ supply u) _ _ _ hs

/-! ### The loop around it -/

/-- The loop's own part after its cycles (R403). -/
def State.afterTurn (s : State) : State := if s.fault.isSome then s.clockError else s.spendCap.breakAfter

theorem afterCycles_next (s : State) : afterCycles (.next s) = .next s.afterTurn := by
  unfold afterCycles State.afterTurn
  dsimp only
  split <;> rfl

/-- How a turn of a running clock ends, the host's requests granted (R403). -/
inductive Turn (u t : State) : Prop where
  | stopped (h : t = u.clockStop)
  | reset (hline : u.bus.resetLine = true) (h : t = u.resetMachine.clockStop)
  | performed (v : State) (hv : u.perform = .next v) (h : t = v.afterTurn)

theorem loopTurn_eq_next {u t : State} (h : u.loopTurn = .next t) : Turn u t := by
  unfold State.loopTurn at h
  split at h
  · cases h; exact .stopped rfl
  split at h
  case isTrue hline => cases h; exact .reset hline rfl
  split at h
  · cases h; exact .stopped rfl
  split at h
  · cases h; exact .stopped rfl
  · cases hv : u.perform with
    | next v =>
      rw [hv, afterCycles_next] at h
      cases h
      exact .performed v hv rfl
    | fault e => rw [hv] at h; cases h
    | refused r => rw [hv] at h; cases h

/-- All that a step which answers a next state can be. -/
theorem step_eq_next {s t : State} (h : step s = .next t) :
    (s.clock.running = false ∧ s.fault = none ∧ t = s) ∨ (s.clock.running = true ∧ Turn s.takeRequests t) := by
  unfold step State.clockTurn at h
  split at h
  case isTrue hrunning => exact .inr ⟨hrunning, loopTurn_eq_next h⟩
  case isFalse hrunning =>
    unfold State.stoppedOutcome at h
    split at h
    · cases h
    · cases h
    case h_3 hfault =>
      cases h
      exact .inl ⟨by simpa using hrunning, hfault, rfl⟩

/-! ### What the loop's own part keeps -/

/-- `t` is `s` but for `suspend`, the clock's run state, its stop request and its cap, and events at the end of the
trace. -/
structure LoopKeeps (s t : State) : Prop where
  rest : t = { s with bus := { s.bus with suspend := t.bus.suspend }
                      clock := { s.clock with running := t.clock.running, stopRequested := t.clock.stopRequested
                                              cap := t.clock.cap }
                      events := t.events }
  events : ∃ es, t.events = s.events ++ es

theorem keeps_clockStop (s : State) : LoopKeeps s s.clockStop := ⟨rfl, _, rfl⟩

theorem keeps_clockError (s : State) : LoopKeeps s s.clockError := ⟨rfl, _, List.append_assoc ..⟩

theorem keeps_breakAfter (s : State) : LoopKeeps s s.breakAfter := by
  have hbreak : LoopKeeps s s.clockBreak := ⟨rfl, _, rfl⟩
  have hself : LoopKeeps s s := ⟨rfl, [], (List.append_nil _).symm⟩
  unfold State.breakAfter
  split
  · exact hself
  · exact hbreak
  · split
    · exact hbreak
    · exact hself

theorem keeps_afterTurn (s : State) : LoopKeeps s s.afterTurn := by
  unfold State.afterTurn
  split
  · exact keeps_clockError s
  · obtain ⟨hrest, hevents⟩ := keeps_breakAfter s.spendCap
    exact ⟨hrest, hevents⟩

/-! ### The invariant (R7, R54, R92, R284) -/

/-- The part of the invariant that cycles keep: well-formed wiring, canonical memory, coherent controller. -/
def State.sound (s : State) : Prop := s.wiring.wf = true ∧ s.mem.wf = true ∧ s.ctrl.coherent = true

theorem cycle_sound (mc : Microcode) (supply : Option Byte) (s : State) (h : s.sound) : (s.cycle mc supply).sound := by
  obtain ⟨hwf, hmem, hc⟩ := h
  have hwiring := (keeps_cycle mc supply s).wiring
  exact ⟨by rw [hwiring]; exact hwf, (cycle_memoryKept mc supply s).wf hmem, cycle_coherent hwf hc⟩

theorem State.invariant_iff (s : State) : s.invariant ↔ s.sound ∧ s.clock.speedOk = true := by
  simp only [State.invariant, State.sound, and_assoc]

theorem LoopKeeps.invariant {s t : State} (h : LoopKeeps s t) (hs : s.invariant) : t.invariant := by
  rw [h.rest]
  exact hs

theorem RequestsKeep.invariant {s t : State} (h : RequestsKeep s t) (hs : s.invariant) : t.invariant := by
  obtain ⟨hwf, hmem, hc, hspeed⟩ := hs
  have hkhz : 0 < t.clock.khz ∧ t.clock.khz ≤ 1000 := h.speed (by simpa [Clock.speedOk] using hspeed)
  refine ⟨?_, ?_, ?_, by simpa [Clock.speedOk] using hkhz⟩
  all_goals rw [h.rest]; assumption

theorem resetMachine_invariant {s : State} (hs : s.invariant) : s.resetMachine.invariant := by
  obtain ⟨hwf, hmem, -, hspeed⟩ := hs
  exact ⟨hwf, hmem, rfl, hspeed⟩

theorem perform_invariant {s t : State} (hs : s.invariant) (h : s.perform = .next t) : t.invariant := by
  have hclock : t.clock = s.clock :=
    perform_induct (P := fun u => u.clock = s.clock) (fun mc supply u hu => (keeps_cycle mc supply u).clock.trans hu)
      rfl h
  rw [State.invariant_iff] at hs ⊢
  exact ⟨perform_induct cycle_sound hs.1 h, hclock ▸ hs.2⟩

/-- Settles O50: requests, a stop and a reset write none of it but the frequency, within its bounds, and a coherent
controller; cycles keep it one by one. -/
theorem stepKeepsInvariant : Obligations.StepKeepsInvariant := by
  intro s t hs h
  obtain ⟨-, -, rfl⟩ | ⟨-, hturn⟩ := step_eq_next h
  · exact hs
  · have hu := (keeps_takeRequests s).invariant hs
    cases hturn with
    | stopped h => exact h ▸ (keeps_clockStop _).invariant hu
    | reset _ h => exact h ▸ (keeps_clockStop _).invariant (resetMachine_invariant hu)
    | performed v hv h => exact h ▸ (keeps_afterTurn v).invariant (perform_invariant hu hv)

/-- Settles O51: the reference wiring is well formed and the default frequency is one more than an element of `Fin
1000`. -/
theorem resetInvariant : Obligations.ResetInvariant := by
  have hspeed : State.reset.clock.speedOk = true := by
    simp [State.reset, Clock.speedOk, Nat.succ_le_of_lt Config.clockKhzDefaultPred.isLt]
  exact ⟨reference_wf, reset_mem_wf, rfl, hspeed⟩

/-- Settles O52: the state's own fields, and the same bound on the frequency. -/
theorem builtState : Obligations.BuiltState :=
  ⟨rfl, rfl, rfl, fun _ => rfl, rfl, rfl, rfl, rfl, rfl, Nat.succ_pos _, Config.clockKhzDefaultPred.isLt⟩

/-! ### Read-only memory and what only the host writes -/

/-- Settles O54: a cycle stores in writable ranges only, and nothing else of a step touches memory. -/
theorem stepKeepsReadOnlyMemory : Obligations.StepKeepsReadOnlyMemory := by
  intro s t h
  have hkept : t.wiring = s.wiring ∧ MemoryKept s.mem t.mem := by
    obtain ⟨-, -, rfl⟩ | ⟨-, hturn⟩ := step_eq_next h
    · exact ⟨rfl, .refl _⟩
    · rw [← takeRequests_wiring s, ← takeRequests_mem s]
      generalize s.takeRequests = u at hturn
      cases hturn with
      | stopped h => rw [h]; exact ⟨rfl, .refl _⟩
      | reset _ h => rw [h]; exact ⟨rfl, .refl _⟩
      | performed v hv h =>
        rw [h, (keeps_afterTurn v).rest]
        change v.wiring = u.wiring ∧ MemoryKept u.mem v.mem
        exact perform_induct (P := fun w => w.wiring = u.wiring ∧ MemoryKept u.mem w.mem)
          (fun mc supply w hw =>
            ⟨(keeps_cycle mc supply w).wiring.trans hw.1, hw.2.trans (cycle_memoryKept mc supply w)⟩) ⟨rfl, .refl _⟩ hv
  exact ⟨hkept.1, hkept.2.ranges, hkept.2.read⟩

/-- `t` has the run mode, the listener, the frequency, the run record and the requests of `s`, and adds to its trace and
outputs. -/
structure HostKeeps (s t : State) : Prop where
  runMode : t.bus.runMode = s.bus.runMode
  listener : t.clock.listener = s.clock.listener
  khz : t.clock.khz = s.clock.khz
  hasRun : t.hasRun = s.hasRun
  requests : t.requests = s.requests
  events : ∃ es, t.events = s.events ++ es
  outputs : ∃ os, t.outputs = s.outputs ++ os

/-- `t` has the host's lines and the controller's inert bytes of `s` (R299, R442, R445). -/
structure LinesKept (s t : State) : Prop where
  nmi : t.bus.nmi = s.bus.nmi
  resetLine : t.bus.resetLine = s.bus.resetLine
  scratch : t.ctrl.scratch = s.ctrl.scratch
  interruptVector : t.ctrl.interruptVector = s.ctrl.interruptVector

theorem CycleKeeps.host {s t : State} (h : CycleKeeps s t) : HostKeeps s t :=
  ⟨h.runMode, by rw [h.clock], by rw [h.clock], h.hasRun, h.requests, h.events, h.outputs⟩

theorem CycleKeeps.lines {s t : State} (h : CycleKeeps s t) : LinesKept s t :=
  ⟨h.nmi, h.resetLine, h.scratch, h.interruptVector⟩

theorem LoopKeeps.host {s t : State} (h : LoopKeeps s t) : HostKeeps s t := by
  refine ⟨?_, ?_, ?_, ?_, ?_, h.events, [], ?_⟩
  case refine_6 => rw [h.rest]; exact (List.append_nil _).symm
  all_goals rw [h.rest]

theorem LoopKeeps.lines {s t : State} (h : LoopKeeps s t) : LinesKept s t := by
  refine ⟨?_, ?_, ?_, ?_⟩
  all_goals rw [h.rest]

theorem HostKeeps.trans {s t u : State} (h : HostKeeps s t) (g : HostKeeps t u) : HostKeeps s u := by
  obtain ⟨es, he⟩ := h.events
  obtain ⟨es', he'⟩ := g.events
  obtain ⟨os, ho⟩ := h.outputs
  obtain ⟨os', ho'⟩ := g.outputs
  exact ⟨g.runMode.trans h.runMode, g.listener.trans h.listener, g.khz.trans h.khz, g.hasRun.trans h.hasRun,
    g.requests.trans h.requests, ⟨es ++ es', by rw [he', he, List.append_assoc]⟩,
    ⟨os ++ os', by rw [ho', ho, List.append_assoc]⟩⟩

theorem LinesKept.trans {s t u : State} (h : LinesKept s t) (g : LinesKept t u) : LinesKept s u :=
  ⟨g.nmi.trans h.nmi, g.resetLine.trans h.resetLine, g.scratch.trans h.scratch,
    g.interruptVector.trans h.interruptVector⟩

theorem resetMachine_host (s : State) : HostKeeps s s.resetMachine :=
  ⟨rfl, rfl, rfl, rfl, rfl, ⟨[], (List.append_nil _).symm⟩, ⟨[], (List.append_nil _).symm⟩⟩

theorem keeps_perform {s t : State} (h : s.perform = .next t) : CycleKeeps s t :=
  perform_induct (P := CycleKeeps s) (fun mc supply u hu => hu.trans (keeps_cycle mc supply u)) (.refl s) h

theorem Turn.host {u t : State} (h : Turn u t) : HostKeeps u t := by
  cases h with
  | stopped h => exact h ▸ (keeps_clockStop u).host
  | reset _ h => exact h ▸ (resetMachine_host u).trans (keeps_clockStop _).host
  | performed v hv h => exact h ▸ (keeps_perform hv).host.trans (keeps_afterTurn v).host

/-- Only the `reset` line makes a turn write the lines and the inert bytes. -/
theorem Turn.lines {u t : State} (h : Turn u t) (hline : u.bus.resetLine = false) : LinesKept u t := by
  cases h with
  | stopped h => exact h ▸ (keeps_clockStop u).lines
  | reset hset _ => rw [hline] at hset; cases hset
  | performed v hv h => exact h ▸ (keeps_perform hv).lines.trans (keeps_afterTurn v).lines

/-- Settles O55: a turn keeps what the host writes, and the requests before it write the frequency, the lines and the
trace at most, or nothing where none is due. -/
theorem stepLeavesHostState : Obligations.StepLeavesHostState := by
  intro s t h
  obtain ⟨-, -, rfl⟩ | ⟨-, hturn⟩ := step_eq_next h
  · exact ⟨rfl, rfl, rfl, ⟨[], (List.append_nil _).symm⟩, ⟨[], (List.append_nil _).symm⟩,
      fun _ => ⟨rfl, rfl, fun _ => ⟨rfl, rfl, rfl, rfl⟩⟩⟩
  · have hrequests := keeps_takeRequests s
    obtain ⟨es, hes⟩ := hrequests.events
    obtain ⟨es', hes'⟩ := hturn.host.events
    obtain ⟨os, hos⟩ := hturn.host.outputs
    refine ⟨?runMode, ?listener, ?hasRun, ⟨es ++ es', ?events⟩, ⟨os, ?outputs⟩, ?noneDue⟩
    case runMode => rw [hturn.host.runMode, hrequests.rest]
    case listener => rw [hturn.host.listener, hrequests.rest]
    case hasRun => rw [hturn.host.hasRun, hrequests.rest]
    case events => rw [hes', hes, List.append_assoc]
    case outputs => rw [hos, hrequests.rest]
    case noneDue =>
      intro hnone
      rw [takeRequests_of_none hnone] at hturn
      refine ⟨hturn.host.khz, hturn.host.requests, fun hline => ?_⟩
      have hlines := hturn.lines hline
      exact ⟨hlines.nmi, hlines.resetLine, hlines.scratch, hlines.interruptVector⟩

/-! ### Errors -/

/-- Whatever a turn performs stands behind the first two checks. -/
theorem perform_eq_guarded (s : State) : ∃ k : State → State, s.perform = s.guarded k := by
  unfold State.perform
  split
  case isFalse => exact ⟨_, oneCycle_eq s⟩
  split
  case h_1 i _ =>
    obtain ⟨k, hk⟩ := exec_eq_guarded i
    exact ⟨k, hk s⟩
  case h_2 => exact ⟨_, oneCycle_eq s⟩

/-- A next state holds no refusal: a fault record in it is an error's. -/
theorem fault_of_guarded {s t : State} {k : State → State} (h : s.guarded k = .next t)
    (hfault : t.fault.isSome = true) : ∃ e n p c, t.fault = some (.error e n p c) := by
  obtain ⟨f, hf⟩ := Option.isSome_iff_exists.1 hfault
  cases f with
  | error e n p c => exact ⟨e, n, p, c, hf⟩
  | refusal r =>
    obtain ⟨hs, hnmi, rfl⟩ := guarded_eq_next s h
    rw [guarded_of_ready s k hs hnmi, outcome_of_refusal _ r hf] at h
    cases h

/-- A turn that ends with a fault record, from a machine without one, performed something that raised an error. -/
theorem Turn.of_fault {u t : State} (h : Turn u t) (hu : u.fault = none) (ht : t.fault.isSome = true) :
    ∃ v, u.perform = .next v ∧ v.fault.isSome = true ∧ t = v.clockError := by
  cases h with
  | stopped h =>
    have hnone : t.fault = none := h ▸ hu
    rw [hnone] at ht
    cases ht
  | reset _ h =>
    have hnone : t.fault = none := h ▸ rfl
    rw [hnone] at ht
    cases ht
  | performed v hv h =>
    have hkept : t.fault = v.fault := by rw [h, (keeps_afterTurn v).rest]
    rw [hkept] at ht
    exact ⟨v, hv, ht, h.trans (if_pos ht)⟩

/-- A stopped machine with an error reports it (R437; notes/assumptions/4.md). -/
theorem step_of_stopped_error {s : State} {e : Fault} {n : Nat} {p : Phase} {c : Id}
    (hrunning : s.clock.running = false) (hfault : s.fault = some (.error e n p c)) : step s = .fault e := by
  simp [step, State.clockTurn, hrunning, State.stoppedOutcome, hfault]

/-- Settles O58: such a step performed something that raised an error, and ends in `clockError`. -/
theorem errorStopsTheClock : Obligations.ErrorStopsTheClock := by
  intro s t hs h ht
  obtain ⟨-, -, rfl⟩ | ⟨-, hturn⟩ := step_eq_next h
  · rw [hs] at ht
    cases ht
  · have hrequests := keeps_takeRequests s
    obtain ⟨v, hv, hvfault, rfl⟩ := hturn.of_fault (by rw [hrequests.rest]; exact hs) ht
    obtain ⟨k, hk⟩ := perform_eq_guarded s.takeRequests
    obtain ⟨e, n, p, c, herror⟩ := fault_of_guarded (hk ▸ hv) hvfault
    obtain ⟨es, hes⟩ := hrequests.events
    obtain ⟨es', hes'⟩ := (keeps_perform hv).events
    refine ⟨rfl, rfl, ⟨es ++ es', ?_⟩, ⟨e, n, p, c, herror, step_of_stopped_error rfl herror⟩,
      fun i => exec_of_fault i ht, rfl⟩
    calc v.clockError.events
      _ = v.events ++ [⟨.clock, .error, v.cycles, none⟩] ++ [⟨.clock, .stopped, v.cycles, none⟩] := rfl
      _ = s.events ++ (es ++ es') ++ [⟨.clock, .error, v.cycles, none⟩, ⟨.clock, .stopped, v.cycles, none⟩] := by
        rw [hes', hes]
        simp

/-! ### The tests of the loop -/

/-- Settles O60: the two branches of `set_speed`. -/
theorem setSpeed : Obligations.SetSpeed := by
  intro s khz
  constructor
  · rintro ⟨hpos, hmax⟩
    simp [State.setSpeed, hpos, hmax, State.emit, State.emitIf]
  · intro hout
    have hout : ¬ (0 < khz && decide (khz ≤ 1000)) = true := by simpa using hout
    exact if_neg hout

/-- A running clock with no request due goes to the loop's tests. -/
theorem step_of_running {s : State} (hrunning : s.clock.running = true)
    (hnone : s.requestBefore (s.cycles + 1) = false) : step s = s.loopTurn := by
  rw [step, State.clockTurn, if_pos hrunning, takeRequests_of_none hnone]

/-- A turning clock performs. -/
theorem step_of_turning {s : State} (h : s.turning) : step s = afterCycles s.perform := by
  obtain ⟨hrunning, hhalt, hreset, hstop, hcap, hnone⟩ := h
  rw [step_of_running hrunning hnone]
  simp [State.loopTurn, hhalt, hreset, hstop, hcap]

/-- A request of the host inside the next 31 cycles makes a step one cycle (notes/assumptions/3.md). -/
theorem wholeInstructions_of_request {s : State} (h : s.requestBefore (s.cycles + 31) = true) :
    s.wholeInstructions = false := by
  simp [State.wholeInstructions, Config.maxInstructionCycles, h]

/-- Settles O49: the loop's tests in their order, behind the requests that are due. -/
theorem runLoopStops : Obligations.RunLoopStops := by
  intro s
  refine ⟨?requests, takeRequests_of_none, ?granted, wholeInstructions_of_request, ?halt, ?reset, ?stop, ⟨rfl, rfl,
    rfl⟩,
    ?idle, fun e n p c => step_of_stopped_error⟩
  case requests =>
    intro hrunning
    rw [step_of_running (s := s.takeRequests) ((takeRequests_running s).trans hrunning) (takeRequests_done s), step,
      State.clockTurn, if_pos hrunning]
  case granted =>
    intro n r rest hrequests hdue
    refine ⟨?_, rfl, rfl, rfl⟩
    rw [State.takeRequests, hrequests, State.takeRequestsFrom, if_pos hdue]
  case halt =>
    intro hrunning hnone hhalt
    rw [step_of_running hrunning hnone, State.loopTurn, if_pos hhalt]
  case reset =>
    intro hrunning hnone hhalt hreset
    simp [step_of_running hrunning hnone, State.loopTurn, hhalt, hreset]
  case stop =>
    rintro hrunning hnone hhalt hreset (hstop | hcap)
    · simp [step_of_running hrunning hnone, State.loopTurn, hhalt, hreset, hstop]
    · simp [step_of_running hrunning hnone, State.loopTurn, hhalt, hreset, hcap]
  case idle =>
    intro hrunning hfault
    simp [step, State.clockTurn, hrunning, State.stoppedOutcome, hfault]

/-! ### What a turn runs -/

theorem clockError_eq (t : State) : t.clockError = { t with
    clock := { t.clock with running := false, stopRequested := false, cap := none }
    events := t.events ++ [⟨.clock, .error, t.cycles, none⟩, ⟨.clock, .stopped, t.cycles, none⟩] } := by
  have hevents : t.clockError.events =
      t.events ++ [⟨.clock, .error, t.cycles, none⟩, ⟨.clock, .stopped, t.cycles, none⟩] := List.append_assoc ..
  rw [← hevents]
  rfl

/-- The run modes' break in a machine with a controller (R456). -/
theorem breakAfter_eq {t : State} (hcontroller : t.wiring.hasController = true) : t.breakAfter =
    if t.bus.runMode = .breakAtClock ∨ (t.bus.runMode = .breakAtInstruction ∧ t.ctrl.step = 0) then t.clockBreak
    else t := by
  unfold State.breakAfter
  cases hmode : t.bus.runMode <;> simp [hcontroller]

theorem afterTurn_of_fault {t : State} (h : t.fault.isSome = true) : t.afterTurn = t.clockError := if_pos h

theorem afterTurn_of_none {t : State} (h : t.fault = none) : t.afterTurn = t.spendCap.breakAfter :=
  if_neg (by simp [h])

/-- Settles O45: the turn performs the decoded instruction; there is no cap to spend, and the run mode is not
BreakAtClock. -/
theorem stepRunsDecodedInstruction : Obligations.StepRunsDecodedInstruction := by
  intro s i rest hturning hwhole hdecode
  obtain ⟨-, own, hown, -⟩ := bytesOf_of_decodeBytes hdecode
  have hstep : step s = afterCycles (exec i s) := by
    rw [step_of_turning hturning, State.perform, if_pos hwhole, State.instructionAtPc, hdecode]
  refine ⟨wellFormed_of_bytesOf hown, fun r hr => by rw [hstep, hr, afterCycles], fun t ht hfault => ?_,
    fun t ht hfault => ?_⟩
  · rw [hstep, ht, afterCycles_next, afterTurn_of_fault hfault, clockError_eq]
  · have hkept := keeps_exec ht
    simp only [State.wholeInstructions, State.canStart, Bool.and_eq_true, bne_iff_ne,
      Option.isNone_iff_eq_none] at hwhole
    obtain ⟨⟨⟨⟨⟨hcontroller, -⟩, -⟩, hmode⟩, hcap⟩, -⟩ := hwhole
    have hspend : t.spendCap = t := by
      have hcap' : t.clock.cap.map (· - 1) = t.clock.cap := by rw [hkept.clock, hcap]; rfl
      rw [State.spendCap, hcap']
      rfl
    rw [hstep, ht, afterCycles_next, afterTurn_of_none hfault, hspend,
      breakAfter_eq (by rw [hkept.wiring]; exact hcontroller)]
    rw [← hkept.runMode] at hmode
    simp only [hmode, false_or]
    rfl

/-- Settles O46: the turn performs the row of the current micro-step, and takes one cycle off the cap. -/
theorem stepRunsCurrentMicroStep : Obligations.StepRunsCurrentMicroStep := by
  intro s m i hturning hwhole hcontroller hm hdecode
  obtain ⟨hwf, hstepOf⟩ := stepOf_of_decodeStep hdecode
  have hstep : step s = afterCycles (exec i s) := by
    have hone : s.oneCycle = exec i s := by
      simp only [State.oneCycle, if_pos hcontroller, hm, hdecode]
    rw [step_of_turning hturning, State.perform, if_neg (by simp [hwhole]), hone]
  refine ⟨hwf, encode_of_stepOf hstepOf, fun r hr => by rw [hstep, hr, afterCycles], fun t ht hfault => ?_,
    fun t ht hfault => ?_⟩
  · rw [hstep, ht, afterCycles_next, afterTurn_of_fault hfault, clockError_eq]
  · have hcontroller' : t.spendCap.wiring.hasController = true := by
      rw [← hcontroller]
      exact congrArg Wiring.hasController (keeps_exec ht).wiring
    rw [hstep, ht, afterCycles_next, afterTurn_of_none hfault, breakAfter_eq hcontroller']
    rfl

end Sys2Proof.Machine
end

section
/-! PROOFS. The falling edge, and what each micro-operation leaves (41_transfers.md, 42_alu.md, 43_controller.md): one
lemma per way a cycle ends, which the rows' statements cite. -/

namespace Sys2Proof.Machine

/-! ### The falling edge (R294) -/

/-- Whether a falling edge ends the instruction, in the words of R294. -/
theorem completes_iff {c : Controller} {r : Runner} {flags : Byte} (hr : c.runner = some r) :
    c.completes flags = true ↔ r.complete = true ∨
      (c.step + 1 - 2 = r.tableStart ∧ condMet r.conditionOp r.condition flags = false) ∨
      r.steps.length ≤ c.step + 1 - 2 := by
  simp [Controller.completes, hr, Runner.doneAt, or_assoc]

theorem fallingPhase_of_completes {s : State} (hcontroller : s.wiring.hasController = true)
    (h : s.ctrl.completes s.bus.flagsByte = true) :
    s.fallingPhase.ctrl = { s.ctrl with step := 0, runner := none } ∧
    s.fallingPhase.events =
      s.events ++ [⟨.component s.wiring.controllerId, .stepChanged, s.cycles, some .falling⟩,
                   ⟨.component s.wiring.controllerId, .afterInstruction, s.cycles, some .falling⟩] := by
  rw [fallingPhase_ctrl, fallingPhase_events_eq, State.fallingEvents, Controller.advance]
  simp [hcontroller, h, State.event]

theorem fallingPhase_of_not_completes {s : State} (hcontroller : s.wiring.hasController = true)
    (h : s.ctrl.completes s.bus.flagsByte = false) :
    s.fallingPhase.ctrl = { s.ctrl with step := s.ctrl.step + 1 } ∧
    s.fallingPhase.events =
      s.events ++ [⟨.component s.wiring.controllerId, .stepChanged, s.cycles, some .falling⟩] := by
  rw [fallingPhase_ctrl, fallingPhase_events_eq, State.fallingEvents, Controller.advance]
  simp [hcontroller, h, State.event]

/-- Settles O8: the falling edge completes an instruction or does not; without a runner there is none to complete. -/
theorem fallingEdge : Obligations.FallingEdge := by
  intro s hcontroller
  refine ⟨fun hnone => ?_, fun r hr => ⟨fun hends => ?_, fun hends => ?_⟩⟩
  · exact fallingPhase_of_not_completes hcontroller (by simp [Controller.completes, hnone])
  · exact fallingPhase_of_completes hcontroller ((completes_iff hr).2 hends)
  · exact fallingPhase_of_not_completes hcontroller (by rw [← Bool.not_eq_true, completes_iff hr]; exact hends)

/-! ### How a micro-operation's cycle ends -/

/-- A cycle that ends without a fault went through its four phases. -/
theorem phases_of_none {mc : Microcode} {supply : Option Byte} {s : State} (h : (s.phases mc supply).fault = none) :
    s.phases mc supply = ((s.haltPhase.risingPhase supply).highPhase mc).fallingPhase.countCycle := by
  obtain ⟨r, he⟩ | ⟨hfault, he⟩ | ⟨-, hfault, he⟩ | ⟨-, -, he⟩ := phases_cases mc supply s
  · rw [he] at h; cases h
  · rw [← he, h] at hfault; cases hfault
  · rw [← he, h] at hfault; cases hfault
  · exact he

/-- A micro-operation of known kind, of a ready machine, is its phases. -/
theorem execStep_of_ready {m : MicroStep} {s : State} (hready : s.ready) (hkind : knownKind m.kind = true) :
    execStep m s = ((s.placeWord m).phases referenceMicrocode none).outcome := by
  obtain ⟨hfault, hnmi⟩ := hready
  rw [execStep, guarded_of_ready s _ hfault hnmi, State.cycleOn, if_pos hkind]

/-- The falling edge's events are those of any state that agrees. -/
theorem State.tracks.fallingEvents {t u : State} (h : t.tracks u) : t.fallingEvents = u.fallingEvents := by
  have hflags : t.bus.flagsByte = u.bus.flagsByte := by
    have := h.1
    unfold State.agrees at this
    simp [Bus.flagsByte, this]
  simp only [State.fallingEvents, State.event, h.wiring, h.ctrl, h.cycles, hflags]

/-- The high clock leaves the bus bytes. -/
@[simp] theorem highPhase_dataByte (mc : Microcode) (s : State) : (s.highPhase mc).bus.dataByte = s.bus.dataByte := by
  rw [highPhase_frame mc s]
@[simp] theorem highPhase_addrByte (mc : Microcode) (s : State) : (s.highPhase mc).bus.addrByte = s.bus.addrByte := by
  rw [highPhase_frame mc s]

/-! ### Op-flags of a row and of the same row with HALT -/

theorem hasFlag_flagMsb_append (h : Bool) (flags : BitVec 7) :
    hasFlag (BitVec.ofBool h ++ flags) flagMsb = flags.getLsbD 3 :=
  (hasFlag_twoPow (i := 3) _ (by decide)).trans BitVec.getLsbD_append

theorem hasFlag_flagHalt (opFlags : Byte) : hasFlag opFlags flagHalt = opFlags.getLsbD 7 :=
  hasFlag_twoPow (i := 7) _ (by decide)

theorem hasFlag_flagHalt_append (h : Bool) (flags : BitVec 7) : hasFlag (BitVec.ofBool h ++ flags) flagHalt = h :=
  (hasFlag_flagHalt _).trans (getLsbD_seven_append h flags)

/-- The micro-step of a row, or of the row with HALT. -/
def rowStep (kind : Byte) (src dst : Id) (flags : BitVec 7) (h : Bool) : MicroStep :=
  { kind := kind, src := src, dst := dst, opFlags := BitVec.ofBool h ++ flags }

theorem exec_xdata_row (src dst : Id) (flags : BitVec 7) (h : Bool) (s : State) :
    exec (if h then .halt kindXdata src dst flags else .xdata src dst flags) s =
      execStep (rowStep kindXdata src dst flags h) s := by
  cases h <;> rfl

theorem exec_xaddr_row (src dst : Id) (flags : BitVec 7) (h : Bool) (s : State) :
    exec (if h then .halt kindXaddr src dst flags else .xaddr src dst flags) s =
      execStep (rowStep kindXaddr src dst flags h) s := by
  cases h <;> rfl

theorem exec_ioOut_row (reg channel : Id) (flags : BitVec 7) (h : Bool) (s : State) :
    exec (if h then .halt kindIo reg channel flags else .ioOut reg channel flags) s =
      execStep (rowStep kindIo reg channel flags h) s := by
  cases h <;> rfl

theorem exec_ioIn_row (reg channel : Id) (flags : BitVec 7) (h : Bool) (s : State) :
    exec (if h then .halt kindIo reg channel flags else .ioIn reg channel flags) s =
      execStep (rowStep kindIo reg channel flags h) s := by
  cases h <;> rfl

theorem exec_other_row (src dst : Id) (flags : BitVec 7) (h : Bool) (s : State) :
    exec (if h then .halt kindOther src dst flags else .other src dst flags) s =
      execStep (rowStep kindOther src dst flags h) s := by
  cases h <;> rfl

/-! ### Data transfers -/

/-- A data transfer that completes: `u` is what its destination leaves of `s`. -/
theorem execStep_xdata {s u : State} {src dst : Id} {flags : BitVec 7} {h : Bool} {b : Byte} (hready : s.ready)
    (hb : s.sourceByte src (flags.getLsbD 3) = some b)
    (hlatch : (((s.placed (rowStep kindXdata src dst flags h)).setData b).latchData referenceMicrocode
      (s.resolve dst)).tracks (u.haltIf h)) (hu : u.fault = none) :
    ∃ t, execStep (rowStep kindXdata src dst flags h) s = .next t ∧ t.agrees (u.haltIf h).cycleEnd ∧ t.mem = u.mem ∧
      t.events = s.events ++ s.latchEvents dst ++ u.fallingEvents ∧ t.bus.dataByte = b ∧
      t.bus.addrByte = s.bus.addrByte := by
  set m := rowStep kindXdata src dst flags h with hm
  set p := (s.placed m).setData b with hp
  have hrising : (s.placed m).risingPhase none = p :=
    risingPhase_xdata rfl (by rw [hm, rowStep, hasFlag_flagMsb_append]; exact hb)
  have hvfault : (p.latchData referenceMicrocode (s.resolve dst)).fault = none := hlatch.fault.trans hu
  have hhigh : p.highPhase referenceMicrocode = p.latchData referenceMicrocode (s.resolve dst) := highPhase_xdata b rfl
  have hphases := phases_xdata (mc := referenceMicrocode) (m := m) rfl hready.1 hrising rfl hvfault
  have hevents : (p.latchData referenceMicrocode (s.resolve dst)).events = s.events ++ s.latchEvents dst :=
    latchData_events referenceMicrocode dst p hvfault
  have hdata := highPhase_dataByte referenceMicrocode p
  have haddr := highPhase_addrByte referenceMicrocode p
  rw [hhigh] at hdata haddr
  change _ = ((p.latchData referenceMicrocode (s.resolve dst)).fallingPhase.countCycle) at hphases
  refine ⟨(p.latchData referenceMicrocode (s.resolve dst)).fallingPhase.countCycle, ?_, (tracks_cycleEnd hlatch).1, ?_,
    ?_, ?_, ?_⟩
  · rw [execStep_of_ready hready rfl, hphases]
    exact outcome_of_none _ (by simpa using hvfault)
  · simpa using hlatch.mem
  · rw [countCycle_events, fallingPhase_events_eq, hevents, hlatch.fallingEvents]
    rfl
  · rw [countCycle_bus, fallingPhase_bus]; exact hdata
  · rw [countCycle_bus, fallingPhase_bus]; exact haddr

/-- Settles O11: the destination latches plainly. -/
theorem dataTransferLatches : Obligations.DataTransferLatches := by
  intro s src dst flags h b hready hb hplain
  rw [exec_xdata_row]
  obtain ⟨hlatch, -⟩ := latchData_plain (mc := referenceMicrocode) (m := rowStep kindXdata src dst flags h) b hplain
  have hfields : (s.latchByte dst (flags.getLsbD 3) b).fault = s.fault ∧
      (s.latchByte dst (flags.getLsbD 3) b).mem = s.mem := by
    unfold State.latchByte
    cases s.resolve dst with
    | addressRegister r usesDataBus => cases usesDataBus <;> exact ⟨rfl, rfl⟩
    | _ => exact ⟨rfl, rfl⟩
  simp only [rowStep, hasFlag_flagMsb_append, hasFlag_flagHalt_append] at hlatch
  obtain ⟨t, ht, hagrees, hmem, hrest⟩ := execStep_xdata hready hb hlatch (hfields.1.trans hready.1)
  exact ⟨t, ht, hagrees, State.sameMemory_of_eq (hmem.trans hfields.2), hrest⟩

/-- Settles O12: the destination is the memory data port, at a writable address. -/
theorem dataTransferStores : Obligations.DataTransferStores := by
  intro s src dst id flags h b hready hwf hb hdst hwritable
  rw [exec_xdata_row]
  obtain ⟨hlatch, -⟩ := latchData_memory (mc := referenceMicrocode) (m := rowStep kindXdata src dst flags h) (b := b)
    hdst hwritable
  simp only [rowStep, hasFlag_flagHalt_append] at hlatch
  obtain ⟨t, ht, hagrees, hmem, hevents, hbus⟩ := execStep_xdata hready hb hlatch hready.1
  simp only [State.latchEvents, hdst] at hevents
  exact ⟨t, ht, hagrees, State.storedByte_of_store hwf hwritable hmem, hevents, hbus⟩

/-- The records of the reference table are well formed, each under its own opcode (R130). -/
theorem referenceMicrocode_wellFormed {op : Byte} {rec : Record} (h : referenceMicrocode op = some rec) :
    rec.opcode = op ∧ rec.steps.length ≤ Config.maxTableSteps ∧
      ∃ mode cond, modeOfCode rec.mode = some mode ∧ condOpOfCode rec.conditionOp = some cond := by
  have hop {n : Nat} (hn : op.toNat = n) : BitVec.ofNat 8 n = op := by
    rw [← hn, BitVec.ofNat_toNat, BitVec.setWidth_eq]
  unfold referenceMicrocode at h
  split at h
  all_goals cases h -- the opcode of no row has no record
  all_goals exact ⟨hop (by assumption), by decide, _, _, rfl, rfl⟩

/-- Such a record expands under any wiring (R287). -/
theorem expand_of_reference {op : Byte} {rec : Record} (w : Wiring) (h : referenceMicrocode op = some rec) :
    ∃ r, expand w rec op = some r := by
  obtain ⟨hop, hlength, mode, cond, hmode, hcond⟩ := referenceMicrocode_wellFormed h
  exact ⟨_, by
    simp only [expand, hmode, hcond, hop, hlength, beq_self_eq_true, decide_true, Bool.and_self, if_true]
    rfl⟩

theorem kindXdata_ne : kindXdata ≠ kindXaddr ∧ kindXdata ≠ kindIo := by decide

/-- Before the rising edge nothing is changed but the control word and `halt` (R172, R173). -/
theorem placed_agrees (m : MicroStep) (s : State) : (s.placed m).agrees (s.haltIf (hasFlag m.opFlags flagHalt)) := by
  simp [State.agrees, placed_eq]

theorem State.agrees.raise {t u : State} (h : t.agrees u) (e : Fault) (p : Phase) (c : Id) :
    (t.raise e p c).agrees (u.raise e p c) := by
  unfold State.agrees at *
  simp_all [State.raise]

/-- Before the high clock of a row nothing is changed but the control word, the byte on the bus and `halt`. -/
theorem rowStep_agrees (kind : Byte) (src dst : Id) (flags : BitVec 7) (h : Bool) (b : Byte) (s : State) :
    ((s.placed (rowStep kind src dst flags h)).setData b).agrees (s.haltIf h) := by
  have hplaced := placed_agrees (rowStep kind src dst flags h) s
  rw [rowStep, hasFlag_flagHalt_append] at hplaced
  exact hplaced

/-- A data transfer whose destination raises an error: the cycle ends there, with the step kept (R177). -/
theorem execStep_xdata_error {s v : State} {src dst : Id} {flags : BitVec 7} {h : Bool} {b : Byte} {e : Fault} {n : Nat}
    {p : Phase} {c : Id} (hready : s.ready) (hb : s.sourceByte src (flags.getLsbD 3) = some b)
    (hlatch : ((s.placed (rowStep kindXdata src dst flags h)).setData b).latchData referenceMicrocode
      (s.resolve dst) = v) (hv : v.fault = some (.error e n p c)) :
    execStep (rowStep kindXdata src dst flags h) s = .next v := by
  have hrising : (s.placed (rowStep kindXdata src dst flags h)).risingPhase none =
      (s.placed (rowStep kindXdata src dst flags h)).setData b :=
    risingPhase_xdata rfl (by rw [rowStep, hasFlag_flagMsb_append]; exact hb)
  have hhigh : ((s.placed (rowStep kindXdata src dst flags h)).setData b).highPhase referenceMicrocode = v :=
    (highPhase_xdata b rfl).trans hlatch
  rw [execStep_of_ready hready rfl, phases_of_high_error (placeWord_multipleLines _ s)
    (placeWord_roleRefusal_none s (m := rowStep kindXdata src dst flags h) kindXdata_ne.1 kindXdata_ne.2) hrising
      hready.1 hhigh hv]
  exact outcome_of_error v e n p c hv

/-- Settles O13: the destination is a controller without a runner; the reference table's records all expand. -/
theorem opcodeLatch : Obligations.OpcodeLatch := by
  intro s src dst id flags h op hready hb hdst hnone
  rw [exec_xdata_row]
  cases hrec : referenceMicrocode op with
  | some rec =>
    obtain ⟨r, hexpand⟩ := expand_of_reference s.wiring hrec
    obtain ⟨hlatch, -⟩ := latchData_opcode (m := rowStep kindXdata src dst flags h) hdst hnone hrec hexpand
    simp only [rowStep, hasFlag_flagHalt_append] at hlatch
    obtain ⟨t, ht, hagrees, hmem, hevents, hdata, haddr⟩ := execStep_xdata hready hb hlatch hready.1
    simp only [State.latchEvents, hdst, hnone] at hevents
    refine ⟨t, ht, State.sameMemory_of_eq hmem, hdata, haddr, ?_, fun hnorec => (by cases hnorec)⟩
    rintro _ ⟨⟩
    exact ⟨r, hexpand, hagrees, hevents⟩
  | none =>
    have hlatch := latchData_noMicroCode (m := rowStep kindXdata src dst flags h) hdst hnone hrec
    refine ⟨_, execStep_xdata_error hready hb hlatch rfl, State.sameMemory_of_eq rfl, rfl, rfl,
      (fun _ hrec => by cases hrec), fun _ => ⟨?_, rfl⟩⟩
    have hir : ((((s.placed (rowStep kindXdata src dst flags h)).setData op).latchIr id)).agrees
        ((s.setCtrl { s.ctrl with ir := op }).haltIf h) := by
      have hrow := rowStep_agrees kindXdata src dst flags h op s
      unfold State.agrees at hrow ⊢
      simp_all [State.latchIr]
    exact hir.raise _ _ _

/-- The operation code is the low four bits of the op-flags (R125). -/
theorem aluCode_append (h : Bool) (flags : BitVec 7) : aluCode (BitVec.ofBool h ++ flags) = flags.extractLsb' 0 4 :=
  BitVec.extractLsb'_append_eq_of_add_le (by decide)

/-- Codes 0xE and 0xF name no operation (R251). -/
theorem aluResult_of_unknown {code : BitVec 4} (h : 14 ≤ code.toNat) (a b : Byte) (cin : Bool) :
    aluResult code a b cin = none := by
  unfold aluResult
  split
  case h_15 => rfl
  all_goals omega

/-- FLAGS is bit 4 of the op-flags (R124). -/
theorem hasFlag_flagFlags_append (h : Bool) (flags : BitVec 3) (code : BitVec 4) :
    hasFlag (BitVec.ofBool h ++ (flags ++ code : BitVec 7)) flagFlags = flags.getLsbD 0 :=
  (hasFlag_twoPow (i := 4) _ (by decide)).trans (BitVec.getLsbD_append.trans BitVec.getLsbD_append)

/-- A data transfer into the ALU at id 0x5 with an operation code, as its ALU row or with HALT. -/
theorem exec_alu_row {s : State} {i : Instr} {src r lhs : Id} {flags : BitVec 3} {h : Bool} {code : BitVec 4} {b : Byte}
    {res : AluResult} (hready : s.ready) (halu : s.resolve 0x5#4 = .alu r lhs)
    (hi : exec i s = execStep (aluStep src flags code) s) (hb : s.sourceByte src (code.getLsbD 3) = some b)
    (hres : aluResult code (s.reg lhs) b s.bus.c = some res) :
    ∃ t, exec (if h then .halt kindXdata src 0x5#4 (flags ++ code) else i) s = .next t ∧
      t.agrees ((s.computed r code (flags.getLsbD 0) b res).haltIf h).cycleEnd ∧
      t.events = s.events ++ [s.event (.component r) .valueChanged .high] ++
        (s.computed r code (flags.getLsbD 0) b res).fallingEvents ∧
      t.sameMemory s ∧ t.bus.dataByte = b ∧ t.bus.addrByte = s.bus.addrByte := by
  have hrow : exec (if h then .halt kindXdata src 0x5#4 (flags ++ code) else i) s =
      execStep (rowStep kindXdata src 0x5#4 (flags ++ code) h) s := by
    cases h with
    | true => rfl
    | false => exact hi.trans (by rw [aluStep, aluFlags_eq_plainFlags]; rfl)
  have hcode : aluCode (rowStep kindXdata src 0x5#4 (flags ++ code) h).opFlags = code :=
    (aluCode_append h (flags ++ code)).trans (extractLsb'_append_code flags code)
  have hsource : s.sourceByte src ((flags ++ code : BitVec 7).getLsbD 3) = some b := by
    rw [show (flags ++ code : BitVec 7).getLsbD 3 = code.getLsbD 3 from BitVec.getLsbD_append]
    exact hb
  obtain ⟨hlatch, -⟩ := latchData_alu (mc := referenceMicrocode) (b := b)
    (m := rowStep kindXdata src 0x5#4 (flags ++ code) h) halu (by rw [hcode]; exact hres)
  rw [hcode] at hlatch
  simp only [rowStep, hasFlag_flagHalt_append, hasFlag_flagFlags_append] at hlatch
  have hfields : (s.computed r code (flags.getLsbD 0) b res).fault = s.fault ∧
      (s.computed r code (flags.getLsbD 0) b res).mem = s.mem := by
    unfold State.computed
    cases flags.getLsbD 0 <;> exact ⟨rfl, rfl⟩
  obtain ⟨t, ht, hagrees, hmem, hevents, hbus⟩ := execStep_xdata hready hsource hlatch (hfields.1.trans hready.1)
  simp only [State.latchEvents, halu] at hevents
  rw [hrow]
  exact ⟨t, ht, hagrees, hevents, State.sameMemory_of_eq (hmem.trans hfields.2), hbus⟩

/-- Settles O14: each row by its operation code. -/
theorem aluOperations : Obligations.AluOperations := by
  intro s src r lhs flags h b hready halu x hx
  simp only [List.mem_cons, List.not_mem_nil, or_false] at hx
  obtain rfl | rfl | rfl | rfl | rfl | rfl | rfl | rfl | rfl | rfl | rfl | rfl | rfl | rfl := hx
  all_goals exact fun hb => exec_alu_row hready halu rfl hb rfl

/-- Settles O15: the destination is an ALU and the code names no operation. -/
theorem aluUnknownOperation : Obligations.AluUnknownOperation := by
  intro s src dst r lhs flags h b hready hdst hcode hb
  rw [exec_xdata_row]
  have hcode' : aluCode (rowStep kindXdata src dst flags h).opFlags = flags.extractLsb' 0 4 :=
    aluCode_append h flags
  have hlatch := latchData_alu_error (mc := referenceMicrocode) (b := b) (m := rowStep kindXdata src dst flags h) hdst
    (by rw [hcode']; exact aluResult_of_unknown hcode _ _ _)
  rw [microStep_xdata b rfl] at hlatch
  exact ⟨_, execStep_xdata_error hready hb hlatch rfl, (rowStep_agrees kindXdata src dst flags h b s).raise _ _ _,
    State.sameMemory_of_eq rfl, rfl, rfl, rfl⟩

/-- Settles O22: the destination is the memory data port, and the write fails. -/
theorem memoryWriteTrap : Obligations.MemoryWriteTrap := by
  intro s src dst id flags h b e hready hb hdst hcause
  rw [exec_xdata_row]
  have hwrite : s.mem.write s.mar b = .failed e := by
    obtain ⟨hrange, rfl⟩ | ⟨r, hrange, hprotected, rfl⟩ := hcause
    · simp [Memory.write, hrange]
    · simp [Memory.write, hrange, hprotected]
  have hlatch := latchData_memory_error (mc := referenceMicrocode) (m := rowStep kindXdata src dst flags h) hdst hwrite
  exact ⟨_, execStep_xdata_error hready hb hlatch rfl, (rowStep_agrees kindXdata src dst flags h b s).raise _ _ _,
    State.sameMemory_of_eq rfl, rfl, rfl⟩

/-- Settles O21: of any row that is a data transfer, the rising edge raises the error and the cycle ends there. -/
theorem memoryReadTrap : Obligations.MemoryReadTrap := by
  intro s i m id hready hstep hkind hsrc hrange
  have hexec : exec i s = execStep m s := by
    obtain ⟨m', hstep', hexec⟩ | ⟨_, _, hnone, -⟩ := exec_cases i
    · rw [hstep] at hstep'
      cases hstep'
      exact hexec s
    · rw [hstep] at hnone
      cases hnone
  have hrising := risingPhase_xdata_error hkind hsrc (Memory.read_eq_none.2 hrange)
  refine ⟨(s.placed m).raise (.invalidComponentID s.mar) .rising id, ?_, ?_, State.sameMemory_of_eq rfl, rfl, rfl, rfl⟩
  · rw [hexec, execStep_of_ready hready (by rw [hkind]; rfl), phases_of_rising_error (placeWord_multipleLines m s)
      (placeWord_roleRefusal_none s (hkind ▸ kindXdata_ne.1) (hkind ▸ kindXdata_ne.2)) hrising rfl]
    exact outcome_of_error _ _ _ _ _ rfl
  · rw [← hasFlag_flagHalt]
    exact (placed_agrees m s).raise _ _ _

/-! ### Address transfers -/

/-- INC and DEC lie below HALT: a role check reads the same op-flags with HALT and without. -/
theorem addressRefusal_append (src dst : Role) (h : Bool) (flags : BitVec 7) :
    addressRefusal src dst (BitVec.ofBool h ++ flags) = addressRefusal src dst (plainFlags flags) := by
  have hplain : plainFlags flags = BitVec.ofBool false ++ flags := rfl
  simp only [addressRefusal, hplain, hasFlag_flagInc_append, hasFlag_flagDec_append]

theorem postModify_append (h : Bool) (flags : BitVec 7) (value : Word) :
    postModify (BitVec.ofBool h ++ flags) value = postModify (plainFlags flags) value := by
  have hplain : plainFlags flags = BitVec.ofBool false ++ flags := rfl
  simp only [postModify, hplain, hasFlag_flagInc_append, hasFlag_flagDec_append]

theorem postModifySource_append (s : State) (src : Id) (h : Bool) (flags : BitVec 7) :
    s.postModifySource src (BitVec.ofBool h ++ flags) = s.postModifySource src (plainFlags flags) := by
  simp only [State.postModifySource, postModify_append]

theorem postModifyEvents_append (s : State) (src : Id) (h : Bool) (flags : BitVec 7) :
    s.postModifyEvents src (BitVec.ofBool h ++ flags) = s.postModifyEvents src (plainFlags flags) := by
  have hplain : plainFlags flags = BitVec.ofBool false ++ flags := rfl
  simp only [State.postModifyEvents, hplain, hasFlag_flagInc_append, hasFlag_flagDec_append]

/-- What a post-modified source and a latched word leave of the fields that end a cycle. -/
theorem latchWord_postModifySource_fields (s : State) (src dst : Id) (opFlags : Byte) (w : Word) :
    ((s.postModifySource src opFlags).latchWord dst w).fault = s.fault ∧
      ((s.postModifySource src opFlags).latchWord dst w).mem = s.mem := by
  have hsource : (s.postModifySource src opFlags).fault = s.fault ∧ (s.postModifySource src opFlags).mem = s.mem := by
    unfold State.postModifySource
    cases s.resolve src <;> exact ⟨rfl, rfl⟩
  rw [← hsource.1, ← hsource.2]
  unfold State.latchWord
  cases (s.postModifySource src opFlags).resolve dst <;> exact ⟨rfl, rfl⟩

theorem latchWord_haltIf (s : State) (h : Bool) (dst : Id) (w : Word) :
    (s.haltIf h).latchWord dst w = (s.latchWord dst w).haltIf h := by
  have hresolve : (s.haltIf h).resolve dst = s.resolve dst := rfl
  unfold State.latchWord
  rw [hresolve]
  cases s.resolve dst <;> rfl

/-- Settles O16: the rising edge post-modifies the source, the high clock latches the word it put on the bus. -/
theorem addressTransfer : Obligations.AddressTransfer := by
  intro s src dst flags h hready hrefusal
  rw [exec_xaddr_row]
  set m := rowStep kindXaddr src dst flags h with hm
  obtain ⟨hrising, hword, hx, ha, hdst, hwiring, hufault⟩ := risingPhase_xaddr (supply := none) (s := s) (m := m) rfl
  obtain ⟨hhigh, hbus⟩ := highPhase_xaddr (mc := referenceMicrocode) hx ha
  have hevents : ((s.placed m).risingPhase none).events = s.events ++ s.postModifyEvents src (plainFlags flags) := by
    have hdrive : (s.placed m).risingPhase none = (s.placed m).driveAddress ((s.placed m).resolve src) := by
      simp [State.risingPhase, placed_bus, hm, rowStep, kindXaddr, kindXdata]
    rw [hdrive, driveAddress_events, ← postModifyEvents_append s src h]
    rfl
  have hcycles : ((s.placed m).risingPhase none).cycles = s.cycles := risingPhase_cycles _ _
  generalize hu : (s.placed m).risingPhase none = u at *
  have hvevents : (u.highPhase referenceMicrocode).events = u.events ++ s.latchWordEvents dst := by
    have hlatch : u.highPhase referenceMicrocode = u.latchAddress (u.resolve u.bus.destId) := by
      simp [State.highPhase, hx, ha]
    have hsame : u.latchWordEvents dst = s.latchWordEvents dst := by
      simp only [State.latchWordEvents, State.resolve, State.event, hwiring, hcycles]
    rw [hlatch, latchAddress_events, hdst, ← hsame]
    rfl
  have hv : (u.highPhase referenceMicrocode).tracks
      (((s.postModifySource src (plainFlags flags)).latchWord dst (s.sourceWord src)).haltIf h) := by
    have hlatched := hhigh.trans (by rw [hword, hdst]; exact tracks_latchWord hrising _ _)
    simp only [hm, rowStep, hasFlag_flagHalt_append, postModifySource_append] at hlatched
    rwa [latchWord_haltIf] at hlatched
  obtain ⟨hfault, hmem⟩ := latchWord_postModifySource_fields s src dst (plainFlags flags) (s.sourceWord src)
  have hvfault : (u.highPhase referenceMicrocode).fault = none := hv.fault.trans (hfault.trans hready.1)
  have hphases := phases_of_clear (mc := referenceMicrocode) (placeWord_multipleLines m s)
    ((placeWord_roleRefusal_xaddr s rfl).trans ((addressRefusal_append _ _ h flags).trans hrefusal)) hu
    (hufault.trans hready.1) rfl hvfault
  refine ⟨_, ?_, (tracks_cycleEnd hv).1, State.sameMemory_of_eq ?_, ?_, ?_⟩
  · rw [execStep_of_ready hready rfl, hphases]
    exact outcome_of_none _ (by simpa using hvfault)
  · simpa using hv.mem.trans hmem
  · rw [countCycle_bus, fallingPhase_bus, hbus, hword]
    rfl
  · rw [countCycle_events, fallingPhase_events_eq, hvevents, hevents, hv.fallingEvents]
    rfl

/-! ### I/O transfers -/

/-- In an I/O transfer neither the source nor the destination writes what the falling edge reads, or the address byte.
-/
structure IoKeeps (s t : State) : Prop where
  fallingEvents : t.fallingEvents = s.fallingEvents
  addrByte : t.bus.addrByte = s.bus.addrByte

theorem driveIo_keeps (s : State) : IoKeeps s s.driveIo := by
  unfold State.driveIo
  split
  · split <;> exact ⟨rfl, rfl⟩
  · split
    · unfold State.driveChannel
      split <;> exact ⟨rfl, rfl⟩
    · exact ⟨rfl, rfl⟩

theorem latchIo_keeps (s : State) : IoKeeps s s.latchIo := by
  unfold State.latchIo
  split <;> split <;> exact ⟨rfl, rfl⟩

/-- The source of an I/O transfer leaves the control word, the wiring and the count. -/
theorem driveIo_control (s : State) : s.driveIo.bus.xdata = s.bus.xdata ∧ s.driveIo.bus.xaddr = s.bus.xaddr ∧
    s.driveIo.bus.io = s.bus.io ∧ s.driveIo.bus.opFlags = s.bus.opFlags ∧ s.driveIo.bus.destId = s.bus.destId ∧
    s.driveIo.bus.sourceId = s.bus.sourceId ∧ s.driveIo.wiring = s.wiring ∧ s.driveIo.cycles = s.cycles := by
  rw [driveIo_frame s]
  exact ⟨rfl, rfl, rfl, rfl, rfl, rfl, rfl, rfl⟩

/-- The machine between the rising edge and the high clock of an I/O row. -/
def State.driven (s : State) (reg channel : Id) (flags : BitVec 7) (h : Bool) : State :=
  (s.placed (rowStep kindIo reg channel flags h)).driveIo

section driven
variable (s : State) (reg channel : Id) (flags : BitVec 7) (h : Bool)

theorem driven_flagMsb : (s.driven reg channel flags h).bus.flag flagMsb = ioOutBit flags := by
  obtain ⟨-, -, -, hflags, -⟩ := driveIo_control (s.placed (rowStep kindIo reg channel flags h))
  rw [Bus.flag, State.driven, hflags]
  exact hasFlag_flagMsb_append h flags

theorem driven_destId : (s.driven reg channel flags h).bus.destId = channel :=
  (driveIo_control (s.placed (rowStep kindIo reg channel flags h))).2.2.2.2.1

theorem driven_sourceId : (s.driven reg channel flags h).bus.sourceId = reg :=
  (driveIo_control (s.placed (rowStep kindIo reg channel flags h))).2.2.2.2.2.1

theorem driven_wiring : (s.driven reg channel flags h).wiring = s.wiring :=
  (driveIo_control (s.placed (rowStep kindIo reg channel flags h))).2.2.2.2.2.2.1

theorem driven_cycles : (s.driven reg channel flags h).cycles = s.cycles :=
  (driveIo_control (s.placed (rowStep kindIo reg channel flags h))).2.2.2.2.2.2.2

/-- The cycle of an I/O row that completes: its events are the channel's, the latch's and the falling edge's. -/
theorem phases_io
    (hfault : ((s.placeWord (rowStep kindIo reg channel flags h)).phases referenceMicrocode none).fault = none) :
    ((s.placeWord (rowStep kindIo reg channel flags h)).phases referenceMicrocode none).events =
      (s.driven reg channel flags h).latchIo.events ++ s.fallingEvents ∧
    ((s.placeWord (rowStep kindIo reg channel flags h)).phases referenceMicrocode none).bus.addrByte =
      s.bus.addrByte := by
  set m := rowStep kindIo reg channel flags h with hm
  have hrising : (s.placeWord m).haltPhase.risingPhase none = s.driven reg channel flags h := by
    change (s.placed m).risingPhase none = _
    simp [State.risingPhase, placed_bus, State.driven, hm, rowStep, kindIo, kindXdata, kindXaddr]
  have hhigh : (s.driven reg channel flags h).highPhase referenceMicrocode = (s.driven reg channel flags h).latchIo :=
    by
    obtain ⟨hx, ha, hio, -⟩ := driveIo_control (s.placed m)
    simp [State.highPhase, State.driven, ← hm, hx, ha, hio, placed_bus]
    simp [hm, rowStep, kindIo, kindXdata, kindXaddr]
  have hdrive := driveIo_keeps (s.placed m)
  have hlatch := latchIo_keeps (s.driven reg channel flags h)
  rw [phases_of_none hfault, hrising, hhigh, countCycle_events, countCycle_bus, fallingPhase_bus,
    fallingPhase_events_eq,
    hlatch.fallingEvents, hlatch.addrByte]
  exact ⟨congrArg _ hdrive.fallingEvents, hdrive.addrByte⟩

end driven

/-- The register side that the role check admits is a register or nothing (R225). -/
theorem ioRefusal_eq_none {role : Role} (h : ioRefusal role = none) : role = .nothing ∨ ∃ r, role = .register r := by
  cases role <;> simp [ioRefusal] at h ⊢

/-- Settles O17: the register side drives, the channel takes the byte. -/
theorem outputTransfer : Obligations.OutputTransfer := by
  intro s reg channel flags h hready hout hrefusal
  rw [exec_ioOut_row]
  set m := rowStep kindIo reg channel flags h with hm
  have hside : (s.resolve reg = .nothing ∧ s.sideByte reg = s.bus.dataByte) ∨
      ∃ r, s.resolve reg = .register r ∧ s.sideByte reg = s.reg r := by
    unfold State.sideByte
    obtain hnone | ⟨r, hr⟩ := ioRefusal_eq_none hrefusal
    · exact .inl ⟨hnone, by rw [hnone]⟩
    · exact .inr ⟨r, hr, by rw [hr]⟩
  obtain ⟨htracks, hdata⟩ := phases_ioOut (mc := referenceMicrocode) (supply := none) (m := m) rfl hready.1
    ((hasFlag_flagMsb_append h flags).trans hout) hside
  simp only [hm, rowStep, hasFlag_flagHalt_append] at htracks
  have hfault := htracks.fault.trans hready.1
  obtain ⟨hevents, haddr⟩ := phases_io s reg channel flags h hfault
  have hlatch : (s.driven reg channel flags h).latchIo.events = s.events ++ s.outputEvents channel := by
    have hdrive : (s.driven reg channel flags h).events = s.events := by
      have hflag : (s.placed m).bus.flag flagMsb = true := (hasFlag_flagMsb_append h flags).trans hout
      rw [State.driven, State.driveIo, if_pos hflag]
      split <;> rfl
    rw [latchIo_out_events _ ((driven_flagMsb s reg channel flags h).trans hout), driven_destId, hdrive]
    simp only [State.outputEvents, State.event, driven_wiring, driven_cycles]
  rw [hlatch] at hevents
  refine ⟨_, (execStep_of_ready hready rfl).trans (outcome_of_none _ hfault), htracks.1,
    State.sameMemory_of_eq htracks.mem, hevents, hdata, haddr⟩

/-- Settles O18: the channel drives, the register side latches. -/
theorem inputTransfer : Obligations.InputTransfer := by
  intro s reg channel flags h hready hin hrefusal
  rw [exec_ioIn_row]
  set m := rowStep kindIo reg channel flags h with hm
  obtain ⟨htracks, hdata⟩ := phases_ioIn (mc := referenceMicrocode) (supply := none) (m := m) rfl hready.1
    ((hasFlag_flagMsb_append h flags).trans hin) hrefusal
  simp only [hm, rowStep, hasFlag_flagHalt_append] at htracks
  have hfields : ((s.inputTaken channel).latchByte reg false (s.inputByte channel)).fault = s.fault ∧
      ((s.inputTaken channel).latchByte reg false (s.inputByte channel)).mem = s.mem := by
    unfold State.latchByte
    obtain hnone | ⟨r, hr⟩ := ioRefusal_eq_none hrefusal
    · simp [hnone]
    · simp [hr]
  have hfault := htracks.fault.trans (hfields.1.trans hready.1)
  obtain ⟨hevents, haddr⟩ := phases_io s reg channel flags h hfault
  have hlatch : (s.driven reg channel flags h).latchIo.events =
      s.events ++ s.inputEvents channel ++ s.latchEvents reg := by
    have hflag : (s.placed m).bus.flag flagMsb = false := (hasFlag_flagMsb_append h flags).trans hin
    have hdrive : (s.driven reg channel flags h).events = s.events ++ s.inputEvents channel :=
      driveIo_in_events (s.placed m) hflag
    have hresolve : (s.driven reg channel flags h).resolve reg = s.resolve reg :=
      congrArg (fun w : Wiring => w.resolve reg) (driven_wiring s reg channel flags h)
    rw [← hdrive, State.latchIo, driven_flagMsb, hin, driven_sourceId, hresolve, State.latchEvents]
    obtain hnone | ⟨r, hr⟩ := ioRefusal_eq_none hrefusal
    · simp [hnone]
    · simp [hr, State.latchRegister, State.emit, State.emitIf, State.event, driven_cycles]
  rw [hlatch] at hevents
  exact ⟨_, (execStep_of_ready hready rfl).trans (outcome_of_none _ hfault), htracks.1, hevents,
    State.sameMemory_of_eq (htracks.mem.trans hfields.2), hdata, haddr⟩

/-! ### No transfer -/

theorem kindOther_ne : kindOther ≠ kindXaddr ∧ kindOther ≠ kindIo := by decide

/-- Settles O19: neither the rising edge nor the high clock finds a line asserted. -/
theorem noTransfer : Obligations.NoTransfer := by
  intro s src dst flags h hready
  set m := rowStep kindOther src dst flags h with hm
  constructor
  · rw [exec_other_row]
    have hlines : (s.placed m).bus.xdata = true ∧ (s.placed m).bus.xaddr = true ∧ (s.placed m).bus.io = true := by
      simp [placed_bus, hm, rowStep, kindOther, kindXdata, kindXaddr, kindIo]
    have hrising : (s.placed m).risingPhase none = s.placed m := by simp [State.risingPhase, hlines]
    have hhigh : (s.placed m).highPhase referenceMicrocode = s.placed m := by simp [State.highPhase, hlines]
    have hphases := phases_of_clear (placeWord_multipleLines m s)
      (placeWord_roleRefusal_none s (m := m) kindOther_ne.1 kindOther_ne.2)
      hrising hready.1 hhigh hready.1
    have htracks : (s.placed m).tracks (s.haltIf h) :=
      ⟨by rw [← hasFlag_flagHalt_append h flags]; exact placed_agrees m s, rfl⟩
    refine ⟨(s.placed m).fallingPhase.countCycle, ?_, (tracks_cycleEnd htracks).1, State.sameMemory_of_eq ?_, ?_, ?_⟩
    · rw [execStep_of_ready hready rfl, hphases]
      exact outcome_of_none _ ((fallingPhase_fault _).trans hready.1)
    · rw [countCycle_mem, fallingPhase_mem]
      rfl
    · rw [countCycle_events, fallingPhase_events_eq]
      rfl
    · rw [countCycle_bus, fallingPhase_bus]
      exact ⟨rfl, rfl, hlines⟩
  · have hencode : encode (if h then .halt kindOther src dst flags else .other src dst flags) = .control m.pack := by
      cases h <;> rfl
    exact ⟨m.pack, hencode, congrArg MicroStep.kind (MicroStep.unpack_pack m)⟩

/-- Settles O20: the cycle ends before anything is placed on the bus. -/
theorem unknownStepKind : Obligations.UnknownStepKind := by
  intro s m ⟨hfault, hnmi⟩ hxdata hxaddr hio hother
  have hkind : (m.kind == kindXdata) = false ∧ (m.kind == kindXaddr) = false ∧ (m.kind == kindIo) = false ∧
      (m.kind == kindOther) = false := by
    simpa [kindXdata, kindXaddr, kindIo, kindOther] using And.intro hxdata (And.intro hxaddr (And.intro hio hother))
  refine ⟨⟨s.raise (.invalidMicroCode m.pack) .rising s.wiring.controllerId, ?_, State.agrees_refl _,
    State.sameMemory_of_eq rfl, rfl, rfl⟩, fun hhalt => ⟨decodeStep_of_halt hhalt,
    exec_of_decodeStep (decodeStep_of_halt hhalt) s⟩, fun hhalt => ?_⟩
  · have hcycle : s.cycleOn referenceMicrocode none m =
        s.raise (.invalidMicroCode m.pack) .rising s.wiring.controllerId := by
      simp [State.cycleOn, knownKind, hkind]
    rw [execStep, guarded_of_ready s _ hfault hnmi, hcycle]
    exact outcome_of_error _ _ _ _ _ rfl
  · rw [MicroStep.eq_plain hhalt, decodeStep_plain]
    simp [hkind]

end Sys2Proof.Machine
end

section
/-! PROOFS. The memory bank: a bus write that stores, and the installation of an image (R85, R401). -/

namespace Sys2Proof.Machine

/-- Settles O9: only one of the three things a bus write can do is to store. -/
theorem memoryReadAfterWrite : Obligations.MemoryReadAfterWrite := by
  intro m m' a v hwf hwrite
  refine ⟨?_, ?_, ?_, Memory.write_wf hwrite hwf⟩
  all_goals
    obtain ⟨r, hrange, -, hstored⟩ | ⟨r, -, -, hfailed⟩ | ⟨-, hfailed⟩ := Memory.write_cases m a v
    case inr.inl | inr.inr => rw [hwrite] at hfailed; cases hfailed
    rw [hwrite] at hstored
    obtain rfl := WriteResult.stored.inj hstored
  · exact Memory.read_eq_some.2 ⟨by simp [hrange], Memory.store_byteAt_same a v hwf⟩
  · exact fun x hx => Memory.store_read_other m v (Ne.symm hx)
  · exact Memory.store_ranges m a v

/-! ### Ranges -/

theorem Range.holds_iff (r : Range) (a : Nat) : r.holds a = true ↔ r.start ≤ a ∧ a < r.start + r.length := by
  simp [Range.holds]

/-- Disjoint ranges hold no common address. -/
theorem Range.not_holds_of_disjoint {r q : Range} {a : Nat} (hd : r.disjoint q = true) (hr : r.holds a = true) :
    ¬ q.holds a = true := by
  simp only [Range.disjoint, Bool.or_eq_true, decide_eq_true_eq] at hd
  rw [Range.holds_iff] at hr ⊢
  omega

/-- In a well-formed list of ranges the range that holds an address is unique. -/
theorem eq_of_holds {rs : List Range} {r q : Range} {a : Nat} (h : rangesWf rs = true) (hr : r ∈ rs) (hq : q ∈ rs)
    (har : r.holds a = true) (haq : q.holds a = true) : r = q := by
  induction rs with
  | nil => cases hr
  | cons p rest ih =>
    obtain ⟨-, hdisjoint, hrest⟩ := (rangesWf_cons p rest).1 h
    rcases List.mem_cons.1 hr with hrp | hr <;> rcases List.mem_cons.1 hq with hqp | hq
    · rw [hrp, hqp]
    · exact absurd haq (Range.not_holds_of_disjoint (hdisjoint q hq).1 (hrp ▸ har))
    · exact absurd har (Range.not_holds_of_disjoint (hdisjoint r hr).1 (hqp ▸ haq))
    · exact ih hrest hr hq

/-- The range of an address is the one of the bank's that holds it (R81, R92). -/
theorem Memory.rangeOf_eq_some_iff {m : Memory} {a : Word} {r : Range} (h : rangesWf m.ranges = true) :
    m.rangeOf a = some r ↔ r ∈ m.ranges ∧ r.holds a.toNat = true := by
  refine ⟨Memory.rangeOf_eq_some, fun ⟨hr, hold⟩ => ?_⟩
  cases hfound : m.rangeOf a with
  | none => exact absurd hold (List.find?_eq_none.1 hfound r hr)
  | some q =>
    obtain ⟨hq, hq'⟩ := Memory.rangeOf_eq_some hfound
    rw [eq_of_holds h hr hq hold hq']

/-! ### Cell lists -/

/-- Consecutive writes leave the addresses before and after them alone. -/
theorem cellsGet_cellsPutAll_outside (cells : List Host.Cell) {a b : Nat} (bytes : List Byte)
    (h : b < a ∨ a + bytes.length ≤ b) : cellsGet (cellsPutAll cells a bytes) b = cellsGet cells b := by
  induction bytes generalizing cells a with
  | nil => rfl
  | cons v rest ih =>
    rw [List.length_cons] at h
    rw [cellsPutAll, ih _ (by omega), cellsGet_cellsPut_other _ _ (by omega)]

/-- Consecutive writes are read back. -/
theorem cellsGet_cellsPutAll_inside {cells : List Host.Cell} {a k : Nat} {bytes : List Byte} {b : Byte}
    (h : cellsWf cells = true) (hb : bytes[k]? = some b) : cellsGet (cellsPutAll cells a bytes) (a + k) = b := by
  induction bytes generalizing cells a k with
  | nil => cases hb
  | cons v rest ih =>
    rw [cellsPutAll]
    cases k with
    | zero =>
      rw [cellsGet_cellsPutAll_outside _ _ (by omega), Nat.add_zero, cellsGet_cellsPut_same _ _ h]
      simpa using hb
    | succ k =>
      rw [← Nat.add_assoc, Nat.add_right_comm]
      exact ih (cellsPut_wf _ _ h) (by simpa using hb)

/-- Dropping cells at other addresses leaves an address alone. -/
theorem cellsGet_filter (cells : List Host.Cell) {p : Nat → Bool} {a : Nat} (ha : p a = true) :
    cellsGet (cells.filter fun c => p c.1) a = cellsGet cells a := by
  induction cells with
  | nil => rfl
  | cons c rest ih =>
    obtain ⟨k, v⟩ := c
    rw [List.filter_cons]
    by_cases hk : k = a
    · simp [hk, ha, cellsGet]
    · split <;> simp [cellsGet, hk, ih]

/-! ### Loading an image -/

section install
variable {m : Memory} {number start : Nat} {bytes : List Byte} {writable : Bool} {x : Word}

/-- The ranges of the bank after an image is installed: the image's own, and the old ones of other numbers. -/
theorem Memory.mem_install_ranges {q : Range} (h : q ∈ (m.install number bytes start writable).ranges) :
    q = { number := number, start := start, length := bytes.length, writable := writable } ∨
    q ∈ m.ranges ∧ q.number ≠ number :=
  (mem_putRange h).imp_right fun hq => by simpa using hq

/-- A range of another number stays, and with it what its addresses read. -/
theorem Memory.install_read_kept {q : Range}
    (hm' : (m.install number bytes start writable).wf = true)
    (hrange : m.rangeOf x = some q) (hnumber : q.number ≠ number) :
    (m.install number bytes start writable).read x = m.read x ∧
    (m.install number bytes start writable).rangeOf x = some q := by
  obtain ⟨hq, hold⟩ := Memory.rangeOf_eq_some hrange
  have hkept : q ∈ m.ranges.filter fun q => q.number != number := List.mem_filter.2 ⟨hq, by simpa using hnumber⟩
  have hranges := ((Memory.wf_iff _).1 hm').1
  have hrange' : (m.install number bytes start writable).rangeOf x = some q :=
    (Memory.rangeOf_eq_some_iff hranges).2 ⟨mem_putRange_of_ne hkept hnumber, hold⟩
  have houtside : x.toNat < start ∨ start + bytes.length ≤ x.toNat := by
    by_contra hinside
    have hown : ({ number := number, start := start, length := bytes.length, writable := writable } : Range).holds
        x.toNat = true := (Range.holds_iff _ _).2 (by simpa using hinside)
    exact hnumber (congrArg Range.number (eq_of_holds hranges (mem_putRange_of_ne hkept hnumber)
      (mem_putRange_self _ _) hold hown))
  refine ⟨?_, hrange'⟩
  have hbyte : (m.install number bytes start writable).byteAt x = m.byteAt x :=
    (cellsGet_cellsPutAll_outside _ bytes houtside).trans
      (cellsGet_filter m.cells (p := fun k => (m.ranges.filter fun q => q.number != number).any fun q => q.holds k)
        (List.any_eq_true.2 ⟨q, hkept, hold⟩))
  simp [Memory.read, hrange', hrange, hbyte]

/-- An installed image reads back under its own range. -/
theorem Memory.install_read_image {k : Nat} {b : Byte} (hm : m.wf = true)
    (hm' : (m.install number bytes start writable).wf = true)
    (hb : bytes[k]? = some b) (hx : x.toNat = start + k) :
    (m.install number bytes start writable).read x = some b ∧
    (m.install number bytes start writable).writableAt x = writable := by
  obtain ⟨hk, -⟩ := List.getElem?_eq_some_iff.1 hb
  have hrange := (Memory.rangeOf_eq_some_iff (a := x) ((Memory.wf_iff _).1 hm').1).2
    ⟨mem_putRange_self { number := number, start := start, length := bytes.length, writable := writable } _,
      (Range.holds_iff _ _).2 ⟨by simp [hx], by simpa [hx] using hk⟩⟩
  refine ⟨Memory.read_eq_some.2 ⟨by rw [hrange]; rfl, ?_⟩, by rw [Memory.writableAt, hrange]⟩
  rw [Memory.byteAt, hx]
  exact cellsGet_cellsPutAll_inside (cellsWf_filter _ ((Memory.wf_iff m).1 hm).2.1) hb

/-- An address that only the replaced range held, and the image does not, is unmapped. -/
theorem Memory.install_read_none (hm : m.wf = true) (hrange : ∀ q, m.rangeOf x = some q → q.number = number)
    (hx : x.toNat < start ∨ start + bytes.length ≤ x.toNat) :
    (m.install number bytes start writable).read x = none := by
  rw [Memory.read_eq_none]
  cases hfound : (m.install number bytes start writable).rangeOf x with
  | none => rfl
  | some q =>
    obtain ⟨hq, hold⟩ := Memory.rangeOf_eq_some hfound
    rcases Memory.mem_install_ranges hq with rfl | ⟨hq, hnumber⟩
    · have hin : start ≤ x.toNat ∧ x.toNat < start + bytes.length := (Range.holds_iff _ _).1 hold
      omega
    · exact absurd (hrange q ((Memory.rangeOf_eq_some_iff ((Memory.wf_iff m).1 hm).1).2 ⟨hq, hold⟩)) hnumber

end install

/-- A load that answers a next state has installed an image that fits and overlaps no other range (R401). -/
theorem loadImage_eq_next {s t : State} {number : Nat} {bytes : List Byte} {addr : Word} {writable : Bool}
    (h : s.loadImage number bytes addr writable = .next t) :
    t.mem = s.mem.install number bytes addr.toNat writable ∧ 1 ≤ bytes.length ∧
    addr.toNat + bytes.length ≤ 0x10000 ∧ s.mem.overlapsOther number addr.toNat bytes.length = false := by
  unfold State.loadImage State.hostDo at h
  split at h
  · cases h
  · split at h
    · cases h
    · dsimp only at h
      split at h
      · cases h
      · rename_i hfits hoverlap
        obtain rfl := Host.Outcome.next.inj h
        simp only [Bool.or_eq_true, beq_iff_eq, decide_eq_true_eq, not_or] at hfits
        exact ⟨rfl, by omega, by omega, by simpa using hoverlap⟩

/-- Settles O10, clause by clause from what an installation does to an address of the image, of another range, of
none. -/
theorem loadImageInstalls : Obligations.LoadImageInstalls := by
  intro s t number bytes addr writable hwf hload
  obtain ⟨hmem, hlength, hfits, hoverlap⟩ := loadImage_eq_next hload
  have hwf' := Memory.install_wf (writable := writable) hlength hfits hoverlap hwf
  rw [hmem]
  refine ⟨hwf', fun k b hb => ?_, fun x q => Memory.install_read_kept hwf', fun x => Memory.install_read_none hwf⟩
  obtain ⟨hk, -⟩ := List.getElem?_eq_some_iff.1 hb
  refine Memory.install_read_image hwf hwf' hb ?_
  rw [BitVec.toNat_add, BitVec.toNat_ofNat]
  omega

end Sys2Proof.Machine
end

section
/-! PROOFS. Reference instructions as their table steps: `TableStep` says what one table step does to the machine
without its runner, `TableRun` strings them together, `Opens` is the fetch and the prologue before them, and
`runRecord_completes` and `runRecord_traps` give what a record run from the start of an instruction answers. -/

namespace Sys2Proof.Machine

/-! ### Data states

Between table steps the machine is known as `u.inStep r n`: a state `u` at the start of an instruction, with the
runner put on top of it. -/

theorem State.atStart.setReg {u : State} (h : u.atStart) (r : Id) (b : Byte) : (u.setReg r b).atStart := h
theorem State.atStart.setAreg {u : State} (h : u.atStart) (r : Id) (w : Word) : (u.setAreg r w).atStart := h
theorem State.atStart.setMem {u : State} (h : u.atStart) (m : Memory) : (u.setMem m).atStart := h
theorem State.atStart.setMar {u : State} (h : u.atStart) (w : Word) : (u.setMar w).atStart := h
theorem State.atStart.raiseFlags {u : State} (h : u.atStart) (z c : Bool) : (u.raiseFlags z c).atStart := h
theorem State.atStart.haltIf {u : State} (h : u.atStart) (b : Bool) : (u.haltIf b).atStart := h
theorem State.atStart.afterCycles {u : State} (h : u.atStart) (n : Nat) : (u.afterCycles n).atStart := h
theorem State.atStart.takeInput {u : State} (h : u.atStart) (i : Id) : (u.takeInput i).atStart := h
theorem State.atStart.afterFetch {u : State} (h : u.atStart) (op : Byte) (n : Nat) (k : Word) :
    (u.afterFetch op n k).atStart := h

theorem State.atStart.outputByte {u : State} (h : u.atStart) (i : Id) (b : Byte) : (u.outputByte i b).atStart := h

theorem State.atStart.computed {u : State} (h : u.atStart) (r : Id) (code : BitVec 4) (apply : Bool) (b : Byte)
    (res : AluResult) : (u.computed r code apply b res).atStart := by
  cases apply <;> exact h

theorem State.atStart.resolve {u : State} (h : u.atStart) (i : Id) : u.resolve i = referenceWiring.resolve i := by
  rw [State.resolve, h.1]

/-- A state at the start of an instruction has no runner to take off. -/
theorem State.atStart.withoutRunner {u : State} (h : u.atStart) (r : Runner) (n : Nat) :
    (u.inStep r n).setCtrl { (u.inStep r n).ctrl with step := 0, runner := none } = u := by
  obtain ⟨-, -, hstep, hrunner⟩ := h
  have hctrl : { u.ctrl with step := 0, runner := none } = u.ctrl := by rw [← hstep, ← hrunner]
  exact congrArg u.setCtrl hctrl

/-! ### Table steps -/

/-- The table step `m` takes `u` to `v`, whatever runner is in flight. -/
def TableStep (m : MicroStep) (u v : State) : Prop :=
  u.atStart → v.atStart ∧ ∀ {t : State} {r : Runner} {n : Nat} {mc : Microcode}, Live t (u.inStep r n) m →
    (t.cycle mc none).tracks (v.inStep r n).cycleEnd

/-- The table step `m` from `u` raises an error of the memory bank. -/
def TableTrap (m : MicroStep) (u : State) (e : Fault) (phase : Phase) : Prop :=
  u.atStart → ∀ {t : State} {r : Runner} {n : Nat} {mc : Microcode}, Live t (u.inStep r n) m →
    (t.cycle mc none).tracks ((u.inStep r n).raise e phase idMem)

/-- In a state at the start of an instruction the source of the data transfer `m` puts `b` on the bus. -/
def Drives (m : MicroStep) (u : State) (b : Byte) : Prop :=
  (referenceWiring.resolve m.src).drivesData = true ∧
    (u.atStart → u.sourceByte m.src (hasFlag m.opFlags flagMsb) = some b)

section drives
variable {m : MicroStep} {u : State}

theorem drives_register {r : Id} {b : Byte} (hrole : referenceWiring.resolve m.src = .register r) (hb : u.reg r = b) :
    Drives m u b :=
  ⟨by rw [hrole]; rfl, fun h => by simp [State.sourceByte, h.resolve, hrole, hb]⟩

theorem drives_alu {r lhs : Id} {b : Byte} (hrole : referenceWiring.resolve m.src = .alu r lhs) (hb : u.reg r = b) :
    Drives m u b :=
  ⟨by rw [hrole]; rfl, fun h => by simp [State.sourceByte, h.resolve, hrole, hb]⟩

theorem drives_addressRegister {r : Id} {w : Word} {msb : Bool}
    (hrole : referenceWiring.resolve m.src = .addressRegister r true) (hmsb : hasFlag m.opFlags flagMsb = msb)
    (hw : u.areg r = w) : Drives m u (halfByte msb w) :=
  ⟨by rw [hrole]; rfl, fun h => by simp [State.sourceByte, h.resolve, hrole, hmsb, hw]⟩

theorem drives_constant {c : Id} {w : Word} {msb : Bool} (hrole : referenceWiring.resolve m.src = .controller c)
    (hmsb : hasFlag m.opFlags flagMsb = msb) (hw : u.ctrl.constant = w) : Drives m u (halfByte msb w) :=
  ⟨by rw [hrole]; rfl, fun h => by simp [State.sourceByte, h.resolve, hrole, hmsb, hw]⟩

theorem drives_memory {id : Id} {mem : Memory} {a : Word} {b : Byte}
    (hrole : referenceWiring.resolve m.src = .memoryData id) (hmem : u.mem = mem) (hmar : u.mar = a)
    (hread : mem.read a = some b) : Drives m u b :=
  ⟨by rw [hrole]; rfl, fun h => by simp [State.sourceByte, h.resolve, hrole, hmem, hmar, hread]⟩

end drives

section steps
variable {m : MicroStep} {u : State} {b : Byte} {r lhs id : Id}

theorem Drives.inStep (hb : Drives m u b) (h : u.atStart) (r : Runner) (n : Nat) :
    ((u.inStep r n).resolve m.src).drivesData = true ∧
      (u.inStep r n).sourceByte m.src (hasFlag m.opFlags flagMsb) = some b :=
  ⟨by rw [inStep_resolve, h.resolve]; exact hb.1, hb.2 h⟩

/-- A byte into a register (R202). -/
theorem tableStep_register (hkind : m.kind = kindXdata) (hhalt : hasFlag m.opFlags flagHalt = false)
    (hdst : referenceWiring.resolve m.dst = .register r) (hb : Drives m u b) : TableStep m u (u.setReg r b) := by
  refine fun h => ⟨h.setReg r b, fun {t run n mc} hlive => ?_⟩
  have hrole : (u.inStep run n).resolve m.dst = .register r := (h.resolve _).trans hdst
  have hcycle := hlive.move (mc := mc) hkind hhalt (hb.inStep h run n).1 (hb.inStep h run n).2
    (by rw [State.latchesPlainly, hrole])
  rw [State.latchByte, hrole] at hcycle
  exact hcycle

/-- A byte into a half of an address register (R204). -/
theorem tableStep_half {w : Word} {msb : Bool} (hkind : m.kind = kindXdata) (hhalt : hasFlag m.opFlags flagHalt = false)
    (hmsb : hasFlag m.opFlags flagMsb = msb) (hdst : referenceWiring.resolve m.dst = .addressRegister r true)
    (hb : Drives m u b) (hw : u.areg r = w) : TableStep m u (u.setAreg r (setHalf msb w b)) := by
  refine fun h => ⟨h.setAreg r _, fun {t run n mc} hlive => ?_⟩
  have hrole : (u.inStep run n).resolve m.dst = .addressRegister r true := (h.resolve _).trans hdst
  have hcycle := hlive.move (mc := mc) hkind hhalt (hb.inStep h run n).1 (hb.inStep h run n).2
    (by rw [State.latchesPlainly, hrole])
  rw [State.latchByte, hrole, hmsb] at hcycle
  rw [← hw]
  exact hcycle

/-- A byte into the ALU (R250, R252). -/
theorem tableStep_alu {res : AluResult} (hkind : m.kind = kindXdata) (hhalt : hasFlag m.opFlags flagHalt = false)
    (hdst : referenceWiring.resolve m.dst = .alu r lhs) (hb : Drives m u b)
    (hres : aluResult (aluCode m.opFlags) (u.reg lhs) b u.bus.c = some res) :
    TableStep m u (u.computed r (aluCode m.opFlags) (hasFlag m.opFlags flagFlags) b res) := by
  refine fun h => ⟨h.computed .., fun {t run n mc} hlive => ?_⟩
  have hrole : (u.inStep run n).resolve m.dst = .alu r lhs := (h.resolve _).trans hdst
  have hcycle := hlive.compute (mc := mc) hkind hhalt (hb.inStep h run n).1 (hb.inStep h run n).2 hrole hres
  have hinStep : (u.inStep run n).computed r (aluCode m.opFlags) (hasFlag m.opFlags flagFlags) b res =
      (u.computed r (aluCode m.opFlags) (hasFlag m.opFlags flagFlags) b res).inStep run n := by
    cases hasFlag m.opFlags flagFlags <;> rfl
  rwa [hinStep] at hcycle

/-- An operation that writes its result and the flags (R250, R252). -/
theorem tableStep_aluStore {res : AluResult} (hkind : m.kind = kindXdata) (hhalt : hasFlag m.opFlags flagHalt = false)
    (hflags : hasFlag m.opFlags flagFlags = true) (hdst : referenceWiring.resolve m.dst = .alu r lhs)
    (hb : Drives m u b) (hres : aluResult (aluCode m.opFlags) (u.reg lhs) b u.bus.c = some res)
    (hstore : res.store = true) :
    TableStep m u (((u.setReg r res.r).setAluOp r (aluCode m.opFlags)).writeFlags res) := by
  have hstep := tableStep_alu hkind hhalt hdst hb hres
  rwa [State.computed, hflags, hstore] at hstep

/-- The comparison: the ALU keeps the right-hand byte (R262). -/
theorem tableStep_aluCompare {res : AluResult} (hkind : m.kind = kindXdata)
    (hhalt : hasFlag m.opFlags flagHalt = false) (hflags : hasFlag m.opFlags flagFlags = true)
    (hdst : referenceWiring.resolve m.dst = .alu r lhs) (hb : Drives m u b)
    (hres : aluResult (aluCode m.opFlags) (u.reg lhs) b u.bus.c = some res) (hstore : res.store = false) :
    TableStep m u (((u.setReg r b).setAluOp r (aluCode m.opFlags)).writeFlags res) := by
  have hstep := tableStep_alu hkind hhalt hdst hb hres
  rwa [State.computed, hflags, hstore] at hstep

/-- A byte into the memory bank (R87). -/
theorem tableStep_store {mem : Memory} {a : Word} (hkind : m.kind = kindXdata)
    (hhalt : hasFlag m.opFlags flagHalt = false) (hdst : referenceWiring.resolve m.dst = .memoryData id)
    (hb : Drives m u b) (hmem : u.mem = mem) (hmar : u.mar = a) (hwritable : mem.writableAt a = true) :
    TableStep m u (u.setMem (mem.store a b)) := by
  subst hmem hmar
  refine fun h => ⟨h.setMem _, fun {t run n mc} hlive => ?_⟩
  exact hlive.store (mc := mc) hkind hhalt (hb.inStep h run n).1 (hb.inStep h run n).2
    (((h.resolve _).trans hdst : (u.inStep run n).resolve m.dst = .memoryData id)) hwritable

/-- A word into MAR (R206, R88). -/
theorem tableStep_mar (hkind : m.kind = kindXaddr) (hhalt : hasFlag m.opFlags flagHalt = false)
    (hsrc : referenceWiring.resolve m.src = .addressRegister r true)
    (hdst : referenceWiring.resolve m.dst = .memoryAddress id)
    (hboth : (hasFlag m.opFlags flagInc && hasFlag m.opFlags flagDec) = false) :
    TableStep m u (((u.setAreg r (postModify m.opFlags (u.areg r)).value).raiseFlags
      (postModify m.opFlags (u.areg r)).setZ (postModify m.opFlags (u.areg r)).setC).setMar (u.areg r)) := by
  refine fun h => ⟨((h.setAreg r _).raiseFlags _ _).setMar _, fun {t run n mc} hlive => ?_⟩
  have hsrcRole : (u.inStep run n).resolve m.src = .addressRegister r true := (h.resolve _).trans hsrc
  have hdstRole : (u.inStep run n).resolve m.dst = .memoryAddress id := (h.resolve _).trans hdst
  have hcycle := hlive.address (mc := mc) (supply := none) hkind hhalt (by rw [hsrcRole]; rfl)
    (by simpa [addressRefusal, hsrcRole, hdstRole, Role.postModifies, Role.isMemoryData, Role.isAlu,
      Role.isController] using hboth)
  rw [State.postModifySource, State.sourceWord, hsrcRole, State.latchWord] at hcycle
  have hdstRole' (w : Word) (z c : Bool) : (((u.inStep run n).setAreg r w).raiseFlags z c).resolve m.dst =
      .memoryAddress id := hdstRole
  simp only [hdstRole'] at hcycle
  exact hcycle

/-- MAR, post-modified, into an address register (R89, R210). -/
theorem tableStep_fromMar (hkind : m.kind = kindXaddr) (hhalt : hasFlag m.opFlags flagHalt = false)
    (hsrc : referenceWiring.resolve m.src = .memoryAddress id)
    (hdst : referenceWiring.resolve m.dst = .addressRegister r true)
    (hboth : (hasFlag m.opFlags flagInc && hasFlag m.opFlags flagDec) = false) :
    TableStep m u (((u.setMar (postModify m.opFlags u.mar).value).raiseFlags
      (postModify m.opFlags u.mar).setZ (postModify m.opFlags u.mar).setC).setAreg r u.mar) := by
  refine fun h => ⟨((h.setMar _).raiseFlags _ _).setAreg r _, fun {t run n mc} hlive => ?_⟩
  have hsrcRole : (u.inStep run n).resolve m.src = .memoryAddress id := (h.resolve _).trans hsrc
  have hdstRole : (u.inStep run n).resolve m.dst = .addressRegister r true := (h.resolve _).trans hdst
  have hcycle := hlive.address (mc := mc) (supply := none) hkind hhalt (by rw [hsrcRole]; rfl)
    (by simpa [addressRefusal, hsrcRole, hdstRole, Role.postModifies, Role.isMemoryData, Role.isAlu,
      Role.isController] using hboth)
  rw [State.postModifySource, State.sourceWord, hsrcRole, State.latchWord] at hcycle
  have hdstRole' (w : Word) (z c : Bool) : (((u.inStep run n).setMar w).raiseFlags z c).resolve m.dst =
      .addressRegister r true := hdstRole
  simp only [hdstRole'] at hcycle
  exact hcycle

/-- A word into MAR, its register unmodified. -/
theorem tableStep_marPlain {w : Word} (hkind : m.kind = kindXaddr) (hflags : m.opFlags = 0x00#8)
    (hsrc : referenceWiring.resolve m.src = .addressRegister r true)
    (hdst : referenceWiring.resolve m.dst = .memoryAddress id) (hw : u.areg r = w) : TableStep m u (u.setMar w) := by
  have hstep := tableStep_mar (u := u) hkind (by rw [hflags]; decide) hsrc hdst (by rw [hflags]; decide)
  have hplain (w : Word) : postModify 0x00#8 w = { value := w, setZ := false, setC := false, changed := false } := rfl
  have hsame : (u.setAreg r (u.areg r)).raiseFlags false false = u := by simp [State.setAreg, State.areg, State.setBus]
  rw [hflags, hplain, hsame, hw] at hstep
  exact hstep

/-- A word into MAR, its register incremented (R210, R211). -/
theorem tableStep_marInc {w : Word} (hkind : m.kind = kindXaddr) (hflags : m.opFlags = flagInc)
    (hsrc : referenceWiring.resolve m.src = .addressRegister r true)
    (hdst : referenceWiring.resolve m.dst = .memoryAddress id) (hw : u.areg r = w) :
    TableStep m u (((u.setAreg r (w + 1)).setMar w).raiseFlags (w == 0xFFFF#16) (w == 0xFFFF#16)) := by
  have hstep := tableStep_mar (u := u) hkind (by rw [hflags]; decide) hsrc hdst (by rw [hflags]; decide)
  rw [hflags, postModify_flagInc, hw] at hstep
  exact hstep

/-- A word into MAR, its register decremented (R210, R211). -/
theorem tableStep_marDec {w : Word} (hkind : m.kind = kindXaddr) (hflags : m.opFlags = flagDec)
    (hsrc : referenceWiring.resolve m.src = .addressRegister r true)
    (hdst : referenceWiring.resolve m.dst = .memoryAddress id) (hw : u.areg r = w) :
    TableStep m u (((u.setAreg r (w - 1)).setMar w).raiseFlags (w == 0x0001#16) false) := by
  have hstep := tableStep_mar (u := u) hkind (by rw [hflags]; decide) hsrc hdst (by rw [hflags]; decide)
  rw [hflags, postModify_flagDec, hw] at hstep
  exact hstep

/-- MAR into an address register, MAR incremented (R89, R210, R211). -/
theorem tableStep_fromMarInc {w : Word} (hkind : m.kind = kindXaddr) (hflags : m.opFlags = flagInc)
    (hsrc : referenceWiring.resolve m.src = .memoryAddress id)
    (hdst : referenceWiring.resolve m.dst = .addressRegister r true) (hw : u.mar = w) :
    TableStep m u (((u.setAreg r w).setMar (w + 1)).raiseFlags (w == 0xFFFF#16) (w == 0xFFFF#16)) := by
  have hstep := tableStep_fromMar (u := u) hkind (by rw [hflags]; decide) hsrc hdst (by rw [hflags]; decide)
  rw [hflags, postModify_flagInc, hw] at hstep
  exact hstep

/-- The constant into an address register (R298). -/
theorem tableStep_constant (hkind : m.kind = kindXaddr) (hhalt : hasFlag m.opFlags flagHalt = false)
    (hsrc : referenceWiring.resolve m.src = .controller id)
    (hdst : referenceWiring.resolve m.dst = .addressRegister r true) {w : Word} (hw : u.ctrl.constant = w) :
    TableStep m u (u.setAreg r w) := by
  subst hw
  refine fun h => ⟨h.setAreg r _, fun {t run n mc} hlive => ?_⟩
  have hsrcRole : (u.inStep run n).resolve m.src = .controller id := (h.resolve _).trans hsrc
  have hdstRole : (u.inStep run n).resolve m.dst = .addressRegister r true := (h.resolve _).trans hdst
  have hcycle := hlive.address (mc := mc) (supply := none) hkind hhalt (by rw [hsrcRole]; rfl)
    (by simp [addressRefusal, hsrcRole, hdstRole, Role.postModifies, Role.isMemoryData, Role.isAlu, Role.isController])
  rw [State.postModifySource, State.sourceWord, hsrcRole, State.latchWord, hdstRole] at hcycle
  exact hcycle

/-- A register to an output channel (R222, R223). -/
theorem tableStep_output (hkind : m.kind = kindIo) (hhalt : hasFlag m.opFlags flagHalt = false)
    (hout : hasFlag m.opFlags flagMsb = true) (hsrc : referenceWiring.resolve m.src = .register r) :
    TableStep m u (u.outputByte m.dst (u.reg r)) :=
  fun h => ⟨h.outputByte _ _, fun hlive => hlive.output hkind hhalt hout ((h.resolve _).trans hsrc)⟩

/-- An input channel into a register (R224, R226). -/
theorem tableStep_input {ch : Channel} (hkind : m.kind = kindIo) (hhalt : hasFlag m.opFlags flagHalt = false)
    (hout : hasFlag m.opFlags flagMsb = false) (hsrc : referenceWiring.resolve m.src = .register r)
    (hch : referenceWiring.channel m.dst = some ch) (hin : ch.hasInput = true) :
    TableStep m u ((u.takeInput m.dst).setReg r (u.nextInput m.dst)) :=
  fun h => ⟨(h.takeInput _).setReg r _, fun hlive => hlive.input hkind hhalt hout ((h.resolve _).trans hsrc)
    ((congrArg (·.channel m.dst) h.1).trans hch) hin⟩

/-- No transfer (R230, R231). -/
theorem tableStep_other (hkind : m.kind = kindOther) : TableStep m u (u.haltIf (hasFlag m.opFlags flagHalt)) :=
  fun h => ⟨h.haltIf _, fun hlive => hlive.other hkind⟩

/-! ### Table steps that raise an error -/

/-- A raise keeps what is tracked. -/
theorem State.tracks.raise {t u : State} (h : t.tracks u) (e : Fault) (p : Phase) (c : Id) :
    (t.raise e p c).tracks (u.raise e p c) := ⟨h.1.raise e p c, h.2⟩

/-- Until the high clock of a data transfer without HALT only transfer fields of the bus have changed. -/
theorem tracks_placed {t : State} (hhalt : hasFlag m.opFlags flagHalt = false) : (t.placed m).tracks t := by
  have hagrees := placed_agrees m t
  rw [hhalt] at hagrees
  exact tracks_haltIf_false ⟨hagrees, rfl⟩

/-- A data transfer from an address in no range (R86). -/
theorem Live.readTrap {t : State} {mc : Microcode} (hlive : Live t u m) (hkind : m.kind = kindXdata)
    (hhalt : hasFlag m.opFlags flagHalt = false) (hsrc : u.resolve m.src = .memoryData id)
    (hread : u.mem.read u.mar = none) :
    (t.cycle mc none).tracks (u.raise (.invalidComponentID u.mar) .rising id) := by
  have hread' : t.mem.read t.mar = none := by rw [hlive.tracks.mem, hlive.tracks.mar]; exact hread
  have hrising := risingPhase_xdata_error hkind ((hlive.tracks.resolve _).trans hsrc) hread'
  rw [hlive.cycle (by rw [hkind]; rfl), phases_of_rising_error (placeWord_multipleLines m t)
    (placeWord_roleRefusal_none t (hkind ▸ kindXdata_ne.1) (hkind ▸ kindXdata_ne.2)) hrising rfl, hlive.tracks.mar]
  exact ((tracks_placed hhalt).trans hlive.tracks).raise _ _ _

/-- A read from an address in no range (R86). -/
theorem tableTrap_read {mem : Memory} {a : Word} (hkind : m.kind = kindXdata)
    (hhalt : hasFlag m.opFlags flagHalt = false) (hsrc : referenceWiring.resolve m.src = .memoryData idMem)
    (hmem : u.mem = mem) (hmar : u.mar = a) (hrange : mem.rangeOf a = none) :
    TableTrap m u (.invalidComponentID a) .rising := by
  subst hmem hmar
  exact fun h _ _ _ _ hlive => hlive.readTrap hkind hhalt ((h.resolve _).trans hsrc) (Memory.read_eq_none.2 hrange)

/-- A write that the memory bank refuses (R85, R87). -/
theorem tableTrap_store {e : Fault} {mem : Memory} {a : Word} (hkind : m.kind = kindXdata)
    (hhalt : hasFlag m.opFlags flagHalt = false) (hdst : referenceWiring.resolve m.dst = .memoryData idMem)
    (hb : Drives m u b) (hmem : u.mem = mem) (hmar : u.mar = a) (hwrite : mem.write a b = .failed e) :
    TableTrap m u e .high := by
  subst hmem hmar
  intro h t run n mc hlive
  have hsource := (sourceByte_congr hlive.tracks (hb.inStep h run n).1).trans (hb.inStep h run n).2
  have hlatch := latchData_memory_error (mc := mc) (b := b)
    ((hlive.tracks.resolve _).trans ((h.resolve _).trans hdst))
    (by rw [hlive.tracks.mem, hlive.tracks.mar]; exact hwrite)
  rw [hlive.cycle (by rw [hkind]; rfl), phases_of_high_error (placeWord_multipleLines m t)
    (placeWord_roleRefusal_none t (hkind ▸ kindXdata_ne.1) (hkind ▸ kindXdata_ne.2)) (risingPhase_xdata hkind hsource)
    (hlive.tracks.fault.trans hlive.fault) ((highPhase_xdata b hkind).trans hlatch) rfl]
  exact ((tracks_placed hhalt).trans hlive.tracks).raise _ _ _

end steps

/-! ### Table runs -/

/-- The table steps take `u` to `v`, one cycle each. -/
inductive TableRun : List MicroStep → State → State → Prop where
  | nil {u : State} : TableRun [] u u
  | cons {m : MicroStep} {ms : List MicroStep} {u v w : State} : TableStep m u v → TableRun ms (v.afterCycles 1) w →
      TableRun (m :: ms) u w

theorem TableRun.atStart {ms : List MicroStep} {u w : State} (h : TableRun ms u w) (hu : u.atStart) : w.atStart := by
  induction h with
  | nil => exact hu
  | cons hstep _ ih => exact ih ((hstep hu).1.afterCycles 1)

theorem TableRun.append {ms ns : List MicroStep} {u v w : State} (h : TableRun ms u v) (h' : TableRun ns v w) :
    TableRun (ms ++ ns) u w := by
  induction h with
  | nil => exact h'
  | cons hstep _ ih => exact .cons hstep (ih h')

/-- The machine that tracks a state in step `i` of a runner is live. -/
theorem live_inStep {t u : State} {r : Runner} {i : Nat} {m : MicroStep} (hu : u.atStart)
    (ht : t.tracks (u.inStep r (i + 2))) (hm : r.steps[i]? = some m) : Live t (u.inStep r (i + 2)) m :=
  ⟨ht, hu.2.1.1, hu.2.1.2, hu.1, by simp [Controller.current, hm]⟩

/-- Past the table start an incomplete runner is done exactly when its steps are exhausted (R294). -/
theorem doneAt_of_tableStart_lt {r : Runner} {i : Nat} (hr : r.complete = false) (hi : r.tableStart < i)
    (flags : Byte) : r.doneAt i flags = decide (r.steps.length ≤ i) := by
  have : (i == r.tableStart) = false := by simpa using Nat.ne_of_gt hi
  simp [Runner.doneAt, hr, this]

/-- Table steps run one by one while others follow them. -/
theorem ends_tableRun {mc : Microcode} {r : Runner} {pre post : List MicroStep} {u w U : State} {fuel i : Nat}
    (hr : r.complete = false) (hrun : TableRun pre u w) (hu : u.atStart) (hi : r.tableStart ≤ i)
    (hsteps : r.steps.drop i = pre ++ post) (hpost : post ≠ [])
    (k : ∀ t : State, t.tracks (w.inStep r (i + pre.length + 2)) → Ends mc fuel [] t U) :
    ∀ t : State, t.tracks (u.inStep r (i + 2)) → Ends mc (fuel + pre.length) [] t U := by
  induction hrun generalizing i with
  | nil => exact k
  | @cons m ms u v w hstep _ ih =>
    intro t ht
    obtain ⟨hv, hcycle⟩ := hstep hu
    have hrest : r.steps.drop (i + 1) = ms ++ post := by
      rw [← List.drop_drop, hsteps, List.cons_append, List.drop_one, List.tail_cons]
    have hlength : ¬ r.steps.length ≤ i + 1 := fun hle => by
      rw [List.drop_eq_nil_of_le hle] at hrest
      exact hpost (List.append_eq_nil_iff.1 hrest.symm).2
    have hm : r.steps[i]? = some m := by rw [← List.head?_drop, hsteps]; rfl
    refine ends_go (hcycle (live_inStep hu ht hm)) hv.1 hv.2.1.1 rfl ?_
      (ih (hv.afterCycles 1) (by omega) hrest fun t' ht' => k t' ?_)
    · exact (doneAt_of_tableStart_lt hr (Nat.lt_succ_of_le hi) _).trans (by simpa using hlength)
    · rw [List.length_cons, Nat.add_comm ms.length, ← Nat.add_assoc]
      exact ht'

/-- The last table step ends the instruction. -/
theorem ends_tableStep {mc : Microcode} {r : Runner} {m : MicroStep} {u v : State} {fuel i : Nat}
    (hr : r.complete = false) (hstep : TableStep m u v) (hu : u.atStart) (hi : r.tableStart ≤ i)
    (hsteps : r.steps.drop i = [m]) :
    ∀ t : State, t.tracks (u.inStep r (i + 2)) → Ends mc (fuel + 1) [] t (v.afterCycles 1) := by
  intro t ht
  obtain ⟨hv, hcycle⟩ := hstep hu
  have hm : r.steps[i]? = some m := by rw [← List.head?_drop, hsteps]; rfl
  have hlength : r.steps.length ≤ i + 1 := by
    have := congrArg List.length hsteps
    rw [List.length_drop, List.length_singleton] at this
    omega
  refine ends_stop (hcycle (live_inStep hu ht hm)) hv.1 rfl
    ((doneAt_of_tableStart_lt hr (Nat.lt_succ_of_le hi) _).trans (by simpa using hlength)) ?_
  rw [hv.withoutRunner]
  exact State.tracks_refl _

/-- A table step that raises an error ends the cycles, with its step and the runner kept. -/
theorem ends_tableTrap {mc : Microcode} {r : Runner} {m : MicroStep} {post : List MicroStep} {u : State} {fuel i : Nat}
    {e : Fault} {phase : Phase} (htrap : TableTrap m u e phase) (hu : u.atStart)
    (hsteps : r.steps.drop i = m :: post) :
    ∀ t : State, t.tracks (u.inStep r (i + 2)) →
      Ends mc (fuel + 1) [] t ((u.inStep r (i + 2)).raise e phase idMem) := by
  intro t ht
  have hm : r.steps[i]? = some m := by rw [← List.head?_drop, hsteps]; rfl
  exact ends_last (htrap hu (live_inStep hu ht hm)) (by simp [State.inFlight, State.raise]) (State.tracks_refl _)

/-! ### Whole records -/

/-- A record of a mode and a condition operator, with table steps, not too many (R130, R131). -/
structure Record.OfMode (rec : Record) (mode : Mode) (op : CondOp) : Prop where
  mode : modeOfCode rec.mode = some mode
  op : condOpOfCode rec.conditionOp = some op
  nonempty : rec.steps ≠ []
  length : rec.steps.length ≤ 24

/-- The same, read off a literal record. -/
theorem Record.ofMode {rec : Record} {mode : Mode} {op : CondOp} (hmode : modeOfCode rec.mode = some mode)
    (hop : condOpOfCode rec.conditionOp = some op)
    (hcount : (!rec.steps.isEmpty && decide (rec.steps.length ≤ 24)) = true) : rec.OfMode mode op := by
  simp only [Bool.and_eq_true, Bool.not_eq_true', List.isEmpty_eq_false_iff, decide_eq_true_eq] at hcount
  exact ⟨hmode, hop, hcount.1, hcount.2⟩

/-- The fetch and the prologue of `rec`, from the start of an instruction at `s`, leave the state `u` with a runner
whose table starts at step `n + 2`. -/
def Opens (rec : Record) (bytes : List Byte) (s u : State) (n : Nat) : Prop :=
  ∃ r : Runner, r.tableStart = n ∧ r.complete = false ∧ r.steps.drop n = rec.steps ∧
    ∀ U : State, (∀ fuel, 24 ≤ fuel → ∀ t : State, t.tracks (u.inStep r (n + 2)) →
      Ends (fun _ => some rec) fuel [] t U) →
    Ends (fun _ => some rec) Config.maxInstructionCycles (fetchSupplies bytes) s U

section opens
variable {s : State} {rec : Record} {op : CondOp}

theorem expand_of_mode {mode : Mode} (hrec : rec.OfMode mode op) :
    expand referenceWiring rec rec.opcode = some (runnerOf rec mode op) := expand_eq hrec.mode hrec.op hrec.length

theorem drop_runnerOf (mode : Mode) {n : Nat} (hn : (prologue referenceWiring mode).length = n) :
    (runnerOf rec mode op).steps.drop n = rec.steps := by
  subst hn
  exact List.drop_left

/-- At its table start a runner whose condition is met goes on (R293, R294). -/
theorem doneAt_tableStart {mode : Mode} {n : Nat} {flags : Byte} (hrec : rec.OfMode mode op)
    (hn : (prologue referenceWiring mode).length = n) (hmet : condMet op rec.condition flags = true) :
    (runnerOf rec mode op).doneAt n flags = false := by
  simp [Runner.doneAt, runnerOf, hmet, hn, hrec.nonempty]

theorem opens_implied (h : s.atStart) (hrec : rec.OfMode .implied op)
    (hmet : condMet op rec.condition (s.fetchedFlags 1) = true) :
    Opens rec [rec.opcode] s (s.afterFetch rec.opcode 1 0x0000#16) 0 :=
  ⟨runnerOf rec .implied op, rfl, rfl, drop_runnerOf .implied rfl, fun _ k =>
    ends_implied h (expand_of_mode hrec) (doneAt_tableStart hrec rfl hmet) (k 29 (by norm_num))⟩

theorem opens_immediateByte (b : Byte) (h : s.atStart) (hrec : rec.OfMode .immediateByte op)
    (hmet : condMet op rec.condition (s.fetchedFlags 2) = true) :
    Opens rec [rec.opcode, b] s (s.afterFetch rec.opcode 2 (zextWord b)) 2 :=
  ⟨runnerOf rec .immediateByte op, rfl, rfl, drop_runnerOf .immediateByte rfl, fun _ k =>
    ends_immediateByte h (expand_of_mode hrec) (runnerOf_of rec .immediateByte op) (doneAt_tableStart hrec rfl hmet)
      (k 27 (by norm_num))⟩

theorem opens_immediateWord (a : Word) (h : s.atStart) (hrec : rec.OfMode .immediateWord op)
    (hmet : condMet op rec.condition (s.fetchedFlags 3) = true) :
    Opens rec (rec.opcode :: wordBytes a) s (s.afterFetch rec.opcode 3 a) 4 :=
  ⟨runnerOf rec .immediateWord op, rfl, rfl, drop_runnerOf .immediateWord rfl, fun _ k =>
    ends_immediateWord h (expand_of_mode hrec) (runnerOf_of rec .immediateWord op) (doneAt_tableStart hrec rfl hmet)
      (k 25 (by norm_num))⟩

theorem opens_indirect {mode : Mode} (a : Word) (h : s.atStart) (hmode : mode = .indirectByte ∨ mode = .indirectWord)
    (hrec : rec.OfMode mode op) (hmet : condMet op rec.condition (s.fetchedFlags 3) = true) :
    Opens rec (rec.opcode :: wordBytes a) s (((s.afterFetch rec.opcode 3 a).setMar a).afterCycles 1) 5 := by
  have hlength : (prologue referenceWiring mode).length = 5 := by rcases hmode with rfl | rfl <;> rfl
  exact ⟨runnerOf rec mode op, hlength, rfl, drop_runnerOf mode hlength, fun _ k =>
    ends_indirect h (expand_of_mode hrec) (runnerOf_of rec mode op) hmode (doneAt_tableStart hrec hlength hmet)
      (k 24 (by norm_num))⟩

end opens

section whole
variable {rec : Record} {bytes : List Byte} {s u w : State} {n : Nat}

/-- A run of one table step or more has a last one. -/
theorem TableRun.exists_last {ms : List MicroStep} {u w : State} (h : TableRun ms u w) (hms : ms ≠ []) :
    ∃ pre m v w', ms = pre ++ [m] ∧ TableRun pre u v ∧ TableStep m v w' ∧ w = w'.afterCycles 1 := by
  induction h with
  | nil => exact absurd rfl hms
  | @cons m ms u v w hstep hrest ih =>
    cases ms with
    | nil => cases hrest; exact ⟨[], m, u, v, rfl, .nil, hstep, rfl⟩
    | cons m' ms =>
      obtain ⟨pre, last, v', w', hsplit, hpre, hlast, hw⟩ := ih (List.cons_ne_nil _ _)
      exact ⟨m :: pre, last, v', w', by rw [hsplit]; rfl, .cons hstep hpre, hlast, hw⟩

/-- A record whose table steps run through answers what they leave. -/
theorem runRecord_completes (h : s.atStart) (hu : u.atStart) (hopens : Opens rec bytes s u n)
    (hrun : TableRun rec.steps u w) (hne : rec.steps ≠ []) (hlength : rec.steps.length ≤ 24) :
    ∃ t, runRecord rec bytes s = .next t ∧ t.tracks w := by
  obtain ⟨r, hstart, hr, hsteps, hends⟩ := hopens
  obtain ⟨pre, m, v, w', hsplit, hpre, hlast, rfl⟩ := hrun.exists_last hne
  have hv := hpre.atStart hu
  rw [hsplit] at hsteps hlength
  refine runRecord_ends h (hends _ fun fuel hfuel => ?_) (hlast hv).1.2.1.1
  rw [List.length_append, List.length_singleton] at hlength
  obtain ⟨k, rfl⟩ : ∃ k, fuel = k + 1 + pre.length := ⟨fuel - 1 - pre.length, by omega⟩
  refine ends_tableRun hr hpre hu (by omega) hsteps (List.cons_ne_nil _ _) (ends_tableStep hr hlast hv (by omega) ?_)
  rw [← List.drop_drop, hsteps, List.drop_left]

/-- A record one of whose table steps raises an error of the memory bank answers the machine as it stands there. -/
theorem runRecord_traps {pre post : List MicroStep} {m : MicroStep} {e : Fault} {phase : Phase} (h : s.atStart)
    (hu : u.atStart) (hopens : Opens rec bytes s u n) (hsplit : rec.steps = pre ++ m :: post) (hpre : TableRun pre u w)
    (htrap : TableTrap m w e phase) (hlength : rec.steps.length ≤ 24) :
    ∃ t, runRecord rec bytes s = .next t ∧ t.mem = w.mem ∧ t.trapsIn w e phase (n + pre.length + 2) := by
  obtain ⟨r, hstart, hr, hsteps, hends⟩ := hopens
  have hw := hpre.atStart hu
  rw [hsplit] at hsteps hlength
  have hruns : Ends (fun _ => some rec) Config.maxInstructionCycles (fetchSupplies bytes) s
      ((w.inStep r (n + pre.length + 2)).raise e phase idMem) := by
    refine hends _ fun fuel hfuel => ?_
    rw [List.length_append, List.length_cons] at hlength
    obtain ⟨k, rfl⟩ : ∃ k, fuel = k + 1 + pre.length := ⟨fuel - 1 - pre.length, by omega⟩
    refine ends_tableRun hr hpre hu (by omega) hsteps (List.cons_ne_nil _ _) (ends_tableTrap (post := post) htrap hw ?_)
    rw [← List.drop_drop, hsteps, List.drop_left]
  obtain ⟨hagrees, hmem⟩ := hruns
  obtain ⟨hwiring, ⟨hfault, hnmi⟩, hstep, hrunner⟩ := h
  have hcan : s.canStart = true := by simp [State.canStart, hwiring, Controller.atBoundary, hstep, hrunner]
  refine ⟨_, ?_, hmem, r, hagrees⟩
  rw [runRecord_of_start hfault hnmi hcan]
  exact outcome_of_error _ _ _ _ _ (State.tracks.fault ⟨hagrees, hmem⟩)

end whole

end Sys2Proof.Machine
end

section
/-! PROOFS. The reference instructions that complete: for each its table steps as a `TableRun`, closed by
`runRecord_completes`. -/

namespace Sys2Proof.Machine

/-! ### Closing a record -/

section close
variable {rec : Record} {mode : Mode} {op : CondOp} {bytes : List Byte} {s u w U : State} {n : Nat}

/-- A record whose table steps store nothing. -/
theorem completes_same (h : s.atStart) (hu : u.atStart) (hrec : rec.OfMode mode op) (hopens : Opens rec bytes s u n)
    (hrun : TableRun rec.steps u w) (hagrees : w.agrees U) (hmem : w.mem = s.mem) :
    ∃ t, runRecord rec bytes s = .next t ∧ t.agrees U ∧ t.sameMemory s := by
  obtain ⟨t, ht, htracks⟩ := runRecord_completes h hu hopens hrun hrec.nonempty hrec.length
  exact ⟨t, ht, htracks.1.trans hagrees, State.sameMemory_of_eq (htracks.2.trans hmem)⟩

/-- A record whose table steps store one byte. -/
theorem completes_stored {a : Word} {b : Byte} (h : s.atStart) (hu : u.atStart) (hrec : rec.OfMode mode op)
    (hopens : Opens rec bytes s u n) (hrun : TableRun rec.steps u w) (hagrees : w.agrees U) (hwf : s.mem.wf = true)
    (ha : s.mem.writableAt a = true) (hmem : w.mem = s.mem.store a b) :
    ∃ t, runRecord rec bytes s = .next t ∧ t.agrees U ∧ t.storedByte s a b := by
  obtain ⟨t, ht, htracks⟩ := runRecord_completes h hu hopens hrun hrec.nonempty hrec.length
  exact ⟨t, ht, htracks.1.trans hagrees, State.storedByte_of_store hwf ha (htracks.2.trans hmem)⟩

end close

/-! ### Control -/

/-- Settles O25: NOP ends with its fetch; HLT's one step transfers nothing. -/
theorem controlInstructions : Obligations.ControlInstructions := by
  refine fun s h => ⟨?_, ?_⟩
  · obtain ⟨t, ht, htracks⟩ := runRecord_ends h (ends_implied_done (rec := nopRecord) h
      (expand_eq (mode := .implied) (op := .none) rfl rfl (by decide)) rfl) h.2.1.1
    exact ⟨t, ht, htracks.1, State.sameMemory_of_eq htracks.2⟩
  · have hrec : hltRecord.OfMode .implied .none := Record.ofMode rfl rfl rfl
    exact completes_same h (h.afterFetch ..) hrec (opens_implied h hrec rfl) (.cons (tableStep_other rfl) .nil)
      (State.agrees_refl _) rfl

/-! ### Byte moves -/

theorem hasFlag_zero_halt : hasFlag 0x00#8 flagHalt = false := by decide
theorem hasFlag_zero_msb : hasFlag 0x00#8 flagMsb = false := by decide

section moves
variable {s : State} {rec : Record} {src dst : Id}

/-- An ImmediateByte record that latches its constant. -/
theorem completes_moveImmediate (imm : Byte) (h : s.atStart) (hrec : rec.OfMode .immediateByte .none)
    (hsteps : rec.steps = [{ kind := kindXdata, src := idCtrl, dst := dst, opFlags := 0x00#8 }])
    (hdst : referenceWiring.resolve dst = .register dst) :
    ∃ t, runRecord rec [rec.opcode, imm] s = .next t ∧
      t.agrees (((s.afterFetch rec.opcode 2 (zextWord imm)).setReg dst imm).afterCycles 1) ∧ t.sameMemory s := by
  have hlow : halfByte false (zextWord imm) = imm := lowByte_joinWord 0x00#8 imm
  have hrun : TableRun rec.steps (s.afterFetch rec.opcode 2 (zextWord imm))
      (((s.afterFetch rec.opcode 2 (zextWord imm)).setReg dst imm).afterCycles 1) := by
    rw [hsteps]
    refine .cons (tableStep_register rfl hasFlag_zero_halt hdst ?_) .nil
    have hdrives := drives_constant (m := { kind := kindXdata, src := idCtrl, dst := dst, opFlags := 0x00#8 })
      (u := s.afterFetch rec.opcode 2 (zextWord imm)) (w := zextWord imm) rfl hasFlag_zero_msb rfl
    rwa [hlow] at hdrives
  exact completes_same h (h.afterFetch ..) hrec (opens_immediateByte imm h hrec rfl) hrun (State.agrees_refl _) rfl

/-- An Implied record that moves a register. -/
theorem completes_moveRegister (h : s.atStart) (hrec : rec.OfMode .implied .none)
    (hsteps : rec.steps = [{ kind := kindXdata, src := src, dst := dst, opFlags := 0x00#8 }])
    (hsrc : referenceWiring.resolve src = .register src) (hdst : referenceWiring.resolve dst = .register dst) :
    ∃ t, runRecord rec [rec.opcode] s = .next t ∧
      t.agrees (((s.afterFetch rec.opcode 1 0x0000#16).setReg dst (s.reg src)).afterCycles 1) ∧ t.sameMemory s := by
  have hrun : TableRun rec.steps (s.afterFetch rec.opcode 1 0x0000#16)
      (((s.afterFetch rec.opcode 1 0x0000#16).setReg dst (s.reg src)).afterCycles 1) := by
    rw [hsteps]
    exact .cons (tableStep_register rfl hasFlag_zero_halt hdst (drives_register hsrc rfl)) .nil
  exact completes_same h (h.afterFetch ..) hrec (opens_implied h hrec rfl) hrun (State.agrees_refl _) rfl

end moves

/-- Settles O26: an immediate is the constant's low half, a register move is one step. -/
theorem byteMoves : Obligations.ByteMoves := by
  refine fun s imm h => ⟨?_, ?_⟩
  · simp only [List.forall_mem_cons]
    exact ⟨completes_moveImmediate (rec := movAImmRecord) imm h (Record.ofMode rfl rfl rfl) rfl rfl,
      completes_moveImmediate (rec := movBImmRecord) imm h (Record.ofMode rfl rfl rfl) rfl rfl,
      completes_moveImmediate (rec := movCImmRecord) imm h (Record.ofMode rfl rfl rfl) rfl rfl,
      completes_moveImmediate (rec := movDImmRecord) imm h (Record.ofMode rfl rfl rfl) rfl rfl, List.forall_mem_nil _⟩
  · simp only [List.forall_mem_cons]
    exact ⟨completes_moveRegister (rec := movABRecord) h (Record.ofMode rfl rfl rfl) rfl rfl rfl,
      completes_moveRegister (rec := movACRecord) h (Record.ofMode rfl rfl rfl) rfl rfl rfl,
      completes_moveRegister (rec := movADRecord) h (Record.ofMode rfl rfl rfl) rfl rfl rfl,
      completes_moveRegister (rec := movBARecord) h (Record.ofMode rfl rfl rfl) rfl rfl rfl,
      completes_moveRegister (rec := movCARecord) h (Record.ofMode rfl rfl rfl) rfl rfl rfl,
      completes_moveRegister (rec := movDARecord) h (Record.ofMode rfl rfl rfl) rfl rfl rfl, List.forall_mem_nil _⟩

/-! ### Memory and words -/

section memory
variable {s : State} {rec : Record} {a : Word} {b : Byte} {r : Id}

/-- An IndirectByte record that loads a register. -/
theorem completes_load (h : s.atStart) (hread : s.mem.read a = some b) (hrec : rec.OfMode .indirectByte .none)
    (hsteps : rec.steps = [{ kind := kindXdata, src := idMem, dst := r, opFlags := 0x00#8 }])
    (hdst : referenceWiring.resolve r = .register r) :
    ∃ t, runRecord rec (rec.opcode :: wordBytes a) s = .next t ∧
      t.agrees ((((s.afterFetch rec.opcode 3 a).setMar a).setReg r b).afterCycles 2) ∧ t.sameMemory s := by
  have hrun : TableRun rec.steps (((s.afterFetch rec.opcode 3 a).setMar a).afterCycles 1)
      ((((s.afterFetch rec.opcode 3 a).setMar a).setReg r b).afterCycles 2) := by
    rw [hsteps]
    exact .cons (tableStep_register rfl hasFlag_zero_halt hdst (drives_memory rfl rfl rfl hread)) .nil
  exact completes_same h (((h.afterFetch ..).setMar _).afterCycles _) hrec (opens_indirect a h (.inl rfl) hrec rfl) hrun
    (State.agrees_refl _) rfl

/-- An IndirectByte record that stores a register. -/
theorem completes_store (h : s.atStart) (hwf : s.mem.wf = true) (ha : s.mem.writableAt a = true)
    (hrec : rec.OfMode .indirectByte .none)
    (hsteps : rec.steps = [{ kind := kindXdata, src := r, dst := idMem, opFlags := 0x00#8 }])
    (hsrc : referenceWiring.resolve r = .register r) :
    ∃ t, runRecord rec (rec.opcode :: wordBytes a) s = .next t ∧
      t.agrees (((s.afterFetch rec.opcode 3 a).setMar a).afterCycles 2) ∧ t.storedByte s a (s.reg r) := by
  have hrun : TableRun rec.steps (((s.afterFetch rec.opcode 3 a).setMar a).afterCycles 1)
      ((((s.afterFetch rec.opcode 3 a).setMar a).setMem (s.mem.store a (s.reg r))).afterCycles 2) := by
    rw [hsteps]
    exact .cons (tableStep_store (id := idMem) rfl hasFlag_zero_halt rfl (drives_register hsrc rfl) rfl rfl ha) .nil
  exact completes_stored h (((h.afterFetch ..).setMar _).afterCycles _) hrec (opens_indirect a h (.inl rfl) hrec rfl)
    hrun (State.agrees_refl _) hwf ha rfl

/-- An ImmediateWord record that latches its constant in an address register, its condition met. -/
theorem completes_moveWord {op : CondOp} (h : s.atStart) (hrec : rec.OfMode .immediateWord op)
    (hmet : condMet op rec.condition (s.fetchedFlags 3) = true)
    (hsteps : rec.steps = [{ kind := kindXaddr, src := idCtrl, dst := r, opFlags := 0x00#8 }])
    (hdst : referenceWiring.resolve r = .addressRegister r true) :
    ∃ t, runRecord rec (rec.opcode :: wordBytes a) s = .next t ∧
      t.agrees (((s.afterFetch rec.opcode 3 a).setAreg r a).afterCycles 1) ∧ t.sameMemory s := by
  have hrun : TableRun rec.steps (s.afterFetch rec.opcode 3 a)
      (((s.afterFetch rec.opcode 3 a).setAreg r a).afterCycles 1) := by
    rw [hsteps]
    exact .cons (tableStep_constant (id := idCtrl) rfl hasFlag_zero_halt rfl hdst rfl) .nil
  exact completes_same h (h.afterFetch ..) hrec (opens_immediateWord a h hrec hmet) hrun (State.agrees_refl _) rfl

end memory

/-- Settles O27. -/
theorem absoluteLoads : Obligations.AbsoluteLoads := by
  intro s a b h hread
  simp only [List.forall_mem_cons]
  exact ⟨completes_load (rec := movAMemRecord) h hread (Record.ofMode rfl rfl rfl) rfl rfl,
    completes_load (rec := movBMemRecord) h hread (Record.ofMode rfl rfl rfl) rfl rfl, List.forall_mem_nil _⟩

/-- Settles O28. -/
theorem absoluteStores : Obligations.AbsoluteStores := by
  intro s a h hwf ha
  simp only [List.forall_mem_cons]
  exact ⟨completes_store (rec := movMemARecord) h hwf ha (Record.ofMode rfl rfl rfl) rfl rfl,
    completes_store (rec := movMemBRecord) h hwf ha (Record.ofMode rfl rfl rfl) rfl rfl, List.forall_mem_nil _⟩

/-- Settles O29. -/
theorem immediateWordMoves : Obligations.ImmediateWordMoves := by
  intro s imm h
  simp only [List.forall_mem_cons]
  exact ⟨completes_moveWord (rec := movSpImmRecord) h (Record.ofMode rfl rfl rfl) rfl rfl rfl,
    completes_moveWord (rec := movSiImmRecord) h (Record.ofMode rfl rfl rfl) rfl rfl rfl,
    completes_moveWord (rec := movDiImmRecord) h (Record.ofMode rfl rfl rfl) rfl rfl rfl, List.forall_mem_nil _⟩

/-- Settles O30: SI goes to MAR and is incremented, then the byte at MAR is loaded. -/
theorem postIncrementLoad : Obligations.PostIncrementLoad := by
  intro s b h hread
  have hrec : movASiIncRecord.OfMode .implied .none := Record.ofMode rfl rfl rfl
  have hsi : (s.afterFetch 0x27#8 1 0x0000#16).areg idSi = s.areg idSi := afterFetch_areg_other _ _ _ _ _ (by decide)
  exact completes_same h (h.afterFetch ..) hrec (opens_implied h hrec rfl)
    (.cons (tableStep_marInc (r := idSi) (id := idMem) rfl rfl rfl rfl hsi)
      (.cons (tableStep_register (r := idA) rfl rfl rfl (drives_memory (id := idMem) rfl rfl rfl hread)) .nil))
    (State.agrees_refl _) rfl

/-- Settles O31: DI goes to MAR and is incremented, then A is stored at MAR. -/
theorem postIncrementStore : Obligations.PostIncrementStore := by
  intro s h hwf ha
  have hrec : movDiIncARecord.OfMode .implied .none := Record.ofMode rfl rfl rfl
  have hdi : (s.afterFetch 0x28#8 1 0x0000#16).areg idDi = s.areg idDi := afterFetch_areg_other _ _ _ _ _ (by decide)
  exact completes_stored h (h.afterFetch ..) hrec (opens_implied h hrec rfl)
    (.cons (tableStep_marInc (r := idDi) (id := idMem) rfl rfl rfl rfl hdi)
      (.cons (tableStep_store (id := idMem) rfl rfl rfl (drives_register (r := idA) rfl rfl) rfl rfl ha) .nil))
    (State.agrees_refl _) hwf ha rfl

/-! ### Effects of two cycles or more -/

/-- A word loaded in two halves, low byte first (R353, R379). -/
theorem setHalf_load (w : Word) (lo hi : Byte) : setHalf true (setHalf false w lo) hi = joinWord hi lo := by
  simp [setHalf]

/-! ### MOV SI,[a16] -/

section wordLoad
variable {s : State} {a : Word} {lo hi : Byte}

/-- `MOV SI,[a16]` at its first table step. -/
def State.wordLoadStart (s : State) (a : Word) : State := ((s.afterFetch 0x29#8 3 a).setMar a).afterCycles 1

/-- `MOV SI,[a16]` at its second read. -/
def State.wordLoadSecond (s : State) (a : Word) (lo : Byte) : State :=
  (((((s.afterFetch 0x29#8 3 a).setAreg idSi (setHalf false (s.areg idSi) lo)).setAreg idTx a).setMar
    (a + 1)).raiseFlags (a == 0xFFFF#16) (a == 0xFFFF#16)).afterCycles 3

theorem movSiMem_ofMode : movSiMemRecord.OfMode .indirectWord .none := Record.ofMode rfl rfl rfl

/-- The first byte goes to SI's low half; MAR goes to TX and is incremented. -/
theorem tableRun_wordLoad (hlo : s.mem.read a = some lo) :
    TableRun ([0x00AE01#24, 0x01CF02#24].map MicroStep.unpack) (s.wordLoadStart a) (s.wordLoadSecond a lo) := by
  have hsi : (s.wordLoadStart a).areg idSi = s.areg idSi := by
    rw [State.wordLoadStart, afterCycles_areg, setMar_areg, afterFetch_areg_other _ _ _ _ _ (by decide)]
  have hload := tableStep_half (m := MicroStep.unpack 0x00AE01#24) (u := s.wordLoadStart a) (r := idSi) rfl rfl rfl rfl
    (drives_memory (id := idMem) rfl rfl rfl hlo) hsi
  have hmove := tableStep_fromMarInc (m := MicroStep.unpack 0x01CF02#24) (r := idTx) (id := idMem) (w := a)
    (u := ((s.wordLoadStart a).setAreg idSi (setHalf false (s.areg idSi) lo)).afterCycles 1) rfl rfl rfl rfl rfl
  exact .cons hload (.cons hmove .nil)

end wordLoad

/-- Settles O32: SI's two halves are loaded around the increment of MAR. -/
theorem wordLoad : Obligations.WordLoad := by
  intro s a lo hi h hlo hhi
  have hsi : (s.wordLoadSecond a lo).areg idSi = setHalf false (s.areg idSi) lo := by
    simp [State.wordLoadSecond, idSi, idTx]
  have hload := tableStep_half (m := MicroStep.unpack 0x08AE01#24) (r := idSi) (msb := true) rfl rfl rfl rfl
    (drives_memory (u := s.wordLoadSecond a lo) (id := idMem) rfl rfl rfl hhi) hsi
  rw [setHalf_load] at hload
  refine completes_same h (((h.afterFetch ..).setMar _).afterCycles _) movSiMem_ofMode
    (opens_indirect a h (.inr rfl) movSiMem_ofMode rfl) ((tableRun_wordLoad hlo).append (.cons hload .nil)) ?_ rfl
  simp [State.agrees, State.wordLoadSecond, State.setAreg]

  rw [Vector.set_comm a (joinWord hi lo) (by decide), Vector.set_set]

/-! ### The stack -/

/-- Settles O33: SP goes to MAR and is decremented, then A is stored at MAR. -/
theorem pushOntoStack : Obligations.PushOntoStack := by
  intro s h hwf ha
  have hrec : pushARecord.OfMode .implied .none := Record.ofMode rfl rfl rfl
  have hsp : (s.afterFetch 0x30#8 1 0x0000#16).areg idSp = s.areg idSp := afterFetch_areg_other _ _ _ _ _ (by decide)
  exact completes_stored h (h.afterFetch ..) hrec (opens_implied h hrec rfl)
    (.cons (tableStep_marDec (r := idSp) (id := idMem) rfl rfl rfl rfl hsp)
      (.cons (tableStep_store (id := idMem) rfl rfl rfl (drives_register (r := idA) rfl rfl) rfl rfl ha) .nil))
    (State.agrees_refl _) hwf ha rfl

section pop
variable {s u : State} {w : Word}

/-- What the two steps of a pre-increment leave: SP is incremented, and MAR is the new SP. -/
def State.popped (u : State) (w : Word) : State :=
  (((u.setAreg idSp (w + 1)).setMar (w + 1)).raiseFlags (w == 0xFFFF#16) (w == 0xFFFF#16)).afterCycles 2

@[simp] theorem popped_mem : (u.popped w).mem = u.mem := rfl
@[simp] theorem popped_mar : (u.popped w).mar = w + 1 := rfl
@[simp] theorem popped_areg_sp : (u.popped w).areg idSp = w + 1 := setAreg_areg_same u idSp (w + 1)
@[simp] theorem popped_areg_other (i : Id) (h : idSp ≠ i) : (u.popped w).areg i = u.areg i :=
  setAreg_areg_other u idSp i (w + 1) h

/-- The pre-increment: SP to MAR with INC, then SP to MAR again. -/
theorem tableRun_popped (hsp : u.areg idSp = w) :
    TableRun ([0x01F902#24, 0x00F902#24].map MicroStep.unpack) u (u.popped w) := by
  have hinc := tableStep_marInc (m := MicroStep.unpack 0x01F902#24) (id := idMem) rfl rfl rfl rfl hsp
  have hsp' : ((((u.setAreg idSp (w + 1)).setMar w).raiseFlags (w == 0xFFFF#16) (w == 0xFFFF#16)).afterCycles 1).areg
      idSp = w + 1 := setAreg_areg_same u idSp (w + 1)
  have hplain := tableStep_marPlain (m := MicroStep.unpack 0x00F902#24) (id := idMem) rfl rfl rfl rfl hsp'
  exact .cons hinc (.cons hplain .nil)

end pop

/-- Settles O34: a pre-increment, then the byte at MAR is loaded. -/
theorem popFromStack : Obligations.PopFromStack := by
  intro s b h hread
  have hrec : popARecord.OfMode .implied .none := Record.ofMode rfl rfl rfl
  have hsp : (s.afterFetch 0x31#8 1 0x0000#16).areg idSp = s.areg idSp := afterFetch_areg_other _ _ _ _ _ (by decide)
  have hload := tableStep_register (m := MicroStep.unpack 0x000E01#24) (r := idA) rfl rfl rfl
    (drives_memory (u := (s.afterFetch 0x31#8 1 0x0000#16).popped (s.areg idSp)) (id := idMem) rfl rfl rfl hread)
  exact completes_same h (h.afterFetch ..) hrec (opens_implied h hrec rfl)
    ((tableRun_popped hsp).append (.cons hload .nil)) (State.agrees_refl _) rfl

/-! ### CALL and RET -/

section call
variable {s u : State} {target w : Word}

theorem callRecord_ofMode : callRecord.OfMode .immediateWord .none := Record.ofMode rfl rfl rfl

/-- `CALL` after its first push, of the return address's high byte. -/
def State.callFirst (s : State) (target : Word) : State :=
  (((((s.afterFetch 0x56#8 3 target).setAreg idSp (s.areg idSp - 1)).setMar (s.areg idSp)).raiseFlags
    (s.areg idSp == 0x0001#16) false).setMem (s.mem.store (s.areg idSp) (highByte (s.areg idPc + 3)))).afterCycles 2

theorem tableRun_callFirst (ha : s.mem.writableAt (s.areg idSp) = true) :
    TableRun ([0x02F902#24, 0x08E801#24].map MicroStep.unpack) (s.afterFetch 0x56#8 3 target) (s.callFirst target) := by
  have hsp : (s.afterFetch 0x56#8 3 target).areg idSp = s.areg idSp := afterFetch_areg_other _ _ _ _ _ (by decide)
  have hdec := tableStep_marDec (m := MicroStep.unpack 0x02F902#24) (id := idMem) rfl rfl rfl rfl hsp
  have hpc : (((((s.afterFetch 0x56#8 3 target).setAreg idSp (s.areg idSp - 1)).setMar (s.areg idSp)).raiseFlags
      (s.areg idSp == 0x0001#16) false).afterCycles 1).areg idPc = s.areg idPc + 3 :=
    (setAreg_areg_other _ _ _ _ (by decide)).trans (afterFetch_areg_pc ..)
  have hstore := tableStep_store (m := MicroStep.unpack 0x08E801#24) (id := idMem) rfl rfl rfl
    (drives_addressRegister (r := idPc) (msb := true) rfl rfl hpc) rfl rfl ha
  exact .cons hdec (.cons hstore .nil)

/-- `CALL` at its second store. -/
def State.callSecond (s : State) (target : Word) : State :=
  ((((s.callFirst target).setAreg idSp (s.areg idSp - 1 - 1)).setMar (s.areg idSp - 1)).raiseFlags
    (s.areg idSp - 1 == 0x0001#16) false).afterCycles 1

theorem tableRun_callSecond (ha : s.mem.writableAt (s.areg idSp) = true) :
    TableRun ([0x02F902#24, 0x08E801#24, 0x02F902#24].map MicroStep.unpack) (s.afterFetch 0x56#8 3 target)
      (s.callSecond target) := by
  have hsp : (s.callFirst target).areg idSp = s.areg idSp - 1 := setAreg_areg_same _ idSp _
  have hdec := tableStep_marDec (m := MicroStep.unpack 0x02F902#24) (id := idMem) rfl rfl rfl rfl hsp
  exact (tableRun_callFirst ha).append (.cons hdec .nil)

/-- A word is decremented twice through 0x0001, or from it. -/
theorem sub_one_sub_one (w : Word) : w - 1#16 - 1#16 = w - 2#16 := by bv_omega

theorem sub_one_beq_one (w : Word) : (w - 1#16 == 0x0001#16) = (w == 0x0002#16) := by
  rw [Bool.eq_iff_iff, beq_iff_eq, beq_iff_eq]
  constructor <;> intro h <;> bv_omega

end call

end Sys2Proof.Machine
end

section
/-! PROOFS. More reference instructions that complete: CALL and RET, the ALU instructions, the jumps and the I/O
instructions. -/

namespace Sys2Proof.Machine

section call
variable {s : State} {target : Word}

/-- Memory after both pushes of `CALL`. -/
def State.callMemory (s : State) : Memory :=
  (s.mem.store (s.areg idSp) (highByte (s.areg idPc + 3))).store (s.areg idSp - 1) (lowByte (s.areg idPc + 3))

theorem tableRun_call (ha : s.mem.writableAt (s.areg idSp) = true) (ha' : s.mem.writableAt (s.areg idSp - 1) = true) :
    TableRun callRecord.steps (s.afterFetch 0x56#8 3 target)
      (((((s.callSecond target).setMem s.callMemory).afterCycles 1).setAreg idPc target).afterCycles 1) := by
  have hpc : (s.callSecond target).areg idPc = s.areg idPc + 3 := by
    simp [State.callSecond, State.callFirst, show idSp ≠ idPc by decide]
  have hstore := tableStep_store (m := MicroStep.unpack 0x00E801#24) (u := s.callSecond target) (id := idMem)
    (a := s.areg idSp - 1) (mem := s.mem.store (s.areg idSp) (highByte (s.areg idPc + 3))) rfl rfl rfl
    (drives_addressRegister (r := idPc) (msb := false) rfl rfl hpc) rfl rfl ha'
  have hjump := tableStep_constant (m := MicroStep.unpack 0x008702#24) (r := idPc) (id := idCtrl) (w := target)
    (u := ((s.callSecond target).setMem s.callMemory).afterCycles 1) rfl rfl rfl rfl rfl
  exact (tableRun_callSecond ha).append (.cons hstore (.cons hjump .nil))

end call

/-- Settles O40: two pushes, of the pc's high and of its low byte, then the constant goes to the pc. -/
theorem call : Obligations.Call := by
  intro s target h hwf ha ha'
  obtain ⟨t, ht, htracks⟩ := runRecord_completes h (h.afterFetch ..)
    (opens_immediateWord target h callRecord_ofMode rfl) (tableRun_call ha ha')
    callRecord_ofMode.nonempty callRecord_ofMode.length
  have hne : s.areg idSp - 1 ≠ s.areg idSp := by bv_omega
  have hfirst : (s.callFirst target).storedByte s (s.areg idSp) (highByte (s.areg idPc + 3)) :=
    State.storedByte_of_store hwf ha rfl
  have hsecond : t.storedByte (s.callFirst target) (s.areg idSp - 1) (lowByte (s.areg idPc + 3)) :=
    State.storedByte_of_store (Memory.write_wf (Memory.write_of_writableAt _ ha) hwf) ha' htracks.mem
  refine ⟨t, ht, htracks.1.trans ?_, hsecond.1.trans hfirst.1, (hsecond.2.2 _ hne.symm).trans hfirst.2.1, hsecond.2.1,
    fun x hx hx' => (hsecond.2.2 x hx').trans (hfirst.2.2 x hx)⟩
  simp [State.agrees, State.callSecond, State.callFirst, State.setAreg, sub_one_sub_one, sub_one_beq_one,
    Bool.or_assoc]

section ret
variable {s : State} {lo hi : Byte}

theorem retRecord_ofMode : retRecord.OfMode .implied .none := Record.ofMode rfl rfl rfl

/-- `RET` after its first pop. -/
def State.retFirst (s : State) (lo : Byte) : State :=
  (((s.afterFetch 0x57#8 1 0x0000#16).popped (s.areg idSp)).setAreg idPc
    (setHalf false (s.areg idPc + 1) lo)).afterCycles 1

theorem tableRun_retFirst (hlo : s.mem.read (s.areg idSp + 1) = some lo) :
    TableRun ([0x01F902#24, 0x00F902#24, 0x008E01#24].map MicroStep.unpack) (s.afterFetch 0x57#8 1 0x0000#16)
      (s.retFirst lo) := by
  have hsp : (s.afterFetch 0x57#8 1 0x0000#16).areg idSp = s.areg idSp := afterFetch_areg_other _ _ _ _ _ (by decide)
  have hpc : ((s.afterFetch 0x57#8 1 0x0000#16).popped (s.areg idSp)).areg idPc = s.areg idPc + 1 :=
    (popped_areg_other _ (by decide)).trans (afterFetch_areg_pc ..)
  have hload := tableStep_half (m := MicroStep.unpack 0x008E01#24) (msb := false) rfl rfl rfl rfl
    (drives_memory (id := idMem) rfl rfl rfl hlo) hpc
  exact (tableRun_popped hsp).append (.cons hload .nil)

/-- `RET` at its second read. -/
def State.retSecond (s : State) (lo : Byte) : State := (s.retFirst lo).popped (s.areg idSp + 1)

theorem tableRun_retSecond (hlo : s.mem.read (s.areg idSp + 1) = some lo) :
    TableRun ([0x01F902#24, 0x00F902#24, 0x008E01#24, 0x01F902#24, 0x00F902#24].map MicroStep.unpack)
      (s.afterFetch 0x57#8 1 0x0000#16) (s.retSecond lo) := by
  have hsp : (s.retFirst lo).areg idSp = s.areg idSp + 1 :=
    (setAreg_areg_other _ _ _ _ (by decide)).trans popped_areg_sp
  exact (tableRun_retFirst hlo).append (tableRun_popped hsp)

theorem add_one_add_one (w : Word) : w + 1#16 + 1#16 = w + 2#16 := by bv_omega

theorem add_one_beq_ffff (w : Word) : (w + 1#16 == 0xFFFF#16) = (w == 0xFFFE#16) := by
  rw [Bool.eq_iff_iff, beq_iff_eq, beq_iff_eq]
  constructor <;> intro h <;> bv_omega

end ret

/-- Settles O41: two pops, of the pc's low and of its high byte. -/
theorem returnInstruction : Obligations.Return := by
  intro s lo hi h hlo hhi
  have hpc : (s.retSecond lo).areg idPc = setHalf false (s.areg idPc + 1) lo :=
    (popped_areg_other _ (by decide)).trans (setAreg_areg_same ..)
  have hhi' : s.mem.read (s.areg idSp + 1 + 1) = some hi := by
    rw [← hhi]
    exact congrArg s.mem.read (add_one_add_one _)
  have hmem : (s.retSecond lo).mem = s.mem := by simp [State.retSecond, State.retFirst]
  have hmar : (s.retSecond lo).mar = s.areg idSp + 1 + 1 := popped_mar
  have hload := tableStep_half (m := MicroStep.unpack 0x088E01#24) (msb := true) rfl rfl rfl rfl
    (drives_memory (id := idMem) rfl hmem hmar hhi') hpc
  rw [setHalf_load] at hload
  refine completes_same h (h.afterFetch ..) retRecord_ofMode (opens_implied h retRecord_ofMode rfl)
    ((tableRun_retSecond hlo).append (.cons hload .nil)) ?_ hmem
  simp [State.agrees, State.retSecond, State.retFirst, State.popped, State.setAreg, add_one_add_one, add_one_beq_ffff,
    Bool.or_assoc]
  rw [Vector.set_comm (setHalf false (s.areg idPc + 1#16) lo) (s.areg idSp + 2#16) (by decide), Vector.set_set,
    Vector.set_set]

/-! ### The ALU -/

/-- The op-flags of an ALU step: FLAGS, no HALT, and the operation code. -/
theorem aluFlags_eq (code : BitVec 4) : aluCode (0x1#4 ++ code : Byte) = code ∧
    hasFlag (0x1#4 ++ code : Byte) flagFlags = true ∧ hasFlag (0x1#4 ++ code : Byte) flagHalt = false := by
  revert code
  decide

/-- The table step that moves a byte from `src` to the ALU. -/
def aluStep (src : Id) (code : BitVec 4) : MicroStep :=
  { kind := kindXdata, src := src, dst := idAlu, opFlags := 0x1#4 ++ code }

section alu
variable {s u : State} {src : Id} {code : BitVec 4} {a b : Byte} {res : AluResult}

/-- An operation that stores, then the ALU to A. -/
theorem tableRun_aluStore (hb : Drives (aluStep src code) u b)
    (hres : aluResult code (u.reg idLhs) b u.bus.c = some res) (hstore : res.store = true) :
    TableRun [aluStep src code, MicroStep.unpack 0x000501#24] u
      ((((((u.setReg idAlu res.r).setAluOp idAlu code).writeFlags res).afterCycles 1).setReg idA res.r).afterCycles
        1) := by
  obtain ⟨hcode, hflags, hhalt⟩ := aluFlags_eq code
  have hcompute := tableStep_aluStore (m := aluStep src code) (r := idAlu) (lhs := idLhs) rfl hhalt hflags rfl hb
    (by rw [aluStep, hcode]; exact hres) hstore
  rw [aluStep, hcode] at hcompute
  have halu : ((((u.setReg idAlu res.r).setAluOp idAlu code).writeFlags res).afterCycles 1).reg idAlu = res.r :=
    setReg_reg_same u idAlu res.r
  exact .cons hcompute (.cons (tableStep_register (m := MicroStep.unpack 0x000501#24) (r := idA) rfl rfl rfl
    (drives_alu (r := idAlu) (lhs := idLhs) rfl halu)) .nil)

/-- A to the left-hand register. -/
theorem tableRun_lhs (ha : u.reg idA = a) :
    TableRun [MicroStep.unpack 0x004001#24] u ((u.setReg idLhs a).afterCycles 1) :=
  .cons (tableStep_register (m := MicroStep.unpack 0x004001#24) (r := idLhs) rfl rfl rfl
    (drives_register (r := idA) rfl ha)) .nil

/-- A to the left-hand register, an operation that stores, then the ALU to A. -/
theorem tableRun_binary (ha : u.reg idA = a) (hb : Drives (aluStep src code) ((u.setReg idLhs a).afterCycles 1) b)
    (hres : aluResult code a b u.bus.c = some res) (hstore : res.store = true) :
    TableRun [MicroStep.unpack 0x004001#24, aluStep src code, MicroStep.unpack 0x000501#24] u
      ((((((u.setReg idLhs a).setReg idAlu res.r).setAluOp idAlu code).writeFlags res).setReg idA res.r).afterCycles
        3) := by
  have hlhs : ((u.setReg idLhs a).afterCycles 1).reg idLhs = a := setReg_reg_same u idLhs a
  exact (tableRun_lhs ha).append (tableRun_aluStore hb (by rw [hlhs]; exact hres) hstore)

/-- A to the left-hand register, then the comparison. -/
theorem tableRun_compare (ha : u.reg idA = a) (hb : Drives (aluStep src code) ((u.setReg idLhs a).afterCycles 1) b)
    (hres : aluResult code a b u.bus.c = some res) (hstore : res.store = false) :
    TableRun [MicroStep.unpack 0x004001#24, aluStep src code] u
      (((((u.setReg idLhs a).setReg idAlu b).setAluOp idAlu code).writeFlags res).afterCycles 2) := by
  obtain ⟨hcode, hflags, hhalt⟩ := aluFlags_eq code
  have hlhs : ((u.setReg idLhs a).afterCycles 1).reg idLhs = a := setReg_reg_same u idLhs a
  have hcompare := tableStep_aluCompare (m := aluStep src code) (r := idAlu) (lhs := idLhs) rfl hhalt hflags rfl hb
    (by rw [aluStep, hcode, hlhs]; exact hres) hstore
  rw [aluStep, hcode] at hcompare
  exact (tableRun_lhs ha).append (.cons hcompare .nil)

/-- B as the right-hand operand, after A has gone to the left-hand register. -/
theorem drives_B (h : u.reg idB = b) : Drives (aluStep idB code) ((u.setReg idLhs a).afterCycles 1) b :=
  drives_register (r := idB) rfl ((setReg_reg_other _ _ _ _ (by decide)).trans h)

/-- An immediate as the right-hand operand, under a code without the bit that MSB shares. -/
theorem drives_immediate {imm : Byte} (hmsb : hasFlag (0x1#4 ++ code : Byte) flagMsb = false)
    (h : u.ctrl.constant = zextWord imm) :
    Drives (aluStep idCtrl code) ((u.setReg idLhs a).afterCycles 1) imm := by
  have hlow : halfByte false (zextWord imm) = imm := lowByte_joinWord 0x00#8 imm
  have hdrives := drives_constant (m := aluStep idCtrl code) (u := (u.setReg idLhs a).afterCycles 1) (c := idCtrl)
    (w := zextWord imm) rfl hmsb h
  rwa [hlow] at hdrives

/-- A storing ALU record of A and B. -/
theorem completes_binary {rec : Record} {f : Byte → Byte → Bool → AluResult} (h : s.atStart)
    (hrec : rec.OfMode .implied .none)
    (hsteps : rec.steps = [MicroStep.unpack 0x004001#24, aluStep idB code, MicroStep.unpack 0x000501#24])
    (hf : ∀ a b c, aluResult code a b c = some (f a b c)) (hstore : ∀ a b c, (f a b c).store = true) :
    let res := f (s.reg idA) (s.reg idB) (s.bus.c || s.fetchWraps 1)
    ∃ t, runRecord rec [rec.opcode] s = .next t ∧
      t.agrees (((((((s.afterFetch rec.opcode 1 0x0000#16).setReg idLhs (s.reg idA)).setReg idAlu res.r).setAluOp idAlu
        code).writeFlags res).setReg idA res.r).afterCycles 3) ∧ t.sameMemory s := by
  have hrun := tableRun_binary (u := s.afterFetch rec.opcode 1 0x0000#16) (code := code) (a := s.reg idA) rfl
    (drives_B rfl) (hf _ _ _) (hstore _ _ _)
  exact completes_same h (h.afterFetch ..) hrec (opens_implied h hrec rfl) (hsteps ▸ hrun) (State.agrees_refl _) rfl

/-- A one-operand ALU record. -/
theorem completes_unary {rec : Record} {f : Byte → Byte → Bool → AluResult} (h : s.atStart)
    (hrec : rec.OfMode .implied .none) (hsteps : rec.steps = [aluStep idA code, MicroStep.unpack 0x000501#24])
    (hf : ∀ a b c, aluResult code a b c = some (f a b c)) (hstore : ∀ a b c, (f a b c).store = true) :
    let res := f (s.reg idLhs) (s.reg idA) (s.bus.c || s.fetchWraps 1)
    ∃ t, runRecord rec [rec.opcode] s = .next t ∧
      t.agrees ((((((s.afterFetch rec.opcode 1 0x0000#16).setReg idAlu res.r).setAluOp idAlu code).writeFlags
        res).setReg idA res.r).afterCycles 2) ∧ t.sameMemory s := by
  have hrun := tableRun_aluStore (u := s.afterFetch rec.opcode 1 0x0000#16)
    (drives_register (m := aluStep idA code) (r := idA) rfl rfl) (hf _ _ _) (hstore _ _ _)
  exact completes_same h (h.afterFetch ..) hrec (opens_implied h hrec rfl) (hsteps ▸ hrun) (State.agrees_refl _) rfl

end alu

/-- Settles O35. -/
theorem aluTwoOperand : Obligations.AluTwoOperand := by
  intro s h
  simp only [List.forall_mem_cons]
  exact ⟨completes_binary (rec := addABRecord) h (Record.ofMode rfl rfl rfl) rfl (fun _ _ _ => rfl) fun _ _ _ => rfl,
    completes_binary (rec := adcABRecord) h (Record.ofMode rfl rfl rfl) rfl (fun _ _ _ => rfl) fun _ _ _ => rfl,
    completes_binary (rec := subABRecord) h (Record.ofMode rfl rfl rfl) rfl (fun _ _ _ => rfl) fun _ _ _ => rfl,
    completes_binary (rec := sbbABRecord) h (Record.ofMode rfl rfl rfl) rfl (fun _ _ _ => rfl) fun _ _ _ => rfl,
    completes_binary (rec := andABRecord) h (Record.ofMode rfl rfl rfl) rfl (fun _ _ _ => rfl) fun _ _ _ => rfl,
    completes_binary (rec := orABRecord) h (Record.ofMode rfl rfl rfl) rfl (fun _ _ _ => rfl) fun _ _ _ => rfl,
    completes_binary (rec := xorABRecord) h (Record.ofMode rfl rfl rfl) rfl (fun _ _ _ => rfl) fun _ _ _ => rfl,
    List.forall_mem_nil _⟩

/-- Settles O38. -/
theorem aluOneOperand : Obligations.AluOneOperand := by
  intro s h
  simp only [List.forall_mem_cons]
  exact ⟨completes_unary (rec := incARecord) h (Record.ofMode rfl rfl rfl) rfl (fun _ _ _ => rfl) fun _ _ _ => rfl,
    completes_unary (rec := decARecord) h (Record.ofMode rfl rfl rfl) rfl (fun _ _ _ => rfl) fun _ _ _ => rfl,
    completes_unary (rec := notARecord) h (Record.ofMode rfl rfl rfl) rfl (fun _ _ _ => rfl) fun _ _ _ => rfl,
    completes_unary (rec := shlARecord) h (Record.ofMode rfl rfl rfl) rfl (fun _ _ _ => rfl) fun _ _ _ => rfl,
    completes_unary (rec := shrARecord) h (Record.ofMode rfl rfl rfl) rfl (fun _ _ _ => rfl) fun _ _ _ => rfl,
    completes_unary (rec := clrARecord) h (Record.ofMode rfl rfl rfl) rfl (fun _ _ _ => rfl) fun _ _ _ => rfl,
    List.forall_mem_nil _⟩

/-- Settles O36: the right-hand operand is B, or the constant's low half. -/
theorem compare : Obligations.Compare := by
  refine fun s imm h => ⟨?_, ?_⟩
  · have hrec : cmpABRecord.OfMode .implied .none := Record.ofMode rfl rfl rfl
    have hrun := tableRun_compare (u := s.afterFetch 0x47#8 1 0x0000#16) (code := 0x7#4) (a := s.reg idA)
      (res := aluCmp (s.reg idA) (s.reg idB) s.bus.c) rfl (drives_B rfl) rfl rfl
    exact completes_same h (h.afterFetch ..) hrec (opens_implied h hrec rfl) hrun (State.agrees_refl _) rfl
  · have hrec : cmpAImmRecord.OfMode .immediateByte .none := Record.ofMode rfl rfl rfl
    have hrun := tableRun_compare (u := s.afterFetch 0x4F#8 2 (zextWord imm)) (code := 0x7#4) (a := s.reg idA)
      (res := aluCmp (s.reg idA) imm s.bus.c) rfl (drives_immediate (by decide) rfl) rfl rfl
    exact completes_same h (h.afterFetch ..) hrec (opens_immediateByte imm h hrec rfl) hrun (State.agrees_refl _) rfl

/-- Settles O37: the right-hand operand is the constant's low half. -/
theorem addImmediate : Obligations.AddImmediate := by
  intro s imm h
  have hrec : addAImmRecord.OfMode .immediateByte .none := Record.ofMode rfl rfl rfl
  have hrun := tableRun_binary (u := s.afterFetch 0x4E#8 2 (zextWord imm)) (code := 0x0#4) (a := s.reg idA)
    (res := aluAdd (s.reg idA) imm false) rfl (drives_immediate (by decide) rfl) rfl rfl
  have hsum : (aluAdd (s.reg idA) imm false).r = s.reg idA + imm := congrArg AluResult.r (aluAdd_eq _ _ _)
  rw [hsum] at hrun
  exact completes_same h (h.afterFetch ..) hrec (opens_immediateByte imm h hrec rfl) hrun (State.agrees_refl _) rfl

/-! ### Jumps -/

/-- An AND condition on one flag, against the flags byte (R292). -/
theorem condMet_and_flag (z c v : Bool) : condMet .and 0x01#8 (flagsByte z c v) = z ∧
    condMet .and 0x02#8 (flagsByte z c v) = c ∧ condMet .and 0x04#8 (flagsByte z c v) = v := by
  cases z <;> cases c <;> cases v <;> decide

/-- A jump, taken where its condition is met. -/
theorem completes_jump {s : State} {rec : Record} {op : CondOp} {target : Word} {taken : Bool} (h : s.atStart)
    (hrec : rec.OfMode .immediateWord op) (hsteps : rec.steps = [MicroStep.unpack 0x008702#24])
    (htaken : condMet op rec.condition (s.fetchedFlags 3) = taken) :
    ∃ t, runRecord rec (rec.opcode :: wordBytes target) s = .next t ∧
      t.agrees (if taken then ((s.afterFetch rec.opcode 3 target).setAreg idPc target).afterCycles 1
                else s.afterFetch rec.opcode 3 target) ∧ t.sameMemory s := by
  cases taken with
  | true => exact completes_moveWord h hrec htaken hsteps rfl
  | false =>
    have hdone : (runnerOf rec .immediateWord op).doneAt 4 (s.fetchedFlags 3) = true := by
      simp [Runner.doneAt, runnerOf, htaken, prologue]
    obtain ⟨t, ht, htracks⟩ := runRecord_ends h
      (ends_immediateWord_done (k := target) h (expand_of_mode hrec) (runnerOf_of rec .immediateWord op) hdone) h.2.1.1
    exact ⟨t, ht, htracks.1, State.sameMemory_of_eq htracks.2⟩

/-- Settles O39: each condition reads one flag of the byte after the operand fetch. -/
theorem jumps : Obligations.Jumps := by
  intro s target h
  obtain ⟨hz, hc, hv⟩ := condMet_and_flag (s.bus.z || s.fetchWraps 3) (s.bus.c || s.fetchWraps 3) s.bus.v
  simp only [List.forall_mem_cons]
  exact ⟨completes_jump (rec := jmpRecord) (op := .none) h (Record.ofMode rfl rfl rfl) rfl rfl,
    completes_jump (rec := jzRecord) (op := .and) h (Record.ofMode rfl rfl rfl) rfl hz,
    completes_jump (rec := jnzRecord) (op := .nand) h (Record.ofMode rfl rfl rfl) rfl
      ((condMet_nand _ _).trans (congrArg not hz)),
    completes_jump (rec := jcRecord) (op := .and) h (Record.ofMode rfl rfl rfl) rfl hc,
    completes_jump (rec := jncRecord) (op := .nand) h (Record.ofMode rfl rfl rfl) rfl
      ((condMet_nand _ _).trans (congrArg not hc)),
    completes_jump (rec := jvRecord) (op := .and) h (Record.ofMode rfl rfl rfl) rfl hv, List.forall_mem_nil _⟩

/-! ### Input and output -/

/-- Settles O42: channel 0 has an output callback, channel 1 an input callback. -/
theorem inOut : Obligations.InOut := by
  refine fun s h => ⟨?_, ?_⟩
  · have hrec : outARecord.OfMode .implied .none := Record.ofMode rfl rfl rfl
    have houtput : (s.afterFetch 0x60#8 1 0x0000#16).outputByte channelOut (s.reg idA) =
        (s.afterFetch 0x60#8 1 0x0000#16).outputIf true channelOut (s.reg idA) := by
      rw [State.outputByte, afterFetch_wiring, h.1]
      rfl
    exact completes_same h (h.afterFetch ..) hrec (opens_implied h hrec rfl)
      (.cons (houtput ▸ tableStep_output (m := MicroStep.unpack 0x080004#24) (r := idA) rfl rfl rfl rfl) .nil)
      (State.agrees_refl _) rfl
  · have hrec : inARecord.OfMode .implied .none := Record.ofMode rfl rfl rfl
    exact completes_same h (h.afterFetch ..) hrec (opens_implied h hrec rfl)
      (.cons (tableStep_input (m := MicroStep.unpack 0x001004#24) (r := idA) rfl rfl rfl rfl reference_channelIn rfl)
        .nil) (State.agrees_refl _) rfl

end Sys2Proof.Machine
end

section
/-! PROOFS. The reference instructions that end in an error of the memory bank: the table steps before the read or the
store run as in the instruction that completes, then `runRecord_traps`. -/

namespace Sys2Proof.Machine

section close
variable {rec : Record} {mode : Mode} {op : CondOp} {bytes : List Byte} {s t u v w U : State} {n : Nat} {e : Fault}
  {phase : Phase} {pre post : List MicroStep} {m : MicroStep}

/-- States that agree trap alike. -/
theorem State.trapsIn.congr (h : t.trapsIn w e phase n) (hagrees : w.agrees U) : t.trapsIn U e phase n := by
  obtain ⟨r, ht⟩ := h
  have hctrl : (w.setCtrl { w.ctrl with step := n, runner := some r }).agrees
      (U.setCtrl { U.ctrl with step := n, runner := some r }) := by
    unfold State.agrees at *
    simp_all
  exact ⟨r, ht.trans (hctrl.raise e phase idMem)⟩

/-- A record that ends in an error after table steps that store nothing. -/
theorem traps_same (h : s.atStart) (hu : u.atStart) (hrec : rec.OfMode mode op) (hopens : Opens rec bytes s u n)
    (hsplit : rec.steps = pre ++ m :: post) (hpre : TableRun pre u w) (htrap : TableTrap m w e phase)
    (hagrees : w.agrees U) (hmem : w.mem = s.mem) :
    ∃ t, runRecord rec bytes s = .next t ∧ t.sameMemory s ∧ t.trapsIn U e phase (n + pre.length + 2) := by
  obtain ⟨t, ht, htmem, htraps⟩ := runRecord_traps h hu hopens hsplit hpre htrap hrec.length
  exact ⟨t, ht, State.sameMemory_of_eq (htmem.trans hmem), htraps.congr hagrees⟩

end close

/-! ### Loads -/

section loads
variable {s : State} {rec : Record} {a : Word} {lo : Byte}

/-- An indirect record whose first table step reads an address in no range. -/
theorem traps_indirectRead {mode : Mode} {m : MicroStep} {post : List MicroStep} (h : s.atStart)
    (hrange : s.mem.rangeOf a = none) (hmode : mode = .indirectByte ∨ mode = .indirectWord)
    (hrec : rec.OfMode mode .none) (hsteps : rec.steps = m :: post) (hkind : m.kind = kindXdata)
    (hhalt : hasFlag m.opFlags flagHalt = false) (hsrc : referenceWiring.resolve m.src = .memoryData idMem) :
    ∃ t, runRecord rec (rec.opcode :: wordBytes a) s = .next t ∧ t.sameMemory s ∧
      t.trapsIn (((s.afterFetch rec.opcode 3 a).setMar a).afterCycles 1) (.invalidComponentID a) .rising 7 :=
  traps_same h (((h.afterFetch ..).setMar _).afterCycles _) hrec (opens_indirect a h hmode hrec rfl) (pre := [])
    hsteps .nil (tableTrap_read hkind hhalt hsrc rfl rfl hrange) (State.agrees_refl _) rfl

/-- A record whose first pop reads an address in no range. -/
theorem traps_pop {m : MicroStep} {post : List MicroStep} (h : s.atStart)
    (hrange : s.mem.rangeOf (s.areg idSp + 1) = none) (hrec : rec.OfMode .implied .none)
    (hsteps : rec.steps = [0x01F902#24, 0x00F902#24].map MicroStep.unpack ++ m :: post) (hkind : m.kind = kindXdata)
    (hhalt : hasFlag m.opFlags flagHalt = false) (hsrc : referenceWiring.resolve m.src = .memoryData idMem) :
    ∃ t, runRecord rec [rec.opcode] s = .next t ∧ t.sameMemory s ∧
      t.trapsIn (((((s.afterFetch rec.opcode 1 0x0000#16).setAreg idSp (s.areg idSp + 1)).setMar
        (s.areg idSp + 1)).raiseFlags (s.areg idSp == 0xFFFF#16) (s.areg idSp == 0xFFFF#16)).afterCycles 2)
        (.invalidComponentID (s.areg idSp + 1)) .rising 4 := by
  have hsp : (s.afterFetch rec.opcode 1 0x0000#16).areg idSp = s.areg idSp :=
    afterFetch_areg_other _ _ _ _ _ (by decide)
  exact traps_same h (h.afterFetch ..) hrec (opens_implied h hrec rfl) hsteps (tableRun_popped hsp)
    (tableTrap_read hkind hhalt hsrc rfl rfl hrange) (State.agrees_refl _) rfl

end loads

/-- Settles O43, read by read. -/
theorem loadTrap : Obligations.LoadTrap := by
  intro s a lo h
  refine ⟨fun hrange => ?_, fun hrange => ?_, fun hlo hrange => ?_, fun hrange => ?_, fun hlo hrange => ?_⟩
  case refine_1 =>
    simp only [List.forall_mem_cons]
    exact ⟨traps_indirectRead (rec := movAMemRecord) h hrange (.inl rfl) (Record.ofMode rfl rfl rfl) rfl rfl rfl rfl,
      traps_indirectRead (rec := movBMemRecord) h hrange (.inl rfl) (Record.ofMode rfl rfl rfl) rfl rfl rfl rfl,
      traps_indirectRead (rec := movSiMemRecord) h hrange (.inr rfl) movSiMem_ofMode rfl rfl rfl rfl,
      List.forall_mem_nil _⟩
  case refine_2 =>
    have hrec : movASiIncRecord.OfMode .implied .none := Record.ofMode rfl rfl rfl
    have hsi : (s.afterFetch 0x27#8 1 0x0000#16).areg idSi = s.areg idSi := afterFetch_areg_other _ _ _ _ _ (by decide)
    exact traps_same h (h.afterFetch ..) hrec (opens_implied h hrec rfl) (pre := [MicroStep.unpack 0x01FA02#24]) rfl
      (.cons (tableStep_marInc (r := idSi) (id := idMem) rfl rfl rfl rfl hsi) .nil)
      (tableTrap_read (m := MicroStep.unpack 0x000E01#24) rfl rfl rfl rfl rfl hrange) (State.agrees_refl _) rfl
  case refine_3 =>
    refine traps_same h (((h.afterFetch ..).setMar _).afterCycles _) movSiMem_ofMode
      (opens_indirect a h (.inr rfl) movSiMem_ofMode rfl) rfl (tableRun_wordLoad hlo)
      (tableTrap_read (m := MicroStep.unpack 0x08AE01#24) (mem := s.mem) (a := a + 1) rfl rfl rfl rfl rfl hrange) ?_ rfl
    simp [State.agrees, State.wordLoadSecond, setHalf]
  case refine_4 =>
    simp only [List.forall_mem_cons]
    exact ⟨traps_pop (rec := popARecord) h hrange (Record.ofMode rfl rfl rfl) rfl rfl rfl rfl,
      traps_pop (rec := retRecord) h hrange retRecord_ofMode rfl rfl rfl rfl, List.forall_mem_nil _⟩
  case refine_5 =>
    have hmem : (s.retSecond lo).mem = s.mem := by simp [State.retSecond, State.retFirst]
    have hmar : (s.retSecond lo).mar = s.areg idSp + 2 := popped_mar.trans (add_one_add_one _)
    refine traps_same h (h.afterFetch ..) retRecord_ofMode (opens_implied h retRecord_ofMode rfl) rfl
      (tableRun_retSecond hlo) (tableTrap_read (m := MicroStep.unpack 0x088E01#24) rfl rfl rfl hmem hmar hrange) ?_ hmem
    simp [State.agrees, State.retSecond, State.retFirst, State.popped, State.setAreg, setHalf, add_one_add_one,
      add_one_beq_ffff, Bool.or_assoc]
    rw [Vector.set_comm (joinWord (highByte (s.areg idPc + 1#16)) lo) (s.areg idSp + 2#16) (by decide), Vector.set_set]

/-! ### Stores -/

section stores
variable {s : State} {rec : Record} {a target : Word} {e : Fault}

/-- An address that takes no store, and the error of it (R85). -/
def Memory.refuses (m : Memory) (a : Word) (e : Fault) : Prop :=
  (m.rangeOf a = none ∧ e = .invalidComponentID a) ∨
  (∃ r, m.rangeOf a = some r ∧ r.writable = false ∧ e = .protectedMemory a)

theorem Memory.write_of_refuses {m : Memory} (h : m.refuses a e) (b : Byte) : m.write a b = .failed e := by
  rcases h with ⟨hrange, rfl⟩ | ⟨r, hrange, hprotected, rfl⟩
  · simp [Memory.write, hrange]
  · simp [Memory.write, hrange, hprotected]

/-- Stores elsewhere do not open an address. -/
theorem Memory.store_refuses {m : Memory} (h : m.refuses a e) (x : Word) (b : Byte) : (m.store x b).refuses a e := h

/-- An IndirectByte record that stores a register. -/
theorem traps_store {r : Id} (h : s.atStart) (ha : s.mem.refuses a e) (hrec : rec.OfMode .indirectByte .none)
    (hsteps : rec.steps = [{ kind := kindXdata, src := r, dst := idMem, opFlags := 0x00#8 }])
    (hsrc : referenceWiring.resolve r = .register r) :
    ∃ t, runRecord rec (rec.opcode :: wordBytes a) s = .next t ∧ t.sameMemory s ∧
      t.trapsIn (((s.afterFetch rec.opcode 3 a).setMar a).afterCycles 1) e .high 7 :=
  traps_same h (((h.afterFetch ..).setMar _).afterCycles _) hrec (opens_indirect a h (.inl rfl) hrec rfl) (pre := [])
    hsteps .nil (tableTrap_store rfl hasFlag_zero_halt rfl (drives_register hsrc rfl) rfl rfl
      (Memory.write_of_refuses ha _)) (State.agrees_refl _) rfl

/-- A record that begins with a push, from its prologue on. -/
theorem traps_push {mode : Mode} {op : CondOp} {bytes : List Byte} {m : MicroStep} {post : List MicroStep} {b : Byte}
    {n k : Nat} {constant : Word} (h : s.atStart) (ha : s.mem.refuses a e) (hsp : s.areg idSp = a)
    (hrec : rec.OfMode mode op) (hopens : Opens rec bytes s (s.afterFetch rec.opcode n constant) k)
    (hsteps : rec.steps = MicroStep.unpack 0x02F902#24 :: m :: post) (hkind : m.kind = kindXdata)
    (hhalt : hasFlag m.opFlags flagHalt = false) (hdst : referenceWiring.resolve m.dst = .memoryData idMem)
    (hb : Drives m (((((s.afterFetch rec.opcode n constant).setAreg idSp (a - 1)).setMar a).raiseFlags
        (a == 0x0001#16) false).afterCycles 1) b) :
    ∃ t, runRecord rec bytes s = .next t ∧ t.sameMemory s ∧
      t.trapsIn (((((s.afterFetch rec.opcode n constant).setAreg idSp (a - 1)).setMar a).raiseFlags
        (a == 0x0001#16) false).afterCycles 1) e .high (k + 3) := by
  have hsp' : (s.afterFetch rec.opcode n constant).areg idSp = a :=
    (afterFetch_areg_other _ _ _ _ _ (by decide)).trans hsp
  exact traps_same h (h.afterFetch ..) hrec hopens (pre := [MicroStep.unpack 0x02F902#24]) hsteps
    (.cons (tableStep_marDec (r := idSp) (id := idMem) rfl rfl rfl rfl hsp') .nil)
    (tableTrap_store hkind hhalt hdst hb rfl rfl (Memory.write_of_refuses ha b)) (State.agrees_refl _) rfl

end stores

/-- Settles O44, store by store; the second store of CALL follows one that is done. -/
theorem storeTrap : Obligations.StoreTrap := by
  intro s a target e h ha
  refine ⟨?_, fun hdi => ?_, fun hsp => ?_, fun hwf hfirst hsp => ?_⟩
  case refine_1 =>
    simp only [List.forall_mem_cons]
    exact ⟨traps_store (rec := movMemARecord) h ha (Record.ofMode rfl rfl rfl) rfl rfl,
      traps_store (rec := movMemBRecord) h ha (Record.ofMode rfl rfl rfl) rfl rfl, List.forall_mem_nil _⟩
  case refine_2 =>
    have hrec : movDiIncARecord.OfMode .implied .none := Record.ofMode rfl rfl rfl
    have hdi' : (s.afterFetch 0x28#8 1 0x0000#16).areg idDi = a :=
      (afterFetch_areg_other _ _ _ _ _ (by decide)).trans hdi
    exact traps_same h (h.afterFetch ..) hrec (opens_implied h hrec rfl) (pre := [MicroStep.unpack 0x01FB02#24]) rfl
      (.cons (tableStep_marInc (r := idDi) (id := idMem) rfl rfl rfl rfl hdi') .nil)
      (tableTrap_store (m := MicroStep.unpack 0x00E001#24) rfl rfl rfl (drives_register (r := idA) rfl rfl) rfl rfl
        (Memory.write_of_refuses ha _)) (State.agrees_refl _) rfl
  case refine_3 =>
    have hrec : pushARecord.OfMode .implied .none := Record.ofMode rfl rfl rfl
    simp only [List.forall_mem_cons]
    exact ⟨traps_push (m := MicroStep.unpack 0x00E001#24) h ha hsp hrec (opens_implied h hrec rfl) rfl rfl rfl rfl
        (drives_register (r := idA) rfl rfl),
      traps_push (m := MicroStep.unpack 0x08E801#24) h ha hsp callRecord_ofMode
        (opens_immediateWord target h callRecord_ofMode rfl) rfl rfl rfl rfl
        (drives_addressRegister (r := idPc) (msb := true) rfl rfl rfl), List.forall_mem_nil _⟩
  case refine_4 =>
    subst hsp
    have hpc : (s.callSecond target).areg idPc = s.areg idPc + 3 := by
      simp [State.callSecond, State.callFirst, show idSp ≠ idPc by decide]
    obtain ⟨t, ht, hmem, htraps⟩ := runRecord_traps (post := [MicroStep.unpack 0x008702#24]) h (h.afterFetch ..)
      (opens_immediateWord target h callRecord_ofMode rfl) rfl (tableRun_callSecond hfirst)
      (tableTrap_store (m := MicroStep.unpack 0x00E801#24) rfl rfl rfl
        (drives_addressRegister (r := idPc) (msb := false) rfl rfl hpc)
        (a := s.areg idSp - 1) (mem := s.mem.store (s.areg idSp) (highByte (s.areg idPc + 3))) rfl rfl
        (Memory.write_of_refuses (Memory.store_refuses ha _ _) _)) callRecord_ofMode.length
    refine ⟨t, ht, State.storedByte_of_store hwf hfirst hmem, htraps.congr ?_⟩
    simp [State.agrees, State.callSecond, State.callFirst, State.setAreg, sub_one_sub_one, sub_one_beq_one,
      Bool.or_assoc]

end Sys2Proof.Machine
end

section
/-! PROOFS. The fetches that end in an error: an opcode with no record, and a pc in no range. Such a fetch is left to
single cycles; the first one completes, the second one raises. -/

namespace Sys2Proof.Machine

/-- After the first fetch cycle: the pc advanced, MAR the old pc, fetch step 1 (R283). -/
def State.fetchedAddress (s : State) : State := s.fetching { s.ctrl with step := 1 } 1 (s.cycles + 1)

section fetch
variable {s t v : State}

/-- A machine whose pc holds no opcode with a record has no instruction at the pc. -/
theorem instructionAtPc_eq_none (h : s.atStart)
    (hop : ∀ op, s.mem.read (s.areg idPc) = some op → referenceMicrocode op = none) : s.instructionAtPc = none := by
  have hbytes : s.bytesAtPc = s.mem.readableBytes 3 (s.areg idPc) := by
    simp [State.bytesAtPc, State.pcRegister, h.resolve, h.1, idPc]
  unfold State.instructionAtPc
  cases hdecode : decodeBytes s.bytesAtPc with
  | error e => rfl
  | ok p =>
    obtain ⟨i, rest⟩ := p
    obtain ⟨-, own, hown, hsplit⟩ := bytesOf_of_decodeBytes hdecode
    obtain ⟨rec, own', hown', hrec, hhead, -⟩ := exec_of_decodeBytes hdecode
    obtain rfl := Option.some.inj (hown.symm.trans hown')
    have hread : s.mem.read (s.areg idPc) = some rec.opcode := by
      have hfirst : (s.mem.readableBytes 3 (s.areg idPc)).head? = some rec.opcode := by
        rw [← hbytes, hsplit, List.head?_append, hhead]
        rfl
      unfold Memory.readableBytes at hfirst
      cases hread : s.mem.read (s.areg idPc) with
      | none => simp [hread] at hfirst
      | some b => simpa [hread] using hfirst
    rw [hop _ hread] at hrec
    cases hrec

/-- One cycle of a ready machine. -/
theorem oneCycle_of_ready (hfault : s.fault = none) (hnmi : s.bus.nmi = false) :
    s.oneCycle = (s.cycle referenceMicrocode none).outcome := by
  rw [oneCycle_eq, guarded_of_ready s _ hfault hnmi, cycle_of_ready hfault hnmi]

/-- In a machine with no cap and not in BreakAtClock a turn that ends inside an instruction adds nothing. -/
theorem afterTurn_eq_self (hfault : t.fault = none) (hcap : t.clock.cap = none) (hmode : t.bus.runMode ≠ .breakAtClock)
    (hstep : t.ctrl.step ≠ 0) : t.afterTurn = t := by
  have hspend : t.spendCap = t := by
    rw [State.spendCap, hcap, Option.map_none, ← hcap]
    rfl
  rw [afterTurn_of_none hfault, hspend, State.breakAfter]
  cases hmode' : t.bus.runMode with
  | continuous => rfl
  | breakAtClock => exact absurd hmode' hmode
  | breakAtInstruction => simp [hstep]

/-- The first turn of such a fetch. -/
theorem step_fetchedAddress (hturning : s.turning) (h : s.atStart) (hmode : s.bus.runMode ≠ .breakAtClock)
    (hcap : s.clock.cap = none)
    (hop : ∀ op, s.mem.read (s.areg idPc) = some op → referenceMicrocode op = none) :
    ∃ t, step s = .next t ∧ t.tracks s.fetchedAddress := by
  have hperform : s.perform = s.oneCycle := by
    rw [State.perform, instructionAtPc_eq_none h hop]
    split <;> rfl
  have htracks : (s.cycle referenceMicrocode none).tracks s.fetchedAddress := by
    have hcycle := h.live.fetchFirst (mc := referenceMicrocode) (supply := none)
    obtain ⟨-, -, hstep, hrunner⟩ := h
    have hadvance (flags : Byte) : s.ctrl.advance flags = { s.ctrl with step := 1 } := by
      simp [Controller.advance, Controller.completes, hstep, hrunner]
    rwa [hadvance] at hcycle
  have hfault : (s.cycle referenceMicrocode none).fault = none := htracks.fault.trans h.2.1.1
  have hself : (s.cycle referenceMicrocode none).afterTurn = s.cycle referenceMicrocode none := by
    have hkept := keeps_cycle referenceMicrocode none s
    refine afterTurn_eq_self hfault (by rw [hkept.clock]; exact hcap) (by rw [hkept.runMode]; exact hmode) ?_
    rw [htracks.ctrl]
    exact Nat.one_ne_zero
  refine ⟨_, ?_, htracks⟩
  rw [step_of_turning hturning, hperform, oneCycle_of_ready h.2.1.1 h.2.1.2, outcome_of_none _ hfault, afterCycles_next,
    hself]

/-- Between the two fetch cycles the machine is at fetch step 1. -/
theorem live_fetchedAddress (h : s.atStart) (ht : t.tracks s.fetchedAddress) :
    Live t s.fetchedAddress (byteStep referenceWiring) :=
  ⟨ht, h.2.1.1, h.2.1.2, h.1, by simp [State.fetchedAddress, State.fetching, Controller.current, h.2.2.2]⟩

/-- The second turn of such a fetch, whose cycle raises an error: the clock is stopped. -/
theorem step_clockError {e : Fault} {n : Nat} {p : Phase} {c : Id} (hturning : s.turning) (h : s.atStart)
    (hnone : s.requestBefore (s.cycles + 2) = false) (ht : t.tracks s.fetchedAddress)
    (hfault : (t.cycle referenceMicrocode none).fault = some (.error e n p c)) :
    step t = .next (t.cycle referenceMicrocode none).clockError := by
  obtain ⟨hrunning, hhalt, hreset, hstop, hcap, -⟩ := hturning
  obtain ⟨-, -, -, -, -, -, hclock, hcycles, -, -, -, -, -, -, -, hhalt', -, -, hreset', -, -, -, -, hrequests, -⟩ :=
    ht.1
  have hnone' : t.requestBefore (t.cycles + 1) = false := by
    rw [State.requestBefore, hrequests, hcycles]
    exact hnone
  have hturning' : t.turning :=
    ⟨by rw [hclock]; exact hrunning, hhalt'.trans hhalt, hreset'.trans hreset, by rw [hclock]; exact hstop,
      by rw [hclock]; exact hcap, hnone'⟩
  have hwhole : t.wholeInstructions = false := by
    simp [State.wholeInstructions, State.canStart, Controller.atBoundary, ht.ctrl, State.fetchedAddress, State.fetching]
  rw [step_of_turning hturning', State.perform, hwhole, if_neg Bool.false_ne_true,
    oneCycle_of_ready (ht.fault.trans h.2.1.1) (ht.nmi.trans h.2.1.2), outcome_of_error _ _ _ _ _ hfault,
    afterCycles_next, afterTurn_of_fault (by rw [hfault]; rfl)]

/-- The opcode latch of an opcode with no record (R285, R382). -/
theorem Live.noMicroCode {u : State} {m : MicroStep} {mc : Microcode} {b : Byte} {c : Id} (hlive : Live t u m)
    (hkind : m.kind = kindXdata) (hhalt : hasFlag m.opFlags flagHalt = false)
    (hs : (u.resolve m.src).drivesData = true) (hb : u.sourceByte m.src (hasFlag m.opFlags flagMsb) = some b)
    (hd : u.resolve m.dst = .controller c) (hn : u.ctrl.runner = none) (hrec : mc b = none) :
    (t.cycle mc none).tracks ((u.setCtrl { u.ctrl with ir := b }).raise (.noMicroCode b) .high c) := by
  have hlatch := latchData_noMicroCode (m := m) ((hlive.tracks.resolve _).trans hd)
    ((congrArg Controller.runner hlive.tracks.ctrl).trans hn) hrec
  rw [hlive.cycle (by rw [hkind]; rfl), phases_of_high_error (placeWord_multipleLines m t)
    (placeWord_roleRefusal_none t (hkind ▸ kindXdata_ne.1) (hkind ▸ kindXdata_ne.2))
    (risingPhase_xdata hkind ((sourceByte_congr hlive.tracks hs).trans hb)) (hlive.tracks.fault.trans hlive.fault)
    ((highPhase_xdata b hkind).trans hlatch) rfl]
  have hplaced := (tracks_placed hhalt).trans hlive.tracks
  refine State.tracks.raise ?_ _ _ _
  unfold State.tracks State.agrees at hplaced ⊢
  simp_all [State.latchIr]

/-- The pc after the first fetch cycle, and MAR. -/
theorem fetchedAddress_fields (s : State) : s.fetchedAddress.areg idPc = s.areg idPc + 1 ∧
    s.fetchedAddress.mar = s.areg idPc := by
  refine ⟨fetching_areg_pc .., ?_⟩
  simp [State.fetchedAddress, State.fetching]

/-- What the error of the second fetch cycle leaves, with `op` in `ir`. -/
theorem fetch_traps {op : Byte} {e : Fault} {p : Phase} {c : Id} (hturning : s.turning) (h : s.atStart)
    (hnone : s.requestBefore (s.cycles + 2) = false) (ht : t.tracks s.fetchedAddress)
    (hcycle : (t.cycle referenceMicrocode none).tracks
      ((s.fetchedAddress.setCtrl { s.fetchedAddress.ctrl with ir := op }).raise e p c)) :
    ∃ u, step t = .next u ∧ u.fault = some (.error e (s.cycles + 1) p c) ∧ u.ctrl.ir = op ∧ u.ctrl.runner = none ∧
      u.ctrl.step = 1 ∧ u.areg idPc = s.areg idPc + 1 ∧ u.mar = s.areg idPc ∧ u.regs = s.regs ∧ u.sameMemory s ∧
      u.clock.running = false ∧ step u = .fault e := by
  obtain ⟨hpc, hmar⟩ := fetchedAddress_fields s
  have hfault := hcycle.fault
  refine ⟨_, step_clockError hturning h hnone ht hfault, hfault, congrArg Controller.ir hcycle.ctrl,
    (congrArg Controller.runner hcycle.ctrl).trans h.2.2.2, congrArg Controller.step hcycle.ctrl, ?_,
    hcycle.mar.trans hmar, hcycle.regs, State.sameMemory_of_eq hcycle.mem, rfl, step_of_stopped_error rfl hfault⟩
  exact (congrArg (fun aregs => aregs[idPc.toNat]) hcycle.aregs).trans hpc

end fetch

/-- Settles O47: the second cycle latches an opcode with no record. -/
theorem unassignedOpcodeTraps : Obligations.UnassignedOpcodeTraps := by
  intro s op hturning h hmode hcap hnone hread hop
  have hrec : referenceMicrocode op = none := by
    cases hrec : referenceMicrocode op with
    | none => rfl
    | some rec =>
      have hgroup := inOpcodeGroup_of_referenceMicrocode_eq_some hrec
      unfold InOpcodeGroup at hgroup
      omega
  obtain ⟨t, ht, htracks⟩ := step_fetchedAddress hturning h hmode hcap fun op' hread' => by
    obtain rfl := Option.some.inj (hread.symm.trans hread')
    exact hrec
  obtain ⟨hpc, hmar⟩ := fetchedAddress_fields s
  have hresolve (i : Id) : s.fetchedAddress.resolve i = referenceWiring.resolve i := h.resolve i
  have hcycle := (live_fetchedAddress h htracks).noMicroCode (mc := referenceMicrocode) (b := op) (c := idCtrl) rfl rfl
    (by rw [hresolve]; rfl) (by
      rw [State.sourceByte, hresolve]
      exact (congrArg s.mem.read hmar).trans hread) ((hresolve _).trans rfl) h.2.2.2 hrec
  obtain ⟨u, hu⟩ := fetch_traps hturning h hnone htracks hcycle
  exact ⟨t, u, ht, hu⟩

/-- Settles O48: the second cycle reads from an address in no range. -/
theorem unmappedFetchTraps : Obligations.UnmappedFetchTraps := by
  intro s hturning h hmode hcap hnone hread
  obtain ⟨t, ht, htracks⟩ := step_fetchedAddress hturning h hmode hcap fun op hread' => by
    rw [hread] at hread'
    cases hread'
  obtain ⟨hpc, hmar⟩ := fetchedAddress_fields s
  have hcycle := (live_fetchedAddress h htracks).readTrap (mc := referenceMicrocode) (id := idMem) rfl rfl
    ((h.resolve _ : s.fetchedAddress.resolve _ = _).trans rfl) ((congrArg s.mem.read hmar).trans hread)
  rw [hmar] at hcycle
  obtain ⟨u, hu⟩ := fetch_traps hturning h hnone htracks hcycle
  exact ⟨t, u, ht, hu⟩

end Sys2Proof.Machine
end

section
/-! PROOFS. Every reference instruction ends: its table steps run or raise an error of the memory bank, each in one
cycle. -/

namespace Sys2Proof.Machine

/-! ### Cycles counted -/

/-- A cycle counts one or, where it ends early, none (R179). -/
theorem cycle_cycles (mc : Microcode) (supply : Option Byte) (s : State) :
    s.cycles ≤ (s.cycle mc supply).cycles ∧ (s.cycle mc supply).cycles ≤ s.cycles + 1 := by
  have hphases (u : State) : u.cycles ≤ (u.phases mc supply).cycles ∧ (u.phases mc supply).cycles ≤ u.cycles + 1 := by
    obtain ⟨r, h⟩ | ⟨-, h⟩ | ⟨-, -, h⟩ | ⟨-, -, h⟩ := phases_cases mc supply u <;> rw [h]
    · exact ⟨Nat.le_refl _, Nat.le_succ _⟩
    all_goals simp [State.haltPhase]
  obtain ⟨-, h⟩ | ⟨-, r, h⟩ | ⟨-, -, m, -, h⟩ | ⟨-, -, h⟩ := cycle_cases mc supply s <;> rw [h]
  · exact ⟨Nat.le_refl _, Nat.le_succ _⟩
  · exact ⟨Nat.le_refl _, Nat.le_succ _⟩
  · unfold State.cycleOn
    split
    · exact hphases (s.placeWord m)
    · exact ⟨Nat.le_refl _, Nat.le_succ _⟩
  · exact hphases s

/-- A run of at most `fuel` cycles. -/
theorem runInstructionCycles_cycles (mc : Microcode) (fuel : Nat) (supplies : List (Option Byte)) (s : State) :
    s.cycles ≤ (State.runInstructionCycles mc fuel supplies s).cycles ∧
      (State.runInstructionCycles mc fuel supplies s).cycles ≤ s.cycles + fuel := by
  induction fuel generalizing supplies s with
  | zero => exact ⟨Nat.le_refl _, Nat.le_refl _⟩
  | succ fuel ih =>
    obtain ⟨hlo, hhi⟩ := cycle_cycles mc (supplies.headD none) s
    rw [State.runInstructionCycles]
    split
    · obtain ⟨hlo', hhi'⟩ := ih supplies.tail (s.cycle mc (supplies.headD none))
      omega
    · omega

/-- From the start of an instruction the first cycle is the address cycle of the fetch, which completes. -/
theorem runInstructionCycles_cycles_lt {mc : Microcode} {fuel : Nat} {supplies : List (Option Byte)} {s : State}
    (h : s.atStart) : s.cycles < (State.runInstructionCycles mc (fuel + 1) supplies s).cycles := by
  have hfirst : (s.cycle mc (supplies.headD none)).cycles = s.cycles + 1 := h.live.fetchFirst.cycles
  rw [State.runInstructionCycles]
  split
  · have := (runInstructionCycles_cycles mc fuel supplies.tail (s.cycle mc (supplies.headD none))).1
    omega
  · omega

/-! ### Table steps that run or trap -/

/-- A micro-step that in the reference wiring meets no check and no error but the memory bank's (R436, R251). -/
def stepRuns (m : MicroStep) : Bool :=
  if m.kind == kindXdata then
    !hasFlag m.opFlags flagHalt && (referenceWiring.resolve m.src).drivesData &&
      match referenceWiring.resolve m.dst with
      | .register _ => true
      | .addressRegister _ usesDataBus => usesDataBus
      | .alu _ _ => decide ((aluCode m.opFlags).toNat < 14)
      | .memoryData _ => true
      | _ => false
  else if m.kind == kindXaddr then
    !hasFlag m.opFlags flagHalt && !(hasFlag m.opFlags flagInc && hasFlag m.opFlags flagDec) &&
      match referenceWiring.resolve m.src, referenceWiring.resolve m.dst with
      | .addressRegister _ usesDataBus, .memoryAddress _ => usesDataBus
      | .memoryAddress _, .addressRegister _ usesDataBus => usesDataBus
      | .controller _, .addressRegister _ usesDataBus => usesDataBus
      | _, _ => false
  else if m.kind == kindIo then
    !hasFlag m.opFlags flagHalt &&
      match referenceWiring.resolve m.src with
      | .register _ => hasFlag m.opFlags flagMsb || (referenceWiring.channel m.dst).any (·.hasInput)
      | _ => false
  else m.kind == kindOther

/-- The reference wiring has one memory bank. -/
theorem reference_memoryData {i id : Id} (h : referenceWiring.resolve i = .memoryData id) : id = idMem := by
  have hall : ∀ i : Id, ∀ id : Id, referenceWiring.resolve i = .memoryData id → id = idMem := by decide
  exact hall i id h

/-- Codes below 0xE name an operation (R251). -/
theorem aluResult_of_lt {code : BitVec 4} (h : code.toNat < 14) (a b : Byte) (cin : Bool) :
    ∃ res, aluResult code a b cin = some res := by
  unfold aluResult
  generalize code.toNat = n at h
  interval_cases n
  all_goals exact ⟨_, rfl⟩

section runs
variable {m : MicroStep} {u : State}

/-- A source of a data transfer gives a byte, or it is the memory bank at an address in no range. -/
theorem drives_or_unmapped (hu : u.atStart) (hs : (referenceWiring.resolve m.src).drivesData = true) :
    (∃ b, Drives m u b) ∨ (referenceWiring.resolve m.src = .memoryData idMem ∧ u.mem.rangeOf u.mar = none) := by
  cases hb : u.sourceByte m.src (hasFlag m.opFlags flagMsb) with
  | some b => exact .inl ⟨b, hs, fun _ => hb⟩
  | none =>
    rw [State.sourceByte, hu.resolve] at hb
    cases hrole : referenceWiring.resolve m.src with
    | memoryData id =>
      rw [hrole] at hb
      rw [reference_memoryData hrole]
      exact .inr ⟨rfl, Memory.read_eq_none.1 hb⟩
    | _ => rw [hrole] at hb; cases hb

/-- A bus write stores at a writable address and fails elsewhere (R85). -/
theorem Memory.writableAt_or_fails (mem : Memory) (a : Word) (b : Byte) :
    mem.writableAt a = true ∨ ∃ e, mem.write a b = .failed e := by
  obtain ⟨r, hrange, hwritable, -⟩ | ⟨r, -, -, h⟩ | ⟨-, h⟩ := mem.write_cases a b
  · exact .inl (by rw [Memory.writableAt, hrange]; exact hwritable)
  · exact .inr ⟨_, h⟩
  · exact .inr ⟨_, h⟩

/-- Such a micro-step, as a table step, runs or raises an error of the memory bank. -/
theorem tableStep_or_trap (hu : u.atStart) (h : stepRuns m = true) :
    (∃ v, TableStep m u v) ∨ ∃ e phase, TableTrap m u e phase := by
  unfold stepRuns at h
  split at h
  case isTrue hkind =>
    simp only [beq_iff_eq] at hkind
    simp only [Bool.and_eq_true, Bool.not_eq_true'] at h
    obtain ⟨⟨hhalt, hsrc⟩, hdst⟩ := h
    obtain ⟨b, hb⟩ | ⟨hrole, hrange⟩ := drives_or_unmapped hu hsrc
    · cases hrole : referenceWiring.resolve m.dst with
      | register r => exact .inl ⟨_, tableStep_register hkind hhalt hrole hb⟩
      | addressRegister r usesDataBus =>
        rw [hrole] at hdst
        obtain rfl : usesDataBus = true := hdst
        exact .inl ⟨_, tableStep_half hkind hhalt rfl hrole hb rfl⟩
      | alu r lhs =>
        rw [hrole] at hdst
        obtain ⟨res, hres⟩ := aluResult_of_lt (of_decide_eq_true hdst) (u.reg lhs) b u.bus.c
        exact .inl ⟨_, tableStep_alu hkind hhalt hrole hb hres⟩
      | memoryData id =>
        obtain hwritable | ⟨e, he⟩ := u.mem.writableAt_or_fails u.mar b
        · exact .inl ⟨_, tableStep_store hkind hhalt hrole hb rfl rfl hwritable⟩
        · exact .inr ⟨e, .high, tableTrap_store hkind hhalt (by rw [hrole, reference_memoryData hrole]) hb rfl rfl he⟩
      | nothing => rw [hrole] at hdst; cases hdst
      | memoryAddress id => rw [hrole] at hdst; cases hdst
      | controller id => rw [hrole] at hdst; cases hdst
    · exact .inr ⟨_, .rising, tableTrap_read hkind hhalt hrole rfl rfl hrange⟩
  split at h
  case isTrue hkind =>
    simp only [beq_iff_eq] at hkind
    simp only [Bool.and_eq_true, Bool.not_eq_true'] at h
    obtain ⟨⟨hhalt, hboth⟩, hroles⟩ := h
    split at hroles
    case h_1 r d id hsrc hdst =>
      subst hroles
      exact .inl ⟨_, tableStep_mar hkind hhalt hsrc hdst hboth⟩
    case h_2 id r d hsrc hdst =>
      subst hroles
      exact .inl ⟨_, tableStep_fromMar hkind hhalt hsrc hdst hboth⟩
    case h_3 id r d hsrc hdst =>
      subst hroles
      exact .inl ⟨_, tableStep_constant hkind hhalt hsrc hdst rfl⟩
    case h_4 => cases hroles
  split at h
  case isTrue hkind =>
    simp only [beq_iff_eq] at hkind
    simp only [Bool.and_eq_true, Bool.not_eq_true'] at h
    obtain ⟨hhalt, hside⟩ := h
    split at hside
    case h_1 r hsrc =>
      cases hout : hasFlag m.opFlags flagMsb with
      | true => exact .inl ⟨_, tableStep_output hkind hhalt hout hsrc⟩
      | false =>
        rw [hout, Bool.false_or, Option.any_eq_true] at hside
        obtain ⟨ch, hch, hin⟩ := hside
        exact .inl ⟨_, tableStep_input hkind hhalt hout hsrc hch hin⟩
    case h_2 => cases hside
  case isFalse => exact .inl ⟨_, tableStep_other (by simpa using h)⟩

/-- Such micro-steps run through, or some of them and then one raises an error. -/
theorem tableRun_or_trap {ms : List MicroStep} (hu : u.atStart) (h : ∀ m ∈ ms, stepRuns m = true) :
    (∃ w, TableRun ms u w) ∨
    ∃ pre m post w e phase, ms = pre ++ m :: post ∧ TableRun pre u w ∧ TableTrap m w e phase := by
  induction ms generalizing u with
  | nil => exact .inl ⟨u, .nil⟩
  | cons m ms ih =>
    obtain ⟨hm, hms⟩ := List.forall_mem_cons.1 h
    obtain ⟨v, hstep⟩ | ⟨e, phase, htrap⟩ := tableStep_or_trap hu hm
    · obtain ⟨w, hrun⟩ | ⟨pre, m', post, w, e, phase, hsplit, hpre, htrap⟩ := ih ((hstep hu).1.afterCycles 1) hms
      · exact .inl ⟨w, .cons hstep hrun⟩
      · exact .inr ⟨m :: pre, m', post, w, e, phase, by rw [hsplit]; rfl, .cons hstep hpre, htrap⟩
    · exact .inr ⟨[], m, ms, u, e, phase, rfl, .nil, htrap⟩

end runs

/-! ### Every record of the reference table -/

/-- The bytes of an instruction of a mode: its opcode and its operand (R132). -/
def Mode.shapes (mode : Mode) (op : Byte) (bytes : List Byte) : Prop :=
  match mode with
  | .implied => bytes = [op]
  | .immediateByte => ∃ b, bytes = [op, b]
  | _ => ∃ a, bytes = op :: wordBytes a

/-- Every reference instruction is its record run with bytes of its mode's shape. -/
theorem exec_record {i : Instr} {bytes : List Byte} (h : bytesOf i = some bytes) :
    ∃ rec mode op, (∀ s, exec i s = runRecord rec bytes s) ∧ referenceMicrocode rec.opcode = some rec ∧
      modeOfCode rec.mode = some mode ∧ condOpOfCode rec.conditionOp = some op ∧ mode.shapes rec.opcode bytes := by
  cases i <;> cases h
  all_goals first
    | exact ⟨_, .implied, _, fun _ => rfl, rfl, rfl, rfl, rfl⟩
    | exact ⟨_, .immediateByte, _, fun _ => rfl, rfl, rfl, rfl, _, rfl⟩
    | exact ⟨_, .immediateWord, _, fun _ => rfl, rfl, rfl, rfl, _, rfl⟩
    | exact ⟨_, .indirectByte, _, fun _ => rfl, rfl, rfl, rfl, _, rfl⟩
    | exact ⟨_, .indirectWord, _, fun _ => rfl, rfl, rfl, rfl, _, rfl⟩

/-- The table steps of the reference records run; only NOP has none, and only jumps have a condition. -/
theorem reference_table {op : Byte} {rec : Record} (h : referenceMicrocode op = some rec) :
    rec.steps.all stepRuns = true ∧ rec.steps.length ≤ 24 ∧ (rec.steps ≠ [] ∨ modeOfCode rec.mode = some .implied) ∧
      (condOpOfCode rec.conditionOp = some .none ∨ modeOfCode rec.mode = some .immediateWord) := by
  unfold referenceMicrocode at h
  split at h
  all_goals cases h -- the opcode of no row has no record
  all_goals decide

section fetch
variable {s : State} {rec : Record} {mode : Mode} {op : CondOp} {bytes : List Byte}

/-- The fetch of a record goes on to its table steps, or ends the instruction. -/
theorem opens_or_ends (h : s.atStart) (hmode : modeOfCode rec.mode = some mode)
    (hop : condOpOfCode rec.conditionOp = some op) (hshape : mode.shapes rec.opcode bytes)
    (hlength : rec.steps.length ≤ 24) (hsteps : rec.steps ≠ [] ∨ mode = .implied)
    (hcond : op = .none ∨ mode = .immediateWord) :
    (rec.steps ≠ [] ∧ ∃ u n, u.atStart ∧ Opens rec bytes s u n) ∨
    ∃ w, w.atStart ∧ Ends (fun _ => some rec) Config.maxInstructionCycles (fetchSupplies bytes) s w := by
  have hrec (hne : rec.steps ≠ []) : rec.OfMode mode op := ⟨hmode, hop, hne, hlength⟩
  have hmet (flags : Byte) (hmode : mode ≠ .immediateWord) : condMet op rec.condition flags = true := by
    rw [hcond.resolve_right hmode]
    rfl
  cases mode with
  | implied =>
    obtain rfl := hshape
    by_cases hne : rec.steps = []
    · refine .inr ⟨_, h.afterFetch .., ends_implied_done h (expand_eq hmode hop hlength) ?_⟩
      simp [Runner.doneAt, runnerOf, prologue, hne]
    · exact .inl ⟨hne, _, 0, h.afterFetch .., opens_implied h (hrec hne) (hmet _ (by decide))⟩
  | immediateByte =>
    obtain ⟨b, rfl⟩ := hshape
    have hne := hsteps.resolve_right (by decide)
    exact .inl ⟨hne, _, 2, h.afterFetch .., opens_immediateByte b h (hrec hne) (hmet _ (by decide))⟩
  | immediateWord =>
    obtain ⟨a, rfl⟩ := hshape
    have hne := hsteps.resolve_right (by decide)
    cases htaken : condMet op rec.condition (s.fetchedFlags 3) with
    | true => exact .inl ⟨hne, _, 4, h.afterFetch .., opens_immediateWord a h (hrec hne) htaken⟩
    | false =>
      refine .inr ⟨_, h.afterFetch .., ends_immediateWord_done h (expand_of_mode (hrec hne))
        (runnerOf_of rec .immediateWord op) ?_⟩
      simp [Runner.doneAt, runnerOf, htaken, prologue]
  | indirectByte =>
    obtain ⟨a, rfl⟩ := hshape
    have hne := hsteps.resolve_right (by decide)
    exact .inl ⟨hne, _, 5, ((h.afterFetch ..).setMar _).afterCycles _,
      opens_indirect a h (.inl rfl) (hrec hne) (hmet _ (by decide))⟩
  | indirectWord =>
    obtain ⟨a, rfl⟩ := hshape
    have hne := hsteps.resolve_right (by decide)
    exact .inl ⟨hne, _, 5, ((h.afterFetch ..).setMar _).afterCycles _,
      opens_indirect a h (.inr rfl) (hrec hne) (hmet _ (by decide))⟩

end fetch

theorem State.tracks.atStart {t w : State} (h : t.tracks w) (hw : w.atStart) : t.atStart :=
  ⟨h.wiring.trans hw.1, ⟨h.fault.trans hw.2.1.1, h.nmi.trans hw.2.1.2⟩,
    (congrArg Controller.step h.ctrl).trans hw.2.2.1, (congrArg Controller.runner h.ctrl).trans hw.2.2.2⟩

/-- Settles O57: the fetch ends the instruction, or its table steps run through, or one of them raises an error. -/
theorem instructionEndsAtBoundary : Obligations.InstructionEndsAtBoundary := by
  intro s i bytes h hbytes
  obtain ⟨rec, mode, op, hexec, hrec, hmode, hop, hshape⟩ := exec_record hbytes
  obtain ⟨hruns, hlength, hsteps, hcond⟩ := reference_table hrec
  simp only [hmode, hop, Option.some.injEq] at hsteps hcond
  have hends : ∃ t, runRecord rec bytes s = .next t ∧ (t.fault.isSome = true ∨ t.atStart) := by
    obtain ⟨hne, u, n, hu, hopens⟩ | ⟨w, hw, hends⟩ := opens_or_ends h hmode hop hshape hlength hsteps hcond
    · obtain ⟨w, hrun⟩ | ⟨pre, m, post, w, e, phase, hsplit, hpre, htrap⟩ :=
        tableRun_or_trap hu (List.all_eq_true.1 hruns)
      · obtain ⟨t, ht, htracks⟩ := runRecord_completes h hu hopens hrun hne hlength
        exact ⟨t, ht, .inr (htracks.atStart (hrun.atStart hu))⟩
      · obtain ⟨t, ht, hmem, r, hagrees⟩ := runRecord_traps h hu hopens hsplit hpre htrap hlength
        have hfault := State.tracks.fault ⟨hagrees, hmem⟩
        exact ⟨t, ht, .inl (by rw [hfault]; rfl)⟩
    · obtain ⟨t, ht, htracks⟩ := runRecord_ends h hends hw.2.1.1
      exact ⟨t, ht, .inr (htracks.atStart hw)⟩
  obtain ⟨t, ht, hend⟩ := hends
  obtain ⟨-, -, -, hcycles⟩ := runRecord_eq_next ht
  refine ⟨t, (hexec s).trans ht, ?_, ?_, hend⟩
  · rw [hcycles]
    exact runInstructionCycles_cycles_lt h
  · rw [hcycles]
    exact (runInstructionCycles_cycles _ _ _ _).2

end Sys2Proof.Machine
end

section
/-! PROOFS. A reference instruction is the machine run cycle by cycle: while its bytes are fetched, the supplied byte
is the one memory holds at MAR, and the table is read only at the opcode latch (notes/assumptions/8.md). -/

namespace Sys2Proof.Machine

/-! ### What a cycle does not depend on -/

section congr
variable {mc mc' : Microcode} {supply : Option Byte} {s : State} {b : Byte}

/-- The high clock reads the table at an opcode latch only, under the byte on the bus (R285). -/
theorem highPhase_congr (h : s.latchesOpcode → mc s.bus.dataByte = mc' s.bus.dataByte) :
    s.highPhase mc = s.highPhase mc' := by
  unfold State.highPhase
  split
  case isTrue hx =>
    cases hrole : s.resolve s.bus.destId with
    | controller id =>
      cases hrunner : s.ctrl.runner with
      | some r => simp only [State.latchData, State.latchController, hrunner]
      | none =>
        have hrec := h ⟨by simpa using hx, ⟨id, hrole⟩, hrunner⟩
        simp only [State.latchData, State.latchController, hrunner, hrec]
    | _ => rfl
  case isFalse => rfl

theorem phases_congr (h : (s.haltPhase.risingPhase supply).latchesOpcode →
      mc (s.haltPhase.risingPhase supply).bus.dataByte = mc' (s.haltPhase.risingPhase supply).bus.dataByte) :
    s.phases mc supply = s.phases mc' supply := by
  have hhigh : (s.haltPhase.risingPhase supply).andThen (State.highPhase mc) =
      (s.haltPhase.risingPhase supply).andThen (State.highPhase mc') := by
    simp only [State.andThen, highPhase_congr h]
  simp only [State.phases, hhigh]

/-- A cycle reads the table at an opcode latch only. -/
theorem cycle_congr (hcontroller : s.wiring.hasController = true)
    (h : ∀ m, s.ctrl.current s.wiring = some m → ((s.placed m).risingPhase supply).latchesOpcode →
      mc ((s.placed m).risingPhase supply).bus.dataByte = mc' ((s.placed m).risingPhase supply).bus.dataByte) :
    s.cycle mc supply = s.cycle mc' supply := by
  have hbody : s.cycleBody mc supply = s.cycleBody mc' supply := by
    rw [State.cycleBody, State.cycleBody, if_pos hcontroller, if_pos hcontroller]
    cases hm : s.ctrl.current s.wiring with
    | none => rfl
    | some m => simp only [State.cycleOn, phases_congr (s := s.placeWord m) (h m hm)]
  simp only [State.cycle, hbody]

/-- With a runner in flight a cycle does not read the table. -/
theorem cycle_congr_of_runner (hcontroller : s.wiring.hasController = true) (hrunner : s.ctrl.runner.isSome = true) :
    s.cycle mc supply = s.cycle mc' supply := by
  refine cycle_congr hcontroller fun m _ ⟨_, _, hnone⟩ => ?_
  have hctrl : ((s.placed m).risingPhase supply).ctrl = s.ctrl := risingPhase_ctrl ..
  rw [hctrl] at hnone
  rw [hnone] at hrunner
  cases hrunner

/-- The rising edge with the byte at MAR supplied is the one that reads it. -/
theorem risingPhase_of_read (h : s.mem.read s.mar = some b) : s.risingPhase (some b) = s.risingPhase none := by
  have hdrive (role : Role) : s.driveData (some b) role = s.driveData none role := by
    cases role with
    | memoryData id => simp only [State.driveData, State.driveMemory, h]
    | _ => rfl
  simp only [State.risingPhase, hdrive]

/-- A cycle with the byte at MAR supplied is the one that reads it. -/
theorem cycle_of_read (h : s.mem.read s.mar = some b) : s.cycle mc (some b) = s.cycle mc none := by
  have hphases {u : State} (hu : u.mem.read u.mar = some b) : u.phases mc (some b) = u.phases mc none := by
    simp only [State.phases, risingPhase_of_read (s := u.haltPhase) hu]
  have hplaced (m : MicroStep) : (s.placeWord m).phases mc (some b) = (s.placeWord m).phases mc none := hphases h
  simp only [State.cycle, State.cycleBody, State.cycleOn, hphases h, hplaced]

end congr

/-! ### Runs with and without supplies -/

/-- The instruction's cycles over its own record with its bytes supplied are those over the reference table that read.
-/
def SameRun (rec : Record) (fuel : Nat) (supplies : List (Option Byte)) (t : State) : Prop :=
  State.runInstructionCycles (fun _ => some rec) fuel supplies t =
    State.runInstructionCycles referenceMicrocode fuel [] t

section run
variable {rec : Record} {fuel : Nat} {supplies : List (Option Byte)} {s t : State}

theorem sameRun_next (hcycle : t.cycle (fun _ => some rec) (supplies.headD none) = t.cycle referenceMicrocode none)
    (k : (t.cycle referenceMicrocode none).inFlight = true →
      SameRun rec fuel supplies.tail (t.cycle referenceMicrocode none)) : SameRun rec (fuel + 1) supplies t := by
  unfold SameRun
  cases hflight : (t.cycle referenceMicrocode none).inFlight with
  | true =>
    rw [runInstructionCycles_next (by rw [hcycle]; exact hflight), hcycle, k hflight,
      runInstructionCycles_next (supplies := []) hflight]
    rfl
  | false =>
    rw [runInstructionCycles_last (by rw [hcycle]; exact hflight), hcycle,
      runInstructionCycles_last (supplies := []) hflight]
    rfl

/-- A cycle leaves a runner in flight, or it ends the instruction or the run. -/
theorem runner_of_inFlight {mc : Microcode} {supply : Option Byte} (hcontroller : t.wiring.hasController = true)
    (hrunner : t.ctrl.runner.isSome = true) (hflight : (t.cycle mc supply).inFlight = true) :
    (t.cycle mc supply).ctrl.runner.isSome = true := by
  have hphases (u : State) (hu : u.ctrl = t.ctrl) (hw : u.wiring = t.wiring)
      (hflight : (u.phases mc supply).inFlight = true) : (u.phases mc supply).ctrl.runner.isSome = true := by
    have hrising : (u.haltPhase.risingPhase supply).ctrl = t.ctrl := (risingPhase_ctrl ..).trans hu
    have hlatch : ¬ (u.haltPhase.risingPhase supply).latchesOpcode := fun ⟨_, _, hnone⟩ => by
      rw [hrising] at hnone
      rw [hnone] at hrunner
      cases hrunner
    have hhigh : ((u.haltPhase.risingPhase supply).highPhase mc).ctrl.runner.isSome = true := by
      rw [highPhase_runner hlatch, hrising]
      exact hrunner
    obtain ⟨r, h⟩ | ⟨hf, h⟩ | ⟨-, hf, h⟩ | ⟨-, -, h⟩ := phases_cases mc supply u <;> rw [h] at hflight ⊢
    · simp [State.inFlight, State.refuse] at hflight
    · rw [State.inFlight, ← Option.not_isSome, hf] at hflight
      cases hflight
    · rw [State.inFlight, ← Option.not_isSome, hf] at hflight
      cases hflight
    · obtain ⟨r, hr⟩ := Option.isSome_iff_exists.1 hhigh
      have hw' : ((u.haltPhase.risingPhase supply).highPhase mc).wiring.hasController = true := by
        rw [highPhase_wiring, risingPhase_wiring]
        exact (congrArg Wiring.hasController hw).trans hcontroller
      rw [State.inFlight, countCycle_ctrl, fallingPhase_ctrl, if_pos hw'] at hflight
      rw [countCycle_ctrl, fallingPhase_ctrl, if_pos hw']
      cases hdone : r.doneAt (((u.haltPhase.risingPhase supply).highPhase mc).ctrl.step + 1 - 2)
          ((u.haltPhase.risingPhase supply).highPhase mc).bus.flagsByte with
      | true =>
        rw [advance_done hr hdone] at hflight
        simp at hflight
      | false =>
        rw [advance_next hr hdone]
        exact hhigh
  obtain ⟨-, h⟩ | ⟨-, r, h⟩ | ⟨-, -, m, -, h⟩ | ⟨-, hnone, -⟩ := cycle_cases mc supply t
  · rw [h]
    exact hrunner
  · rw [h]
    exact hrunner
  · rw [h] at hflight ⊢
    unfold State.cycleOn at hflight ⊢
    split
    case isTrue hkind =>
      rw [if_pos hkind] at hflight
      exact hphases (t.placeWord m) rfl rfl hflight
    case isFalse => exact hrunner
  · rw [hcontroller] at hnone
    cases hnone

/-- Past the operand no byte is supplied and the table is not read. -/
theorem sameRun_of_runner (hcontroller : t.wiring.hasController = true) (hrunner : t.ctrl.runner.isSome = true) :
    SameRun rec fuel [] t := by
  induction fuel generalizing t with
  | zero => rfl
  | succ fuel ih =>
    refine sameRun_next (cycle_congr_of_runner hcontroller hrunner) fun hflight => ?_
    refine ih ?_ (runner_of_inFlight hcontroller hrunner hflight)
    rw [(keeps_cycle ..).wiring]
    exact hcontroller

/-- The two cycles of an operand byte that memory holds (R287). -/
theorem sameRun_operand {c : Controller} {len n i : Nat} {b : Byte} {r : Runner} {m : MicroStep} (h : s.atStart)
    (hr : c.runner = some r) (hi : c.step = i + 2) (hlen : len < 0xFFFF)
    (hm : m = byteStep referenceWiring ∨ m = highByteStep referenceWiring)
    (m0 : r.steps[i]? = some (addressStep referenceWiring)) (m1 : r.steps[i + 1]? = some m)
    (d1 : r.doneAt (i + 1) (s.fetchedFlags (len + 1)) = false)
    (hread : s.mem.read (s.areg idPc + BitVec.ofNat 16 len) = some b)
    (k : ∀ t : State, t.tracks (s.fetching
      { c with constant := setHalf (hasFlag m.opFlags flagMsb) c.constant b, step := i + 4 } (len + 1) (n + 2)) →
      SameRun rec fuel supplies t) :
    ∀ t : State, t.tracks (s.fetching c len n) → SameRun rec (fuel + 2) (none :: some b :: supplies) t := by
  obtain ⟨hw, ⟨hf, hn⟩, -, -⟩ := h
  intro t ht
  have htw : t.wiring.hasController = true := by rw [ht.wiring]; exact congrArg Wiring.hasController hw
  have htr : t.ctrl.runner.isSome = true := by rw [ht.ctrl]; exact Option.isSome_iff_exists.2 ⟨r, hr⟩
  have f1 := Live.fetchNext (mc := referenceMicrocode) (supply := none) hlen
    ⟨ht, hf, hn, hw, by simp [State.fetching, Controller.current, hr, hi, m0]⟩
  rw [advance_next hr (by rw [hi]; exact d1), hi] at f1
  refine sameRun_next (cycle_congr_of_runner htw htr) fun _ => ?_
  generalize t.cycle referenceMicrocode none = t' at f1
  have htw' : t'.wiring.hasController = true := by rw [f1.wiring]; exact congrArg Wiring.hasController hw
  have htr' : t'.ctrl.runner.isSome = true := by rw [f1.ctrl]; exact Option.isSome_iff_exists.2 ⟨r, hr⟩
  have hread' : t'.mem.read t'.mar = some b := by rw [f1.mem, f1.mar]; exact hread
  have f2 := Live.fetchOperand (mc := referenceMicrocode) b m hm
    ⟨f1, hf, hn, hw, by simp [State.fetching, Controller.current, hr, m1]⟩ (by simp [hr])
  rw [cycle_of_read hread'] at f2
  refine sameRun_next ((cycle_congr_of_runner htw' htr').trans (cycle_of_read hread')) fun hflight => k _ ?_
  cases d2 : r.doneAt (i + 2) (s.fetchedFlags (len + 1)) with
  | true =>
    rw [advance_done (r := r) (by exact hr) (by exact d2)] at f2
    rw [f2.inFlight] at hflight
    simp [State.inFlight, State.fetching] at hflight
  | false =>
    rw [advance_next (r := r) (by exact hr) (by exact d2)] at f2
    exact f2

/-- The two fetch cycles of an opcode that memory holds (R283, R285). -/
theorem sameRun_fetch {r : Runner} {bytes : List Byte} (h : s.atStart)
    (hrec : referenceMicrocode rec.opcode = some rec) (hexp : expand referenceWiring rec rec.opcode = some r)
    (hread : s.mem.read (s.areg idPc) = some rec.opcode)
    (k : ∀ t : State, t.tracks (s.fetching
      { s.ctrl with ir := rec.opcode, constant := 0x0000#16, runner := some r, step := 2 } 1 (s.cycles + 2)) →
      SameRun rec 29 (fetchSupplies bytes) t) :
    SameRun rec Config.maxInstructionCycles (fetchSupplies (rec.opcode :: bytes)) s := by
  have hl := h.live
  obtain ⟨hw, ⟨hf, hn⟩, h1, h2⟩ := h
  have hcontroller {t : State} (ht : t.wiring = s.wiring) : t.wiring.hasController = true := by
    rw [ht]
    exact congrArg Wiring.hasController hw
  have hfirst : s.cycle (fun _ => some rec) none = s.cycle referenceMicrocode none := by
    refine cycle_congr (hcontroller rfl) fun m hm ⟨hxdata, _⟩ => ?_
    rw [hw, hl.current] at hm
    obtain rfl := Option.some.inj hm
    rw [risingPhase_bus_xdata] at hxdata
    cases hxdata
  have f1 := hl.fetchFirst (mc := referenceMicrocode) (supply := none)
  refine sameRun_next hfirst fun _ => ?_
  generalize s.cycle referenceMicrocode none = t at f1
  have hlive : Live t (s.fetching (s.ctrl.advance (s.fetchedFlags 1)) 1 (s.cycles + 1)) (byteStep referenceWiring) :=
    ⟨f1, hf, hn, hw, by simp [State.fetching, Controller.current, Controller.advance, Controller.completes, h1, h2]⟩
  have hread' : t.mem.read t.mar = some rec.opcode := by
    rw [f1.mem, f1.mar, ← hread]
    simp [State.fetching]
  have hlatch : t.cycle (fun _ => some rec) (some rec.opcode) = t.cycle referenceMicrocode none := by
    refine (cycle_congr (hcontroller f1.wiring) fun m hm _ => ?_).trans (cycle_of_read hread')
    have hm' : t.ctrl.current t.wiring = some (byteStep referenceWiring) := by
      rw [f1.ctrl, f1.wiring, ← hlive.current]
      exact congrArg _ hw
    obtain rfl := Option.some.inj (hm.symm.trans hm')
    have hsrc : t.resolve (byteStep referenceWiring).src = .memoryData idMem :=
      (hlive.tracks.resolve _).trans (congrArg (Wiring.resolve · (byteStep referenceWiring).src) hw)
    rw [risingPhase_supply (m := byteStep referenceWiring) rec.opcode rfl hsrc]
    exact hrec.symm
  have f2 := Live.fetchOpcode (mc := fun _ => some rec) (rec := rec) rec.opcode hlive
    (by simp [Controller.advance, Controller.completes, h2]) rfl hexp
  refine sameRun_next hlatch fun hflight => k _ ?_
  rw [hlatch] at f2
  cases hd : r.doneAt 0 (s.fetchedFlags 1) with
  | true =>
    rw [advance_done (r := r) rfl (by simpa [Controller.advance, Controller.completes, h1, h2] using hd)] at f2
    rw [f2.inFlight] at hflight
    simp [State.inFlight, State.fetching] at hflight
  | false =>
    rw [advance_next (r := r) rfl (by simpa [Controller.advance, Controller.completes, h1, h2] using hd)] at f2
    simpa [Controller.advance, Controller.completes, h1, h2] using f2

/-- The bytes found at an address are those that memory holds there. -/
theorem read_of_readableBytes {mem : Memory} {n k : Nat} {a : Word} {b : Byte}
    (h : (mem.readableBytes n a)[k]? = some b) : mem.read (a + BitVec.ofNat 16 k) = some b := by
  induction n generalizing a k with
  | zero => cases h
  | succ n ih =>
    unfold Memory.readableBytes at h
    cases hread : mem.read a with
    | none => simp [hread] at h
    | some b' =>
      rw [hread] at h
      cases k with
      | zero =>
        obtain rfl : b' = b := by simpa using h
        simpa using hread
      | succ k =>
        have hrest := ih (a := a + 1) (k := k) (by simpa using h)
        rw [BitVec.ofNat_add, BitVec.add_comm (BitVec.ofNat 16 k), ← BitVec.add_assoc]
        exact hrest

/-- A record's cycles with its bytes supplied are those that read them, where memory holds them at the pc. -/
theorem sameRun_of_shapes {mode : Mode} {op : CondOp} {bytes : List Byte} (h : s.atStart)
    (hrec : referenceMicrocode rec.opcode = some rec) (hmode : modeOfCode rec.mode = some mode)
    (hop : condOpOfCode rec.conditionOp = some op) (hlength : rec.steps.length ≤ 24)
    (hshape : mode.shapes rec.opcode bytes)
    (hread : ∀ k b, bytes[k]? = some b → s.mem.read (s.areg idPc + BitVec.ofNat 16 k) = some b) :
    SameRun rec Config.maxInstructionCycles (fetchSupplies bytes) s := by
  have hexp := expand_eq hmode hop hlength
  have hof := runnerOf_of rec mode op
  have hrunner {t : State} {c : Controller} {len n : Nat} (ht : t.tracks (s.fetching c len n))
      (hr : c.runner = some (runnerOf rec mode op)) : t.ctrl.runner.isSome = true := by
    rw [ht.ctrl]
    exact Option.isSome_iff_exists.2 ⟨_, hr⟩
  have hcontroller {t : State} {c : Controller} {len n : Nat} (ht : t.tracks (s.fetching c len n)) :
      t.wiring.hasController = true := by
    rw [ht.wiring]
    exact congrArg Wiring.hasController h.1
  have hopcode (rest : List Byte) (hbytes : bytes = rec.opcode :: rest) :
      s.mem.read (s.areg idPc) = some rec.opcode := by
    have hread := hread 0 rec.opcode (by rw [hbytes]; rfl)
    rwa [BitVec.add_zero] at hread
  have hword (a : Word) (hbytes : bytes = rec.opcode :: wordBytes a)
      (hmode' : mode = .immediateWord ∨ mode = .indirectByte ∨ mode = .indirectWord) :
      SameRun rec Config.maxInstructionCycles (fetchSupplies bytes) s := by
    have hlo := hread 1 (lowByte a) (by rw [hbytes]; rfl)
    have hhi := hread 2 (highByte a) (by rw [hbytes]; rfl)
    have hprologue : 4 ≤ (prologue referenceWiring mode).length := by
      rcases hmode' with rfl | rfl | rfl <;> decide
    rw [hbytes]
    refine sameRun_fetch h hrec hexp (hopcode _ hbytes) ?_
    refine sameRun_operand (i := 0) (m := byteStep referenceWiring) h rfl rfl (by norm_num) (.inl rfl)
      (by rcases hmode' with rfl | rfl | rfl <;> rfl) (by rcases hmode' with rfl | rfl | rfl <;> rfl)
      (hof.doneAt_prologue (by omega) _) hlo ?_
    refine sameRun_operand (i := 2) (m := highByteStep referenceWiring) h rfl rfl (by norm_num) (.inr rfl)
      (by rcases hmode' with rfl | rfl | rfl <;> rfl) (by rcases hmode' with rfl | rfl | rfl <;> rfl)
      (hof.doneAt_prologue (by omega) _) hhi ?_
    exact fun t ht => sameRun_of_runner (hcontroller ht) (hrunner ht rfl)
  cases mode with
  | implied =>
    obtain rfl := hshape
    exact sameRun_fetch h hrec hexp (hopcode _ rfl) fun t ht => sameRun_of_runner (hcontroller ht) (hrunner ht rfl)
  | immediateByte =>
    obtain ⟨b, rfl⟩ := hshape
    have hb := hread 1 b rfl
    refine sameRun_fetch h hrec hexp (hopcode _ rfl) ?_
    refine sameRun_operand (i := 0) (m := byteStep referenceWiring) h rfl rfl (by norm_num) (.inl rfl) rfl rfl
      (hof.doneAt_prologue (by decide) _) hb ?_
    exact fun t ht => sameRun_of_runner (hcontroller ht) (hrunner ht rfl)
  | immediateWord =>
    obtain ⟨a, hbytes⟩ := hshape
    exact hword a hbytes (.inl rfl)
  | indirectByte =>
    obtain ⟨a, hbytes⟩ := hshape
    exact hword a hbytes (.inr (.inl rfl))
  | indirectWord =>
    obtain ⟨a, hbytes⟩ := hshape
    exact hword a hbytes (.inr (.inr rfl))

end run

/-- Settles O56: the bytes that decode are those memory holds at the pc. -/
theorem instructionIsItsCycles : Obligations.InstructionIsItsCycles := by
  intro s i rest h hdecode
  obtain ⟨-, own, hown, hsplit⟩ := bytesOf_of_decodeBytes hdecode
  obtain ⟨rec, mode, op, hexec, hrec, hmode, hop, hshape⟩ := exec_record hown
  obtain ⟨-, hlength, -, -⟩ := reference_table hrec
  have hread (k : Nat) (b : Byte) (hb : own[k]? = some b) :
      s.mem.read (s.areg idPc + BitVec.ofNat 16 k) = some b := by
    obtain ⟨hk, -⟩ := List.getElem?_eq_some_iff.1 hb
    exact read_of_readableBytes (by rw [hsplit, List.getElem?_append_left hk]; exact hb)
  have hcan : s.canStart = true := by
    simp [State.canStart, h.1, Controller.atBoundary, h.2.2.1, h.2.2.2]
  rw [hexec, runRecord_of_start h.2.1.1 h.2.1.2 hcan]
  exact congrArg State.outcome (sameRun_of_shapes h hrec hmode hop hlength hshape hread)

end Sys2Proof.Machine
end
